-- ==== Sys2Proof/Word.lean ====
section
/-! DEFINITION. The words that cross the engine's boundary (rules R12, R61, R65). -/

namespace Sys2Proof

/-- A command word: 32 bits (rule R80). -/
abbrev CmdWord := BitVec 32

/-- A word of the data ports: 64 bits (rules R61, R65). -/
abbrev DataWord := BitVec 64

/-- A register number, 5 bits naming `v0` to `v31` (rule R86). -/
abbrev Reg := BitVec 5

end Sys2Proof
end

