-- ==== Sys2Proof/Config.lean ====
section
/-! DEFINITION. What is fixed when an engine is built (rule R9). Nothing of this hardware is a free
value: the spec leaves no result open. -/

namespace Sys2Proof.Config

/-- The build-time parameters of rule R9. `NREG` is not among them: the five-bit register fields fix
it at 32. -/
structure Build where
  /-- 64-bit words per prime-field element on the data ports. -/
  flimbs : Nat
  /-- 64-bit words of magnitude per scalar on the data ports. -/
  slimbs : Nat
  /-- Largest degree of one extension level. -/
  dmax : Nat
  /-- Largest coefficient count of a POLY value. -/
  polymax : Nat
deriving DecidableEq, Repr

/-- The defaults of rule R9's table. -/
def Build.standard : Build :=
  { flimbs := 6, slimbs := 72, dmax := 12, polymax := 24 }

/-- The constraints of rule R9's table. -/
abbrev Build.Legal (b : Build) : Prop :=
  1 ≤ b.flimbs ∧ 1 ≤ b.slimbs ∧ 1 ≤ b.dmax ∧ b.dmax + 1 ≤ b.polymax ∧ b.polymax ≤ 255

end Sys2Proof.Config
end

