-- ==== Sys2Proof/Syntax.lean ====
section
/-! DEFINITION. The command set: one constructor per row of the opcode table (rules R82, R87), with
the selectors and immediates as names, so that no command can carry an illegal one (rules R84, R85). -/

namespace Sys2Proof

/-- A field level: 0 is the prime field, 1 to 3 the extension levels (rules R84, R190). -/
inductive Level where
  | l0 | l1 | l2 | l3
deriving DecidableEq, Repr

/-- An extension level, 1 to 3: the selector of SETMOD and of the XF commands (rule R84). -/
inductive ExtLevel where
  | l1 | l2 | l3
deriving DecidableEq, Repr

/-- A curve slot, 0 to 2 (rules R38, R84). -/
inductive Slot where
  | c0 | c1 | c2
deriving DecidableEq, Repr

/-- A Frobenius power, 1 to 3: the `fn` immediate of FROB and EC.FROB (rule R85). -/
inductive FrobPow where
  | one | two | three
deriving DecidableEq, Repr

/-- The post-loop step of the Miller loop: the `fn` immediate of SETPAIR (rules R40, R85). -/
inductive Post where
  /-- `POST = 0`: no post-loop step. -/
  | plain
  /-- `POST = 1`: the two final lines of BN curves. -/
  | twoLines
  /-- `POST = 2`: conjugation, for a negative loop count. -/
  | conjugate
deriving DecidableEq, Repr

/-- The number of a level. -/
def Level.toNat : Level → Nat
  | .l0 => 0
  | .l1 => 1
  | .l2 => 2
  | .l3 => 3

/-- An extension level as a level. -/
abbrev ExtLevel.level : ExtLevel → Level
  | .l1 => .l1
  | .l2 => .l2
  | .l3 => .l3

/-- The level an extension level extends: level L is over level L-1 (rule R37). -/
abbrev ExtLevel.base : ExtLevel → Level
  | .l1 => .l0
  | .l2 => .l1
  | .l3 => .l2

/-- The field level of a curve slot: slot k is over level k (rule R38). -/
abbrev Slot.level : Slot → Level
  | .c0 => .l0
  | .c1 => .l1
  | .c2 => .l2

/-- The power a Frobenius immediate stands for. -/
def FrobPow.toNat : FrobPow → Nat
  | .one => 1
  | .two => 2
  | .three => 3

/-- The 43 commands of rule R87. -/
inductive Instr where
  | setp (rs1 : Reg)
  | setmod (l : ExtLevel) (rs1 : Reg)
  | setcurve (k : Slot) (rs1 rs2 : Reg)
  | settwist (rs1 rs2 : Reg)
  | setpair (post : Post) (rs1 rs2 rs3 : Reg)
  | ld (rd : Reg)
  | st (rs1 : Reg)
  | fpAdd (rd rs1 rs2 : Reg)
  | fpSub (rd rs1 rs2 : Reg)
  | fpNeg (rd rs1 : Reg)
  | fpMul (rd rs1 rs2 : Reg)
  | fpInv (rd rs1 : Reg)
  | fpDiv (rd rs1 rs2 : Reg)
  | fpExp (rd rs1 rs2 : Reg)
  | fpEq (rd rs1 rs2 : Reg)
  | xfAdd (l : ExtLevel) (rd rs1 rs2 : Reg)
  | xfSub (l : ExtLevel) (rd rs1 rs2 : Reg)
  | xfNeg (l : ExtLevel) (rd rs1 : Reg)
  | xfMul (l : ExtLevel) (rd rs1 rs2 : Reg)
  | xfInv (l : ExtLevel) (rd rs1 : Reg)
  | xfDiv (l : ExtLevel) (rd rs1 rs2 : Reg)
  | xfExp (l : ExtLevel) (rd rs1 rs2 : Reg)
  | xfEq (l : ExtLevel) (rd rs1 rs2 : Reg)
  | xfMod (l : ExtLevel) (rd rs1 : Reg)
  | lift (l : Level) (rd rs1 : Reg)
  | ecIsZero (k : Slot) (rd rs1 : Reg)
  | ecIsOnCurve (k : Slot) (rd rs1 : Reg)
  | ecAdd (k : Slot) (rd rs1 rs2 : Reg)
  | ecDbl (k : Slot) (rd rs1 : Reg)
  | ecNeg (k : Slot) (rd rs1 : Reg)
  | ecSmul (k : Slot) (rd rs1 rs2 : Reg)
  | line (k : Slot) (rd rs1 rs2 rs3 : Reg)
  | miller (rd rs1 rs2 : Reg)
  | frob (l : Level) (n : FrobPow) (rd rs1 : Reg)
  | conj (rd rs1 : Reg)
  | finalexp (rd rs1 : Reg)
  | ecFrob (k : Slot) (n : FrobPow) (rd rs1 : Reg)
  | untwist (rd rs1 : Reg)
  | twist (rd rs1 : Reg)
  | subgrpG1 (rd rs1 : Reg)
  | subgrpG2 (rd rs1 : Reg)
  | pair (rd rs1 rs2 : Reg)
  /-- `n` is the pair count, an immediate in the `rs3` field (rule R85 c). -/
  | pairchk (rd rs1 rs2 : Reg) (n : BitVec 5)
deriving DecidableEq, Repr

/-- The pseudo-command `FP.SQR` (rule R92). -/
def Instr.fpSqr (vd vs : Reg) : Instr := .fpMul vd vs vs

/-- The pseudo-command `XF.SQR` (rule R92). -/
def Instr.xfSqr (l : ExtLevel) (vd vs : Reg) : Instr := .xfMul l vd vs vs

/-- The pseudo-command `XF.MOV` (rule R92). -/
def Instr.xfMov (l : ExtLevel) (vd vs : Reg) : Instr := .lift l.level vd vs

/-- The pseudo-command `FP.MOV` (rule R92). -/
def Instr.fpMov (vd vs : Reg) : Instr := .lift .l0 vd vs

end Sys2Proof
end

