-- ==== Sys2Proof/Machine/State.lean ====
section
/-! DEFINITION. The architectural state (10_state.md), the faults, and the state after reset. -/

namespace Sys2Proof.Machine

/-- `Elem(L)` of rule R13: an integer at level 0, a list of coefficients of the level below above it,
the coefficient of `x^i` at index `i`. That every list has exactly `d_L` coefficients and every
integer lies in `[0, p)` is an invariant (rules R24, R31), stated in `Sys2Proof/Safety.lean`. -/
abbrev Elem : Level → Type
  | .l0 => Nat
  | .l1 => List Nat
  | .l2 => List (List Nat)
  | .l3 => List (List (List Nat))

/-- `Point(k)` of rule R13 over a field with elements `α`. -/
inductive Point (α : Type) where
  /-- The identity `O`, "a sentinel distinct from any affine coordinate pair" (rule R26). -/
  | identity
  /-- An affine pair. -/
  | affine (x y : α)
deriving DecidableEq, Repr

/-- A tagged value, the content of a value register (rule R21). The level of an ELEM, the base level
of a POLY and the slot of a POINT are part of the constructor's name. -/
inductive Value where
  /-- Tag EMPTY: no value (rule R22). -/
  | empty
  /-- Tag INT (rule R23). -/
  | int (n : Int)
  /-- Tag ELEM(0) (rule R24). -/
  | elem0 (a : Nat)
  /-- Tag ELEM(1) (rule R24). -/
  | elem1 (e : List Nat)
  /-- Tag ELEM(2) (rule R24). -/
  | elem2 (e : List (List Nat))
  /-- Tag ELEM(3) (rule R24). -/
  | elem3 (e : List (List (List Nat)))
  /-- Tag POLY(0), constant term first (rule R25). -/
  | poly0 (c : List Nat)
  /-- Tag POLY(1) (rule R25). -/
  | poly1 (c : List (List Nat))
  /-- Tag POLY(2) (rule R25). -/
  | poly2 (c : List (List (List Nat)))
  /-- Tag POINT(0) (rule R26). -/
  | point0 (P : Point Nat)
  /-- Tag POINT(1) (rule R26). -/
  | point1 (P : Point (List Nat))
  /-- Tag POINT(2) (rule R26). -/
  | point2 (P : Point (List (List Nat)))
  /-- Tag BOOL (rule R27). -/
  | bool (b : Bool)
deriving DecidableEq, Repr

/-- The faults of rules R300 and R307: what `STATUS.ERR` can record. Raising one is an effect of the
engine (rule R310), so a command that raises one has a next state. The reserved codes 6 and 7 are
never raised (rule R304) and have no name here. -/
inductive FaultCode where
  /-- Code 1: inverting an element that has no inverse (rule R301). -/
  | divisionByZero
  /-- Code 2: `0^0` (rule R302). -/
  | undefinedResult
  /-- Code 3: curve construction with discriminant zero (rule R303). -/
  | singularCurve
  /-- Code 4: line evaluation given an identity point (rule R305). -/
  | pointAtInfinity
  /-- Code 5: a failed subgroup check inside a pairing (rule R306). -/
  | invalidSubgroupMembership
  /-- Code 16: the word is no command (rule R89). -/
  | illegalCommand
  /-- Code 17: a source register is EMPTY (rule R28). -/
  | operandEmpty
  /-- Code 18: a source register has another tag, level or slot (rule R28). -/
  | typeMismatch
  /-- Code 19: a context the command needs is not valid (rule R41). -/
  | contextInvalid
  /-- Code 20: the context to be written is valid already (rule R35). -/
  | configLocked
  /-- Code 21: a configuration value fails its check, or CONJ with odd `K` (rule R307). -/
  | badParameter
  /-- Code 22: a loaded coefficient is not below `p`, or TWIST of a point without preimage. -/
  | operandRange
  /-- Code 23: a malformed record on `din` (rule R116). -/
  | badData
deriving DecidableEq, Repr

/-- The engine's state of operation, the fields STATE and ERR of `STATUS` (rule R42; DEDUCED, log 6). -/
inductive Mode where
  /-- STATE = 0 (READY), ERR = 0. -/
  | ready
  /-- STATE = 2 (FAULT), ERR the code of the recorded fault. -/
  | fault (code : FaultCode)
deriving DecidableEq, Repr

/-- The data of a CURVE context: `y^2 = x^3 + a*x + b` (rule R38). -/
structure CurveCtx (α : Type) where
  a : α
  b : α
deriving DecidableEq, Repr

/-- The data of TWISTCTX (rule R39). -/
structure TwistCtx where
  ux : List (List Nat)
  uy : List (List Nat)
deriving DecidableEq, Repr

/-- The data of PAIRCTX (rule R40). -/
structure PairCtx where
  r : Nat
  loopPos : Nat
  loopNeg : Nat
  post : Post
deriving DecidableEq, Repr

/-- The state of the engine and of its ports. A context is `some` exactly when its VALID bit is 1;
its data are absent while the bit is 0 (rules R35, R49, R341; DEDUCED, log 4). -/
structure State where
  /-- The build-time parameters (rule R9): arguments of the model, which nothing changes (DESIGN
  CHOICE, log 2). -/
  build : Config.Build
  /-- The value registers `v0` to `v31` (rule R21). -/
  regs : Vector Value 32
  /-- Context PRIME: `p` (rule R36). -/
  prime : Option Nat
  /-- Context EXT[1]: `m_1`; `d_1` is one less than its length (rule R37; DEDUCED, log 5). -/
  ext1 : Option (List Nat)
  /-- Context EXT[2]: `m_2` (rule R37). -/
  ext2 : Option (List (List Nat))
  /-- Context EXT[3]: `m_3` (rule R37). -/
  ext3 : Option (List (List (List Nat)))
  /-- Context CURVE[0] (rule R38). -/
  curve0 : Option (CurveCtx Nat)
  /-- Context CURVE[1] (rule R38). -/
  curve1 : Option (CurveCtx (List Nat))
  /-- Context CURVE[2] (rule R38). -/
  curve2 : Option (CurveCtx (List (List Nat)))
  /-- Context TWISTCTX (rule R39). -/
  twist : Option TwistCtx
  /-- Context PAIRCTX (rule R40). -/
  pair : Option PairCtx
  /-- `STATUS` (rule R42). -/
  mode : Mode
  /-- `FAULTCMD` (rule R43). -/
  faultCmd : BitVec 32
  /-- `CMDCNT` (rule R44). -/
  cmdCnt : BitVec 64
  /-- The command port: the words the host has presented and the engine has not accepted yet, in
  order (rules R61, R347; DESIGN CHOICE, log 1). -/
  cmd : List CmdWord
  /-- The data-in queue, oldest word first (rule R47). -/
  din : List DataWord
  /-- The data-out queue, oldest word first (rule R47). -/
  dout : List DataWord
deriving DecidableEq, Repr

/-- Why the MODEL would stop a run. There is no such reason: every fault of the engine is an effect
with a next state (rule R310), and where the spec enables no step the state stays as it is (DESIGN
CHOICE, logs 3 and 14). -/
inductive Fault where
deriving DecidableEq, Repr

/-- Why the model would give a command no meaning. -/
inductive Refusal where
  /-- Raised by an arm of `exec` whose command has no meaning yet (safe). No arm is one. -/
  | notModelled (mnemonic : String)
deriving DecidableEq, Repr

/-- The state after reset of an engine built with the parameters `b` (rules R49, R340). -/
def State.resetWith (b : Config.Build) : State :=
  { build := b
    regs := Vector.replicate 32 .empty
    prime := none
    ext1 := none
    ext2 := none
    ext3 := none
    curve0 := none
    curve1 := none
    curve2 := none
    twist := none
    pair := none
    mode := .ready
    faultCmd := 0
    cmdCnt := 0
    cmd := []
    din := []
    dout := [] }

/-- The machine right after reset, with the default parameters of rule R9. -/
def State.reset : State := State.resetWith Config.Build.standard

end Sys2Proof.Machine
end

