-- ==== Sys2Proof/Machine/Field.lean ====
section
/-! DEFINITION. The field functions of one level: the prime field (41_primefield.md), an extension of
any level (42_extensionfield.md), written once for every level (rule R191), and the functions that
serve every level. A function that can raise a fault returns `Except FaultCode`. -/

namespace Sys2Proof.Machine

/-- The field functions of one level (rule R14). `div` and `exp` are the same text at every level
(`FieldOps.div`, `FieldOps.exp`). -/
structure FieldOps (α : Type) where
  zero : α
  one : α
  /-- `ofint`: an integer of any sign as an element (rules R146, R192). -/
  ofInt : Int → α
  add : α → α → α
  sub : α → α → α
  neg : α → α
  mul : α → α → Except FaultCode α
  inv : α → Except FaultCode α
  eq : α → α → Bool
  isZero : α → Bool

/-! ### Integers -/

/-- `bitlen` of rule R11. -/
def bitLen (n : Nat) : Nat := if n = 0 then 0 else n.log2 + 1

/-! ### Level 0 -/

/-- `x mod p`, the residue in `[0, p)` (rule R11). -/
def residue (p : Nat) (x : Int) : Nat := (x % (p : Int)).toNat

/-- `add_0` (rule R141). -/
def fpAdd (p a b : Nat) : Nat := (a + b) % p

/-- `sub_0` (rule R141). -/
def fpSub (p a b : Nat) : Nat := residue p ((a : Int) - (b : Int))

/-- `neg_0` (rule R141). -/
def fpNeg (p a : Nat) : Nat := residue p (0 - (a : Int))

/-- `mul_0` (rule R142). -/
def fpMul (p a b : Nat) : Nat := (a * b) % p

/-- The loop of rule R143, with the number of rounds bounded by `fuel`; it gives the last `r0` and
`s0`. A bound above the first `r1` is never reached (`euclid_fuel`; DEDUCED, log 7). -/
def euclid : (fuel r0 r1 : Nat) → (s0 s1 : Int) → Nat × Int
  | 0, r0, _, s0, _ => (r0, s0)
  | n + 1, r0, r1, s0, s1 =>
    if r1 = 0 then (r0, s0)
    else euclid n r1 (r0 - r0 / r1 * r1) s1 (s0 - (r0 / r1 : Nat) * s1)

/-- `inv_0` (rule R143). -/
def fpInv (p a : Nat) : Except FaultCode Nat :=
  if a = 0 then .error .divisionByZero
  else
    let g := euclid (a + 1) p a 0 1
    if g.1 ≠ 1 then .error .divisionByZero else .ok (residue p g.2)

/-- The prime field (rules R140 to R146). -/
def fpOps (p : Nat) : FieldOps Nat :=
  { zero := 0
    one := 1
    ofInt := residue p
    add := fpAdd p
    sub := fpSub p
    neg := fpNeg p
    mul := fun a b => .ok (fpMul p a b)
    inv := fpInv p
    eq := fun a b => a == b
    isZero := fun a => a == 0 }

/-! ### Functions that are the same text at every level -/

variable {α : Type}

/-- `div` (rules R144, R172). -/
def FieldOps.div (F : FieldOps α) (a b : α) : Except FaultCode α := do
  let c ← F.inv b
  F.mul a c

/-- The square-and-multiply loop of rule R145 over the bits below `i`, the highest first. -/
def expLoop (F : FieldOps α) (base : α) (e : Nat) : (i : Nat) → (acc : α) → Except FaultCode α
  | 0, acc => .ok acc
  | i + 1, acc => do
    let sq ← F.mul acc acc
    let acc ← if e.testBit i then F.mul sq base else .ok sq
    expLoop F base e i acc

/-- `exp` (rules R145, R173): `UndefinedResult` is tested before the inversion (rule R315). -/
def FieldOps.exp (F : FieldOps α) (base : α) (e : Int) : Except FaultCode α :=
  if F.isZero base ∧ e = 0 then .error .undefinedResult
  else do
    let base ← if e < 0 then F.inv base else .ok base
    expLoop F base e.natAbs (bitLen e.natAbs) F.one

/-! ### Polynomials over a level

Lists of coefficients, constant term first (rule R13). -/

/-- `deg` of rule R13: the largest index of a nonzero coefficient; `none` stands for `-1`. -/
def polyDeg (F : FieldOps α) : List α → Option Nat
  | [] => none
  | x :: xs =>
    match polyDeg F xs with
    | some n => some (n + 1)
    | none => if F.isZero x then none else some 0

/-- `c` with zeros added at the high end up to `n` coefficients. -/
def padTo (F : FieldOps α) (n : Nat) (c : List α) : List α :=
  c ++ List.replicate (n - c.length) F.zero

/-- `r` with `r[off + j]` replaced by `f r[off + j] row[j]` for every `j`. -/
def combineAt (f : α → α → α) : (off : Nat) → (r row : List α) → List α
  | _, [], _ => []
  | 0, c :: cs, x :: xs => f c x :: combineAt f 0 cs xs
  | 0, c :: cs, [] => c :: cs
  | n + 1, c :: cs, row => c :: combineAt f n cs row

/-- The loop of rule R161 for the quotient coefficients below `k`, the highest first: `i = dm + k`. -/
def divLoop (F : FieldOps α) (lcinv : α) (m : List α) (dm : Nat) :
    (k : Nat) → (q r : List α) → Except FaultCode (List α × List α)
  | 0, q, r => .ok (q, r)
  | k + 1, q, r =>
    let ri := r.getD (dm + k) F.zero
    if F.isZero ri then divLoop F lcinv m dm k q r
    else do
      let t ← F.mul ri lcinv
      let row ← (m.take (dm + 1)).mapM (F.mul t)
      divLoop F lcinv m dm k (q.set k t) (combineAt F.sub k r row)

/-- `polydivmod` (rule R161): quotient and remainder, the remainder with `deg m` coefficients. A zero
divisor, which no rule divides by, has no invertible leading coefficient (DEDUCED, log 11). -/
def polyDivMod (F : FieldOps α) (a m : List α) : Except FaultCode (List α × List α) :=
  match polyDeg F m with
  | none => .error .divisionByZero
  | some dm => do
    let lcinv ← F.inv (m.getD dm F.zero)
    let qr ← divLoop F lcinv m dm (a.length - dm)
      (List.replicate (max (a.length - dm) 1) F.zero) a
    .ok (qr.1, padTo F dm (qr.2.take dm))

/-- `polymod` (rule R162): the remainder by `m`, with exactly `m.length - 1` coefficients. -/
def polyMod (F : FieldOps α) (m a : List α) : Except FaultCode (List α) := do
  let qr ← polyDivMod F a m
  .ok (padTo F (m.length - 1) qr.2)

/-- The rows of the schoolbook product, added into `c`: `i` is the index of the next `a[i]`. -/
def mulRows (F : FieldOps α) (b : List α) :
    (a : List α) → (i : Nat) → (c : List α) → Except FaultCode (List α)
  | [], _, c => .ok c
  | x :: xs, i, c => do
    let row ← b.mapM (F.mul x)
    mulRows F b xs (i + 1) (combineAt F.add i c row)

/-- `polymulraw` (rule R170). -/
def polyMulRaw (F : FieldOps α) (a b : List α) : Except FaultCode (List α) :=
  mulRows F b a 0 (List.replicate (a.length + b.length - 1) F.zero)

/-- `polysub` (rule R171): the shorter operand padded with zeros. -/
def polySub (F : FieldOps α) (a b : List α) : List α :=
  List.zipWith F.sub (padTo F (max a.length b.length) a) (padTo F (max a.length b.length) b)

/-- The loop of rule R171, with the number of rounds bounded by `fuel`; it gives the last `r0` and
`t0`. Every round makes `r1` shorter than the degree of the one before, so a bound above the length
of the first `r1` is never reached (`polyEuclid_fuel`; DEDUCED, log 7). -/
def polyEuclid (F : FieldOps α) :
    (fuel : Nat) → (r0 r1 t0 t1 : List α) → Except FaultCode (List α × List α)
  | 0, r0, _, t0, _ => .ok (r0, t0)
  | n + 1, r0, r1, t0, t1 =>
    match polyDeg F r1 with
    | none => .ok (r0, t0)
    | some _ => do
      let qr ← polyDivMod F r0 r1
      let prod ← polyMulRaw F qr.1 t1
      polyEuclid F n r1 qr.2 t1 (polySub F t0 prod)

/-! ### An extension of a level -/

/-- `mul_L` (rule R170). -/
def extMul (F : FieldOps α) (m a b : List α) : Except FaultCode (List α) := do
  let c ← polyMulRaw F a b
  polyMod F m c

/-- `inv_L` (rule R171). -/
def extInv (F : FieldOps α) (m a : List α) : Except FaultCode (List α) :=
  if a.all F.isZero then .error .divisionByZero
  else do
    let rt ← polyEuclid F (a.length + 1) m a [F.zero] [F.one]
    if polyDeg F rt.1 ≠ some 0 then .error .divisionByZero
    else do
      let g ← F.inv (rt.1.getD 0 F.zero)
      let t ← rt.2.mapM (fun x => F.mul x g)
      polyMod F m t

/-- An element of the level below as an element of the extension by `m` (rule R192). -/
def extLift (F : FieldOps α) (m : List α) (e : α) : List α :=
  e :: List.replicate (m.length - 1 - 1) F.zero

/-- `eq_L` (rule R174). -/
def extEq (F : FieldOps α) (a b : List α) : Bool := (List.zipWith F.eq a b).all id

/-- The extension of a level by the modulus `m` (rules R160 to R174). -/
def extOps (F : FieldOps α) (m : List α) : FieldOps (List α) :=
  { zero := List.replicate (m.length - 1) F.zero
    one := extLift F m F.one
    ofInt := fun n => extLift F m (F.ofInt n)
    add := List.zipWith F.add
    sub := List.zipWith F.sub
    neg := List.map F.neg
    mul := extMul F m
    inv := extInv F m
    eq := extEq F
    isZero := fun a => a.all F.isZero }

end Sys2Proof.Machine
end

