-- ==== Sys2Proof/Machine/Curve.lean ====
section
/-! DEFINITION. The group law of one curve over one field (44_curve.md) and the line function (rule
R230), written once for every slot. -/

namespace Sys2Proof.Machine

variable {α : Type}

/-- `4*a^3 + 27*b^2` (rules R38, R113). -/
def discriminant (F : FieldOps α) (a b : α) : Except FaultCode α := do
  let aa ← F.mul a a
  let aaa ← F.mul aa a
  let l ← F.mul (F.ofInt 4) aaa
  let bb ← F.mul b b
  let r ← F.mul (F.ofInt 27) bb
  .ok (F.add l r)

/-- `is_zero` (rule R201). -/
def Point.isIdentity : Point α → Bool
  | .identity => true
  | .affine _ _ => false

/-- `on_curve` (rule R202); the identity counts as on the curve. -/
def onCurve (F : FieldOps α) (E : CurveCtx α) : Point α → Except FaultCode Bool
  | .identity => .ok true
  | .affine x y => do
    let lhs ← F.mul y y
    let xx ← F.mul x x
    let xxx ← F.mul xx x
    let ax ← F.mul E.a x
    .ok (F.eq lhs (F.add (F.add xxx ax) E.b))

/-- `slope` of two affine points (rule R203): the tangent when they are equal, the chord otherwise. -/
def slope (F : FieldOps α) (E : CurveCtx α) (x1 y1 x2 y2 : α) : Except FaultCode α :=
  if F.eq x1 x2 && F.eq y1 y2 then do
    let xx ← F.mul x1 x1
    let xx3 ← F.mul (F.ofInt 3) xx
    let den ← F.mul (F.ofInt 2) y1
    F.div (F.add xx3 E.a) den
  else F.div (F.sub y2 y1) (F.sub x2 x1)

/-- `add_E` (rule R204). -/
def pointAdd (F : FieldOps α) (E : CurveCtx α) : Point α → Point α → Except FaultCode (Point α)
  | .identity, Q => .ok Q
  | P, .identity => .ok P
  | .affine x1 y1, .affine x2 y2 =>
    if F.eq x1 x2 && !F.eq y1 y2 then .ok .identity
    else do
      let m ← slope F E x1 y1 x2 y2
      let mm ← F.mul m m
      let x3 := F.sub (F.sub mm x1) x2
      let t ← F.mul m (F.sub x1 x3)
      .ok (.affine x3 (F.sub t y1))

/-- `neg_E` (rule R205). -/
def pointNeg (F : FieldOps α) : Point α → Point α
  | .identity => .identity
  | .affine x y => .affine x (F.neg y)

/-- `gadd` (rule R207): the complete group law, where doubling a point with `y = 0` gives `O`. -/
def pointAddComplete (F : FieldOps α) (E : CurveCtx α) :
    Point α → Point α → Except FaultCode (Point α)
  | .affine x1 y1, .affine x2 y2 =>
    if F.eq x1 x2 && F.eq y1 y2 && F.isZero y1 then .ok .identity
    else pointAdd F E (.affine x1 y1) (.affine x2 y2)
  | P, Q => pointAdd F E P Q

/-- The double-and-add loop of rules R206 and R207 over the bits of `n` below `i`, the highest first,
with the addition `add`. -/
def scalarLoop (add : Point α → Point α → Except FaultCode (Point α)) (P : Point α) (n : Nat) :
    (i : Nat) → (R : Point α) → Except FaultCode (Point α)
  | 0, R => .ok R
  | i + 1, R => do
    let D ← add R R
    let R ← if n.testBit i then add D P else .ok D
    scalarLoop add P n i R

/-- `smul` (rule R206). -/
def pointMul (F : FieldOps α) (E : CurveCtx α) (P : Point α) (n : Int) :
    Except FaultCode (Point α) :=
  scalarLoop (pointAdd F E) (if n < 0 then pointNeg F P else P) n.natAbs (bitLen n.natAbs) .identity

/-- `gmul` (rule R207). -/
def pointMulComplete (F : FieldOps α) (E : CurveCtx α) (P : Point α) (n : Nat) :
    Except FaultCode (Point α) :=
  scalarLoop (pointAddComplete F E) P n (bitLen n) .identity

/-- `insub` (rule R262): the identity, or on the curve and killed by `r`. -/
def inSubgroup (F : FieldOps α) (E : CurveCtx α) (r : Nat) (P : Point α) :
    Except FaultCode Bool :=
  match P with
  | .identity => .ok true
  | .affine x y => do
    let on ← onCurve F E (.affine x y)
    if on then do
      let R ← pointMulComplete F E (.affine x y) r
      .ok R.isIdentity
    else .ok false

/-- `line` (rule R230): the line through `P` and `Q` evaluated at `T`. -/
def lineValue (F : FieldOps α) (E : CurveCtx α) : Point α → Point α → Point α → Except FaultCode α
  | .affine x1 y1, .affine x2 y2, .affine xT yT =>
    if F.eq x1 x2 && !F.eq y1 y2 then .ok (F.sub xT x1)
    else do
      let m ← slope F E x1 y1 x2 y2
      let t ← F.mul m (F.sub xT x1)
      .ok (F.sub (F.sub yT y1) t)
  | _, _, _ => .error .pointAtInfinity

/-- `frob(a, n)` (rule R250): the power `a^(p^n)`. -/
def frobenius (F : FieldOps α) (p : Nat) (a : α) (n : Nat) : Except FaultCode α :=
  F.exp a ((p ^ n : Nat) : Int)

/-- `frobpoint` (rule R257). -/
def frobPoint (F : FieldOps α) (p : Nat) (P : Point α) (n : Nat) : Except FaultCode (Point α) :=
  match P with
  | .identity => .ok .identity
  | .affine x y => do
    let x' ← frobenius F p x n
    let y' ← frobenius F p y n
    .ok (.affine x' y')

end Sys2Proof.Machine
end

