-- ==== Sys2Proof/WellFormed.lean ====
section
/-! DEFINITION. Which terms of `Instr` are commands. The selectors and immediates of `Instr` are
legal by their types; what is left is the register runs of PAIRCHK (rules R85 c, R88). -/

namespace Sys2Proof

/-- PAIRCHK's two runs of `n` registers end at `v31` at the latest (rule R85 c). -/
abbrev RunsFit (rs1 rs2 : Reg) (n : BitVec 5) : Prop :=
  rs1.toNat + n.toNat ≤ 32 ∧ rs2.toNat + n.toNat ≤ 32

/-- A well-formed command: one that `encode` writes as a word that `decode` accepts. -/
def Instr.wellFormed : Instr → Bool
  | .setp _ => true
  | .setmod _ _ => true
  | .setcurve _ _ _ => true
  | .settwist _ _ => true
  | .setpair _ _ _ _ => true
  | .ld _ => true
  | .st _ => true
  | .fpAdd _ _ _ => true
  | .fpSub _ _ _ => true
  | .fpNeg _ _ => true
  | .fpMul _ _ _ => true
  | .fpInv _ _ => true
  | .fpDiv _ _ _ => true
  | .fpExp _ _ _ => true
  | .fpEq _ _ _ => true
  | .xfAdd _ _ _ _ => true
  | .xfSub _ _ _ _ => true
  | .xfNeg _ _ _ => true
  | .xfMul _ _ _ _ => true
  | .xfInv _ _ _ => true
  | .xfDiv _ _ _ _ => true
  | .xfExp _ _ _ _ => true
  | .xfEq _ _ _ _ => true
  | .xfMod _ _ _ => true
  | .lift _ _ _ => true
  | .ecIsZero _ _ _ => true
  | .ecIsOnCurve _ _ _ => true
  | .ecAdd _ _ _ _ => true
  | .ecDbl _ _ _ => true
  | .ecNeg _ _ _ => true
  | .ecSmul _ _ _ _ => true
  | .line _ _ _ _ _ => true
  | .miller _ _ _ => true
  | .frob _ _ _ _ => true
  | .conj _ _ => true
  | .finalexp _ _ => true
  | .ecFrob _ _ _ _ => true
  | .untwist _ _ => true
  | .twist _ _ => true
  | .subgrpG1 _ _ => true
  | .subgrpG2 _ _ => true
  | .pair _ _ _ => true
  | .pairchk _ rs1 rs2 n => decide (RunsFit rs1 rs2 n)

end Sys2Proof
end

