-- ==== Sys2Proof/Decode.lean ====
section
/-! DEFINITION. Command words: fields (rule R81), formats (rule R82), the decoder, total on every
32-bit word and reading no state (rule R88), and the encoder. -/

namespace Sys2Proof

/-- Why a word is no command (rules R83, R85, R88, R89). Each of these is the engine's
`IllegalCommand`; the name says which test of rule R88 failed. -/
inductive DecodeError where
  /-- The opcode is not in the table of rule R87. -/
  | unassignedOpcode
  /-- The `sel` field is not legal for the opcode. -/
  | illegalSel
  /-- The `fn` field is not legal for the opcode. -/
  | illegalFn
  /-- A register field the format does not use is not zero. -/
  | nonzeroUnused
  /-- PAIRCHK with a register run past `v31`. -/
  | runPastV31
deriving DecidableEq, Repr

/-- The fields of a command word (rule R81). -/
structure Fields where
  op : BitVec 8
  sel : BitVec 2
  fn : BitVec 2
  rs3 : Reg
  rs2 : Reg
  rs1 : Reg
  rd : Reg
deriving DecidableEq, Repr

/-- The fields of a command word, at the places rule R81 gives them. -/
def fieldsOf (w : CmdWord) : Fields :=
  { op := w.extractLsb' 24 8
    sel := w.extractLsb' 22 2
    fn := w.extractLsb' 20 2
    rs3 := w.extractLsb' 15 5
    rs2 := w.extractLsb' 10 5
    rs1 := w.extractLsb' 5 5
    rd := w.extractLsb' 0 5 }

/-- The word with the given fields (rule R81), most significant field first. -/
def mkWord (op : BitVec 8) (sel fn : BitVec 2) (rs3 rs2 rs1 rd : Reg) : CmdWord :=
  op ++ sel ++ fn ++ rs3 ++ rs2 ++ rs1 ++ rd

/-- The formats of rule R82. -/
inductive Format where
  | S1 | S1L | S2 | S2L | S3F | D | R1 | R2 | R1L | R2L | R3L | R1LF | R2N
deriving DecidableEq, Repr

/-- The register fields a format does not use, which must be zero (rules R82, R83). `sel` and `fn`
are tested on their own. -/
def unusedRegs (f : Fields) : Format → List Reg
  | .S1 | .S1L => [f.rd, f.rs2, f.rs3]
  | .S2 | .S2L => [f.rd, f.rs3]
  | .S3F => [f.rd]
  | .D => [f.rs1, f.rs2, f.rs3]
  | .R1 | .R1L | .R1LF => [f.rs2, f.rs3]
  | .R2 | .R2L => [f.rs3]
  | .R3L | .R2N => []

/-- A selector that must be zero (rule R84, last sentence). -/
def noSel (b : BitVec 2) : Option Unit := if b = 0 then some () else none

/-- An `fn` field that must be zero (rule R83). -/
def noFn (b : BitVec 2) : Option Unit := if b = 0 then some () else none

/-- `sel` as a field level (rule R84). -/
def Level.ofBits (b : BitVec 2) : Option Level :=
  if b = 0 then some .l0 else if b = 1 then some .l1 else if b = 2 then some .l2 else some .l3

/-- `sel` as an extension level: 0 is illegal (rule R84). -/
def ExtLevel.ofBits (b : BitVec 2) : Option ExtLevel :=
  if b = 0 then none else if b = 1 then some .l1 else if b = 2 then some .l2 else some .l3

/-- `sel` as a curve slot: 3 is illegal (rule R84). -/
def Slot.ofBits (b : BitVec 2) : Option Slot :=
  if b = 0 then some .c0 else if b = 1 then some .c1 else if b = 2 then some .c2 else none

/-- `fn` as a Frobenius power: 0 is illegal (rule R85 a). -/
def FrobPow.ofBits (b : BitVec 2) : Option FrobPow :=
  if b = 0 then none else if b = 1 then some .one else if b = 2 then some .two else some .three

/-- `fn` as `POST`: 3 is illegal (rule R85 b). -/
def Post.ofBits (b : BitVec 2) : Option Post :=
  if b = 0 then some .plain else if b = 1 then some .twoLines
  else if b = 2 then some .conjugate else none

/-- The `sel` field of a level. -/
def Level.bits : Level → BitVec 2
  | .l0 => 0
  | .l1 => 1
  | .l2 => 2
  | .l3 => 3

/-- The `sel` field of an extension level. -/
def ExtLevel.bits : ExtLevel → BitVec 2
  | .l1 => 1
  | .l2 => 2
  | .l3 => 3

/-- The `sel` field of a curve slot. -/
def Slot.bits : Slot → BitVec 2
  | .c0 => 0
  | .c1 => 1
  | .c2 => 2

/-- The `fn` field of a Frobenius power. -/
def FrobPow.bits : FrobPow → BitVec 2
  | .one => 1
  | .two => 2
  | .three => 3

/-- The `fn` field of a post-loop step. -/
def Post.bits : Post → BitVec 2
  | .plain => 0
  | .twoLines => 1
  | .conjugate => 2

/-- The tests rule R88 makes after the opcode, in its order: `sel`, `fn`, unused fields. -/
def accept {α β : Type} (f : Fields) (fmt : Format) (sel : BitVec 2 → Option α)
    (fn : BitVec 2 → Option β) (mk : α → β → Instr) : Except DecodeError Instr :=
  match sel f.sel with
  | none => .error .illegalSel
  | some a =>
    match fn f.fn with
    | none => .error .illegalFn
    | some b =>
      if (unusedRegs f fmt).all (fun r => r == 0) then .ok (mk a b) else .error .nonzeroUnused

/-- The opcode map of rule R87, a row an arm. -/
def decodeFields (f : Fields) : Except DecodeError Instr :=
  match f.op.toNat with
  | 0x01 => accept f .S1 noSel noFn fun _ _ => .setp f.rs1
  | 0x02 => accept f .S1L ExtLevel.ofBits noFn fun l _ => .setmod l f.rs1
  | 0x03 => accept f .S2L Slot.ofBits noFn fun k _ => .setcurve k f.rs1 f.rs2
  | 0x04 => accept f .S2 noSel noFn fun _ _ => .settwist f.rs1 f.rs2
  | 0x05 => accept f .S3F noSel Post.ofBits fun _ post => .setpair post f.rs1 f.rs2 f.rs3
  | 0x08 => accept f .D noSel noFn fun _ _ => .ld f.rd
  | 0x09 => accept f .S1 noSel noFn fun _ _ => .st f.rs1
  | 0x10 => accept f .R2 noSel noFn fun _ _ => .fpAdd f.rd f.rs1 f.rs2
  | 0x11 => accept f .R2 noSel noFn fun _ _ => .fpSub f.rd f.rs1 f.rs2
  | 0x12 => accept f .R1 noSel noFn fun _ _ => .fpNeg f.rd f.rs1
  | 0x13 => accept f .R2 noSel noFn fun _ _ => .fpMul f.rd f.rs1 f.rs2
  | 0x14 => accept f .R1 noSel noFn fun _ _ => .fpInv f.rd f.rs1
  | 0x15 => accept f .R2 noSel noFn fun _ _ => .fpDiv f.rd f.rs1 f.rs2
  | 0x16 => accept f .R2 noSel noFn fun _ _ => .fpExp f.rd f.rs1 f.rs2
  | 0x17 => accept f .R2 noSel noFn fun _ _ => .fpEq f.rd f.rs1 f.rs2
  | 0x20 => accept f .R2L ExtLevel.ofBits noFn fun l _ => .xfAdd l f.rd f.rs1 f.rs2
  | 0x21 => accept f .R2L ExtLevel.ofBits noFn fun l _ => .xfSub l f.rd f.rs1 f.rs2
  | 0x22 => accept f .R1L ExtLevel.ofBits noFn fun l _ => .xfNeg l f.rd f.rs1
  | 0x23 => accept f .R2L ExtLevel.ofBits noFn fun l _ => .xfMul l f.rd f.rs1 f.rs2
  | 0x24 => accept f .R1L ExtLevel.ofBits noFn fun l _ => .xfInv l f.rd f.rs1
  | 0x25 => accept f .R2L ExtLevel.ofBits noFn fun l _ => .xfDiv l f.rd f.rs1 f.rs2
  | 0x26 => accept f .R2L ExtLevel.ofBits noFn fun l _ => .xfExp l f.rd f.rs1 f.rs2
  | 0x27 => accept f .R2L ExtLevel.ofBits noFn fun l _ => .xfEq l f.rd f.rs1 f.rs2
  | 0x28 => accept f .R1L ExtLevel.ofBits noFn fun l _ => .xfMod l f.rd f.rs1
  | 0x29 => accept f .R1L Level.ofBits noFn fun l _ => .lift l f.rd f.rs1
  | 0x30 => accept f .R1L Slot.ofBits noFn fun k _ => .ecIsZero k f.rd f.rs1
  | 0x31 => accept f .R1L Slot.ofBits noFn fun k _ => .ecIsOnCurve k f.rd f.rs1
  | 0x32 => accept f .R2L Slot.ofBits noFn fun k _ => .ecAdd k f.rd f.rs1 f.rs2
  | 0x33 => accept f .R1L Slot.ofBits noFn fun k _ => .ecDbl k f.rd f.rs1
  | 0x34 => accept f .R1L Slot.ofBits noFn fun k _ => .ecNeg k f.rd f.rs1
  | 0x35 => accept f .R2L Slot.ofBits noFn fun k _ => .ecSmul k f.rd f.rs1 f.rs2
  | 0x40 => accept f .R3L Slot.ofBits noFn fun k _ => .line k f.rd f.rs1 f.rs2 f.rs3
  | 0x41 => accept f .R2 noSel noFn fun _ _ => .miller f.rd f.rs1 f.rs2
  | 0x50 => accept f .R1LF Level.ofBits FrobPow.ofBits fun l n => .frob l n f.rd f.rs1
  | 0x51 => accept f .R1 noSel noFn fun _ _ => .conj f.rd f.rs1
  | 0x52 => accept f .R1 noSel noFn fun _ _ => .finalexp f.rd f.rs1
  | 0x53 => accept f .R1LF Slot.ofBits FrobPow.ofBits fun k n => .ecFrob k n f.rd f.rs1
  | 0x54 => accept f .R1 noSel noFn fun _ _ => .untwist f.rd f.rs1
  | 0x55 => accept f .R1 noSel noFn fun _ _ => .twist f.rd f.rs1
  | 0x56 => accept f .R1 noSel noFn fun _ _ => .subgrpG1 f.rd f.rs1
  | 0x57 => accept f .R1 noSel noFn fun _ _ => .subgrpG2 f.rd f.rs1
  | 0x58 => accept f .R2 noSel noFn fun _ _ => .pair f.rd f.rs1 f.rs2
  | 0x59 => (accept f .R2N noSel noFn fun _ _ => .pairchk f.rd f.rs1 f.rs2 f.rs3).bind
      fun i => if RunsFit f.rs1 f.rs2 f.rs3 then .ok i else .error .runPastV31
  | _ => .error .unassignedOpcode

/-- The decoder of rule R88. -/
def decode (w : CmdWord) : Except DecodeError Instr := decodeFields (fieldsOf w)

/-- The word of a command (rules R81, R82, R87): unused fields are zero (rule R83). -/
def encode : Instr → CmdWord
  | .setp rs1 => mkWord 0x01 0 0 0 0 rs1 0
  | .setmod l rs1 => mkWord 0x02 l.bits 0 0 0 rs1 0
  | .setcurve k rs1 rs2 => mkWord 0x03 k.bits 0 0 rs2 rs1 0
  | .settwist rs1 rs2 => mkWord 0x04 0 0 0 rs2 rs1 0
  | .setpair post rs1 rs2 rs3 => mkWord 0x05 0 post.bits rs3 rs2 rs1 0
  | .ld rd => mkWord 0x08 0 0 0 0 0 rd
  | .st rs1 => mkWord 0x09 0 0 0 0 rs1 0
  | .fpAdd rd rs1 rs2 => mkWord 0x10 0 0 0 rs2 rs1 rd
  | .fpSub rd rs1 rs2 => mkWord 0x11 0 0 0 rs2 rs1 rd
  | .fpNeg rd rs1 => mkWord 0x12 0 0 0 0 rs1 rd
  | .fpMul rd rs1 rs2 => mkWord 0x13 0 0 0 rs2 rs1 rd
  | .fpInv rd rs1 => mkWord 0x14 0 0 0 0 rs1 rd
  | .fpDiv rd rs1 rs2 => mkWord 0x15 0 0 0 rs2 rs1 rd
  | .fpExp rd rs1 rs2 => mkWord 0x16 0 0 0 rs2 rs1 rd
  | .fpEq rd rs1 rs2 => mkWord 0x17 0 0 0 rs2 rs1 rd
  | .xfAdd l rd rs1 rs2 => mkWord 0x20 l.bits 0 0 rs2 rs1 rd
  | .xfSub l rd rs1 rs2 => mkWord 0x21 l.bits 0 0 rs2 rs1 rd
  | .xfNeg l rd rs1 => mkWord 0x22 l.bits 0 0 0 rs1 rd
  | .xfMul l rd rs1 rs2 => mkWord 0x23 l.bits 0 0 rs2 rs1 rd
  | .xfInv l rd rs1 => mkWord 0x24 l.bits 0 0 0 rs1 rd
  | .xfDiv l rd rs1 rs2 => mkWord 0x25 l.bits 0 0 rs2 rs1 rd
  | .xfExp l rd rs1 rs2 => mkWord 0x26 l.bits 0 0 rs2 rs1 rd
  | .xfEq l rd rs1 rs2 => mkWord 0x27 l.bits 0 0 rs2 rs1 rd
  | .xfMod l rd rs1 => mkWord 0x28 l.bits 0 0 0 rs1 rd
  | .lift l rd rs1 => mkWord 0x29 l.bits 0 0 0 rs1 rd
  | .ecIsZero k rd rs1 => mkWord 0x30 k.bits 0 0 0 rs1 rd
  | .ecIsOnCurve k rd rs1 => mkWord 0x31 k.bits 0 0 0 rs1 rd
  | .ecAdd k rd rs1 rs2 => mkWord 0x32 k.bits 0 0 rs2 rs1 rd
  | .ecDbl k rd rs1 => mkWord 0x33 k.bits 0 0 0 rs1 rd
  | .ecNeg k rd rs1 => mkWord 0x34 k.bits 0 0 0 rs1 rd
  | .ecSmul k rd rs1 rs2 => mkWord 0x35 k.bits 0 0 rs2 rs1 rd
  | .line k rd rs1 rs2 rs3 => mkWord 0x40 k.bits 0 rs3 rs2 rs1 rd
  | .miller rd rs1 rs2 => mkWord 0x41 0 0 0 rs2 rs1 rd
  | .frob l n rd rs1 => mkWord 0x50 l.bits n.bits 0 0 rs1 rd
  | .conj rd rs1 => mkWord 0x51 0 0 0 0 rs1 rd
  | .finalexp rd rs1 => mkWord 0x52 0 0 0 0 rs1 rd
  | .ecFrob k n rd rs1 => mkWord 0x53 k.bits n.bits 0 0 rs1 rd
  | .untwist rd rs1 => mkWord 0x54 0 0 0 0 rs1 rd
  | .twist rd rs1 => mkWord 0x55 0 0 0 0 rs1 rd
  | .subgrpG1 rd rs1 => mkWord 0x56 0 0 0 0 rs1 rd
  | .subgrpG2 rd rs1 => mkWord 0x57 0 0 0 0 rs1 rd
  | .pair rd rs1 rs2 => mkWord 0x58 0 0 0 rs2 rs1 rd
  | .pairchk rd rs1 rs2 n => mkWord 0x59 0 0 n rs2 rs1 rd

/-- The command the decoder reads from an opcode-table word. Every command is one 32-bit word
(rule R80), which is an integer and has no byte order (rule R65). -/
def decodeTableWord (nbits w : Nat) : Option Instr :=
  match decode (BitVec.ofNat 32 (w % 2 ^ nbits)) with
  | .ok i => some i
  | .error _ => none

end Sys2Proof
end

