-- ==== Sys2Proof/Machine/Ops.lean ====
section
/-! DEFINITION. The named operations over the state: value registers, the command port, completing a
command and taking a fault (rules R110, R310), the field levels, and the host's actions (rule R320). -/

namespace Sys2Proof.Machine

/-! ### Value registers -/

/-- `v[i]` (rule R15). -/
def State.reg (s : State) (r : Reg) : Value := s.regs[r.toNat]'(r.isLt)

/-- `v[i] <- val` (rules R15, R29). -/
def State.setReg (s : State) (r : Reg) (v : Value) : State :=
  { s with regs := s.regs.set r.toNat v r.isLt }

/-! ### The end of a command -/

/-- Step 8 of rule R110, after the destination is written: `CMDCNT` counts the command (rule R44), and
its word has left the command port. -/
def State.complete (s : State) : State :=
  { s with cmdCnt := s.cmdCnt + 1, cmd := s.cmd.tail }

/-- Fault entry (rules R308, R310): the engine stops in the FAULT state with the code and the command
word recorded. Nothing else changes; the accepted word has left the command port. -/
def State.takeFault (s : State) (w : CmdWord) (c : FaultCode) : State :=
  { s with mode := .fault c, faultCmd := w, cmd := s.cmd.tail }

/-- The end of a command `w` that gives its new state or raises a fault (rule R110): a fault leaves the
state `s` before the command as it was, but for the fault entry (rules R16, R311). That `w` is the
command's own encoding is DEDUCED (log 8). -/
def State.conclude (s : State) (w : CmdWord) (r : Except FaultCode State) :
    Host.Outcome State Fault Refusal :=
  match r with
  | .ok t => .next t.complete
  | .error c => .next (s.takeFault w c)

/-- The end of a command `w` with a destination register (rules R29, R110). -/
def State.writeResult (s : State) (w : CmdWord) (rd : Reg) (r : Except FaultCode Value) :
    Host.Outcome State Fault Refusal :=
  s.conclude w (r.map (s.setReg rd))

/-! ### The command port -/

/-- The word the engine accepts next: the first one presented, and none in the FAULT state (rules R110
step 1, R313) or while the port is idle (rule R319). -/
def State.fetch (s : State) : Option CmdWord :=
  match s.mode with
  | .fault _ => none
  | .ready => s.cmd.head?

/-- `s` with `w` as the first word on the command port. -/
def State.placeWord (s : State) (w : CmdWord) : State :=
  { s with cmd := w :: s.cmd.tail }

/-- The step of an engine that accepts no word: nothing changes (rules R110 step 1, R313, R319; that it
is a step is a DESIGN CHOICE, log 3). -/
def State.hold (s : State) : State := s

/-- The step on a word that is no command (rule R89). -/
def State.rejectWord (s : State) (w : CmdWord) : State := s.takeFault w .illegalCommand

/-! ### Field levels -/

/-- `p`, while PRIME is valid (rule R36). -/
def State.p (s : State) : Nat := s.prime.getD 0

/-- `m_1`, while EXT[1] is valid (rule R37). -/
def State.m1 (s : State) : List Nat := s.ext1.getD []

/-- `m_2`, while EXT[2] is valid (rule R37). -/
def State.m2 (s : State) : List (List Nat) := s.ext2.getD []

/-- `m_3`, while EXT[3] is valid (rule R37). -/
def State.m3 (s : State) : List (List (List Nat)) := s.ext3.getD []

/-- `d_L`, the degree of level L over the level below (rule R37); 1 for the prime field. -/
def State.degree (s : State) : Level → Nat
  | .l0 => 1
  | .l1 => s.m1.length - 1
  | .l2 => s.m2.length - 1
  | .l3 => s.m3.length - 1

/-- `N_L`, the number of prime-field coefficients of an element (rule R10). -/
def State.coeffCount (s : State) : Level → Nat
  | .l0 => 1
  | .l1 => s.degree .l1
  | .l2 => s.degree .l2 * s.degree .l1
  | .l3 => s.degree .l3 * (s.degree .l2 * s.degree .l1)

/-- `K`, the degree of level 2 over the prime field (rule R10). -/
def State.embedDegree (s : State) : Nat := s.degree .l1 * s.degree .l2

/-- The field functions of a level (rule R191). -/
def State.field (s : State) : (l : Level) → FieldOps (Elem l)
  | .l0 => fpOps s.p
  | .l1 => extOps (fpOps s.p) s.m1
  | .l2 => extOps (extOps (fpOps s.p) s.m1) s.m2
  | .l3 => extOps (extOps (extOps (fpOps s.p) s.m1) s.m2) s.m3

/-- `usable(L)` (rule R41). -/
def State.usable (s : State) : Level → Bool
  | .l0 => s.prime.isSome
  | .l1 => s.prime.isSome && s.ext1.isSome
  | .l2 => s.prime.isSome && s.ext1.isSome && s.ext2.isSome
  | .l3 => s.prime.isSome && s.ext1.isSome && s.ext2.isSome && s.ext3.isSome

/-- One step of `lift` into level 1 (rule R192). -/
def State.up1 (s : State) (e : Elem .l0) : Elem .l1 := extLift (s.field .l0) s.m1 e

/-- One step of `lift` into level 2 (rule R192). -/
def State.up2 (s : State) (e : Elem .l1) : Elem .l2 := extLift (s.field .l1) s.m2 e

/-- One step of `lift` into level 3 (rule R192). -/
def State.up3 (s : State) (e : Elem .l2) : Elem .l3 := extLift (s.field .l2) s.m3 e

/-- `lift_(M->L)` (rule R192); there is none to a lower level (rule R193). -/
def State.lift (s : State) : (m l : Level) → Elem m → Option (Elem l)
  | .l0, .l0, e => some e
  | .l0, .l1, e => some (s.up1 e)
  | .l0, .l2, e => some (s.up2 (s.up1 e))
  | .l0, .l3, e => some (s.up3 (s.up2 (s.up1 e)))
  | .l1, .l0, _ => none
  | .l1, .l1, e => some e
  | .l1, .l2, e => some (s.up2 e)
  | .l1, .l3, e => some (s.up3 (s.up2 e))
  | .l2, .l0, _ => none
  | .l2, .l1, _ => none
  | .l2, .l2, e => some e
  | .l2, .l3, e => some (s.up3 e)
  | .l3, .l0, _ => none
  | .l3, .l1, _ => none
  | .l3, .l2, _ => none
  | .l3, .l3, e => some e

/-! ### The host's actions (rule R320), taken between steps -/

/-- The host presents a command word. In the FAULT state it is not consumed and has no effect (rule
R313). -/
def State.pushCommand (s : State) (w : CmdWord) : State :=
  match s.mode with
  | .ready => { s with cmd := s.cmd ++ [w] }
  | .fault _ => s

/-- The host pushes words into `din` (rules R47, R320 b). -/
def State.pushDin (s : State) (ws : List DataWord) : State := { s with din := s.din ++ ws }

/-- The host pops the oldest word of `dout`, if there is one (rules R63, R320 c). -/
def State.popDout (s : State) : Option DataWord × State :=
  (s.dout.head?, { s with dout := s.dout.tail })

/-- Reset (rules R49, R340), the only way out of the FAULT state (rule R312). It leaves the command
port empty (DESIGN CHOICE, log 9). -/
def State.assertReset (s : State) : State := State.resetWith s.build

end Sys2Proof.Machine
end

