-- ==== Sys2Proof/Machine/Operands.lean ====
section
/-! DEFINITION. Reading operands and contexts (rules R28, R41): every type pattern `src(i, T)` can name,
and the tagged value of a payload. -/

namespace Sys2Proof.Machine

/-! ### Type patterns: the payload of a value whose tag matches -/

/-- Pattern `INT`. -/
def Value.int? : Value → Option Int
  | .int n => some n
  | _ => none

/-- Pattern `ELEM(L)`. -/
def Value.elem? : (l : Level) → Value → Option (Elem l)
  | .l0, .elem0 a => some a
  | .l1, .elem1 e => some e
  | .l2, .elem2 e => some e
  | .l3, .elem3 e => some e
  | _, _ => none

/-- Pattern `POLY(L-1)`, the polynomials over the base level of an extension level. -/
def Value.poly? : (l : ExtLevel) → Value → Option (List (Elem l.base))
  | .l1, .poly0 c => some c
  | .l2, .poly1 c => some c
  | .l3, .poly2 c => some c
  | _, _ => none

/-- Pattern `POINT(k)`. -/
def Value.point? : (k : Slot) → Value → Option (Point (Elem k.level))
  | .c0, .point0 P => some P
  | .c1, .point1 P => some P
  | .c2, .point2 P => some P
  | _, _ => none

/-! ### Tagging a payload -/

/-- An element with tag ELEM(L). -/
def Value.ofElem : (l : Level) → Elem l → Value
  | .l0, a => .elem0 a
  | .l1, e => .elem1 e
  | .l2, e => .elem2 e
  | .l3, e => .elem3 e

/-- A polynomial with tag POLY(L-1). -/
def Value.ofPoly : (l : ExtLevel) → List (Elem l.base) → Value
  | .l1, c => .poly0 c
  | .l2, c => .poly1 c
  | .l3, c => .poly2 c

/-- A point with tag POINT(k). -/
def Value.ofPoint : (k : Slot) → Point (Elem k.level) → Value
  | .c0, P => .point0 P
  | .c1, P => .point1 P
  | .c2, P => .point2 P

/-! ### Source reads -/

/-- `src(i, T)` (rule R28), `pick` being the type pattern. -/
def State.src {α : Type} (s : State) (r : Reg) (pick : Value → Option α) : Except FaultCode α :=
  if s.reg r = .empty then .error .operandEmpty
  else
    match pick (s.reg r) with
    | none => .error .typeMismatch
    | some a => .ok a

/-- `src(i, INT)`. -/
def State.srcInt (s : State) (r : Reg) : Except FaultCode Int := s.src r Value.int?

/-- `src(i, ELEM(L))`. -/
def State.srcElem (s : State) (l : Level) (r : Reg) : Except FaultCode (Elem l) :=
  s.src r (Value.elem? l)

/-- `src(i, POLY(L-1))`. -/
def State.srcPoly (s : State) (l : ExtLevel) (r : Reg) : Except FaultCode (List (Elem l.base)) :=
  s.src r (Value.poly? l)

/-- `src(i, POINT(k))`. -/
def State.srcPoint (s : State) (k : Slot) (r : Reg) : Except FaultCode (Point (Elem k.level)) :=
  s.src r (Value.point? k)

/-! ### Contexts a command needs -/

/-- A condition a command checks, with the fault it raises where the condition fails. -/
def require (b : Bool) (c : FaultCode) : Except FaultCode Unit :=
  if b then .ok () else .error c

/-- A context a command needs: `ContextInvalid` while its VALID bit is 0 (rule R41). -/
def needContext {α : Type} (c : Option α) : Except FaultCode α :=
  match c with
  | none => .error .contextInvalid
  | some a => .ok a

/-- The field functions of a level that must be usable (rules R41, R110 step 4). -/
def State.needField (s : State) (l : Level) : Except FaultCode (FieldOps (Elem l)) :=
  if s.usable l then .ok (s.field l) else .error .contextInvalid

/-- The contents of CURVE[k] (rule R38). -/
def State.curve (s : State) : (k : Slot) → Option (CurveCtx (Elem k.level))
  | .c0 => s.curve0
  | .c1 => s.curve1
  | .c2 => s.curve2

/-- The contents of CURVE[k], which must be valid (rules R41, R110 step 4). -/
def State.needCurve (s : State) (k : Slot) : Except FaultCode (CurveCtx (Elem k.level)) :=
  needContext (s.curve k)

/-- The contexts of a pairing configuration: PAIR_VALID implies all of them (rules R40, R236; DEDUCED,
log 12). -/
structure PairEnv where
  pair : PairCtx
  e0 : CurveCtx (Elem .l0)
  e1 : CurveCtx (Elem .l1)
  e2 : CurveCtx (Elem .l2)
  tw : TwistCtx
deriving DecidableEq, Repr

/-- The pairing configuration, which must be valid (rules R236, R255, R263, R266). -/
def State.needPair (s : State) : Except FaultCode PairEnv := do
  let pair ← needContext s.pair
  let e0 ← needContext s.curve0
  let e1 ← needContext s.curve1
  let e2 ← needContext s.curve2
  let tw ← needContext s.twist
  .ok { pair := pair, e0 := e0, e1 := e1, e2 := e2, tw := tw }

end Sys2Proof.Machine
end

