-- ==== Sys2Proof/Machine/Record.lean ====
section
/-! DEFINITION. Records on the data ports: serialisation (rules R65 to R67), what ST writes (rule R117)
and what LD reads (rule R116). -/

namespace Sys2Proof.Machine

/-! ### Words -/

/-- `limbs_W(n)`: the 64-bit words of `n`, least significant first (rule R65). -/
def limbs : (width : Nat) → (n : Nat) → List DataWord
  | 0, _ => []
  | w + 1, n => BitVec.ofNat 64 n :: limbs w (n / 2 ^ 64)

/-- The integer whose words, least significant first, are `ws` (rule R65). -/
def limbsValue : List DataWord → Nat
  | [] => 0
  | w :: ws => w.toNat + 2 ^ 64 * limbsValue ws

/-- The header word of a record (rule R67). -/
def header (tag : Nat) (sel : Nat) (n : Nat) : DataWord :=
  BitVec.ofNat 64 (tag + 16 * sel + 256 * n)

/-! ### Serialisation (rule R66) -/

/-- `ser_L(e)`: an element flattened, lowest coefficient first at every level. -/
def State.ser (s : State) : (l : Level) → Elem l → List DataWord
  | .l0, a => limbs s.build.flimbs a
  | .l1, e => e.flatMap (limbs s.build.flimbs)
  | .l2, e => e.flatMap fun c => c.flatMap (limbs s.build.flimbs)
  | .l3, e => e.flatMap fun d => d.flatMap fun c => c.flatMap (limbs s.build.flimbs)

/-- `serint(n)`: sign word, then the magnitude. -/
def State.serInt (s : State) (n : Int) : List DataWord :=
  (if n < 0 then 1 else 0) :: limbs s.build.slimbs n.natAbs

/-- `serpoly_B(c)`. -/
def State.serPoly (s : State) (b : Level) (c : List (Elem b)) : List DataWord :=
  c.flatMap (s.ser b)

/-- `serpoint_k(P)`: INF word, then two coordinates, zero for the identity. -/
def State.serPoint (s : State) (k : Slot) : Point (Elem k.level) → List DataWord
  | .identity => 1 :: (s.ser k.level (s.field k.level).zero ++ s.ser k.level (s.field k.level).zero)
  | .affine x y => 0 :: (s.ser k.level x ++ s.ser k.level y)

/-- `serbool(b)`. -/
def serBool (b : Bool) : List DataWord := [if b then 1 else 0]

/-- `rec(val)` (rule R67); an EMPTY register has no record (rule R117). -/
def State.record (s : State) : Value → Except FaultCode (List DataWord)
  | .empty => .error .operandEmpty
  | .int n => .ok (header 1 0 0 :: s.serInt n)
  | .elem0 a => .ok (header 2 0 0 :: s.ser .l0 a)
  | .elem1 e => .ok (header 2 1 0 :: s.ser .l1 e)
  | .elem2 e => .ok (header 2 2 0 :: s.ser .l2 e)
  | .elem3 e => .ok (header 2 3 0 :: s.ser .l3 e)
  | .poly0 c => .ok (header 3 0 c.length :: s.serPoly .l0 c)
  | .poly1 c => .ok (header 3 1 c.length :: s.serPoly .l1 c)
  | .poly2 c => .ok (header 3 2 c.length :: s.serPoly .l2 c)
  | .point0 P => .ok (header 4 0 0 :: s.serPoint .c0 P)
  | .point1 P => .ok (header 4 1 0 :: s.serPoint .c1 P)
  | .point2 P => .ok (header 4 2 0 :: s.serPoint .c2 P)
  | .bool b => .ok (header 5 0 0 :: serBool b)

/-! ### Reading a record (rule R116) -/

/-- `n` consecutive chunks of `size` words. -/
def chunks (n size : Nat) (ws : List DataWord) : List (List DataWord) :=
  (List.range n).map fun i => (ws.drop (i * size)).take size

/-- `deser_0` (rule R116): a coefficient that is not below `p` faults. -/
def State.deser0 (s : State) (ws : List DataWord) : Except FaultCode Nat :=
  if s.p ≤ limbsValue ws then .error .operandRange else .ok (limbsValue ws)

/-- `deser_1` (rule R116). -/
def State.deser1 (s : State) (ws : List DataWord) : Except FaultCode (List Nat) :=
  (chunks (s.degree .l1) s.build.flimbs ws).mapM s.deser0

/-- `deser_2` (rule R116). -/
def State.deser2 (s : State) (ws : List DataWord) : Except FaultCode (List (List Nat)) :=
  (chunks (s.degree .l2) (s.coeffCount .l1 * s.build.flimbs) ws).mapM s.deser1

/-- `deser_3` (rule R116). -/
def State.deser3 (s : State) (ws : List DataWord) : Except FaultCode (List (List (List Nat))) :=
  (chunks (s.degree .l3) (s.coeffCount .l2 * s.build.flimbs) ws).mapM s.deser2

/-- `deser_L` (rule R116). -/
def State.deser (s : State) : (l : Level) → List DataWord → Except FaultCode (Elem l)
  | .l0, ws => s.deser0 ws
  | .l1, ws => s.deser1 ws
  | .l2, ws => s.deser2 ws
  | .l3, ws => s.deser3 ws

/-- `W` of rule R116: the words of an element. -/
def State.elemWords (s : State) (l : Level) : Nat := s.coeffCount l * s.build.flimbs

/-- The payload of an INT record (rule R116): a sign word above 1 is malformed, and sign 1 with
magnitude 0 is the integer 0. -/
def intPayload (ws : List DataWord) : Except FaultCode Value :=
  match ws with
  | [] => .error .badData
  | sign :: mag =>
    if sign = 0 then .ok (.int (limbsValue mag))
    else if sign = 1 then .ok (.int (-(limbsValue mag : Int)))
    else .error .badData

/-- The payload of a POLY record of `n` coefficients of level `b` (rule R116). -/
def State.polyPayload (s : State) (b : Level) (n : Nat) (ws : List DataWord) :
    Except FaultCode (List (Elem b)) :=
  (chunks n (s.elemWords b) ws).mapM (s.deser b)

/-- The payload of a POINT record (rule R116): the INF word is tested before the coordinates, which
are ignored for the identity. -/
def State.pointPayload (s : State) (k : Slot) (ws : List DataWord) :
    Except FaultCode (Point (Elem k.level)) :=
  match ws with
  | [] => .error .badData
  | inf :: coords =>
    if inf = 1 then .ok .identity
    else if inf ≠ 0 then .error .badData
    else do
      let x ← s.deser k.level (coords.take (s.elemWords k.level))
      let y ← s.deser k.level ((coords.drop (s.elemWords k.level)).take (s.elemWords k.level))
      .ok (.affine x y)

/-- The SEL field of a POLY header as the level over the polynomial's base level `B`; 3 is malformed
(rules R67, R116). -/
def polyLevel (sel : BitVec 2) : Option ExtLevel :=
  if sel = 0 then some .l1 else if sel = 1 then some .l2 else if sel = 2 then some .l3 else none

/-- What a header announces once it is accepted (rule R116). -/
inductive Announced where
  | int
  | elem (l : Level)
  | poly (l : ExtLevel) (n : Nat)
  | point (k : Slot)
deriving DecidableEq, Repr

/-- The header tests of rule R116, in its order, up to the context test. -/
def State.readHeader (s : State) (h : DataWord) : Except FaultCode Announced :=
  let tag := (h.extractLsb' 0 4).toNat
  let sel := h.extractLsb' 4 2
  let n := (h.extractLsb' 8 8).toNat
  if h.extractLsb' 16 48 ≠ 0 ∨ h.extractLsb' 6 2 ≠ 0 then .error .badData
  else if tag ≠ 1 ∧ tag ≠ 2 ∧ tag ≠ 3 ∧ tag ≠ 4 then .error .badData
  else if tag ≠ 3 ∧ n ≠ 0 then .error .badData
  else if tag = 1 ∧ sel ≠ 0 then .error .badData
  else if tag = 1 then .ok .int
  else if tag = 4 then
    match Slot.ofBits sel with
    | none => .error .badData
    | some k => if s.usable k.level then .ok (.point k) else .error .contextInvalid
  else if tag = 3 then
    match polyLevel sel with
    | none => .error .badData
    | some l =>
      if n < 1 ∨ s.build.polymax < n then .error .badData
      else if s.usable l.base then .ok (.poly l n)
      else .error .contextInvalid
  else
    match Level.ofBits sel with
    | none => .error .badData
    | some l => if s.usable l then .ok (.elem l) else .error .contextInvalid

/-- The number of payload words a header announces (rule R116). -/
def State.payloadWords (s : State) : Announced → Nat
  | .int => 1 + s.build.slimbs
  | .elem l => s.elemWords l
  | .poly l n => n * s.elemWords l.base
  | .point k => 1 + 2 * s.elemWords k.level

/-- The value of a whole payload (rule R116). -/
def State.readPayload (s : State) (ws : List DataWord) : Announced → Except FaultCode Value
  | .int => intPayload ws
  | .elem l => (s.deser l ws).map (Value.ofElem l)
  | .poly l n => (s.polyPayload l.base n ws).map (Value.ofPoly l)
  | .point k => (s.pointPayload k ws).map (Value.ofPoint k)

/-- What LD finds on `din`. -/
inductive Incoming where
  /-- The record, or its header, is not complete: LD holds (rule R62). -/
  | short
  /-- The record is complete, or its header faults: `popped` words leave `din` (rule R64), and the
  result is a value or a fault. -/
  | arrived (popped : Nat) (result : Except FaultCode Value)

/-- The reading of one record from `din` (rule R116). A header that faults pops one word; everything
else waits for the whole record, and then pops it, whether its payload faults or not (DEDUCED, log
16). -/
def State.incoming (s : State) : Incoming :=
  match s.din with
  | [] => .short
  | h :: rest =>
    match s.readHeader h with
    | .error c => .arrived 1 (.error c)
    | .ok a =>
      if rest.length < s.payloadWords a then .short
      else .arrived (1 + s.payloadWords a) (s.readPayload (rest.take (s.payloadWords a)) a)

end Sys2Proof.Machine
end

