-- ==== Sys2Proof/Machine/ConfigTransfer.lean ====
section
/-! DEFINITION. The configuration and transfer commands (40_config_transfer.md). -/

namespace Sys2Proof.Machine

/-- The VALID-bit test of a configuration command (rules R35, R110 step 3). -/
def notLocked {α : Type} (c : Option α) : Except FaultCode Unit := require c.isNone .configLocked

/-- `SETP` (rule R111). -/
def execSetp (rs1 : Reg) (s : State) : Host.Outcome State Fault Refusal :=
  s.conclude (encode (.setp rs1)) do
    notLocked s.prime
    let n ← s.srcInt rs1
    require (decide (2 < n ∧ n < 2 ^ (64 * s.build.flimbs))) .badParameter
    .ok { s with prime := some n.toNat }

/-- EXT_VALID[L] (rule R37). -/
def State.extValid (s : State) : ExtLevel → Bool
  | .l1 => s.ext1.isSome
  | .l2 => s.ext2.isSome
  | .l3 => s.ext3.isSome

/-- EXT[L] written with a modulus (rule R37). -/
def State.setExt (s : State) : (l : ExtLevel) → List (Elem l.base) → State
  | .l1, m => { s with ext1 := some m }
  | .l2, m => { s with ext2 := some m }
  | .l3, m => { s with ext3 := some m }

/-- `SETMOD` (rule R112). The last coefficient is the leading one; a one-coefficient polynomial has
degree 0. -/
def execSetmod (l : ExtLevel) (rs1 : Reg) (s : State) : Host.Outcome State Fault Refusal :=
  s.conclude (encode (.setmod l rs1)) do
    require (!s.extValid l) .configLocked
    let F ← s.needField l.base
    let m ← s.srcPoly l rs1
    require (decide (1 ≤ m.length - 1 ∧ m.length - 1 ≤ s.build.dmax)) .badParameter
    require (!F.isZero (m.getD (m.length - 1) F.zero)) .badParameter
    .ok (s.setExt l m)

/-- CURVE[k] written (rule R38). -/
def State.setCurve (s : State) : (k : Slot) → CurveCtx (Elem k.level) → State
  | .c0, E => { s with curve0 := some E }
  | .c1, E => { s with curve1 := some E }
  | .c2, E => { s with curve2 := some E }

/-- `SETCURVE` (rule R113). -/
def execSetcurve (k : Slot) (rs1 rs2 : Reg) (s : State) : Host.Outcome State Fault Refusal :=
  s.conclude (encode (.setcurve k rs1 rs2)) do
    notLocked (s.curve k)
    let F ← s.needField k.level
    let a ← s.srcElem k.level rs1
    let b ← s.srcElem k.level rs2
    let disc ← discriminant F a b
    require (!F.isZero disc) .singularCurve
    .ok (s.setCurve k { a := a, b := b })

/-- `SETTWIST` (rule R114). -/
def execSettwist (rs1 rs2 : Reg) (s : State) : Host.Outcome State Fault Refusal :=
  s.conclude (encode (.settwist rs1 rs2)) do
    notLocked s.twist
    let F ← s.needField .l2
    let ux ← s.srcElem .l2 rs1
    let uy ← s.srcElem .l2 rs2
    require (!F.isZero ux && !F.isZero uy) .badParameter
    .ok { s with twist := some { ux := ux, uy := uy } }

/-- The checks SETPAIR makes of its parameters (rule R115). -/
def State.pairParametersLegal (s : State) (post : Post) (r pos neg : Int) : Bool :=
  decide (2 ≤ r ∧ 0 ≤ pos ∧ 0 ≤ neg)
    && decide (pos.toNat &&& neg.toNat = 0 ∧ neg < pos)
    && decide ((s.p ^ s.embedDegree - 1) % r.toNat = 0)
    && !(decide (post = .conjugate) && decide (s.embedDegree % 2 = 1))

/-- `SETPAIR` (rule R115). -/
def execSetpair (post : Post) (rs1 rs2 rs3 : Reg) (s : State) : Host.Outcome State Fault Refusal :=
  s.conclude (encode (.setpair post rs1 rs2 rs3)) do
    notLocked s.pair
    let _ ← needContext s.curve0
    let _ ← needContext s.curve1
    let _ ← needContext s.curve2
    let _ ← needContext s.twist
    let r ← s.srcInt rs1
    let pos ← s.srcInt rs2
    let neg ← s.srcInt rs3
    require (s.pairParametersLegal post r pos neg) .badParameter
    .ok { s with
      pair := some { r := r.toNat, loopPos := pos.toNat, loopNeg := neg.toNat, post := post } }

/-- `LD` (rule R116). While the record is incomplete LD holds: nothing changes and its word stays on
the command port (rule R62). The words popped leave `din` whether LD completes or faults (rule R64). -/
def execLd (rd : Reg) (s : State) : Host.Outcome State Fault Refusal :=
  match s.incoming with
  | .short => .next s.hold
  | .arrived popped result =>
    let t := { s with din := s.din.drop popped }
    t.writeResult (encode (.ld rd)) rd result

/-- `ST` (rule R117). -/
def execSt (rs1 : Reg) (s : State) : Host.Outcome State Fault Refusal :=
  s.conclude (encode (.st rs1)) do
    let ws ← s.record (s.reg rs1)
    .ok { s with dout := s.dout ++ ws }

end Sys2Proof.Machine
end

