-- ==== Sys2Proof/Machine/PrimeField.lean ====
section
/-! DEFINITION. The prime-field commands (41_primefield.md, section 3). -/

namespace Sys2Proof.Machine

/-- A command on two elements of level `l` that gives an element (rules R147 to R152, R176 to R181),
`f` being its function. -/
def State.elemBinary (s : State) (l : Level) (rs1 rs2 : Reg)
    (f : FieldOps (Elem l) → Elem l → Elem l → Except FaultCode (Elem l)) :
    Except FaultCode Value := do
  let F ← s.needField l
  let a ← s.srcElem l rs1
  let b ← s.srcElem l rs2
  let c ← f F a b
  .ok (.ofElem l c)

/-- A command on one element of level `l` that gives an element (rules R149, R151, R178, R180, R251). -/
def State.elemUnary (s : State) (l : Level) (rs1 : Reg)
    (f : FieldOps (Elem l) → Elem l → Except FaultCode (Elem l)) : Except FaultCode Value := do
  let F ← s.needField l
  let a ← s.srcElem l rs1
  let c ← f F a
  .ok (.ofElem l c)

/-- The exponentiation command of level `l` (rules R153, R182): an element and an INT. -/
def State.elemPower (s : State) (l : Level) (rs1 rs2 : Reg) : Except FaultCode Value := do
  let F ← s.needField l
  let a ← s.srcElem l rs1
  let e ← s.srcInt rs2
  let c ← F.exp a e
  .ok (.ofElem l c)

/-- The equality command of level `l` (rules R154, R183). -/
def State.elemEqual (s : State) (l : Level) (rs1 rs2 : Reg) : Except FaultCode Value := do
  let F ← s.needField l
  let a ← s.srcElem l rs1
  let b ← s.srcElem l rs2
  .ok (.bool (F.eq a b))

/-- `FP.ADD` (rule R147). -/
def execFpAdd (rd rs1 rs2 : Reg) (s : State) : Host.Outcome State Fault Refusal :=
  s.writeResult (encode (.fpAdd rd rs1 rs2)) rd
    (s.elemBinary .l0 rs1 rs2 fun F a b => .ok (F.add a b))

/-- `FP.SUB` (rule R148). -/
def execFpSub (rd rs1 rs2 : Reg) (s : State) : Host.Outcome State Fault Refusal :=
  s.writeResult (encode (.fpSub rd rs1 rs2)) rd
    (s.elemBinary .l0 rs1 rs2 fun F a b => .ok (F.sub a b))

/-- `FP.NEG` (rule R149). -/
def execFpNeg (rd rs1 : Reg) (s : State) : Host.Outcome State Fault Refusal :=
  s.writeResult (encode (.fpNeg rd rs1)) rd (s.elemUnary .l0 rs1 fun F a => .ok (F.neg a))

/-- `FP.MUL` (rule R150). -/
def execFpMul (rd rs1 rs2 : Reg) (s : State) : Host.Outcome State Fault Refusal :=
  s.writeResult (encode (.fpMul rd rs1 rs2)) rd (s.elemBinary .l0 rs1 rs2 fun F a b => F.mul a b)

/-- `FP.INV` (rule R151). -/
def execFpInv (rd rs1 : Reg) (s : State) : Host.Outcome State Fault Refusal :=
  s.writeResult (encode (.fpInv rd rs1)) rd (s.elemUnary .l0 rs1 fun F a => F.inv a)

/-- `FP.DIV` (rule R152). -/
def execFpDiv (rd rs1 rs2 : Reg) (s : State) : Host.Outcome State Fault Refusal :=
  s.writeResult (encode (.fpDiv rd rs1 rs2)) rd (s.elemBinary .l0 rs1 rs2 fun F a b => F.div a b)

/-- `FP.EXP` (rule R153). -/
def execFpExp (rd rs1 rs2 : Reg) (s : State) : Host.Outcome State Fault Refusal :=
  s.writeResult (encode (.fpExp rd rs1 rs2)) rd (s.elemPower .l0 rs1 rs2)

/-- `FP.EQ` (rule R154). -/
def execFpEq (rd rs1 rs2 : Reg) (s : State) : Host.Outcome State Fault Refusal :=
  s.writeResult (encode (.fpEq rd rs1 rs2)) rd (s.elemEqual .l0 rs1 rs2)

end Sys2Proof.Machine
end

