-- ==== Sys2Proof/Machine/ExtensionField.lean ====
section
/-! DEFINITION. The extension-field commands and LIFT (42_extensionfield.md section 3, 43_tower.md). -/

namespace Sys2Proof.Machine

/-- `XF.ADD` (rules R176, R194). -/
def execXfAdd (l : ExtLevel) (rd rs1 rs2 : Reg) (s : State) : Host.Outcome State Fault Refusal :=
  s.writeResult (encode (.xfAdd l rd rs1 rs2)) rd
    (s.elemBinary l.level rs1 rs2 fun F a b => .ok (F.add a b))

/-- `XF.SUB` (rules R177, R194). -/
def execXfSub (l : ExtLevel) (rd rs1 rs2 : Reg) (s : State) : Host.Outcome State Fault Refusal :=
  s.writeResult (encode (.xfSub l rd rs1 rs2)) rd
    (s.elemBinary l.level rs1 rs2 fun F a b => .ok (F.sub a b))

/-- `XF.NEG` (rules R178, R194). -/
def execXfNeg (l : ExtLevel) (rd rs1 : Reg) (s : State) : Host.Outcome State Fault Refusal :=
  s.writeResult (encode (.xfNeg l rd rs1)) rd (s.elemUnary l.level rs1 fun F a => .ok (F.neg a))

/-- `XF.MUL` (rules R179, R194). -/
def execXfMul (l : ExtLevel) (rd rs1 rs2 : Reg) (s : State) : Host.Outcome State Fault Refusal :=
  s.writeResult (encode (.xfMul l rd rs1 rs2)) rd
    (s.elemBinary l.level rs1 rs2 fun F a b => F.mul a b)

/-- `XF.INV` (rules R180, R194). -/
def execXfInv (l : ExtLevel) (rd rs1 : Reg) (s : State) : Host.Outcome State Fault Refusal :=
  s.writeResult (encode (.xfInv l rd rs1)) rd (s.elemUnary l.level rs1 fun F a => F.inv a)

/-- `XF.DIV` (rules R181, R194). -/
def execXfDiv (l : ExtLevel) (rd rs1 rs2 : Reg) (s : State) : Host.Outcome State Fault Refusal :=
  s.writeResult (encode (.xfDiv l rd rs1 rs2)) rd
    (s.elemBinary l.level rs1 rs2 fun F a b => F.div a b)

/-- `XF.EXP` (rules R182, R194). -/
def execXfExp (l : ExtLevel) (rd rs1 rs2 : Reg) (s : State) : Host.Outcome State Fault Refusal :=
  s.writeResult (encode (.xfExp l rd rs1 rs2)) rd (s.elemPower l.level rs1 rs2)

/-- `XF.EQ` (rules R183, R194). -/
def execXfEq (l : ExtLevel) (rd rs1 rs2 : Reg) (s : State) : Host.Outcome State Fault Refusal :=
  s.writeResult (encode (.xfEq l rd rs1 rs2)) rd (s.elemEqual l.level rs1 rs2)

/-- `polymod_L` at the level named (rule R162). -/
def State.reduce (s : State) : (l : ExtLevel) → List (Elem l.base) → Except FaultCode (Elem l.level)
  | .l1, a => polyMod (s.field .l0) s.m1 a
  | .l2, a => polyMod (s.field .l1) s.m2 a
  | .l3, a => polyMod (s.field .l2) s.m3 a

/-- `XF.MOD` (rules R175, R194). -/
def execXfMod (l : ExtLevel) (rd rs1 : Reg) (s : State) : Host.Outcome State Fault Refusal :=
  s.writeResult (encode (.xfMod l rd rs1)) rd do
    let _ ← s.needField l.level
    let a ← s.srcPoly l rs1
    let c ← s.reduce l a
    .ok (.ofElem l.level c)

/-- The value of LIFT (rule R193): an INT or an element of a level not above `l`, at level `l`. -/
def State.liftValue (s : State) (l : Level) : Value → Option (Elem l)
  | .int n => some ((s.field l).ofInt n)
  | .elem0 a => s.lift .l0 l a
  | .elem1 e => s.lift .l1 l e
  | .elem2 e => s.lift .l2 l e
  | .elem3 e => s.lift .l3 l e
  | _ => none

/-- `LIFT` (rule R193). -/
def execLift (l : Level) (rd rs1 : Reg) (s : State) : Host.Outcome State Fault Refusal :=
  s.writeResult (encode (.lift l rd rs1)) rd do
    let _ ← s.needField l
    let e ← s.src rs1 (s.liftValue l)
    .ok (.ofElem l e)

end Sys2Proof.Machine
end

