-- ==== Sys2Proof/Machine/PairingOps.lean ====
section
/-! DEFINITION. The functions of a pairing configuration: twist maps, Miller loop, conjugation, final
exponentiation, pairing (45_line_miller.md, 46_finalexp_subgroup_pairing.md). -/

namespace Sys2Proof.Machine

/-- `untwist` (rule R258): from slot 1 to slot 2. -/
def State.untwist (s : State) (tw : TwistCtx) : Point (Elem .l1) →
    Except FaultCode (Point (Elem .l2))
  | .identity => .ok .identity
  | .affine x y => do
    let x' ← (s.field .l2).mul (s.up2 x) tw.ux
    let y' ← (s.field .l2).mul (s.up2 y) tw.uy
    .ok (.affine x' y')

/-- `twist` (rule R260): from slot 2 back to slot 1; `OperandRange` for a point that is the untwist of
none. -/
def State.twistBack (s : State) (tw : TwistCtx) : Point (Elem .l2) →
    Except FaultCode (Point (Elem .l1))
  | .identity => .ok .identity
  | .affine X Y => do
    let x ← (s.field .l2).div X tw.ux
    let y ← (s.field .l2).div Y tw.uy
    if x.tail.all (s.field .l1).isZero && y.tail.all (s.field .l1).isZero then
      .ok (.affine (x.getD 0 (s.field .l1).zero) (y.getD 0 (s.field .l1).zero))
    else .error .operandRange

/-- `P` of slot 0 embedded in slot 2 (rule R235). -/
def State.embed (s : State) : Point (Elem .l0) → Point (Elem .l2)
  | .identity => .identity
  | .affine x y => .affine (s.up2 (s.up1 x)) (s.up2 (s.up1 y))

/-- Digit `i` of the loop parameter (rules R40, R234). -/
def PairCtx.digit (c : PairCtx) (i : Nat) : Int :=
  ((c.loopPos.testBit i).toNat : Int) - ((c.loopNeg.testBit i).toNat : Int)

/-- The line through `R` and `T`, multiplied into `f`, and `R + T` (rule R235). -/
def State.millerAdd (s : State) (e : PairEnv) (Pe T : Point (Elem .l2))
    (f : Elem .l2) (R : Point (Elem .l2)) : Except FaultCode (Elem .l2 × Point (Elem .l2)) := do
  let l ← lineValue (s.field .l2) e.e2 R T Pe
  let f ← (s.field .l2).mul f l
  let R ← pointAdd (s.field .l2) e.e2 R T
  .ok (f, R)

/-- The main loop of rule R235 over the digits below `i`, the highest first. -/
def State.millerLoop (s : State) (e : PairEnv) (Pe Qe nQ : Point (Elem .l2)) :
    (i : Nat) → (f : Elem .l2) → (R : Point (Elem .l2)) →
    Except FaultCode (Elem .l2 × Point (Elem .l2))
  | 0, f, R => .ok (f, R)
  | i + 1, f, R => do
    let ff ← (s.field .l2).mul f f
    let dbl ← s.millerAdd e Pe R ff R
    let fR ←
      if e.pair.digit i = 1 then s.millerAdd e Pe Qe dbl.1 dbl.2
      else if e.pair.digit i = -1 then s.millerAdd e Pe nQ dbl.1 dbl.2
      else .ok dbl
    s.millerLoop e Pe Qe nQ i fR.1 fR.2

/-- `conj` (rule R252). -/
def State.conjugate (s : State) (f : Elem .l2) : Except FaultCode (Elem .l2) :=
  (s.field .l2).exp f ((s.p ^ (s.embedDegree / 2) : Nat) : Int)

/-- The post-loop step of rule R235. -/
def State.millerPost (s : State) (e : PairEnv) (Pe Qe : Point (Elem .l2)) (f : Elem .l2)
    (R : Point (Elem .l2)) : Except FaultCode (Elem .l2) :=
  match e.pair.post with
  | .plain => .ok f
  | .twoLines => do
    let Q1 ← frobPoint (s.field .l2) s.p Qe 1
    let F2 ← frobPoint (s.field .l2) s.p Qe 2
    let Q2 := pointNeg (s.field .l2) F2
    let fR ← s.millerAdd e Pe Q1 f R
    let l ← lineValue (s.field .l2) e.e2 fR.2 Q2 Pe
    (s.field .l2).mul fR.1 l
  | .conjugate => s.conjugate f

/-- `miller` (rule R235). -/
def State.miller (s : State) (e : PairEnv) (Q : Point (Elem .l1)) (P : Point (Elem .l0)) :
    Except FaultCode (Elem .l2) := do
  let Qe ← s.untwist e.tw Q
  let Pe := s.embed P
  if Qe.isIdentity || Pe.isIdentity then .error .pointAtInfinity
  else do
    let nQ := pointNeg (s.field .l2) Qe
    let fR ← s.millerLoop e Pe Qe nQ (bitLen e.pair.loopPos - 1) (s.field .l2).one Qe
    s.millerPost e Pe Qe fR.1 fR.2

/-- `finalexp` (rule R254): the division is exact, which SETPAIR has checked. -/
def State.finalExp (s : State) (e : PairEnv) (f : Elem .l2) : Except FaultCode (Elem .l2) :=
  if (s.field .l2).isZero f then .error .divisionByZero
  else (s.field .l2).exp f (((s.p ^ s.embedDegree - 1) / e.pair.r : Nat) : Int)

/-- A subgroup check inside a pairing (rules R265, R306). -/
def assertMember (b : Bool) : Except FaultCode Unit := require b .invalidSubgroupMembership

/-- `pairing` (rule R265). -/
def State.pairing (s : State) (e : PairEnv) (P : Point (Elem .l0)) (Q : Point (Elem .l1)) :
    Except FaultCode (Elem .l2) :=
  match P, Q with
  | .identity, .identity => .ok (s.field .l2).one
  | .identity, Q => do
    assertMember (← inSubgroup (s.field .l1) e.e1 e.pair.r Q)
    .ok (s.field .l2).one
  | P, .identity => do
    assertMember (← inSubgroup (s.field .l0) e.e0 e.pair.r P)
    .ok (s.field .l2).one
  | P, Q => do
    assertMember (← inSubgroup (s.field .l0) e.e0 e.pair.r P)
    assertMember (← inSubgroup (s.field .l1) e.e1 e.pair.r Q)
    let f ← s.miller e Q P
    s.finalExp e f

/-- The product of the pairings of two lists of points (rule R267), from `acc` on. -/
def State.pairProduct (s : State) (e : PairEnv) :
    List (Point (Elem .l0) × Point (Elem .l1)) → Elem .l2 → Except FaultCode (Elem .l2)
  | [], acc => .ok acc
  | (P, Q) :: rest, acc => do
    let g ← s.pairing e P Q
    let acc ← (s.field .l2).mul acc g
    s.pairProduct e rest acc

end Sys2Proof.Machine
end

