-- ==== Sys2Proof/Machine/LineMiller.lean ====
section
/-! DEFINITION. The commands LINE and MILLER (45_line_miller.md). -/

namespace Sys2Proof.Machine

/-- `LINE` (rule R231). -/
def execLine (k : Slot) (rd rs1 rs2 rs3 : Reg) (s : State) : Host.Outcome State Fault Refusal :=
  s.writeResult (encode (.line k rd rs1 rs2 rs3)) rd do
    let E ← s.needCurve k
    let P ← s.srcPoint k rs1
    let Q ← s.srcPoint k rs2
    let T ← s.srcPoint k rs3
    let l ← lineValue (s.field k.level) E P Q T
    .ok (.ofElem k.level l)

/-- `MILLER` (rule R236): `rs1` is `Q`, a point of slot 1, and `rs2` is `P`, a point of slot 0. -/
def execMiller (rd rs1 rs2 : Reg) (s : State) : Host.Outcome State Fault Refusal :=
  s.writeResult (encode (.miller rd rs1 rs2)) rd do
    let e ← s.needPair
    let Q ← s.srcPoint .c1 rs1
    let P ← s.srcPoint .c0 rs2
    let f ← s.miller e Q P
    .ok (.ofElem .l2 f)

end Sys2Proof.Machine
end

