-- ==== Sys2Proof/Machine/EllipticCurve.lean ====
section
/-! DEFINITION. The elliptic-curve commands (44_curve.md section 3). -/

namespace Sys2Proof.Machine

/-- A command on one point of slot `k` (rules R210, R211, R213, R214, R257), `f` being its function
over the slot's field and curve. -/
def State.pointUnary (s : State) (k : Slot) (rs1 : Reg)
    (f : FieldOps (Elem k.level) → CurveCtx (Elem k.level) → Point (Elem k.level) →
      Except FaultCode Value) : Except FaultCode Value := do
  let E ← s.needCurve k
  let P ← s.srcPoint k rs1
  f (s.field k.level) E P

/-- `EC.ISZERO` (rule R210). -/
def execEcIsZero (k : Slot) (rd rs1 : Reg) (s : State) : Host.Outcome State Fault Refusal :=
  s.writeResult (encode (.ecIsZero k rd rs1)) rd
    (s.pointUnary k rs1 fun _ _ P => .ok (.bool P.isIdentity))

/-- `EC.ISONCURVE` (rule R211). -/
def execEcIsOnCurve (k : Slot) (rd rs1 : Reg) (s : State) : Host.Outcome State Fault Refusal :=
  s.writeResult (encode (.ecIsOnCurve k rd rs1)) rd
    (s.pointUnary k rs1 fun F E P => (onCurve F E P).map Value.bool)

/-- `EC.ADD` (rule R212). -/
def execEcAdd (k : Slot) (rd rs1 rs2 : Reg) (s : State) : Host.Outcome State Fault Refusal :=
  s.writeResult (encode (.ecAdd k rd rs1 rs2)) rd do
    let E ← s.needCurve k
    let P ← s.srcPoint k rs1
    let Q ← s.srcPoint k rs2
    let R ← pointAdd (s.field k.level) E P Q
    .ok (.ofPoint k R)

/-- `EC.DBL` (rule R213). -/
def execEcDbl (k : Slot) (rd rs1 : Reg) (s : State) : Host.Outcome State Fault Refusal :=
  s.writeResult (encode (.ecDbl k rd rs1)) rd
    (s.pointUnary k rs1 fun F E P => (pointAdd F E P P).map (Value.ofPoint k))

/-- `EC.NEG` (rule R214). -/
def execEcNeg (k : Slot) (rd rs1 : Reg) (s : State) : Host.Outcome State Fault Refusal :=
  s.writeResult (encode (.ecNeg k rd rs1)) rd
    (s.pointUnary k rs1 fun F _ P => .ok (.ofPoint k (pointNeg F P)))

/-- `EC.SMUL` (rule R215). -/
def execEcSmul (k : Slot) (rd rs1 rs2 : Reg) (s : State) : Host.Outcome State Fault Refusal :=
  s.writeResult (encode (.ecSmul k rd rs1 rs2)) rd do
    let E ← s.needCurve k
    let P ← s.srcPoint k rs1
    let n ← s.srcInt rs2
    let R ← pointMul (s.field k.level) E P n
    .ok (.ofPoint k R)

end Sys2Proof.Machine
end

