-- ==== Sys2Proof/Machine/Pairing.lean ====
section
/-! DEFINITION. Frobenius, conjugation, final exponentiation, twist maps, subgroup checks and pairing
commands (46_finalexp_subgroup_pairing.md). -/

namespace Sys2Proof.Machine

/-- `FROB` (rule R251). -/
def execFrob (l : Level) (n : FrobPow) (rd rs1 : Reg) (s : State) :
    Host.Outcome State Fault Refusal :=
  s.writeResult (encode (.frob l n rd rs1)) rd
    (s.elemUnary l rs1 fun F a => frobenius F s.p a n.toNat)

/-- `CONJ` (rule R253): the parity of `K` is tested after the source. -/
def execConj (rd rs1 : Reg) (s : State) : Host.Outcome State Fault Refusal :=
  s.writeResult (encode (.conj rd rs1)) rd
    (s.elemUnary .l2 rs1 fun _ f => do
      require (decide (s.embedDegree % 2 = 0)) .badParameter
      s.conjugate f)

/-- `FINALEXP` (rule R255). -/
def execFinalexp (rd rs1 : Reg) (s : State) : Host.Outcome State Fault Refusal :=
  s.writeResult (encode (.finalexp rd rs1)) rd do
    let e ← s.needPair
    let f ← s.srcElem .l2 rs1
    let g ← s.finalExp e f
    .ok (.ofElem .l2 g)

/-- `EC.FROB` (rule R257). -/
def execEcFrob (k : Slot) (n : FrobPow) (rd rs1 : Reg) (s : State) :
    Host.Outcome State Fault Refusal :=
  s.writeResult (encode (.ecFrob k n rd rs1)) rd
    (s.pointUnary k rs1 fun F _ P => (frobPoint F s.p P n.toNat).map (Value.ofPoint k))

/-- `UNTWIST` (rule R259). -/
def execUntwist (rd rs1 : Reg) (s : State) : Host.Outcome State Fault Refusal :=
  s.writeResult (encode (.untwist rd rs1)) rd do
    let tw ← needContext s.twist
    let Q ← s.srcPoint .c1 rs1
    let R ← s.untwist tw Q
    .ok (.ofPoint .c2 R)

/-- `TWIST` (rule R261). -/
def execTwist (rd rs1 : Reg) (s : State) : Host.Outcome State Fault Refusal :=
  s.writeResult (encode (.twist rd rs1)) rd do
    let tw ← needContext s.twist
    let P ← s.srcPoint .c2 rs1
    let R ← s.twistBack tw P
    .ok (.ofPoint .c1 R)

/-- `SUBGRP.G1` (rule R263). -/
def execSubgrpG1 (rd rs1 : Reg) (s : State) : Host.Outcome State Fault Refusal :=
  s.writeResult (encode (.subgrpG1 rd rs1)) rd do
    let e ← s.needPair
    let P ← s.srcPoint .c0 rs1
    let b ← inSubgroup (s.field .l0) e.e0 e.pair.r P
    .ok (.bool b)

/-- `SUBGRP.G2` (rule R264). -/
def execSubgrpG2 (rd rs1 : Reg) (s : State) : Host.Outcome State Fault Refusal :=
  s.writeResult (encode (.subgrpG2 rd rs1)) rd do
    let e ← s.needPair
    let Q ← s.srcPoint .c1 rs1
    let b ← inSubgroup (s.field .l1) e.e1 e.pair.r Q
    .ok (.bool b)

/-- `PAIR` (rule R266): `rs1` is `P`, a point of slot 0, and `rs2` is `Q`, a point of slot 1. -/
def execPair (rd rs1 rs2 : Reg) (s : State) : Host.Outcome State Fault Refusal :=
  s.writeResult (encode (.pair rd rs1 rs2)) rd do
    let e ← s.needPair
    let P ← s.srcPoint .c0 rs1
    let Q ← s.srcPoint .c1 rs2
    let g ← s.pairing e P Q
    .ok (.ofElem .l2 g)

/-- The registers `first`, `first + 1`, ... of a run of `n` (rule R267). -/
def regRun (first : Reg) (n : BitVec 5) : List Reg :=
  (List.range n.toNat).map fun i => first + BitVec.ofNat 5 i

/-- `PAIRCHK` (rule R267): all `Ps` are read before all `Qs`. A register run past `v31` is no command
(rules R85 c, R88); the decoder has rejected it already (DEDUCED, log 13). -/
def execPairchk (rd rs1 rs2 : Reg) (n : BitVec 5) (s : State) : Host.Outcome State Fault Refusal :=
  s.writeResult (encode (.pairchk rd rs1 rs2 n)) rd do
    require (decide (RunsFit rs1 rs2 n)) .illegalCommand
    let e ← s.needPair
    let Ps ← (regRun rs1 n).mapM (s.srcPoint .c0)
    let Qs ← (regRun rs2 n).mapM (s.srcPoint .c1)
    let acc ← s.pairProduct e (Ps.zip Qs) (s.field .l2).one
    .ok (.bool ((s.field .l2).eq acc (s.field .l2).one))

end Sys2Proof.Machine
end

