-- ==== Sys2Proof/Machine/Dispatch.lean ====
section
/-! DEFINITION. The meaning of every command, one arm each. -/

namespace Sys2Proof.Machine

/-- The execution of a command (rule R110 steps 3 to 8). -/
def exec (i : Instr) (s : State) : Host.Outcome State Fault Refusal :=
  match i with
  | .setp rs1 => Sys2Proof.Machine.execSetp rs1 s
  | .setmod l rs1 => Sys2Proof.Machine.execSetmod l rs1 s
  | .setcurve k rs1 rs2 => Sys2Proof.Machine.execSetcurve k rs1 rs2 s
  | .settwist rs1 rs2 => Sys2Proof.Machine.execSettwist rs1 rs2 s
  | .setpair post rs1 rs2 rs3 => Sys2Proof.Machine.execSetpair post rs1 rs2 rs3 s
  | .ld rd => Sys2Proof.Machine.execLd rd s
  | .st rs1 => Sys2Proof.Machine.execSt rs1 s
  | .fpAdd rd rs1 rs2 => Sys2Proof.Machine.execFpAdd rd rs1 rs2 s
  | .fpSub rd rs1 rs2 => Sys2Proof.Machine.execFpSub rd rs1 rs2 s
  | .fpNeg rd rs1 => Sys2Proof.Machine.execFpNeg rd rs1 s
  | .fpMul rd rs1 rs2 => Sys2Proof.Machine.execFpMul rd rs1 rs2 s
  | .fpInv rd rs1 => Sys2Proof.Machine.execFpInv rd rs1 s
  | .fpDiv rd rs1 rs2 => Sys2Proof.Machine.execFpDiv rd rs1 rs2 s
  | .fpExp rd rs1 rs2 => Sys2Proof.Machine.execFpExp rd rs1 rs2 s
  | .fpEq rd rs1 rs2 => Sys2Proof.Machine.execFpEq rd rs1 rs2 s
  | .xfAdd l rd rs1 rs2 => Sys2Proof.Machine.execXfAdd l rd rs1 rs2 s
  | .xfSub l rd rs1 rs2 => Sys2Proof.Machine.execXfSub l rd rs1 rs2 s
  | .xfNeg l rd rs1 => Sys2Proof.Machine.execXfNeg l rd rs1 s
  | .xfMul l rd rs1 rs2 => Sys2Proof.Machine.execXfMul l rd rs1 rs2 s
  | .xfInv l rd rs1 => Sys2Proof.Machine.execXfInv l rd rs1 s
  | .xfDiv l rd rs1 rs2 => Sys2Proof.Machine.execXfDiv l rd rs1 rs2 s
  | .xfExp l rd rs1 rs2 => Sys2Proof.Machine.execXfExp l rd rs1 rs2 s
  | .xfEq l rd rs1 rs2 => Sys2Proof.Machine.execXfEq l rd rs1 rs2 s
  | .xfMod l rd rs1 => Sys2Proof.Machine.execXfMod l rd rs1 s
  | .lift l rd rs1 => Sys2Proof.Machine.execLift l rd rs1 s
  | .ecIsZero k rd rs1 => Sys2Proof.Machine.execEcIsZero k rd rs1 s
  | .ecIsOnCurve k rd rs1 => Sys2Proof.Machine.execEcIsOnCurve k rd rs1 s
  | .ecAdd k rd rs1 rs2 => Sys2Proof.Machine.execEcAdd k rd rs1 rs2 s
  | .ecDbl k rd rs1 => Sys2Proof.Machine.execEcDbl k rd rs1 s
  | .ecNeg k rd rs1 => Sys2Proof.Machine.execEcNeg k rd rs1 s
  | .ecSmul k rd rs1 rs2 => Sys2Proof.Machine.execEcSmul k rd rs1 rs2 s
  | .line k rd rs1 rs2 rs3 => Sys2Proof.Machine.execLine k rd rs1 rs2 rs3 s
  | .miller rd rs1 rs2 => Sys2Proof.Machine.execMiller rd rs1 rs2 s
  | .frob l n rd rs1 => Sys2Proof.Machine.execFrob l n rd rs1 s
  | .conj rd rs1 => Sys2Proof.Machine.execConj rd rs1 s
  | .finalexp rd rs1 => Sys2Proof.Machine.execFinalexp rd rs1 s
  | .ecFrob k n rd rs1 => Sys2Proof.Machine.execEcFrob k n rd rs1 s
  | .untwist rd rs1 => Sys2Proof.Machine.execUntwist rd rs1 s
  | .twist rd rs1 => Sys2Proof.Machine.execTwist rd rs1 s
  | .subgrpG1 rd rs1 => Sys2Proof.Machine.execSubgrpG1 rd rs1 s
  | .subgrpG2 rd rs1 => Sys2Proof.Machine.execSubgrpG2 rd rs1 s
  | .pair rd rs1 rs2 => Sys2Proof.Machine.execPair rd rs1 rs2 s
  | .pairchk rd rs1 rs2 n => Sys2Proof.Machine.execPairchk rd rs1 rs2 n s

end Sys2Proof.Machine
end

