-- ==== Sys2Proof/Machine/Step.lean ====
section
/-! DEFINITION. One step of the engine (rule R110) and the word the next step accepts. -/

namespace Sys2Proof.Machine

/-- One step (rule R110). Where no word is accepted (FAULT, or an idle port) nothing changes; a word
that is no command raises `IllegalCommand` (rule R89). -/
def step (s : State) : Host.Outcome State Fault Refusal :=
  match s.fetch with
  | none => .next s.hold
  | some w =>
    match decode w with
    | .error _ => .next (s.rejectWord w)
    | .ok i => exec i s

/-- `s` with an opcode-table word as the first word on the command port. -/
def State.withFetchWord (s : State) (nbits w : Nat) : State :=
  s.placeWord (BitVec.ofNat 32 (w % 2 ^ nbits))

end Sys2Proof.Machine
end

