-- ==== Sys2Proof/Machine/Flags.lean ====
section
/-! DEFINITION. The engine has no flags (rule R34); its only status bits are those of the four status
registers, read by the host (rules R42 to R46). -/

namespace Sys2Proof.Machine

/-- The numeric code of a fault (rules R300, R307). -/
def FaultCode.code : FaultCode → BitVec 8
  | .divisionByZero => 1
  | .undefinedResult => 2
  | .singularCurve => 3
  | .pointAtInfinity => 4
  | .invalidSubgroupMembership => 5
  | .illegalCommand => 16
  | .operandEmpty => 17
  | .typeMismatch => 18
  | .contextInvalid => 19
  | .configLocked => 20
  | .badParameter => 21
  | .operandRange => 22
  | .badData => 23

/-- `STATUS.STATE`, bits 1:0 (rule R42). -/
def Mode.stateField : Mode → BitVec 2
  | .ready => 0
  | .fault _ => 2

/-- `STATUS.ERR`, bits 15:8 (rule R42). -/
def Mode.errField : Mode → BitVec 8
  | .ready => 0
  | .fault c => c.code

/-- `STATUS` as a word; bits 31:16 and 7:2 read as zero (rule R42). -/
def State.statusWord (s : State) : BitVec 32 :=
  (0 : BitVec 16) ++ s.mode.errField ++ (0 : BitVec 6) ++ s.mode.stateField

/-- `CFGVALID` as a word; bits 31:9 read as zero (rule R45). -/
def State.cfgValidWord (s : State) : BitVec 32 :=
  (0 : BitVec 23)
    ++ BitVec.ofBool s.pair.isSome ++ BitVec.ofBool s.twist.isSome
    ++ BitVec.ofBool s.curve2.isSome ++ BitVec.ofBool s.curve1.isSome
    ++ BitVec.ofBool s.curve0.isSome
    ++ BitVec.ofBool s.ext3.isSome ++ BitVec.ofBool s.ext2.isSome ++ BitVec.ofBool s.ext1.isSome
    ++ BitVec.ofBool s.prime.isSome

/-- The status register with the given number, as the host reads it (rules R42 to R46): 0 is STATUS, 1
FAULTCMD, 2 CMDCNT, 3 CFGVALID. A read changes nothing. -/
def State.readStatus (s : State) (n : BitVec 2) : BitVec 64 :=
  if n = 0 then s.statusWord.zeroExtend 64
  else if n = 1 then s.faultCmd.zeroExtend 64
  else if n = 2 then s.cmdCnt
  else s.cfgValidWord.zeroExtend 64

end Sys2Proof.Machine
end

