-- ==== Sys2Proof/Safety.lean ====
section
/-! DEFINITION. What a good state is: the invariants of 10_state.md (rules R23 to R26, R31, R35 to R41),
which hold at reset and which every step keeps, and the preconditions under which the levels are
fields (rule R160), in the words statements use. -/

namespace Sys2Proof.Machine

variable {α : Type}

/-- An element of an extension of degree `d`: exactly `d` coefficients, each an element of the level
below (rule R24). -/
abbrev ExtOk (ok : α → Prop) (d : Nat) (e : List α) : Prop := e.length = d ∧ ∀ c ∈ e, ok c

/-- A point with coordinates in the field (rules R26, R31). -/
def PointOk (ok : α → Prop) : Point α → Prop
  | .identity => True
  | .affine x y => ok x ∧ ok y

/-- An element of level `l`: the shape of rule R24, every integer in `[0, p)`. -/
def State.ElemOk (s : State) : (l : Level) → Elem l → Prop
  | .l0, a => a < s.p
  | .l1, e => ExtOk (· < s.p) (s.degree .l1) e
  | .l2, e => ExtOk (ExtOk (· < s.p) (s.degree .l1)) (s.degree .l2) e
  | .l3, e => ExtOk (ExtOk (ExtOk (· < s.p) (s.degree .l1)) (s.degree .l2)) (s.degree .l3) e

/-- A POLY of base level `b`: 1 to POLYMAX coefficients (rule R25). -/
def State.PolyOk (s : State) (b : Level) (c : List (Elem b)) : Prop :=
  1 ≤ c.length ∧ c.length ≤ s.build.polymax ∧ ∀ x ∈ c, s.ElemOk b x

/-- A register's content (rules R22 to R27, R31): well shaped, at a level that is usable. -/
def State.ValueOk (s : State) : Value → Prop
  | .empty => True
  | .int n => n.natAbs < 2 ^ (64 * s.build.slimbs)
  | .elem0 a => s.usable .l0 = true ∧ s.ElemOk .l0 a
  | .elem1 e => s.usable .l1 = true ∧ s.ElemOk .l1 e
  | .elem2 e => s.usable .l2 = true ∧ s.ElemOk .l2 e
  | .elem3 e => s.usable .l3 = true ∧ s.ElemOk .l3 e
  | .poly0 c => s.usable .l0 = true ∧ s.PolyOk .l0 c
  | .poly1 c => s.usable .l1 = true ∧ s.PolyOk .l1 c
  | .poly2 c => s.usable .l2 = true ∧ s.PolyOk .l2 c
  | .point0 P => s.usable .l0 = true ∧ PointOk (s.ElemOk .l0) P
  | .point1 P => s.usable .l1 = true ∧ PointOk (s.ElemOk .l1) P
  | .point2 P => s.usable .l2 = true ∧ PointOk (s.ElemOk .l2) P
  | .bool _ => True

/-- A valid EXT context (rule R37): degree 1 to DMAX, coefficients of the level below, the leading one
not zero, and the level below usable (rule R41). -/
def State.ModulusOk (s : State) (b : Level) (m : List (Elem b)) : Prop :=
  s.usable b = true ∧ 1 ≤ m.length - 1 ∧ m.length - 1 ≤ s.build.dmax ∧ (∀ c ∈ m, s.ElemOk b c) ∧
    (s.field b).isZero (m.getD (m.length - 1) (s.field b).zero) = false

/-- A valid CURVE context (rule R38): its level usable, its discriminant not zero. -/
def State.CurveOk (s : State) (k : Slot) (E : CurveCtx (Elem k.level)) : Prop :=
  s.usable k.level = true ∧ s.ElemOk k.level E.a ∧ s.ElemOk k.level E.b ∧
    ∃ d, discriminant (s.field k.level) E.a E.b = .ok d ∧ (s.field k.level).isZero d = false

/-- A valid TWISTCTX (rule R39): level 2 usable, both constants nonzero. -/
def State.TwistOk (s : State) (tw : TwistCtx) : Prop :=
  s.usable .l2 = true ∧ s.ElemOk .l2 tw.ux ∧ s.ElemOk .l2 tw.uy ∧
    (s.field .l2).isZero tw.ux = false ∧ (s.field .l2).isZero tw.uy = false

/-- A valid PAIRCTX (rules R40, R115): the contexts it depends on valid, its parameters legal. -/
def State.PairOk (s : State) (c : PairCtx) : Prop :=
  s.curve0.isSome = true ∧ s.curve1.isSome = true ∧ s.curve2.isSome = true ∧
    s.twist.isSome = true ∧
    2 ≤ c.r ∧ c.loopPos &&& c.loopNeg = 0 ∧ c.loopNeg < c.loopPos ∧
    (s.p ^ s.embedDegree - 1) % c.r = 0 ∧ (c.post = .conjugate → s.embedDegree % 2 = 0)

/-- The invariant of the engine. -/
structure State.Inv (s : State) : Prop where
  build : s.build.Legal
  regs : ∀ r : Reg, s.ValueOk (s.reg r)
  prime : ∀ p, s.prime = some p → 2 < p ∧ p < 2 ^ (64 * s.build.flimbs)
  ext1 : ∀ m, s.ext1 = some m → s.ModulusOk .l0 m
  ext2 : ∀ m, s.ext2 = some m → s.ModulusOk .l1 m
  ext3 : ∀ m, s.ext3 = some m → s.ModulusOk .l2 m
  curve0 : ∀ E, s.curve0 = some E → s.CurveOk .c0 E
  curve1 : ∀ E, s.curve1 = some E → s.CurveOk .c1 E
  curve2 : ∀ E, s.curve2 = some E → s.CurveOk .c2 E
  twist : ∀ tw, s.twist = some tw → s.TwistOk tw
  pair : ∀ c, s.pair = some c → s.PairOk c
  /-- FAULTCMD is zero while READY (rule R43). -/
  faultCmd : s.mode = .ready → s.faultCmd = 0

/-- The leading coefficient of `m_L` has an inverse in the level below (rule R161). -/
def State.LeadInvertible (s : State) : ExtLevel → Prop
  | .l1 => ∃ u, (s.field .l0).inv (s.m1.getD (s.m1.length - 1) (s.field .l0).zero) = .ok u
  | .l2 => ∃ u, (s.field .l1).inv (s.m2.getD (s.m2.length - 1) (s.field .l1).zero) = .ok u
  | .l3 => ∃ u, (s.field .l2).inv (s.m3.getD (s.m3.length - 1) (s.field .l2).zero) = .ok u

/-- The leading coefficient of every modulus up to level `l` has an inverse: all a multiplication or
reduction needs (rules R161, R170). It holds whenever the levels below `l` are fields. -/
def State.ModuliInvertible (s : State) : Level → Prop
  | .l0 => True
  | .l1 => s.LeadInvertible .l1
  | .l2 => s.LeadInvertible .l1 ∧ s.LeadInvertible .l2
  | .l3 => s.LeadInvertible .l1 ∧ s.LeadInvertible .l2 ∧ s.LeadInvertible .l3

/-- The engine inverts every nonzero element of level `l`. -/
def State.InvertsAll (s : State) (l : Level) : Prop :=
  ∀ a, s.ElemOk l a → (s.field l).isZero a = false → ∃ c, (s.field l).inv a = .ok c

/-- Levels 0 to `l` are fields, as far as the engine can tell: the precondition of rule R160 (`p` prime
and every modulus irreducible), said through the engine's own inversion. -/
def State.FieldsTo (s : State) : Level → Prop
  | .l0 => s.InvertsAll .l0
  | .l1 => s.InvertsAll .l0 ∧ s.InvertsAll .l1
  | .l2 => s.InvertsAll .l0 ∧ s.InvertsAll .l1 ∧ s.InvertsAll .l2
  | .l3 => s.InvertsAll .l0 ∧ s.InvertsAll .l1 ∧ s.InvertsAll .l2 ∧ s.InvertsAll .l3

/-- A safe run so far: no fault has been recorded (rule R312). -/
def State.Safe (s : State) : Prop := s.mode = .ready

/-- The register a command writes, if it has a destination (rules R29, R82). -/
def dest : Instr → Option Reg
  | .setp _ => none
  | .setmod _ _ => none
  | .setcurve _ _ _ => none
  | .settwist _ _ => none
  | .setpair _ _ _ _ => none
  | .ld rd => some rd
  | .st _ => none
  | .fpAdd rd _ _ => some rd
  | .fpSub rd _ _ => some rd
  | .fpNeg rd _ => some rd
  | .fpMul rd _ _ => some rd
  | .fpInv rd _ => some rd
  | .fpDiv rd _ _ => some rd
  | .fpExp rd _ _ => some rd
  | .fpEq rd _ _ => some rd
  | .xfAdd _ rd _ _ => some rd
  | .xfSub _ rd _ _ => some rd
  | .xfNeg _ rd _ => some rd
  | .xfMul _ rd _ _ => some rd
  | .xfInv _ rd _ => some rd
  | .xfDiv _ rd _ _ => some rd
  | .xfExp _ rd _ _ => some rd
  | .xfEq _ rd _ _ => some rd
  | .xfMod _ rd _ => some rd
  | .lift _ rd _ => some rd
  | .ecIsZero _ rd _ => some rd
  | .ecIsOnCurve _ rd _ => some rd
  | .ecAdd _ rd _ _ => some rd
  | .ecDbl _ rd _ => some rd
  | .ecNeg _ rd _ => some rd
  | .ecSmul _ rd _ _ => some rd
  | .line _ rd _ _ _ => some rd
  | .miller rd _ _ => some rd
  | .frob _ _ rd _ => some rd
  | .conj rd _ => some rd
  | .finalexp rd _ => some rd
  | .ecFrob _ _ rd _ => some rd
  | .untwist rd _ => some rd
  | .twist rd _ => some rd
  | .subgrpG1 rd _ => some rd
  | .subgrpG2 rd _ => some rd
  | .pair rd _ _ => some rd
  | .pairchk rd _ _ _ => some rd

end Sys2Proof.Machine
end

