-- ==== Sys2Proof/Algebra.lean ====
section
/-! DEFINITION. The levels as commutative rings, for statements: level 0 is the integers modulo `p`, and
level L is the polynomials over level L-1 modulo `m_L` (rules R10, R160). No command is defined by what
stands here. -/

namespace Sys2Proof.Machine

open Polynomial

/-- A coefficient list, constant term first (rule R13), as a polynomial over a ring, each coefficient
read by `φ`. -/
noncomputable def listPoly {α R : Type} [CommRing R] (φ : α → R) : List α → R[X]
  | [] => 0
  | c :: cs => C (φ c) + X * listPoly φ cs

/-- The ring of level 0. -/
abbrev State.Ring0 (s : State) : Type := ZMod s.p

/-- An element of level 0 in its ring. -/
def State.val0 (s : State) (a : Elem .l0) : s.Ring0 := (a : ZMod s.p)

/-- The ring of level 1: polynomials over level 0 modulo `m_1`. -/
abbrev State.Ring1 (s : State) : Type := AdjoinRoot (listPoly s.val0 s.m1)

/-- An element of level 1 in its ring. -/
noncomputable def State.val1 (s : State) (e : Elem .l1) : s.Ring1 :=
  AdjoinRoot.mk _ (listPoly s.val0 e)

/-- The ring of level 2: polynomials over level 1 modulo `m_2`. -/
abbrev State.Ring2 (s : State) : Type := AdjoinRoot (listPoly s.val1 s.m2)

/-- An element of level 2 in its ring. -/
noncomputable def State.val2 (s : State) (e : Elem .l2) : s.Ring2 :=
  AdjoinRoot.mk _ (listPoly s.val1 e)

/-- The ring of level 3: polynomials over level 2 modulo `m_3`. -/
abbrev State.Ring3 (s : State) : Type := AdjoinRoot (listPoly s.val2 s.m3)

/-- An element of level 3 in its ring. -/
noncomputable def State.val3 (s : State) (e : Elem .l3) : s.Ring3 :=
  AdjoinRoot.mk _ (listPoly s.val2 e)

/-- `P` holds of level `l` read in its ring: `P` is given the ring and the reading of elements in it. -/
def State.InRing (s : State) : (l : Level) →
    (P : (R : Type) → [CommRing R] → (Elem l → R) → Prop) → Prop
  | .l0, P => P s.Ring0 s.val0
  | .l1, P => P s.Ring1 s.val1
  | .l2, P => P s.Ring2 s.val2
  | .l3, P => P s.Ring3 s.val3

/-- The element `e` of level `l` is the polynomial `c` over the level below modulo `m_l` (rule R162). -/
def State.IsResidue (s : State) : (l : ExtLevel) → List (Elem l.base) → Elem l.level → Prop
  | .l1, c, e => s.val1 e = AdjoinRoot.mk _ (listPoly s.val0 c)
  | .l2, c, e => s.val2 e = AdjoinRoot.mk _ (listPoly s.val1 c)
  | .l3, c, e => s.val3 e = AdjoinRoot.mk _ (listPoly s.val2 c)

/-- The precondition of rule R160 for the levels up to `l`: `p` is prime and every modulus is
irreducible over the level below. -/
def State.FieldTower (s : State) : Level → Prop
  | .l0 => s.p.Prime
  | .l1 => s.p.Prime ∧ Irreducible (listPoly s.val0 s.m1)
  | .l2 => s.p.Prime ∧ Irreducible (listPoly s.val0 s.m1) ∧ Irreducible (listPoly s.val1 s.m2)
  | .l3 => s.p.Prime ∧ Irreducible (listPoly s.val0 s.m1) ∧ Irreducible (listPoly s.val1 s.m2) ∧
      Irreducible (listPoly s.val2 s.m3)

/-- The point `(x, y)` satisfies the equation of the curve `(a, b)` (rule R200), read in a ring. -/
def OnCurveEq {R : Type} [CommRing R] (a b x y : R) : Prop := y ^ 2 = x ^ 3 + a * x + b

/-- `(x3, y3)` is where the line of slope `m` through `(x1, y1)` leads, by the formulas of rule R204. -/
def SumFormula {R : Type} [CommRing R] (m x1 y1 x2 x3 y3 : R) : Prop :=
  x3 = m ^ 2 - x1 - x2 ∧ y3 = m * (x1 - x3) - y1

/-- `m` is the slope of the chord through two points (rule R203). -/
def ChordSlope {R : Type} [CommRing R] (m x1 y1 x2 y2 : R) : Prop := m * (x2 - x1) = y2 - y1

/-- `m` is the slope of the tangent at a point of a curve with parameter `a` (rule R203). -/
def TangentSlope {R : Type} [CommRing R] (a m x y : R) : Prop := m * (2 * y) = 3 * x ^ 2 + a

/-! ### Products, sums and lines of a level, as relations

What an operand and a result must satisfy in the level's ring. No function of the engine stands in any of
them but the zero of the level. -/

/-- `c` is the product of `a` and `b` in level `l` (rule R170). -/
def State.ProductIs (s : State) (l : Level) (a b c : Elem l) : Prop :=
  s.ElemOk l c ∧ s.InRing l fun _ _ φ => φ c = φ a * φ b

/-- `c` is the power `b^n` in level `l` (rules R145, R173). -/
def State.PowerIs (s : State) (l : Level) (b : Elem l) (n : Nat) (c : Elem l) : Prop :=
  s.ElemOk l c ∧ s.InRing l fun _ _ φ => φ c = φ b ^ n

/-- `m` is the slope of the line through `(x1, y1)` and `(x2, y2)` on a curve with parameter `a` (rule
R203): the chord's when the `x` differ, the tangent's, which there is where `y` is not zero, when they are
equal. -/
def State.SlopeIs (s : State) (l : Level) (a x1 y1 x2 y2 m : Elem l) : Prop :=
  s.ElemOk l m ∧ (x1 = x2 → y1 ≠ (s.field l).zero) ∧ s.InRing l fun _ _ φ =>
    (x1 = x2 → TangentSlope (φ a) (φ m) (φ x1) (φ y1)) ∧
      (x1 ≠ x2 → ChordSlope (φ m) (φ x1) (φ y1) (φ x2) (φ y2))

/-- `S` is the sum of `P` and `Q` by rule R204, on a curve with parameter `a`. There is none where `P = Q`
and `y = 0`. -/
def State.SumIs (s : State) (l : Level) (a : Elem l) : (P Q S : Point (Elem l)) → Prop
  | .identity, Q, S => S = Q
  | .affine x1 y1, .identity, S => S = .affine x1 y1
  | .affine x1 y1, .affine x2 y2, S =>
    (x1 = x2 ∧ y1 ≠ y2 → S = .identity) ∧
      (¬ (x1 = x2 ∧ y1 ≠ y2) → ∃ m x3 y3, S = .affine x3 y3 ∧ s.ElemOk l x3 ∧ s.ElemOk l y3 ∧
        s.SlopeIs l a x1 y1 x2 y2 m ∧
        s.InRing l fun _ _ φ => SumFormula (φ m) (φ x1) (φ y1) (φ x2) (φ x3) (φ y3))

/-- `v` is the line through `P` and `Q` evaluated at `T` by rule R230. There is none where a point is the
identity, or where `P = Q` and `y = 0`. -/
def State.LineIs (s : State) (l : Level) (a : Elem l) : (P Q T : Point (Elem l)) → Elem l → Prop
  | .affine x1 y1, .affine x2 y2, .affine xT yT, v =>
    s.ElemOk l v ∧
      (x1 = x2 ∧ y1 ≠ y2 → s.InRing l fun _ _ φ => φ v = φ xT - φ x1) ∧
      (¬ (x1 = x2 ∧ y1 ≠ y2) → ∃ m, s.SlopeIs l a x1 y1 x2 y2 m ∧
        s.InRing l fun _ _ φ => φ v = φ yT - φ y1 - φ m * (φ xT - φ x1))
  | _, _, _, _ => False

/-- `N` is `P` with its `y` negated (rule R205). -/
def State.NegativeIs (s : State) (l : Level) : (P N : Point (Elem l)) → Prop
  | .identity, N => N = .identity
  | .affine x y, N => ∃ y', N = .affine x y' ∧ s.ElemOk l y' ∧ s.InRing l fun _ _ φ => φ y' = -φ y

/-- `N` is `P` with both coordinates raised to the power `p^n` (rule R257). -/
def State.FrobeniusIs (s : State) (l : Level) (n : Nat) : (P N : Point (Elem l)) → Prop
  | .identity, N => N = .identity
  | .affine x y, N => ∃ x' y', N = .affine x' y' ∧ s.PowerIs l x (s.p ^ n) x' ∧
      s.PowerIs l y (s.p ^ n) y'

/-- `S` is the sum of `P` and `Q` by the complete group law (rule R207): as by rule R204, but that twice a
point with `y = 0` is the identity. -/
def State.CompleteSumIs (s : State) (l : Level) (a : Elem l) (P Q S : Point (Elem l)) : Prop :=
  (∃ x, P = .affine x (s.field l).zero ∧ Q = P ∧ S = .identity) ∨
    ((¬ ∃ x, P = .affine x (s.field l).zero ∧ Q = P) ∧ s.SumIs l a P Q S)

/-- `CompleteMultiple s l a P n S`: `S` is the multiple of `P` by `n` by the complete group law (rule R207),
one doubling and one conditional addition of `P` for each bit of `n`. -/
inductive CompleteMultiple (s : State) (l : Level) (a : Elem l) (P : Point (Elem l)) :
    Nat → Point (Elem l) → Prop where
  /-- No bit: the identity. -/
  | zero : CompleteMultiple s l a P 0 .identity
  /-- A bit 0 after the bits of `n`. -/
  | double {n : Nat} {S D : Point (Elem l)} : CompleteMultiple s l a P n S →
      s.CompleteSumIs l a S S D → CompleteMultiple s l a P (2 * n) D
  /-- A bit 1 after the bits of `n`. -/
  | doubleAdd {n : Nat} {S D T : Point (Elem l)} : CompleteMultiple s l a P n S →
      s.CompleteSumIs l a S S D → s.CompleteSumIs l a D P T →
      CompleteMultiple s l a P (2 * n + 1) T

end Sys2Proof.Machine
end

