-- ==== Sys2Proof/Certificates/Slice0/Obligations.lean ====
section
/-! DEFINITION. The statements for the provers, and the few words they are written in. -/

namespace Sys2Proof.Claims

open Sys2Proof.Machine

/-! ### The states a command can leave, written out

Each is the state before with the fields that change; whatever is not named is as before. The command's
word leaves `cmd`, the model's form of the command port (log entry 1). -/

/-- A command that completed and wrote `v` to `rd` (rules R29, R44, R110 step 8). -/
def Writes (s : State) (rd : Reg) (v : Value) : State :=
  { s with regs := s.regs.set rd.toNat v rd.isLt, cmdCnt := s.cmdCnt + 1, cmd := s.cmd.tail }

/-- A command that completed and wrote no register (rules R44, R110 step 8). -/
def Completes (s : State) : State :=
  { s with cmdCnt := s.cmdCnt + 1, cmd := s.cmd.tail }

/-- Fault entry with code `c` by the command word `w` (rule R310). -/
def Faults (s : State) (w : CmdWord) (c : FaultCode) : State :=
  { s with mode := .fault c, faultCmd := w, cmd := s.cmd.tail }

/-! ### The opcode map -/

/-- The opcodes of rule R87. -/
def assigned : List Nat :=
  [0x01, 0x02, 0x03, 0x04, 0x05, 0x08, 0x09, 0x10, 0x11, 0x12, 0x13, 0x14, 0x15, 0x16, 0x17, 0x20,
    0x21, 0x22, 0x23, 0x24, 0x25, 0x26, 0x27, 0x28, 0x29, 0x30, 0x31, 0x32, 0x33, 0x34, 0x35, 0x40,
    0x41, 0x50, 0x51, 0x52, 0x53, 0x54, 0x55, 0x56, 0x57, 0x58, 0x59]

/-- The opcode of a word (rule R81). -/
def opcode (w : CmdWord) : Nat := w.toNat / 2 ^ 24

/-- The `sel` field of a word (rule R81). -/
def selField (w : CmdWord) : Nat := w.toNat / 2 ^ 22 % 4

/-- The `fn` field of a word (rule R81). -/
def fnField (w : CmdWord) : Nat := w.toNat / 2 ^ 20 % 4

/-- The `rs3`, `rs2`, `rs1` or `rd` field of a word, at its lowest bit (rule R81). -/
def regField (w : CmdWord) (lowest : Nat) : Nat := w.toNat / 2 ^ lowest % 32

/-! ### Commands, their sources and their contexts -/

/-- What a command may write to its destination: the tags of rule R30. -/
def mayWrite (v : Value) : Instr → Bool
  | .setp _ | .setmod _ _ | .setcurve _ _ _ | .settwist _ _ | .setpair _ _ _ _ | .st _ => false
  | .ld _ => match v with
    | .empty | .bool _ => false
    | _ => true
  | .fpAdd _ _ _ | .fpSub _ _ _ | .fpNeg _ _ | .fpMul _ _ _ | .fpInv _ _ | .fpDiv _ _ _
  | .fpExp _ _ _ => (v.elem? .l0).isSome
  | .xfAdd l _ _ _ | .xfSub l _ _ _ | .xfNeg l _ _ | .xfMul l _ _ _ | .xfInv l _ _
  | .xfDiv l _ _ _ | .xfExp l _ _ _ | .xfMod l _ _ => (v.elem? l.level).isSome
  | .lift l _ _ | .frob l _ _ _ => (v.elem? l).isSome
  | .line k _ _ _ _ => (v.elem? k.level).isSome
  | .miller _ _ _ | .conj _ _ | .finalexp _ _ | .pair _ _ _ => (v.elem? .l2).isSome
  | .ecAdd k _ _ _ | .ecDbl k _ _ | .ecNeg k _ _ | .ecSmul k _ _ _ | .ecFrob k _ _ _ =>
    (v.point? k).isSome
  | .untwist _ _ => (v.point? .c2).isSome
  | .twist _ _ => (v.point? .c1).isSome
  | .fpEq _ _ _ | .xfEq _ _ _ _ | .ecIsZero _ _ _ | .ecIsOnCurve _ _ _ | .subgrpG1 _ _
  | .subgrpG2 _ _ | .pairchk _ _ _ _ => match v with
    | .bool _ => true
    | _ => false

/-- The contexts of a pairing configuration (rules R40, R236). -/
def pairReady (s : State) : Prop :=
  s.pair.isSome = true ∧ s.curve0.isSome = true ∧ s.curve1.isSome = true ∧
    s.curve2.isSome = true ∧ s.twist.isSome = true

/-- Steps 3 and 4 of rule R110 pass: the context the command writes is not valid yet, those it needs
are valid (rules R111 to R117, R263 to R267 and the headers of section 3 of files 41 to 46). LD, which
reads its record first (rule R116), has no source register. -/
def contextsReady (s : State) : Instr → Prop
  | .setp _ => s.prime = none
  | .setmod l _ => s.extValid l = false ∧ s.usable l.base = true
  | .setcurve k _ _ => s.curve k = none ∧ s.usable k.level = true
  | .settwist _ _ => s.twist = none ∧ s.usable .l2 = true
  | .setpair _ _ _ _ => s.pair = none ∧ s.curve0.isSome = true ∧ s.curve1.isSome = true ∧
      s.curve2.isSome = true ∧ s.twist.isSome = true
  | .ld _ | .st _ => True
  | .fpAdd _ _ _ | .fpSub _ _ _ | .fpNeg _ _ | .fpMul _ _ _ | .fpInv _ _ | .fpDiv _ _ _
  | .fpExp _ _ _ | .fpEq _ _ _ => s.usable .l0 = true
  | .xfAdd l _ _ _ | .xfSub l _ _ _ | .xfNeg l _ _ | .xfMul l _ _ _ | .xfInv l _ _
  | .xfDiv l _ _ _ | .xfExp l _ _ _ | .xfEq l _ _ _ | .xfMod l _ _ => s.usable l.level = true
  | .lift l _ _ | .frob l _ _ _ => s.usable l = true
  | .ecIsZero k _ _ | .ecIsOnCurve k _ _ | .ecAdd k _ _ _ | .ecDbl k _ _ | .ecNeg k _ _
  | .ecSmul k _ _ _ | .line k _ _ _ _ | .ecFrob k _ _ _ => (s.curve k).isSome = true
  | .conj _ _ => s.usable .l2 = true
  | .untwist _ _ | .twist _ _ => s.twist.isSome = true
  | .miller _ _ _ | .finalexp _ _ | .subgrpG1 _ _ | .subgrpG2 _ _ | .pair _ _ _
  | .pairchk _ _ _ _ => pairReady s

/-- The needed context rule R41 speaks of is not valid: step 4 of rule R110 fails, step 3 having passed
(rules R111 to R115, R236, R263 to R267 and the headers of section 3 of files 41 to 46). SETP and ST need
none; LD has its own test (rule R116). -/
def contextMissing (s : State) : Instr → Prop
  | .setp _ | .ld _ | .st _ => False
  | .setmod l _ => s.extValid l = false ∧ s.usable l.base = false
  | .setcurve k _ _ => s.curve k = none ∧ s.usable k.level = false
  | .settwist _ _ => s.twist = none ∧ s.usable .l2 = false
  | .setpair _ _ _ _ => s.pair = none ∧
      (s.curve0 = none ∨ s.curve1 = none ∨ s.curve2 = none ∨ s.twist = none)
  | .fpAdd _ _ _ | .fpSub _ _ _ | .fpNeg _ _ | .fpMul _ _ _ | .fpInv _ _ | .fpDiv _ _ _
  | .fpExp _ _ _ | .fpEq _ _ _ => s.usable .l0 = false
  | .xfAdd l _ _ _ | .xfSub l _ _ _ | .xfNeg l _ _ | .xfMul l _ _ _ | .xfInv l _ _
  | .xfDiv l _ _ _ | .xfExp l _ _ _ | .xfEq l _ _ _ | .xfMod l _ _ => s.usable l.level = false
  | .lift l _ _ | .frob l _ _ _ => s.usable l = false
  | .ecIsZero k _ _ | .ecIsOnCurve k _ _ | .ecAdd k _ _ _ | .ecDbl k _ _ | .ecNeg k _ _
  | .ecSmul k _ _ _ | .line k _ _ _ _ | .ecFrob k _ _ _ => s.curve k = none
  | .conj _ _ => s.usable .l2 = false
  | .untwist _ _ | .twist _ _ => s.twist = none
  | .miller _ _ _ | .finalexp _ _ | .subgrpG1 _ _ | .subgrpG2 _ _ | .pair _ _ _
  | .pairchk _ _ _ _ => s.pair = none

/-- An INT. -/
def isInt (v : Value) : Bool := v.int?.isSome

/-- An ELEM(l). -/
def isElem (l : Level) (v : Value) : Bool := (v.elem? l).isSome

/-- A POLY(l-1). -/
def isPoly (l : ExtLevel) (v : Value) : Bool := (v.poly? l).isSome

/-- A POINT(k). -/
def isPoint (k : Slot) (v : Value) : Bool := (v.point? k).isSome

/-- The level of an element, if the value is one. -/
def elemLevel : Value → Option Nat
  | .elem0 _ => some 0
  | .elem1 _ => some 1
  | .elem2 _ => some 2
  | .elem3 _ => some 3
  | _ => none

/-- The registers `first`, `first + 1`, ... of a run of PAIRCHK (rule R85 c). -/
def run (first : Reg) (n : BitVec 5) : List Reg :=
  (List.range n.toNat).map fun i => first + BitVec.ofNat 5 i

/-- The sources of a command in the order it reads them, each with what it must hold: the `src` patterns
of the command rules (rules R28, R30; LIFT: rule R193; PAIRCHK: rule R267). LD has no source. -/
def sources : Instr → List (Reg × (Value → Bool))
  | .setp r => [(r, isInt)]
  | .setmod l r => [(r, isPoly l)]
  | .setcurve k a b => [(a, isElem k.level), (b, isElem k.level)]
  | .settwist x y => [(x, isElem .l2), (y, isElem .l2)]
  | .setpair _ r pos neg => [(r, isInt), (pos, isInt), (neg, isInt)]
  | .ld _ => []
  | .st r => [(r, fun _ => true)]
  | .fpAdd _ a b | .fpSub _ a b | .fpMul _ a b | .fpDiv _ a b | .fpEq _ a b =>
    [(a, isElem .l0), (b, isElem .l0)]
  | .fpNeg _ a | .fpInv _ a => [(a, isElem .l0)]
  | .fpExp _ a e => [(a, isElem .l0), (e, isInt)]
  | .xfAdd l _ a b | .xfSub l _ a b | .xfMul l _ a b | .xfDiv l _ a b | .xfEq l _ a b =>
    [(a, isElem l.level), (b, isElem l.level)]
  | .xfNeg l _ a | .xfInv l _ a => [(a, isElem l.level)]
  | .xfExp l _ a e => [(a, isElem l.level), (e, isInt)]
  | .xfMod l _ c => [(c, isPoly l)]
  | .lift l _ a => [(a, fun v => isInt v || (elemLevel v).any (· ≤ l.toNat))]
  | .frob l _ _ a => [(a, isElem l)]
  | .ecIsZero k _ P | .ecIsOnCurve k _ P | .ecDbl k _ P | .ecNeg k _ P | .ecFrob k _ _ P =>
    [(P, isPoint k)]
  | .ecAdd k _ P Q => [(P, isPoint k), (Q, isPoint k)]
  | .ecSmul k _ P n => [(P, isPoint k), (n, isInt)]
  | .line k _ P Q T => [(P, isPoint k), (Q, isPoint k), (T, isPoint k)]
  | .miller _ Q P => [(Q, isPoint .c1), (P, isPoint .c0)]
  | .conj _ f | .finalexp _ f => [(f, isElem .l2)]
  | .untwist _ Q | .subgrpG2 _ Q => [(Q, isPoint .c1)]
  | .twist _ P => [(P, isPoint .c2)]
  | .subgrpG1 _ P => [(P, isPoint .c0)]
  | .pair _ P Q => [(P, isPoint .c0), (Q, isPoint .c1)]
  | .pairchk _ P Q n =>
    (run P n).map (fun r => (r, isPoint .c0)) ++ (run Q n).map fun r => (r, isPoint .c1)

/-! ### Records -/

/-- The `width` 64-bit words of `n`, least significant first (rule R65). -/
def wordsOf (width n : Nat) : List DataWord :=
  (List.range width).map fun i => BitVec.ofNat 64 (n / 2 ^ (64 * i))

/-- The integer that words stand for, least significant first (rules R65, R116). -/
def sumOf : List DataWord → Nat
  | [] => 0
  | w :: ws => w.toNat + 2 ^ 64 * sumOf ws

/-- The payload of an element or polynomial from its prime-field coefficients in order (rule R66). -/
def coefficientWords (s : State) (cs : List Nat) : List DataWord :=
  cs.flatMap (wordsOf s.build.flimbs)

/-- The payload of the identity point: INF word 1 and zero words for two coordinates (rules R66, R117). -/
def identityWords (s : State) (l : Level) : List DataWord :=
  1 :: List.replicate (2 * (s.coeffCount l * s.build.flimbs)) 0

/-- The record of a value (rules R66, R67, R117). -/
def recordOf (s : State) : Value → List DataWord
  | .empty => []
  | .int n => 0x01 :: (if n < 0 then 1 else 0) :: wordsOf s.build.slimbs n.natAbs
  | .elem0 a => 0x02 :: coefficientWords s [a]
  | .elem1 e => 0x12 :: coefficientWords s e
  | .elem2 e => 0x22 :: coefficientWords s e.flatten
  | .elem3 e => 0x32 :: coefficientWords s e.flatten.flatten
  | .poly0 c => BitVec.ofNat 64 (0x03 + 256 * c.length) :: coefficientWords s c
  | .poly1 c => BitVec.ofNat 64 (0x13 + 256 * c.length) :: coefficientWords s c.flatten
  | .poly2 c => BitVec.ofNat 64 (0x23 + 256 * c.length) :: coefficientWords s c.flatten.flatten
  | .point0 .identity => 0x04 :: identityWords s .l0
  | .point0 (.affine x y) => 0x04 :: 0 :: coefficientWords s [x, y]
  | .point1 .identity => 0x14 :: identityWords s .l1
  | .point1 (.affine x y) => 0x14 :: 0 :: coefficientWords s (x ++ y)
  | .point2 .identity => 0x24 :: identityWords s .l2
  | .point2 (.affine x y) => 0x24 :: 0 :: coefficientWords s (x.flatten ++ y.flatten)
  | .bool b => [0x05, if b then 1 else 0]

/-- The header of an ELEM, POLY (`n` coefficients) or POINT record (rule R67). -/
def headerWord (tag sel n : Nat) : DataWord := BitVec.ofNat 64 (tag + 16 * sel + 256 * n)

/-- Some prime-field coefficient among the `n` that the payload `ws` holds is not below `p` (rule R116). -/
def coefficientTooLarge (s : State) (n : Nat) (ws : List DataWord) : Prop :=
  ∃ j < n, s.p ≤ sumOf ((ws.drop (j * s.build.flimbs)).take s.build.flimbs)

/-! ### Contexts and points -/

/-- `s` with EXT[l] written (rule R112). -/
def withModulus (s : State) : (l : ExtLevel) → List (Elem l.base) → State
  | .l1, m => { s with ext1 := some m }
  | .l2, m => { s with ext2 := some m }
  | .l3, m => { s with ext3 := some m }

/-- `s` with CURVE[k] written (rule R113). -/
def withCurve (s : State) : (k : Slot) → CurveCtx (Elem k.level) → State
  | .c0, E => { s with curve0 := some E }
  | .c1, E => { s with curve1 := some E }
  | .c2, E => { s with curve2 := some E }

/-- The zero of a level (rule R160). -/
def zeroOf (s : State) (l : Level) : Elem l := (s.field l).zero

/-- A point of slot `k` on the curve `E` (rule R200), the identity included. -/
def OnCurve (s : State) (k : Slot) (E : CurveCtx (Elem k.level)) : Point (Elem k.level) → Prop
  | .identity => True
  | .affine x y => s.InRing k.level fun _ _ φ => OnCurveEq (φ E.a) (φ E.b) (φ x) (φ y)

/-- The element `e` at index 0 of a list of `d` coefficients, zeros `z` above it (rule R192). -/
def padded {α : Type} (z : α) (d : Nat) (e : α) : List α := e :: List.replicate (d - 1) z

/-- The zero of level 1: `d_1` zeros. -/
def zeros1 (s : State) : List Nat := List.replicate (s.degree .l1) 0

/-- The zero of level 2: `d_2` zeros of level 1. -/
def zeros2 (s : State) : List (List Nat) := List.replicate (s.degree .l2) (zeros1 s)

/-- An integer of level 0 at level `l`, by the steps of rule R192. -/
def atLevel (s : State) (a : Nat) : (l : Level) → Elem l
  | .l0 => a
  | .l1 => padded 0 (s.degree .l1) a
  | .l2 => padded (zeros1 s) (s.degree .l2) (padded 0 (s.degree .l1) a)
  | .l3 => padded (zeros2 s) (s.degree .l3)
      (padded (zeros1 s) (s.degree .l2) (padded 0 (s.degree .l1) a))

/-! ### The Miller loop (rule R235), in the ring of level 2 -/

/-- Digit `i` of the loop parameter, `bit(LOOP_POS, i) - bit(LOOP_NEG, i)` (rule R234). -/
def loopDigit (c : PairCtx) (i : Nat) : Int :=
  ((c.loopPos / 2 ^ i % 2 : Nat) : Int) - ((c.loopNeg / 2 ^ i % 2 : Nat) : Int)

/-- `R` is the untwist of `Q` (rule R258). -/
def UntwistIs (s : State) (tw : TwistCtx) : (Q : Point (List Nat)) → (R : Point (Elem .l2)) → Prop
  | .identity, R => R = .identity
  | .affine x y, R => ∃ x' y', R = .affine x' y' ∧
      s.ProductIs .l2 (padded (zeros1 s) (s.degree .l2) x) tw.ux x' ∧
      s.ProductIs .l2 (padded (zeros1 s) (s.degree .l2) y) tw.uy y'

/-- `g` is `f` times the line through `R` and `T` at `Pe`, and `S` is `R + T` on CURVE[2]. -/
def TimesLine (s : State) (e : PairEnv) (Pe T : Point (Elem .l2)) (f : Elem .l2)
    (R : Point (Elem .l2)) (g : Elem .l2) (S : Point (Elem .l2)) : Prop :=
  ∃ v, s.LineIs .l2 e.e2.a R T Pe v ∧ s.ProductIs .l2 f v g ∧ s.SumIs .l2 e.e2.a R T S

/-- The rounds of the loop for the digits below `i`, the highest first, lead from `f` and `R` to `g` and
`S`: each squares `f`, multiplies it by the line doubling `R` and doubles `R`; a digit 1 then adds `Qe` with
its line, a digit -1 its negative `nQ`. -/
def Rounds (s : State) (e : PairEnv) (Pe Qe nQ : Point (Elem .l2)) : (i : Nat) → (f : Elem .l2) →
    (R : Point (Elem .l2)) → (g : Elem .l2) → (S : Point (Elem .l2)) → Prop
  | 0, f, R, g, S => g = f ∧ S = R
  | i + 1, f, R, g, S => ∃ ff f1 R1, s.ProductIs .l2 f f ff ∧ TimesLine s e Pe R ff R f1 R1 ∧
      (loopDigit e.pair i = 0 → Rounds s e Pe Qe nQ i f1 R1 g S) ∧
      (loopDigit e.pair i = 1 → ∃ f2 R2, TimesLine s e Pe Qe f1 R1 f2 R2 ∧
        Rounds s e Pe Qe nQ i f2 R2 g S) ∧
      (loopDigit e.pair i = -1 → ∃ f2 R2, TimesLine s e Pe nQ f1 R1 f2 R2 ∧
        Rounds s e Pe Qe nQ i f2 R2 g S)

/-- The post-loop step leads from `f` and `R` to `g`: nothing for `POST = 0`; the two final lines, through
the Frobenius image of `Qe` and the negative of its second one, for 1; the power `p^(K/2)` for 2. -/
def PostStep (s : State) (e : PairEnv) (Pe Qe : Point (Elem .l2)) (f : Elem .l2)
    (R : Point (Elem .l2)) (g : Elem .l2) : Prop :=
  match e.pair.post with
  | .plain => g = f
  | .twoLines => ∃ Q1 F2 Q2 f1 R1 v, s.FrobeniusIs .l2 1 Qe Q1 ∧ s.FrobeniusIs .l2 2 Qe F2 ∧
      s.NegativeIs .l2 F2 Q2 ∧ TimesLine s e Pe Q1 f R f1 R1 ∧
      s.LineIs .l2 e.e2.a R1 Q2 Pe v ∧ s.ProductIs .l2 f1 v g
  | .conjugate => s.PowerIs .l2 f (s.p ^ (s.embedDegree / 2)) g

/-- `f` is the Miller value of `Q` and `P` (rule R235), neither of them the identity. -/
def MillerIs (s : State) (e : PairEnv) (Q : Point (List Nat)) (P : Point Nat) (f : List (List Nat)) :
    Prop :=
  ∃ x y Qx Qy nQ g S, P = .affine x y ∧ UntwistIs s e.tw Q (.affine Qx Qy) ∧
    s.NegativeIs .l2 (.affine Qx Qy) nQ ∧
    Rounds s e (.affine (atLevel s x .l2) (atLevel s y .l2)) (.affine Qx Qy) nQ
      e.pair.loopPos.log2 (atLevel s 1 .l2) (.affine Qx Qy) g S ∧
    PostStep s e (.affine (atLevel s x .l2) (atLevel s y .l2)) (.affine Qx Qy) g S f

/-- No point the Miller loop doubles from `R` on, over the digits below `i`, is the identity or has
`y = 0` (rules R234, R235). After the last digit, a loop with the two final lines needs the same of the
point reached and of the next one. -/
def LoopRegular (s : State) (e : PairEnv) (Qe nQ : Point (Elem .l2)) :
    Nat → Point (Elem .l2) → Prop
  | 0, R => e.pair.post = .twoLines → ∃ x y x' y' Q1, R = .affine x y ∧ y ≠ zeroOf s .l2 ∧
      s.FrobeniusIs .l2 1 Qe Q1 ∧ s.SumIs .l2 e.e2.a R Q1 (.affine x' y') ∧ y' ≠ zeroOf s .l2
  | i + 1, R => ∃ x y D, R = .affine x y ∧ y ≠ zeroOf s .l2 ∧ s.SumIs .l2 e.e2.a R R D ∧
      (loopDigit e.pair i = 0 → LoopRegular s e Qe nQ i D) ∧
      (loopDigit e.pair i = 1 → ∃ T, s.SumIs .l2 e.e2.a D Qe T ∧ LoopRegular s e Qe nQ i T) ∧
      (loopDigit e.pair i = -1 → ∃ T, s.SumIs .l2 e.e2.a D nQ T ∧ LoopRegular s e Qe nQ i T)

/-- The Miller loop of `Q` is regular from its start, the untwisted `Q` (rule R235). -/
def MillerRegular (s : State) (e : PairEnv) (Q : Point (List Nat)) : Prop :=
  ∃ x y nQ, UntwistIs s e.tw Q (.affine x y) ∧ y ≠ zeroOf s .l2 ∧
    s.NegativeIs .l2 (.affine x y) nQ ∧
    LoopRegular s e (.affine x y) nQ e.pair.loopPos.log2 (.affine x y)

/-- A point is in its subgroup: the identity, or a point of the curve whose multiple by `r` in the complete
group law is the identity (rules R207, R262). -/
def Member (s : State) (k : Slot) (E : CurveCtx (Elem k.level)) (r : Nat)
    (P : Point (Elem k.level)) : Prop :=
  P = .identity ∨ OnCurve s k E P ∧ CompleteMultiple s k.level E.a P r .identity

/-- The pairing configuration of a state, all of its contexts valid. -/
def pairIs (s : State) (e : PairEnv) : Prop :=
  s.pair = some e.pair ∧ s.curve0 = some e.e0 ∧ s.curve1 = some e.e1 ∧ s.curve2 = some e.e2 ∧
    s.twist = some e.tw

end Sys2Proof.Claims

open Sys2Proof Sys2Proof.Machine Sys2Proof.Claims

/-! ### Encoding -/

/-- Decoding the word of a well-formed command gives that command back, for every operand value
(rules R81, R82, R87, R88). -/
def Obligations.DecodeEncode : Prop :=
  ∀ i : Instr, i.wellFormed = true → decode (encode i) = .ok i

/-- Every word the decoder accepts is the word of the command it answers, and the command is
well formed: no accepted word has a nonzero unused field, and no two words are one command (rules R83,
R88). -/
def Obligations.DecodeSound : Prop :=
  ∀ (w : CmdWord) (i : Instr), decode w = .ok i → i.wellFormed = true ∧ encode i = w

/-- The opcodes of accepted words are the 43 of rule R87, and each is the opcode of some command. -/
def Obligations.AssignedOpcodes : Prop :=
  (∀ (w : CmdWord) (i : Instr), decode w = .ok i → opcode w ∈ assigned) ∧
    (∀ n ∈ assigned, ∃ i : Instr, i.wellFormed = true ∧ opcode (encode i) = n)

/-- The example words of rule R91 decode to the commands it writes beside them. -/
def Obligations.KnownWords : Prop :=
  decode 0x10000824 = .ok (.fpAdd 4 1 2) ∧ decode 0x23400C44 = .ok (.xfMul .l1 4 2 3) ∧
    decode 0x3200358E = .ok (.ecAdd .c0 14 12 13) ∧
    decode 0x40073593 = .ok (.line .c0 19 12 13 14) ∧
    decode 0x50900023 = .ok (.frob .l2 .one 3 1) ∧
    decode 0x05010400 = .ok (.setpair .plain 0 1 2) ∧
    decode 0x59010C2E = .ok (.pairchk 14 1 3 2) ∧ decode 0x08000001 = .ok (.ld 1) ∧
    decode 0x09000080 = .ok (.st 4)

/-- Words that are no command (rules R83, R84, R85, R88, R89): an unassigned opcode; an XF command or
SETMOD at level 0; slot 3; a Frobenius power of 0; `POST = 3`; a nonzero `rd` of ST; a PAIRCHK run past
`v31`; and the words of all zeros and all ones. -/
def Obligations.IllegalWords : Prop :=
  (∀ w, opcode w ∉ assigned → decode w = .error .unassignedOpcode) ∧
    (∀ w, (opcode w = 0x02 ∨ 0x20 ≤ opcode w ∧ opcode w ≤ 0x28) → selField w = 0 →
      decode w = .error .illegalSel) ∧
    (∀ w, (opcode w = 0x03 ∨ 0x30 ≤ opcode w ∧ opcode w ≤ 0x35 ∨ opcode w = 0x40 ∨
      opcode w = 0x53) → selField w = 3 → decode w = .error .illegalSel) ∧
    (∀ w, (opcode w = 0x50 ∨ opcode w = 0x53 ∧ selField w ≠ 3) → fnField w = 0 →
      decode w = .error .illegalFn) ∧
    (∀ w, opcode w = 0x05 → selField w = 0 → fnField w = 3 → decode w = .error .illegalFn) ∧
    (∀ w, opcode w = 0x09 → selField w = 0 → fnField w = 0 → regField w 0 ≠ 0 →
      decode w = .error .nonzeroUnused) ∧
    (∀ w, opcode w = 0x59 → selField w = 0 → fnField w = 0 →
      (32 < regField w 5 + regField w 15 ∨ 32 < regField w 10 + regField w 15) →
      decode w = .error .runPastV31) ∧
    decode 0 = .error .unassignedOpcode ∧ decode 0xFFFFFFFF = .error .unassignedOpcode

/-! ### The step -/

/-- A READY engine with a word on the command port that decodes to `i` runs `i` (rule R110). -/
def Obligations.StepRunsCommand : Prop :=
  ∀ (s : State) (w : CmdWord) (rest : List CmdWord) (i : Instr), s.mode = .ready →
    s.cmd = w :: rest → decode w = .ok i → step s = exec i s

/-- A READY engine given a word that is no command takes the fault IllegalCommand (rules R89, R310). -/
def Obligations.StepRejectsIllegal : Prop :=
  ∀ (s : State) (w : CmdWord) (rest : List CmdWord) (x : DecodeError), s.mode = .ready →
    s.cmd = w :: rest → decode w = .error x → step s = .next (Faults s w .illegalCommand)

/-- In the FAULT state, and while the command port is idle, a step changes nothing, and a word
presented in the FAULT state has no effect (rules R313, R319). That such a step exists at all is the
model's choice (log entry 3). -/
def Obligations.FaultAndIdleHold : Prop :=
  (∀ (s : State) (c : FaultCode), s.mode = .fault c →
      step s = .next s ∧ ∀ w, s.pushCommand w = s) ∧
    ∀ s : State, s.mode = .ready → s.cmd = [] → step s = .next s

/-- Every step keeps the invariants of the state: what registers and contexts hold is well shaped
(rules R24 to R27, R31), every valid context satisfies its checks (rules R35 to R41), and FAULTCMD is
zero while READY (rule R43). -/
def Obligations.StepKeepsInv : Prop :=
  ∀ s t : State, s.Inv → step s = .next t → t.Inv

/-- The invariants hold right after reset, whatever the legal build parameters (rules R49, R340). -/
def Obligations.ResetMeetsInv : Prop :=
  State.reset.Inv ∧ ∀ b : Config.Build, b.Legal → (State.resetWith b).Inv

/-- What any command in any state does to the state as a whole (rules R16, R110, R310, R311, R316): an LD
may hold with nothing changed; otherwise the command completes and counts, or it takes a fault that writes
STATUS and FAULTCMD and changes nothing else but the command port, which its word leaves, and, for LD, the
words popped from `din`. That the hold of an LD is a step, one that answers the state unchanged, is the
model's choice (log entry 3). -/
def Obligations.CommandOutcomes : Prop :=
  ∀ (i : Instr) (s : State), ∃ t, exec i s = .next t ∧
    ((t = s ∧ ∃ rd, i = .ld rd) ∨
      (t.mode = s.mode ∧ t.faultCmd = s.faultCmd ∧ t.cmdCnt = s.cmdCnt + 1 ∧ t.cmd = s.cmd.tail ∧
        t.build = s.build) ∨
      (∃ c, t = Faults s (encode i) c) ∨
      ∃ c n rd, i = .ld rd ∧ t = Faults { s with din := s.din.drop n } (encode i) c)

/-- A command changes no value register but its destination (rule R29). -/
def Obligations.OnlyDestinationChanges : Prop :=
  ∀ (i : Instr) (s t : State) (r : Reg), exec i s = .next t → dest i ≠ some r →
    t.reg r = s.reg r

/-- A register that changed holds a tag rule R30 lets the command write; none becomes EMPTY (rule
R22). -/
def Obligations.TagsByCommand : Prop :=
  ∀ (i : Instr) (s t : State) (r : Reg), exec i s = .next t → t.reg r ≠ s.reg r →
    mayWrite (t.reg r) i = true

/-- Only LD takes words from `din`, from its front; only ST gives words to `dout`, at its end (rules
R62, R63, R69). -/
def Obligations.PortDiscipline : Prop :=
  ∀ (i : Instr) (s t : State), exec i s = .next t →
    ((∀ rd, i ≠ .ld rd) → t.din = s.din) ∧ ((∀ r, i ≠ .st r) → t.dout = s.dout) ∧
      (∃ n, t.din = s.din.drop n) ∧ ∃ ws, t.dout = s.dout ++ ws

/-- A context is written by its own configuration command alone, and once: a valid context stays as it
is (rule R35). -/
def Obligations.ContextsWriteOnce : Prop :=
  ∀ (i : Instr) (s t : State), exec i s = .next t →
    ((s.prime.isSome = true ∨ ∀ r, i ≠ .setp r) → t.prime = s.prime) ∧
      ((s.ext1.isSome = true ∨ ∀ r, i ≠ .setmod .l1 r) → t.ext1 = s.ext1) ∧
      ((s.ext2.isSome = true ∨ ∀ r, i ≠ .setmod .l2 r) → t.ext2 = s.ext2) ∧
      ((s.ext3.isSome = true ∨ ∀ r, i ≠ .setmod .l3 r) → t.ext3 = s.ext3) ∧
      ((s.curve0.isSome = true ∨ ∀ a b, i ≠ .setcurve .c0 a b) → t.curve0 = s.curve0) ∧
      ((s.curve1.isSome = true ∨ ∀ a b, i ≠ .setcurve .c1 a b) → t.curve1 = s.curve1) ∧
      ((s.curve2.isSome = true ∨ ∀ a b, i ≠ .setcurve .c2 a b) → t.curve2 = s.curve2) ∧
      ((s.twist.isSome = true ∨ ∀ a b, i ≠ .settwist a b) → t.twist = s.twist) ∧
      ((s.pair.isSome = true ∨ ∀ p a b c, i ≠ .setpair p a b c) → t.pair = s.pair)

/-! ### Status registers and reset -/

/-- The four status registers as the host reads them (rules R42 to R45, R300, R307): STATE and ERR of
STATUS, FAULTCMD, CMDCNT, and the bits of CFGVALID. -/
def Obligations.StatusRegisters : Prop :=
  (∀ s : State, s.mode = .ready → s.readStatus 0 = 0) ∧
    (∀ (s : State) (c : FaultCode), s.mode = .fault c →
      s.readStatus 0 = BitVec.ofNat 64 (2 + 256 * c.code.toNat)) ∧
    (∀ s : State, (s.readStatus 1).toNat = s.faultCmd.toNat) ∧
    (∀ s : State, s.readStatus 2 = s.cmdCnt) ∧
    (∀ (s : State) (n : Nat), (s.readStatus 3).getLsbD n =
      [s.prime.isSome, s.ext1.isSome, s.ext2.isSome, s.ext3.isSome, s.curve0.isSome,
        s.curve1.isSome, s.curve2.isSome, s.twist.isSome, s.pair.isSome].getD n false) ∧
    [FaultCode.divisionByZero, .undefinedResult, .singularCurve, .pointAtInfinity,
        .invalidSubgroupMembership, .illegalCommand, .operandEmpty, .typeMismatch,
        .contextInvalid, .configLocked, .badParameter, .operandRange, .badData].map
      (fun c => c.code.toNat) = [1, 2, 3, 4, 5, 16, 17, 18, 19, 20, 21, 22, 23]

/-- Reset, from any state, leaves every register EMPTY, every context invalid, the status registers
zero and the data queues empty (rules R49, R312, R340). -/
def Obligations.ResetState : Prop :=
  ∀ s : State, (∀ r, s.assertReset.reg r = .empty) ∧ s.assertReset.mode = .ready ∧
    s.assertReset.readStatus 0 = 0 ∧ s.assertReset.readStatus 1 = 0 ∧
    s.assertReset.readStatus 2 = 0 ∧ s.assertReset.readStatus 3 = 0 ∧
    s.assertReset.din = [] ∧ s.assertReset.dout = [] ∧ s.assertReset.build = s.build

/-! ### Faults before a command's function -/

/-- A command whose contexts are ready reads its sources in order, and the first that fails a test names the
fault (rules R28, R195, R267, R315): OperandEmpty when its register is EMPTY, TypeMismatch when its tag,
level or slot is not the one the command names there, whatever the later sources hold. -/
def Obligations.FirstSourceChecked : Prop :=
  ∀ (i : Instr) (s : State) (before after : List (Reg × (Value → Bool))) (r : Reg)
    (accepts : Value → Bool), i.wellFormed = true → contextsReady s i →
    sources i = before ++ (r, accepts) :: after →
    (∀ q ∈ before, q.2 (s.reg q.1) = true) →
    (s.reg r = .empty → exec i s = .next (Faults s (encode i) .operandEmpty)) ∧
      (s.reg r ≠ .empty → accepts (s.reg r) = false →
        exec i s = .next (Faults s (encode i) .typeMismatch))

/-- A command that needs a context which is not valid faults with ContextInvalid, whatever its sources hold
(rules R41, R110 step 4, R315); while no context is valid at all, that is every command but SETP, ST and
LD (rule R342). -/
def Obligations.NothingConfigured : Prop :=
  (∀ (i : Instr) (s : State), i.wellFormed = true → contextMissing s i →
    exec i s = .next (Faults s (encode i) .contextInvalid)) ∧
  ∀ (i : Instr) (s : State), i.wellFormed = true → s.prime = none → s.ext1 = none →
    s.ext2 = none → s.ext3 = none → s.curve0 = none → s.curve1 = none → s.curve2 = none →
    s.twist = none → s.pair = none → (∀ r, i ≠ .setp r) → (∀ r, i ≠ .st r) → (∀ r, i ≠ .ld r) →
    exec i s = .next (Faults s (encode i) .contextInvalid)

/-- A configuration command whose context is valid faults with ConfigLocked, whatever its sources hold
(rules R35, R315). -/
def Obligations.ConfigLocked : Prop :=
  ∀ s : State,
    (∀ r, s.prime.isSome = true →
      exec (.setp r) s = .next (Faults s (encode (.setp r)) .configLocked)) ∧
    (∀ l r, s.extValid l = true →
      exec (.setmod l r) s = .next (Faults s (encode (.setmod l r)) .configLocked)) ∧
    (∀ k a b, (s.curve k).isSome = true →
      exec (.setcurve k a b) s = .next (Faults s (encode (.setcurve k a b)) .configLocked)) ∧
    (∀ a b, s.twist.isSome = true →
      exec (.settwist a b) s = .next (Faults s (encode (.settwist a b)) .configLocked)) ∧
    ∀ post a b c, s.pair.isSome = true →
      exec (.setpair post a b c) s =
        .next (Faults s (encode (.setpair post a b c)) .configLocked)

/-! ### Configuration -/

/-- SETP stores `p` when `2 < n < 2^(64*FLIMBS)` and faults with BadParameter otherwise (rule R111). -/
def Obligations.SetpOutcome : Prop :=
  ∀ (s : State) (r : Reg) (n : Int), s.prime = none → s.reg r = .int n →
    (2 < n ∧ n < 2 ^ (64 * s.build.flimbs) →
      exec (.setp r) s = .next { Completes s with prime := some n.toNat }) ∧
    (¬ (2 < n ∧ n < 2 ^ (64 * s.build.flimbs)) →
      exec (.setp r) s = .next (Faults s (encode (.setp r)) .badParameter))

/-- SETMOD stores a modulus of degree 1 to DMAX whose leading coefficient is not zero, and faults with
BadParameter on any other (rule R112). The last coefficient given is the leading one. -/
def Obligations.SetmodOutcome : Prop :=
  ∀ (s : State) (l : ExtLevel) (r : Reg) (low : List (Elem l.base)) (lead : Elem l.base), s.Inv →
    s.extValid l = false → s.usable l.base = true → s.reg r = .ofPoly l (low ++ [lead]) →
    (1 ≤ low.length ∧ low.length ≤ s.build.dmax ∧ lead ≠ zeroOf s l.base →
      exec (.setmod l r) s = .next (Completes (withModulus s l (low ++ [lead])))) ∧
    (¬ (1 ≤ low.length ∧ low.length ≤ s.build.dmax ∧ lead ≠ zeroOf s l.base) →
      exec (.setmod l r) s = .next (Faults s (encode (.setmod l r)) .badParameter))

/-- SETCURVE, the leading coefficients of the moduli being invertible, stores `(a, b)` when `4*a^3 +
27*b^2` is not zero in the ring of the slot's level, and faults with SingularCurve when it is (rules
R113, R303). -/
def Obligations.SetcurveOutcome : Prop :=
  ∀ (s : State) (k : Slot) (r1 r2 : Reg) (a b : Elem k.level), s.Inv → s.curve k = none →
    s.usable k.level = true → s.ModuliInvertible k.level → s.reg r1 = .ofElem k.level a →
    s.reg r2 = .ofElem k.level b →
    (s.InRing k.level (fun _ _ φ => 4 * φ a ^ 3 + 27 * φ b ^ 2 ≠ 0) →
      exec (.setcurve k r1 r2) s = .next (Completes (withCurve s k { a := a, b := b }))) ∧
    (s.InRing k.level (fun _ _ φ => 4 * φ a ^ 3 + 27 * φ b ^ 2 = 0) →
      exec (.setcurve k r1 r2) s =
        .next (Faults s (encode (.setcurve k r1 r2)) .singularCurve))

/-- SETTWIST stores two nonzero elements of level 2 and faults with BadParameter when one is zero (rule
R114). -/
def Obligations.SettwistOutcome : Prop :=
  ∀ (s : State) (r1 r2 : Reg) (ux uy : List (List Nat)), s.Inv → s.twist = none →
    s.usable .l2 = true → s.reg r1 = .elem2 ux → s.reg r2 = .elem2 uy →
    (ux ≠ zeros2 s ∧ uy ≠ zeros2 s →
      exec (.settwist r1 r2) s =
        .next { Completes s with twist := some { ux := ux, uy := uy } }) ∧
    (ux = zeros2 s ∨ uy = zeros2 s →
      exec (.settwist r1 r2) s = .next (Faults s (encode (.settwist r1 r2)) .badParameter))

/-- SETPAIR stores its parameters when they pass every test of rule R115 and faults with BadParameter
otherwise. -/
def Obligations.SetpairOutcome : Prop :=
  ∀ (s : State) (post : Post) (r1 r2 r3 : Reg) (r pos neg : Int), s.pair = none →
    s.curve0.isSome = true → s.curve1.isSome = true → s.curve2.isSome = true →
    s.twist.isSome = true → s.reg r1 = .int r → s.reg r2 = .int pos → s.reg r3 = .int neg →
    let K := s.degree .l1 * s.degree .l2
    let legal := 2 ≤ r ∧ 0 ≤ pos ∧ 0 ≤ neg ∧ pos.toNat &&& neg.toNat = 0 ∧ neg < pos ∧
      (s.p ^ K - 1) % r.toNat = 0 ∧ ¬ (post = .conjugate ∧ K % 2 = 1)
    (legal → exec (.setpair post r1 r2 r3) s = .next
      { Completes s with
        pair := some { r := r.toNat, loopPos := pos.toNat, loopNeg := neg.toNat, post := post } }) ∧
    (¬ legal → exec (.setpair post r1 r2 r3) s =
      .next (Faults s (encode (.setpair post r1 r2 r3)) .badParameter))

/-! ### Transfer -/

/-- LD of an INT record (rule R116): sign word 0 or 1 and SLIMBS words of magnitude; any other sign
word is BadData, with the whole record popped (rule R64). -/
def Obligations.LdInt : Prop :=
  ∀ (s : State) (rd : Reg) (sign : DataWord) (mag rest : List DataWord),
    s.din = 0x01 :: sign :: mag ++ rest → mag.length = s.build.slimbs →
    (sign = 0 → exec (.ld rd) s = .next (Writes { s with din := rest } rd (.int (sumOf mag)))) ∧
    (sign = 1 → exec (.ld rd) s = .next (Writes { s with din := rest } rd (.int (-sumOf mag)))) ∧
    (1 < sign.toNat →
      exec (.ld rd) s = .next (Faults { s with din := rest } (encode (.ld rd)) .badData))

/-- LD and the prime-field coefficients of a record (rules R64, R116): of ELEM(0), a value below `p` is
written; a coefficient of any ELEM, POLY or affine POINT record that is not below `p` is OperandRange, with
the whole record popped; and while the record's level is not usable the header alone is popped and the
fault is ContextInvalid. -/
def Obligations.LdPrimeField : Prop :=
  (∀ (s : State) (rd : Reg) (ws rest : List DataWord) (p : Nat), s.din = 0x02 :: ws ++ rest →
    ws.length = s.build.flimbs → s.prime = some p →
    (sumOf ws < p →
      exec (.ld rd) s = .next (Writes { s with din := rest } rd (.elem0 (sumOf ws)))) ∧
    (p ≤ sumOf ws →
      exec (.ld rd) s = .next (Faults { s with din := rest } (encode (.ld rd)) .operandRange))) ∧
  (∀ (s : State) (rd : Reg) (l : Level) (ws rest : List DataWord), s.usable l = true →
    s.din = headerWord 2 l.toNat 0 :: ws ++ rest →
    ws.length = s.coeffCount l * s.build.flimbs → coefficientTooLarge s (s.coeffCount l) ws →
    exec (.ld rd) s = .next (Faults { s with din := rest } (encode (.ld rd)) .operandRange)) ∧
  (∀ (s : State) (rd : Reg) (l : ExtLevel) (n : Nat) (ws rest : List DataWord),
    s.usable l.base = true → 1 ≤ n → n ≤ s.build.polymax → n ≤ 255 →
    s.din = headerWord 3 l.base.toNat n :: ws ++ rest →
    ws.length = n * (s.coeffCount l.base * s.build.flimbs) →
    coefficientTooLarge s (n * s.coeffCount l.base) ws →
    exec (.ld rd) s = .next (Faults { s with din := rest } (encode (.ld rd)) .operandRange)) ∧
  (∀ (s : State) (rd : Reg) (k : Slot) (ws rest : List DataWord), s.usable k.level = true →
    s.din = headerWord 4 k.level.toNat 0 :: 0 :: ws ++ rest →
    ws.length = 2 * (s.coeffCount k.level * s.build.flimbs) →
    coefficientTooLarge s (2 * s.coeffCount k.level) ws →
    exec (.ld rd) s = .next (Faults { s with din := rest } (encode (.ld rd)) .operandRange)) ∧
  ∀ (s : State) (rd : Reg) (rest : List DataWord),
    (∀ l : Level, s.usable l = false → s.din = headerWord 2 l.toNat 0 :: rest → exec (.ld rd) s =
      .next (Faults { s with din := rest } (encode (.ld rd)) .contextInvalid)) ∧
    (∀ (l : ExtLevel) (n : Nat), s.usable l.base = false → 1 ≤ n → n ≤ s.build.polymax → n ≤ 255 →
      s.din = headerWord 3 l.base.toNat n :: rest → exec (.ld rd) s =
        .next (Faults { s with din := rest } (encode (.ld rd)) .contextInvalid)) ∧
    ∀ k : Slot, s.usable k.level = false → s.din = headerWord 4 k.level.toNat 0 :: rest →
      exec (.ld rd) s =
        .next (Faults { s with din := rest } (encode (.ld rd)) .contextInvalid)

/-- LD of a POINT record by its INF word (rule R116): 1 gives the identity whatever the coordinate
words are; above 1 is BadData, with the whole record popped. -/
def Obligations.LdPointInf : Prop :=
  ∀ (s : State) (rd : Reg) (k : Slot) (inf : DataWord) (ws rest : List DataWord),
    s.din = headerWord 4 k.level.toNat 0 :: inf :: ws ++ rest → s.usable k.level = true →
    ws.length = 2 * (s.coeffCount k.level * s.build.flimbs) →
    (inf = 1 → exec (.ld rd) s =
      .next (Writes { s with din := rest } rd (.ofPoint k .identity))) ∧
    (1 < inf.toNat →
      exec (.ld rd) s = .next (Faults { s with din := rest } (encode (.ld rd)) .badData))

/-- LD of a malformed header (rules R67, R116): a nonzero reserved bit; a tag other than 1 to 4, BOOL
included; a count with a tag other than POLY; a selector with INT; slot 3; base level 3; a POLY count of
0 or above POLYMAX. The header alone is popped (rule R64) and the fault is BadData. -/
def Obligations.LdBadHeader : Prop :=
  ∀ (s : State) (rd : Reg) (h : DataWord) (rest : List DataWord), s.din = h :: rest →
    let tag := h.toNat % 16
    let sel := h.toNat / 16 % 4
    let n := h.toNat / 256 % 256
    (h.toNat / 2 ^ 16 ≠ 0 ∨ h.toNat / 64 % 4 ≠ 0 ∨ tag = 0 ∨ 5 ≤ tag ∨ (tag ≠ 3 ∧ n ≠ 0) ∨
      (tag = 1 ∧ sel ≠ 0) ∨ (tag = 4 ∧ sel = 3) ∨
      (tag = 3 ∧ (sel = 3 ∨ n = 0 ∨ s.build.polymax < n))) →
    exec (.ld rd) s = .next (Faults { s with din := rest } (encode (.ld rd)) .badData)

/-- LD holds while `din` is empty, and while it holds less than the record its header announces (rules R62,
R116). That the hold is a step, one that answers the state unchanged, is the model's choice (log entry 3);
that nothing is popped before the whole record is there is the form rule R116 lets a model take (log entry
16). -/
def Obligations.LdHolds : Prop :=
  ∀ (s : State) (rd : Reg),
    (s.din = [] → exec (.ld rd) s = .next s) ∧
    (∀ rest, s.din = 0x01 :: rest → rest.length < 1 + s.build.slimbs →
      exec (.ld rd) s = .next s) ∧
    (∀ (l : Level) rest, s.usable l = true → s.din = headerWord 2 l.toNat 0 :: rest →
      rest.length < s.coeffCount l * s.build.flimbs → exec (.ld rd) s = .next s) ∧
    (∀ (l : ExtLevel) n rest, s.usable l.base = true → 1 ≤ n → n ≤ s.build.polymax → n ≤ 255 →
      s.din = headerWord 3 l.base.toNat n :: rest →
      rest.length < n * (s.coeffCount l.base * s.build.flimbs) → exec (.ld rd) s = .next s) ∧
    (∀ (k : Slot) rest, s.usable k.level = true → s.din = headerWord 4 k.level.toNat 0 :: rest →
      rest.length < 1 + 2 * (s.coeffCount k.level * s.build.flimbs) → exec (.ld rd) s = .next s)

/-- The record ST pushes for an INT, ELEM, POLY or POINT value, given back on `din`, is loaded by LD as
the same value, and exactly its words are popped (rules R66, R67, R116, R117). -/
def Obligations.LdReloadsRecord : Prop :=
  ∀ (s : State) (rd r : Reg) (rest : List DataWord), s.Inv → s.reg r ≠ .empty →
    (∀ b, s.reg r ≠ .bool b) → s.din = recordOf s (s.reg r) ++ rest →
    exec (.ld rd) s = .next (Writes { s with din := rest } rd (s.reg r))

/-- ST appends the record of any value but EMPTY to `dout` and changes no register; on EMPTY it faults
and pushes nothing (rules R66, R67, R117). -/
def Obligations.StPushesRecord : Prop :=
  ∀ (s : State) (r : Reg),
    (s.reg r ≠ .empty →
      exec (.st r) s = .next { Completes s with dout := s.dout ++ recordOf s (s.reg r) }) ∧
    (s.reg r = .empty → exec (.st r) s = .next (Faults s (encode (.st r)) .operandEmpty))

/-! ### The prime field -/

/-- FP.ADD, FP.SUB, FP.NEG, FP.MUL and FP.EQ on reduced operands: the sum, difference, negative and
product modulo `p`, and equality; none of the five faults (rules R141, R142, R146 to R150, R154). -/
def Obligations.FpArithmetic : Prop :=
  ∀ (s : State) (rd r1 r2 : Reg) (p a b : Nat), s.prime = some p → s.reg r1 = .elem0 a →
    s.reg r2 = .elem0 b → a < p → b < p →
    exec (.fpAdd rd r1 r2) s = .next (Writes s rd (.elem0 ((a + b) % p))) ∧
    exec (.fpSub rd r1 r2) s =
      .next (Writes s rd (.elem0 (if b ≤ a then a - b else a + p - b))) ∧
    exec (.fpNeg rd r1) s = .next (Writes s rd (.elem0 (if a = 0 then 0 else p - a))) ∧
    exec (.fpMul rd r1 r2) s = .next (Writes s rd (.elem0 (a * b % p))) ∧
    exec (.fpEq rd r1 r2) s = .next (Writes s rd (.bool (decide (a = b))))

/-- FP.INV and FP.DIV (rules R143, R144, R151, R152): an operand prime to `p` has its inverse written,
or the quotient; every other operand, 0 among them, faults with DivisionByZero. -/
def Obligations.FpInverse : Prop :=
  ∀ (s : State) (rd r1 r2 : Reg) (p a b : Nat), s.prime = some p → 2 < p → s.reg r1 = .elem0 a →
    s.reg r2 = .elem0 b → a < p → b < p →
    (Nat.Coprime b p →
      (∃ c, c < p ∧ b * c % p = 1 ∧ exec (.fpInv rd r2) s = .next (Writes s rd (.elem0 c))) ∧
      ∃ c, c < p ∧ b * c % p = a ∧
        exec (.fpDiv rd r1 r2) s = .next (Writes s rd (.elem0 c))) ∧
    (¬ Nat.Coprime b p →
      exec (.fpInv rd r2) s = .next (Faults s (encode (.fpInv rd r2)) .divisionByZero) ∧
      exec (.fpDiv rd r1 r2) s = .next (Faults s (encode (.fpDiv rd r1 r2)) .divisionByZero))

/-- FP.EXP (rules R145, R153): `0^0` is UndefinedResult; a power with a non-negative exponent is the
power modulo `p`; with a negative exponent it is the inverse of the power, and DivisionByZero when the
base has no inverse. -/
def Obligations.FpPower : Prop :=
  ∀ (s : State) (rd r1 r2 : Reg) (p a : Nat) (e : Int), s.prime = some p → 2 < p →
    s.reg r1 = .elem0 a → s.reg r2 = .int e → a < p →
    (a = 0 → e = 0 →
      exec (.fpExp rd r1 r2) s = .next (Faults s (encode (.fpExp rd r1 r2)) .undefinedResult)) ∧
    (¬ (a = 0 ∧ e = 0) → 0 ≤ e →
      exec (.fpExp rd r1 r2) s = .next (Writes s rd (.elem0 (a ^ e.toNat % p)))) ∧
    (e < 0 → Nat.Coprime a p → ∃ c, c < p ∧ c * a ^ (-e).toNat % p = 1 ∧
      exec (.fpExp rd r1 r2) s = .next (Writes s rd (.elem0 c))) ∧
    (e < 0 → ¬ Nat.Coprime a p →
      exec (.fpExp rd r1 r2) s = .next (Faults s (encode (.fpExp rd r1 r2)) .divisionByZero))

/-! ### Extension fields -/

/-- XF.ADD, XF.SUB, XF.NEG and XF.EQ (rules R163, R174, R176 to R178, R183, R194): the sum, difference
and negative in the ring of the level, and equality of elements; none of the four can fault on elements
of a usable level. At level 1 the first three are also written out coefficient by coefficient. -/
def Obligations.XfLinear : Prop :=
  (∀ (s : State) (l : ExtLevel) (rd r1 r2 : Reg) (a b : Elem l.level), s.Inv →
    s.usable l.level = true → s.reg r1 = .ofElem l.level a → s.reg r2 = .ofElem l.level b →
    (∃ c, s.ElemOk l.level c ∧ s.InRing l.level (fun _ _ φ => φ c = φ a + φ b) ∧
      exec (.xfAdd l rd r1 r2) s = .next (Writes s rd (.ofElem l.level c))) ∧
    (∃ c, s.ElemOk l.level c ∧ s.InRing l.level (fun _ _ φ => φ c = φ a - φ b) ∧
      exec (.xfSub l rd r1 r2) s = .next (Writes s rd (.ofElem l.level c))) ∧
    (∃ c, s.ElemOk l.level c ∧ s.InRing l.level (fun _ _ φ => φ c = -φ a) ∧
      exec (.xfNeg l rd r1) s = .next (Writes s rd (.ofElem l.level c))) ∧
    (a = b → exec (.xfEq l rd r1 r2) s = .next (Writes s rd (.bool true))) ∧
    (a ≠ b → exec (.xfEq l rd r1 r2) s = .next (Writes s rd (.bool false)))) ∧
  ∀ (s : State) (rd r1 r2 : Reg) (a b : List Nat), s.Inv → s.usable .l1 = true →
    s.reg r1 = .elem1 a → s.reg r2 = .elem1 b →
    exec (.xfAdd .l1 rd r1 r2) s =
      .next (Writes s rd (.elem1 (List.zipWith (fun x y => (x + y) % s.p) a b))) ∧
    exec (.xfSub .l1 rd r1 r2) s = .next (Writes s rd
      (.elem1 (List.zipWith (fun x y => if y ≤ x then x - y else x + s.p - y) a b))) ∧
    exec (.xfNeg .l1 rd r1) s =
      .next (Writes s rd (.elem1 (a.map fun x => if x = 0 then 0 else s.p - x)))

/-- XF.MUL writes the product in `Elem(L-1)[x]/(m)`, at every level (rules R160, R170, R179, R194): it
completes whenever the moduli's leading coefficients are invertible. -/
def Obligations.XfProduct : Prop :=
  ∀ (s : State) (l : ExtLevel) (rd r1 r2 : Reg) (a b : Elem l.level), s.Inv →
    s.usable l.level = true → s.ModuliInvertible l.level → s.reg r1 = .ofElem l.level a →
    s.reg r2 = .ofElem l.level b →
    ∃ c, s.ElemOk l.level c ∧ s.InRing l.level (fun _ _ φ => φ c = φ a * φ b) ∧
      exec (.xfMul l rd r1 r2) s = .next (Writes s rd (.ofElem l.level c))

/-- XF.INV and XF.DIV in a tower of fields (rules R171, R172, R180, R181, R194): a nonzero element has
its inverse, or the quotient, written; zero faults with DivisionByZero. -/
def Obligations.XfInverse : Prop :=
  ∀ (s : State) (l : ExtLevel) (rd r1 r2 : Reg) (a b : Elem l.level), s.Inv →
    s.usable l.level = true → s.FieldTower l.level → s.reg r1 = .ofElem l.level a →
    s.reg r2 = .ofElem l.level b →
    (b ≠ zeroOf s l.level →
      (∃ c, s.ElemOk l.level c ∧ s.InRing l.level (fun _ _ φ => φ b * φ c = 1) ∧
        exec (.xfInv l rd r2) s = .next (Writes s rd (.ofElem l.level c))) ∧
      ∃ c, s.ElemOk l.level c ∧ s.InRing l.level (fun _ _ φ => φ c * φ b = φ a) ∧
        exec (.xfDiv l rd r1 r2) s = .next (Writes s rd (.ofElem l.level c))) ∧
    (b = zeroOf s l.level →
      exec (.xfInv l rd r2) s = .next (Faults s (encode (.xfInv l rd r2)) .divisionByZero) ∧
      exec (.xfDiv l rd r1 r2) s = .next (Faults s (encode (.xfDiv l rd r1 r2)) .divisionByZero))

/-- XF.INV in any configuration, fields or not, writes an inverse or faults with DivisionByZero: it
never writes a value that is no inverse (rules R143, R171, R301). -/
def Obligations.XfInverseOrFault : Prop :=
  ∀ (s : State) (l : ExtLevel) (rd r : Reg) (a : Elem l.level), s.Inv →
    s.usable l.level = true → s.reg r = .ofElem l.level a →
    (∃ c, s.ElemOk l.level c ∧ s.InRing l.level (fun _ _ φ => φ a * φ c = 1) ∧
      exec (.xfInv l rd r) s = .next (Writes s rd (.ofElem l.level c))) ∨
    exec (.xfInv l rd r) s = .next (Faults s (encode (.xfInv l rd r)) .divisionByZero)

/-- XF.EXP in a tower of fields (rules R145, R173, R182, R194): the zero element to the power 0 is
UndefinedResult; a power with a non-negative exponent is the power in the ring of the level; with a
negative exponent it is the inverse of the power, and DivisionByZero for zero. -/
def Obligations.XfPower : Prop :=
  ∀ (s : State) (l : ExtLevel) (rd r1 r2 : Reg) (a : Elem l.level) (e : Int), s.Inv →
    s.usable l.level = true → s.FieldTower l.level → s.reg r1 = .ofElem l.level a →
    s.reg r2 = .int e →
    (a = zeroOf s l.level → e = 0 →
      exec (.xfExp l rd r1 r2) s = .next (Faults s (encode (.xfExp l rd r1 r2)) .undefinedResult)) ∧
    (¬ (a = zeroOf s l.level ∧ e = 0) → 0 ≤ e →
      ∃ c, s.ElemOk l.level c ∧ s.InRing l.level (fun _ _ φ => φ c = φ a ^ e.toNat) ∧
        exec (.xfExp l rd r1 r2) s = .next (Writes s rd (.ofElem l.level c))) ∧
    (a ≠ zeroOf s l.level → e < 0 →
      ∃ c, s.ElemOk l.level c ∧ s.InRing l.level (fun _ _ φ => φ c * φ a ^ (-e).toNat = 1) ∧
        exec (.xfExp l rd r1 r2) s = .next (Writes s rd (.ofElem l.level c))) ∧
    (a = zeroOf s l.level → e < 0 →
      exec (.xfExp l rd r1 r2) s = .next (Faults s (encode (.xfExp l rd r1 r2)) .divisionByZero))

/-- XF.MOD, the leading coefficients of the moduli being invertible, writes the residue of any
polynomial over the level below, short or long, zero leading coefficients included (rules R162,
R175, R194). -/
def Obligations.XfReduces : Prop :=
  ∀ (s : State) (l : ExtLevel) (rd r : Reg) (c : List (Elem l.base)), s.Inv →
    s.usable l.level = true → s.ModuliInvertible l.level → s.reg r = .ofPoly l c →
    ∃ e, s.ElemOk l.level e ∧ s.IsResidue l c e ∧
      exec (.xfMod l rd r) s = .next (Writes s rd (.ofElem l.level e))

/-- LIFT (rules R192, R193): an INT of any sign, reduced modulo `p`, and an element of any level up
to the target level, put at index 0 with zeros above at every level in between. -/
def Obligations.LiftResult : Prop :=
  ∀ (s : State) (l : Level) (rd r : Reg), s.usable l = true →
    (∀ n : Int, s.reg r = .int n →
      exec (.lift l rd r) s = .next (Writes s rd (.ofElem l (atLevel s (n % s.p).toNat l)))) ∧
    (∀ a, s.reg r = .elem0 a →
      exec (.lift l rd r) s = .next (Writes s rd (.ofElem l (atLevel s a l)))) ∧
    (∀ e, s.reg r = .ofElem l e → exec (.lift l rd r) s = .next (Writes s rd (.ofElem l e))) ∧
    (∀ e, s.reg r = .elem1 e → l = .l2 → exec (.lift l rd r) s =
      .next (Writes s rd (.elem2 (padded (zeros1 s) (s.degree .l2) e)))) ∧
    (∀ e, s.reg r = .elem1 e → l = .l3 → exec (.lift l rd r) s =
      .next (Writes s rd (.elem3 (padded (zeros2 s) (s.degree .l3)
        (padded (zeros1 s) (s.degree .l2) e))))) ∧
    (∀ e, s.reg r = .elem2 e → l = .l3 → exec (.lift l rd r) s =
      .next (Writes s rd (.elem3 (padded (zeros2 s) (s.degree .l3) e))))

/-- A prime `p` and irreducible moduli make the levels up to `l` fields as the engine computes in them (rules
R143, R160, R171): at every such level every nonzero element has an inverse, and the engine answers it. -/
def Obligations.IrreducibleModuliMakeFields : Prop :=
  ∀ (s : State) (l : Level), s.Inv → s.usable l = true → s.FieldTower l →
    s.FieldsTo l ∧ ∀ a : Elem l, s.ElemOk l a → a ≠ zeroOf s l →
      ∃ c, (s.field l).inv a = .ok c ∧ s.ElemOk l c ∧ s.InRing l fun _ _ φ => φ a * φ c = 1

/-! ### Curves -/

/-- EC.ISZERO, EC.ISONCURVE and EC.NEG, the leading coefficients of the moduli being invertible
(rules R201, R202, R205, R210, R211, R214): whether the point is the identity, whether it is on the
curve, the identity counting as on it, and the point with its `y` negated; none of the three faults.
-/
def Obligations.EcPredicates : Prop :=
  ∀ (s : State) (k : Slot) (rd r : Reg) (E : CurveCtx (Elem k.level)) (P : Point (Elem k.level)),
    s.Inv → s.curve k = some E → s.ModuliInvertible k.level → s.reg r = .ofPoint k P →
    (P = .identity → exec (.ecIsZero k rd r) s = .next (Writes s rd (.bool true))) ∧
    (P ≠ .identity → exec (.ecIsZero k rd r) s = .next (Writes s rd (.bool false))) ∧
    (OnCurve s k E P → exec (.ecIsOnCurve k rd r) s = .next (Writes s rd (.bool true))) ∧
    (¬ OnCurve s k E P → exec (.ecIsOnCurve k rd r) s = .next (Writes s rd (.bool false))) ∧
    (P = .identity → exec (.ecNeg k rd r) s = .next (Writes s rd (.ofPoint k .identity))) ∧
    (∀ x y, P = .affine x y → ∃ y', s.ElemOk k.level y' ∧
      s.InRing k.level (fun _ _ φ => φ y' = -φ y) ∧
      exec (.ecNeg k rd r) s = .next (Writes s rd (.ofPoint k (.affine x y'))))

/-- EC.ADD over a field (rules R203, R204, R212): the identity on either side, a point and one with its
`x` and another `y`, the chord, the tangent, and DivisionByZero for the tangent at `y = 0`. -/
def Obligations.EcAddition : Prop :=
  ∀ (s : State) (k : Slot) (rd r1 r2 : Reg) (E : CurveCtx (Elem k.level))
    (P Q : Point (Elem k.level)), s.Inv → s.curve k = some E → s.FieldTower k.level →
    s.reg r1 = .ofPoint k P → s.reg r2 = .ofPoint k Q →
    (P = .identity → exec (.ecAdd k rd r1 r2) s = .next (Writes s rd (.ofPoint k Q))) ∧
    (Q = .identity → exec (.ecAdd k rd r1 r2) s = .next (Writes s rd (.ofPoint k P))) ∧
    ∀ x1 y1 x2 y2, P = .affine x1 y1 → Q = .affine x2 y2 →
      (x1 = x2 → y1 ≠ y2 →
        exec (.ecAdd k rd r1 r2) s = .next (Writes s rd (.ofPoint k .identity))) ∧
      (x1 ≠ x2 → ∃ m x3 y3, s.ElemOk k.level x3 ∧ s.ElemOk k.level y3 ∧
        s.InRing k.level (fun _ _ φ => ChordSlope (φ m) (φ x1) (φ y1) (φ x2) (φ y2) ∧
          SumFormula (φ m) (φ x1) (φ y1) (φ x2) (φ x3) (φ y3)) ∧
        exec (.ecAdd k rd r1 r2) s = .next (Writes s rd (.ofPoint k (.affine x3 y3)))) ∧
      (x1 = x2 → y1 = y2 → y1 ≠ zeroOf s k.level → ∃ m x3 y3, s.ElemOk k.level x3 ∧
        s.ElemOk k.level y3 ∧
        s.InRing k.level (fun _ _ φ => TangentSlope (φ E.a) (φ m) (φ x1) (φ y1) ∧
          SumFormula (φ m) (φ x1) (φ y1) (φ x2) (φ x3) (φ y3)) ∧
        exec (.ecAdd k rd r1 r2) s = .next (Writes s rd (.ofPoint k (.affine x3 y3)))) ∧
      (x1 = x2 → y1 = y2 → y1 = zeroOf s k.level →
        exec (.ecAdd k rd r1 r2) s =
          .next (Faults s (encode (.ecAdd k rd r1 r2)) .divisionByZero))

/-- EC.DBL over a field (rule R213): the identity, the tangent, DivisionByZero at `y = 0`; and in
every state, over a field or not, every result and fault of EC.DBL is that of EC.ADD with its source
twice. -/
def Obligations.EcDoubling : Prop :=
  (∀ (s : State) (k : Slot) (rd r : Reg) (E : CurveCtx (Elem k.level)) (P : Point (Elem k.level)),
    s.Inv → s.curve k = some E → s.FieldTower k.level → s.reg r = .ofPoint k P →
    (P = .identity → exec (.ecDbl k rd r) s = .next (Writes s rd (.ofPoint k .identity))) ∧
    ∀ x y, P = .affine x y →
      (y ≠ zeroOf s k.level → ∃ m x3 y3, s.ElemOk k.level x3 ∧ s.ElemOk k.level y3 ∧
        s.InRing k.level (fun _ _ φ => TangentSlope (φ E.a) (φ m) (φ x) (φ y) ∧
          SumFormula (φ m) (φ x) (φ y) (φ x) (φ x3) (φ y3)) ∧
        exec (.ecDbl k rd r) s = .next (Writes s rd (.ofPoint k (.affine x3 y3)))) ∧
      (y = zeroOf s k.level →
        exec (.ecDbl k rd r) s = .next (Faults s (encode (.ecDbl k rd r)) .divisionByZero))) ∧
  ∀ (s : State) (k : Slot) (rd r : Reg),
    (∀ v, exec (.ecAdd k rd r r) s = .next (Writes s rd v) ↔
      exec (.ecDbl k rd r) s = .next (Writes s rd v)) ∧
    ∀ c, exec (.ecAdd k rd r r) s = .next (Faults s (encode (.ecAdd k rd r r)) c) ↔
      exec (.ecDbl k rd r) s = .next (Faults s (encode (.ecDbl k rd r)) c)

/-- Over a field, the sum EC.ADD writes for two points on the curve is on the curve (rule R200). -/
def Obligations.EcSumOnCurve : Prop :=
  ∀ (s : State) (k : Slot) (rd r1 r2 : Reg) (E : CurveCtx (Elem k.level))
    (P Q R : Point (Elem k.level)), s.Inv → s.curve k = some E → s.FieldTower k.level →
    s.reg r1 = .ofPoint k P → s.reg r2 = .ofPoint k Q → OnCurve s k E P → OnCurve s k E Q →
    exec (.ecAdd k rd r1 r2) s = .next (Writes s rd (.ofPoint k R)) → OnCurve s k E R

/-- EC.SMUL of the identity, and by 0, 1 and -1 (rules R206, R215). -/
def Obligations.EcSmallMultiples : Prop :=
  ∀ (s : State) (k : Slot) (rd r1 r2 : Reg) (E : CurveCtx (Elem k.level))
    (P : Point (Elem k.level)) (n : Int), s.Inv → s.curve k = some E →
    s.reg r1 = .ofPoint k P → s.reg r2 = .int n →
    (P = .identity ∨ n = 0 →
      exec (.ecSmul k rd r1 r2) s = .next (Writes s rd (.ofPoint k .identity))) ∧
    (n = 1 → exec (.ecSmul k rd r1 r2) s = .next (Writes s rd (.ofPoint k P))) ∧
    (∀ x y, n = -1 → P = .affine x y → ∃ y', s.ElemOk k.level y' ∧
      s.InRing k.level (fun _ _ φ => φ y' = -φ y) ∧
      exec (.ecSmul k rd r1 r2) s = .next (Writes s rd (.ofPoint k (.affine x y'))))

/-- EC.SMUL doubles and adds (rule R206): from the multiple by `n` it makes the multiple by `2n` by one
doubling, and the multiple by `2n + 1` by adding the point after it; and it negates first: in every result
and fault, the multiple of a point by `-n` is the multiple by `n` of what EC.NEG writes for that point. -/
def Obligations.EcDoubleAndAdd : Prop :=
  (∀ (s : State) (k : Slot) (rd r1 r2 r3 r4 : Reg) (E : CurveCtx (Elem k.level))
    (P R D : Point (Elem k.level)) (n : Nat), s.curve k = some E → s.reg r1 = .ofPoint k P →
    s.reg r2 = .int n → s.reg r3 = .int (2 * n) → s.reg r4 = .int (2 * n + 1) →
    exec (.ecSmul k rd r1 r2) s = .next (Writes s rd (.ofPoint k R)) →
    pointAdd (s.field k.level) E R R = .ok D →
    exec (.ecSmul k rd r1 r3) s = .next (Writes s rd (.ofPoint k D)) ∧
    ∀ S, pointAdd (s.field k.level) E D P = .ok S →
      exec (.ecSmul k rd r1 r4) s = .next (Writes s rd (.ofPoint k S))) ∧
  ∀ (s : State) (k : Slot) (rd r1 r2 r3 r4 : Reg) (n : Nat),
    exec (.ecNeg k rd r1) s = .next (Writes s rd (s.reg r3)) →
    s.reg r2 = .int (-n) → s.reg r4 = .int n →
    (∀ v, exec (.ecSmul k rd r1 r2) s = .next (Writes s rd v) ↔
      exec (.ecSmul k rd r3 r4) s = .next (Writes s rd v)) ∧
    ∀ c, exec (.ecSmul k rd r1 r2) s = .next (Faults s (encode (.ecSmul k rd r1 r2)) c) ↔
      exec (.ecSmul k rd r3 r4) s = .next (Faults s (encode (.ecSmul k rd r3 r4)) c)

/-- EC.SMUL over a field completes, with a point of the curve, for every scalar and every point of a
curve that has no point with `y = 0` (rules R206, R215). -/
def Obligations.EcMultipleCompletes : Prop :=
  ∀ (s : State) (k : Slot) (rd r1 r2 : Reg) (E : CurveCtx (Elem k.level))
    (P : Point (Elem k.level)) (n : Int), s.Inv → s.curve k = some E → s.FieldTower k.level →
    (∀ x, s.ElemOk k.level x → ¬ OnCurve s k E (.affine x (zeroOf s k.level))) →
    s.reg r1 = .ofPoint k P → s.reg r2 = .int n → OnCurve s k E P →
    ∃ R, OnCurve s k E R ∧
      exec (.ecSmul k rd r1 r2) s = .next (Writes s rd (.ofPoint k R))

/-! ### Lines and the Miller loop -/

/-- LINE over a field (rules R230, R231): PointAtInfinity when any point is the identity; the vertical,
the chord and the tangent line at `T`; DivisionByZero for the tangent at `y = 0`. -/
def Obligations.LineResult : Prop :=
  ∀ (s : State) (k : Slot) (rd r1 r2 r3 : Reg) (E : CurveCtx (Elem k.level))
    (P Q T : Point (Elem k.level)), s.Inv → s.curve k = some E → s.FieldTower k.level →
    s.reg r1 = .ofPoint k P → s.reg r2 = .ofPoint k Q → s.reg r3 = .ofPoint k T →
    (P = .identity ∨ Q = .identity ∨ T = .identity →
      exec (.line k rd r1 r2 r3) s =
        .next (Faults s (encode (.line k rd r1 r2 r3)) .pointAtInfinity)) ∧
    ∀ x1 y1 x2 y2 xT yT, P = .affine x1 y1 → Q = .affine x2 y2 → T = .affine xT yT →
      (x1 = x2 → y1 ≠ y2 → ∃ v, s.ElemOk k.level v ∧
        s.InRing k.level (fun _ _ φ => φ v = φ xT - φ x1) ∧
        exec (.line k rd r1 r2 r3) s = .next (Writes s rd (.ofElem k.level v))) ∧
      (x1 ≠ x2 → ∃ m v, s.ElemOk k.level v ∧
        s.InRing k.level (fun _ _ φ => ChordSlope (φ m) (φ x1) (φ y1) (φ x2) (φ y2) ∧
          φ v = φ yT - φ y1 - φ m * (φ xT - φ x1)) ∧
        exec (.line k rd r1 r2 r3) s = .next (Writes s rd (.ofElem k.level v))) ∧
      (x1 = x2 → y1 = y2 → y1 ≠ zeroOf s k.level → ∃ m v, s.ElemOk k.level v ∧
        s.InRing k.level (fun _ _ φ => TangentSlope (φ E.a) (φ m) (φ x1) (φ y1) ∧
          φ v = φ yT - φ y1 - φ m * (φ xT - φ x1)) ∧
        exec (.line k rd r1 r2 r3) s = .next (Writes s rd (.ofElem k.level v))) ∧
      (x1 = x2 → y1 = y2 → y1 = zeroOf s k.level →
        exec (.line k rd r1 r2 r3) s =
          .next (Faults s (encode (.line k rd r1 r2 r3)) .divisionByZero))

/-- MILLER over fields (rules R234 to R236, R305): PointAtInfinity when either point is the identity; where
there is a Miller value, by the rounds of the loop and the post-loop step read in the ring of level 2, it is
what MILLER writes; and there is one whenever no point the loop and its final lines double or draw a line at
is the identity or has `y = 0`. -/
def Obligations.MillerOutcome : Prop :=
  ∀ (s : State) (rd r1 r2 : Reg) (e : PairEnv) (Q : Point (List Nat)) (P : Point Nat), s.Inv →
    pairIs s e → s.FieldTower .l2 → s.reg r1 = .point1 Q → s.reg r2 = .point0 P →
    (Q = .identity ∨ P = .identity → exec (.miller rd r1 r2) s =
      .next (Faults s (encode (.miller rd r1 r2)) .pointAtInfinity)) ∧
    (∀ f, MillerIs s e Q P f → exec (.miller rd r1 r2) s = .next (Writes s rd (.elem2 f))) ∧
    (P ≠ .identity → MillerRegular s e Q → ∃ f, MillerIs s e Q P f)

/-! ### Powers, twist maps, subgroup checks and pairings -/

/-- FROB, the leading coefficients of the moduli being invertible, writes the power `a^(p^n)`, CONJ
the power `f^(p^(K/2))` for even `K` and BadParameter for odd `K` (rules R250 to R253); at level 0,
with `p` prime, FROB leaves the element as it is. -/
def Obligations.FrobeniusPowers : Prop :=
  (∀ (s : State) (l : Level) (n : FrobPow) (rd r : Reg) (a : Elem l), s.Inv → s.usable l = true →
    s.ModuliInvertible l → s.reg r = .ofElem l a →
    ∃ c, s.ElemOk l c ∧ s.InRing l (fun _ _ φ => φ c = φ a ^ s.p ^ n.toNat) ∧
      exec (.frob l n rd r) s = .next (Writes s rd (.ofElem l c))) ∧
  (∀ (s : State) (n : FrobPow) (rd r : Reg) (a : Nat), s.Inv → s.usable .l0 = true →
    s.p.Prime → s.reg r = .elem0 a →
    exec (.frob .l0 n rd r) s = .next (Writes s rd (.elem0 a))) ∧
  ∀ (s : State) (rd r : Reg) (f : List (List Nat)), s.Inv → s.usable .l2 = true →
    s.ModuliInvertible .l2 → s.reg r = .elem2 f →
    (s.embedDegree % 2 = 0 → ∃ c, s.ElemOk .l2 c ∧
      s.InRing .l2 (fun _ _ φ => φ c = φ f ^ s.p ^ (s.embedDegree / 2)) ∧
      exec (.conj rd r) s = .next (Writes s rd (.elem2 c))) ∧
    (s.embedDegree % 2 = 1 →
      exec (.conj rd r) s = .next (Faults s (encode (.conj rd r)) .badParameter))

/-- EC.FROB, the leading coefficients of the moduli being invertible, raises both coordinates to the
power `p^n` and leaves the identity (rule R257). -/
def Obligations.EcFrobenius : Prop :=
  ∀ (s : State) (k : Slot) (n : FrobPow) (rd r : Reg) (E : CurveCtx (Elem k.level))
    (P : Point (Elem k.level)), s.Inv → s.curve k = some E → s.ModuliInvertible k.level →
    s.reg r = .ofPoint k P →
    (P = .identity →
      exec (.ecFrob k n rd r) s = .next (Writes s rd (.ofPoint k .identity))) ∧
    ∀ x y, P = .affine x y → ∃ x' y', s.ElemOk k.level x' ∧ s.ElemOk k.level y' ∧
      s.InRing k.level (fun _ _ φ => φ x' = φ x ^ s.p ^ n.toNat ∧ φ y' = φ y ^ s.p ^ n.toNat) ∧
      exec (.ecFrob k n rd r) s = .next (Writes s rd (.ofPoint k (.affine x' y')))

/-- FINALEXP, the leading coefficients of the moduli being invertible, writes the power
`f^((p^K-1)/r)` and faults with DivisionByZero on zero (rules R254, R255). -/
def Obligations.FinalExponentiation : Prop :=
  ∀ (s : State) (rd r : Reg) (e : PairEnv) (f : List (List Nat)), s.Inv → pairIs s e →
    s.ModuliInvertible .l2 → s.reg r = .elem2 f →
    (f ≠ zeros2 s → ∃ c, s.ElemOk .l2 c ∧
      s.InRing .l2 (fun _ _ φ => φ c = φ f ^ ((s.p ^ s.embedDegree - 1) / e.pair.r)) ∧
      exec (.finalexp rd r) s = .next (Writes s rd (.elem2 c))) ∧
    (f = zeros2 s →
      exec (.finalexp rd r) s = .next (Faults s (encode (.finalexp rd r)) .divisionByZero))

/-- UNTWIST, the leading coefficients of the moduli being invertible, multiplies the lifted
coordinates by UX and UY, and leaves the identity (rules R258, R259). -/
def Obligations.UntwistResult : Prop :=
  ∀ (s : State) (rd r : Reg) (tw : TwistCtx) (Q : Point (List Nat)), s.Inv → s.twist = some tw →
    s.ModuliInvertible .l2 → s.reg r = .point1 Q →
    (Q = .identity → exec (.untwist rd r) s = .next (Writes s rd (.point2 .identity))) ∧
    ∀ x y, Q = .affine x y → ∃ x' y', s.ElemOk .l2 x' ∧ s.ElemOk .l2 y' ∧
      s.InRing .l2 (fun _ _ φ => φ x' = φ (padded (zeros1 s) (s.degree .l2) x) * φ tw.ux ∧
        φ y' = φ (padded (zeros1 s) (s.degree .l2) y) * φ tw.uy) ∧
      exec (.untwist rd r) s = .next (Writes s rd (.point2 (.affine x' y')))

/-- TWIST over fields is the inverse of the untwist map (rules R260, R261): it gives back the slot-1
point a slot-2 point is the untwist of, leaves the identity, and faults with OperandRange when there
is no such point. -/
def Obligations.TwistInvertsUntwist : Prop :=
  ∀ (s : State) (rd r : Reg) (tw : TwistCtx) (P : Point (List (List Nat))), s.Inv →
    s.twist = some tw → s.FieldTower .l2 → s.reg r = .point2 P →
    (P = .identity → exec (.twist rd r) s = .next (Writes s rd (.point1 .identity))) ∧
    (∀ x y, s.ElemOk .l1 x → s.ElemOk .l1 y → s.untwist tw (.affine x y) = .ok P →
      exec (.twist rd r) s = .next (Writes s rd (.point1 (.affine x y)))) ∧
    (P ≠ .identity →
      (∀ x y, s.ElemOk .l1 x → s.ElemOk .l1 y → s.untwist tw (.affine x y) ≠ .ok P) →
      exec (.twist rd r) s = .next (Faults s (encode (.twist rd r)) .operandRange))

/-- SUBGRP.G1 and SUBGRP.G2 over fields complete for every point (rules R207, R262 to R264): true for the
identity, false off the curve, and on the curve whether the multiple by `r` is the identity, in the complete
group law: one doubling and one conditional addition for each bit of `r`, where twice a point with `y = 0` is
the identity. -/
def Obligations.SubgroupChecks : Prop :=
  (∀ (s : State) (rd r : Reg) (e : PairEnv) (P : Point Nat), s.Inv → pairIs s e →
    s.FieldTower .l0 → s.reg r = .point0 P →
    (P = .identity → exec (.subgrpG1 rd r) s = .next (Writes s rd (.bool true))) ∧
    (¬ OnCurve s .c0 e.e0 P → exec (.subgrpG1 rd r) s = .next (Writes s rd (.bool false))) ∧
    (OnCurve s .c0 e.e0 P → (∃ R, CompleteMultiple s .l0 e.e0.a P e.pair.r R) ∧
      ∀ R, CompleteMultiple s .l0 e.e0.a P e.pair.r R →
        exec (.subgrpG1 rd r) s = .next (Writes s rd (.bool (decide (R = .identity)))))) ∧
  ∀ (s : State) (rd r : Reg) (e : PairEnv) (Q : Point (List Nat)), s.Inv → pairIs s e →
    s.FieldTower .l1 → s.reg r = .point1 Q →
    (Q = .identity → exec (.subgrpG2 rd r) s = .next (Writes s rd (.bool true))) ∧
    (¬ OnCurve s .c1 e.e1 Q → exec (.subgrpG2 rd r) s = .next (Writes s rd (.bool false))) ∧
    (OnCurve s .c1 e.e1 Q → (∃ R, CompleteMultiple s .l1 e.e1.a Q e.pair.r R) ∧
      ∀ R, CompleteMultiple s .l1 e.e1.a Q e.pair.r R →
        exec (.subgrpG2 rd r) s = .next (Writes s rd (.bool (decide (R = .identity)))))

/-- PAIR over fields (rules R254, R265, R266, R306): a point outside its subgroup raises
InvalidSubgroupMembership; an identity paired with a member gives one; two members that have a Miller value
give its power by `(p^K-1)/r`, or DivisionByZero where it is zero. -/
def Obligations.PairOutcome : Prop :=
  ∀ (s : State) (rd r1 r2 : Reg) (e : PairEnv) (P : Point Nat) (Q : Point (List Nat)), s.Inv →
    pairIs s e → s.FieldTower .l2 → s.reg r1 = .point0 P → s.reg r2 = .point1 Q →
    (¬ Member s .c0 e.e0 e.pair.r P ∨ ¬ Member s .c1 e.e1 e.pair.r Q →
      exec (.pair rd r1 r2) s =
        .next (Faults s (encode (.pair rd r1 r2)) .invalidSubgroupMembership)) ∧
    (Member s .c0 e.e0 e.pair.r P → Member s .c1 e.e1 e.pair.r Q →
      (P = .identity ∨ Q = .identity →
        exec (.pair rd r1 r2) s = .next (Writes s rd (.elem2 (atLevel s 1 .l2)))) ∧
      ∀ f, MillerIs s e Q P f →
        (f ≠ zeros2 s → ∃ g, s.PowerIs .l2 f ((s.p ^ s.embedDegree - 1) / e.pair.r) g ∧
          exec (.pair rd r1 r2) s = .next (Writes s rd (.elem2 g))) ∧
        (f = zeros2 s → exec (.pair rd r1 r2) s =
          .next (Faults s (encode (.pair rd r1 r2)) .divisionByZero)))

/-- PAIRCHK, the leading coefficients of the moduli being invertible (rules R265, R267): when PAIR
completes on every pair of its two runs, it writes whether the product of the results is one; a
count of 0 gives true. When every pair is a member of its subgroup beside an identity, it completes
with true. -/
def Obligations.PairchkProduct : Prop :=
  (∀ (s : State) (rd r1 r2 : Reg) (n : BitVec 5) (e : PairEnv) (g : Fin n.toNat → List (List Nat)),
    s.Inv → pairIs s e → s.ModuliInvertible .l2 → RunsFit r1 r2 n →
    (∀ i : Fin n.toNat, exec (.pair rd (r1 + BitVec.ofNat 5 i) (r2 + BitVec.ofNat 5 i)) s =
      .next (Writes s rd (.elem2 (g i)))) →
    ∃ b, s.InRing .l2 (fun _ _ φ => b = true ↔ ((List.ofFn g).map φ).prod = 1) ∧
      (n = 0 → b = true) ∧ exec (.pairchk rd r1 r2 n) s = .next (Writes s rd (.bool b))) ∧
  ∀ (s : State) (rd r1 r2 : Reg) (n : BitVec 5) (e : PairEnv), s.Inv → pairIs s e →
    s.ModuliInvertible .l2 → RunsFit r1 r2 n →
    (∀ i : Fin n.toNat, ∃ P Q, s.reg (r1 + BitVec.ofNat 5 i) = .point0 P ∧
      s.reg (r2 + BitVec.ofNat 5 i) = .point1 Q ∧ (P = .identity ∨ Q = .identity) ∧
      inSubgroup (s.field .l0) e.e0 e.pair.r P = .ok true ∧
      inSubgroup (s.field .l1) e.e1 e.pair.r Q = .ok true) →
    exec (.pairchk rd r1 r2 n) s = .next (Writes s rd (.bool true))
end

