-- ==== Sys2Proof/Laws/Field.lean ====
section
/-! SUPPORT. What the field functions can answer: results stay in the field (closure), multiplication and
reduction complete when the moduli's leading coefficients are invertible (totality), and the bounds of
the Euclidean loops are never reached. -/

namespace Sys2Proof.Machine

/-! ### Results and faults in sequence -/

/-- A sequence answers a value exactly when both of its parts do. -/
theorem bind_eq_ok {ε β γ : Type} {x : Except ε β} {f : β → Except ε γ} {c : γ} :
    (x >>= f) = .ok c ↔ ∃ b, x = .ok b ∧ f b = .ok c := by
  cases x <;> simp [bind, Except.bind]

theorem map_eq_ok {ε β γ : Type} {x : Except ε β} {f : β → γ} {c : γ} :
    x.map f = .ok c ↔ ∃ b, x = .ok b ∧ f b = c := by
  cases x <;> simp [Except.map]

@[simp] theorem bind_ok {ε β γ : Type} (b : β) (f : β → Except ε γ) :
    ((.ok b : Except ε β) >>= f) = f b := rfl

@[simp] theorem bind_error {ε β γ : Type} (e : ε) (f : β → Except ε γ) :
    ((.error e : Except ε β) >>= f) = .error e := rfl

/-- A list of calls answers exactly when every call does, result by result. -/
theorem mapM_eq_ok {ε β γ : Type} {f : β → Except ε γ} {l : List β} {r : List γ} :
    l.mapM f = .ok r ↔ List.Forall₂ (fun b c => f b = .ok c) l r := by
  induction l generalizing r with
  | nil =>
    simp only [List.mapM_nil]
    constructor
    · intro h
      cases h
      exact .nil
    · intro h
      cases h
      rfl
  | cons b l ih =>
    simp only [List.mapM_cons, bind_eq_ok]
    constructor
    · rintro ⟨c, hc, cs, hcs, h⟩
      cases h
      exact .cons hc (ih.1 hcs)
    · intro h
      cases h with
      | cons hc hcs => exact ⟨_, hc, _, ih.2 hcs, rfl⟩

variable {α : Type} {F : FieldOps α} {ok : α → Prop}

/-! ### Closure -/

/-- The functions of a level keep to the level's elements. -/
structure FieldOps.Closed (F : FieldOps α) (ok : α → Prop) : Prop where
  zero : ok F.zero
  one : ok F.one
  ofInt : ∀ n, ok (F.ofInt n)
  add : ∀ a b, ok a → ok b → ok (F.add a b)
  sub : ∀ a b, ok a → ok b → ok (F.sub a b)
  neg : ∀ a, ok a → ok (F.neg a)
  mul : ∀ a b c, ok a → ok b → F.mul a b = .ok c → ok c
  inv : ∀ a c, ok a → F.inv a = .ok c → ok c

theorem residue_lt {p : Nat} (hp : 0 < p) (x : Int) : residue p x < p := by
  have h0 : (0 : Int) < p := by exact_mod_cast hp
  have h1 := Int.emod_nonneg x h0.ne'
  have h2 := Int.emod_lt_of_pos x h0
  unfold residue
  omega

/-- Prime-field results lie in `[0, p)` (rules R140, R155 b). -/
theorem fpOps_closed {p : Nat} (hp : 1 < p) : (fpOps p).Closed (· < p) where
  zero := by simp only [fpOps]; omega
  one := by simpa only [fpOps] using hp
  ofInt n := residue_lt (by omega) n
  add a b _ _ := Nat.mod_lt _ (by omega)
  sub a b _ _ := residue_lt (by omega) _
  neg a _ := residue_lt (by omega) _
  mul a b c _ _ h := by
    simp only [fpOps, Except.ok.injEq] at h
    rw [← h]
    exact Nat.mod_lt _ (by omega)
  inv a c _ h := by
    simp only [fpOps, fpInv] at h
    split at h
    · cases h
    · split at h
      · cases h
      · cases h
        exact residue_lt (by omega) _

theorem mapM_closed {β γ : Type} {f : β → Except FaultCode γ} {P : γ → Prop} {l : List β}
    {r : List γ} (h : l.mapM f = .ok r) (hf : ∀ b ∈ l, ∀ c, f b = .ok c → P c) :
    ∀ c ∈ r, P c := by
  have h2 := mapM_eq_ok.1 h
  clear h
  induction h2 with
  | nil => simp
  | cons hc _ ih =>
    intro c hm
    rcases List.mem_cons.1 hm with rfl | hm
    · exact hf _ (by simp) _ hc
    · exact ih (fun b hb => hf b (by simp [hb])) c hm

theorem mapM_length {β γ : Type} {f : β → Except FaultCode γ} {l : List β} {r : List γ}
    (h : l.mapM f = .ok r) : r.length = l.length :=
  ((mapM_eq_ok.1 h).length_eq).symm

theorem padTo_closed (hF : F.Closed ok) {n : Nat} {c : List α} (hc : ∀ x ∈ c, ok x) :
    ∀ x ∈ padTo F n c, ok x := by
  intro x hx
  rcases List.mem_append.1 hx with h | h
  · exact hc x h
  · rw [List.eq_of_mem_replicate h]
    exact hF.zero

theorem padTo_length {n : Nat} {c : List α} (h : c.length ≤ n) : (padTo F n c).length = n := by
  simp only [padTo, List.length_append, List.length_replicate]
  omega

theorem combineAt_length {f : α → α → α} (off : Nat) (r row : List α) :
    (combineAt f off r row).length = r.length := by
  induction r generalizing off row with
  | nil => cases off <;> rfl
  | cons c cs ih =>
    cases off with
    | zero => cases row <;> simp [combineAt, ih]
    | succ n => simp [combineAt, ih]

theorem combineAt_closed {f : α → α → α} (hf : ∀ a b, ok a → ok b → ok (f a b)) (off : Nat)
    {r row : List α} (hr : ∀ x ∈ r, ok x) (hrow : ∀ x ∈ row, ok x) :
    ∀ x ∈ combineAt f off r row, ok x := by
  induction r generalizing off row with
  | nil => cases off <;> simp [combineAt]
  | cons c cs ih =>
    have hcs : ∀ x ∈ cs, ok x := fun x h => hr x (by simp [h])
    cases off with
    | zero =>
      cases row with
      | nil => simpa [combineAt] using hr
      | cons y ys =>
        intro x hx
        rcases List.mem_cons.1 hx with rfl | hx
        · exact hf _ _ (hr c (by simp)) (hrow y (by simp))
        · exact ih 0 hcs (fun z hz => hrow z (by simp [hz])) x hx
    | succ n =>
      intro x hx
      rcases List.mem_cons.1 hx with rfl | hx
      · exact hr _ (by simp)
      · exact ih n hcs hrow x hx

theorem getD_closed {c : List α} {z : α} (hz : ok z) (hc : ∀ x ∈ c, ok x) (i : Nat) :
    ok (c.getD i z) := by
  rw [List.getD_eq_getElem?_getD]
  rcases h : (getElem? c i) with _ | x
  · simpa using hz
  · simpa using hc x (List.mem_of_getElem? h)

theorem polyDeg_lt {F : FieldOps α} {m : List α} {d : Nat} (h : polyDeg F m = some d) :
    d < m.length := by
  induction m generalizing d with
  | nil => simp [polyDeg] at h
  | cons x xs ih =>
    simp only [polyDeg] at h
    split at h
    · next n hn =>
      have := ih hn
      simp only [Option.some.injEq] at h
      simp only [List.length_cons]
      omega
    · split at h
      · cases h
      · cases h
        simp

theorem divLoop_closed (hF : F.Closed ok) {lcinv : α} {m : List α} (hl : ok lcinv)
    (hm : ∀ x ∈ m, ok x) (dm k : Nat) {q r : List α} {res : List α × List α}
    (hq : ∀ x ∈ q, ok x) (hr : ∀ x ∈ r, ok x)
    (h : divLoop F lcinv m dm k q r = .ok res) :
    (∀ x ∈ res.1, ok x) ∧ ∀ x ∈ res.2, ok x := by
  induction k generalizing q r with
  | zero =>
    cases h
    exact ⟨hq, hr⟩
  | succ k ih =>
    simp only [divLoop] at h
    split at h
    · exact ih hq hr h
    · simp only [bind_eq_ok] at h
      obtain ⟨t, ht, row, hrow, h⟩ := h
      have hok : ok t := hF.mul _ _ _ (getD_closed hF.zero hr _) hl ht
      refine ih ?_ ?_ h
      · intro x hx
        rcases List.mem_or_eq_of_mem_set hx with hx | rfl
        · exact hq x hx
        · exact hok
      · refine combineAt_closed hF.sub k hr (mapM_closed hrow ?_)
        intro b hb c hc
        exact hF.mul _ _ _ hok (hm b (List.mem_of_mem_take hb)) hc

theorem polyDivMod_closed (hF : F.Closed ok) {a m : List α} (ha : ∀ x ∈ a, ok x)
    (hm : ∀ x ∈ m, ok x) {qr : List α × List α} (h : polyDivMod F a m = .ok qr) :
    (∀ x ∈ qr.1, ok x) ∧ (∀ x ∈ qr.2, ok x) ∧ polyDeg F m = some qr.2.length := by
  simp only [polyDivMod] at h
  split at h
  · cases h
  · next dm hd =>
    simp only [bind_eq_ok] at h
    obtain ⟨lcinv, hl, res, hres, h⟩ := h
    have hc := divLoop_closed hF (hF.inv _ _ (getD_closed hF.zero hm _) hl) hm dm _
      (fun x hx => by rw [List.eq_of_mem_replicate hx]; exact hF.zero) ha hres
    cases h
    refine ⟨hc.1, padTo_closed hF fun x hx => hc.2 x (List.mem_of_mem_take hx), ?_⟩
    rw [hd, padTo_length (List.length_take_le _ _)]

/-- A reduced polynomial is an element of the extension (rule R162). -/
theorem polyMod_closed (hF : F.Closed ok) {m a r : List α} (ha : ∀ x ∈ a, ok x)
    (hm : ∀ x ∈ m, ok x) (h : polyMod F m a = .ok r) : ExtOk ok (m.length - 1) r := by
  simp only [polyMod, bind_eq_ok] at h
  obtain ⟨qr, hqr, h⟩ := h
  cases h
  obtain ⟨-, h2, h3⟩ := polyDivMod_closed hF ha hm hqr
  have := polyDeg_lt h3
  exact ⟨padTo_length (by omega), padTo_closed hF h2⟩

theorem mulRows_closed (hF : F.Closed ok) {a b : List α} (ha : ∀ x ∈ a, ok x)
    (hb : ∀ x ∈ b, ok x) (i : Nat) {c r : List α} (hc : ∀ x ∈ c, ok x)
    (h : mulRows F b a i c = .ok r) : (∀ x ∈ r, ok x) ∧ r.length = c.length := by
  induction a generalizing i c with
  | nil =>
    cases h
    exact ⟨hc, rfl⟩
  | cons x xs ih =>
    simp only [mulRows, bind_eq_ok] at h
    obtain ⟨row, hrow, h⟩ := h
    have hx := mapM_closed hrow fun y hy c hc => hF.mul _ _ _ (ha x (by simp)) (hb y hy) hc
    have := ih (fun y hy => ha y (by simp [hy])) (i + 1) (combineAt_closed hF.add i hc hx) h
    rw [combineAt_length] at this
    exact this

theorem polyMulRaw_closed (hF : F.Closed ok) {a b r : List α} (ha : ∀ x ∈ a, ok x)
    (hb : ∀ x ∈ b, ok x) (h : polyMulRaw F a b = .ok r) :
    (∀ x ∈ r, ok x) ∧ r.length = a.length + b.length - 1 := by
  have := mulRows_closed hF ha hb 0
    (fun x hx => by rw [List.eq_of_mem_replicate hx]; exact hF.zero) h
  simpa using this

theorem zipWith_closed {f : α → α → α} (hf : ∀ a b, ok a → ok b → ok (f a b)) {a b : List α}
    (ha : ∀ x ∈ a, ok x) (hb : ∀ x ∈ b, ok x) : ∀ x ∈ List.zipWith f a b, ok x := by
  induction a generalizing b with
  | nil => simp
  | cons x xs ih =>
    cases b with
    | nil => simp
    | cons y ys =>
      intro z hz
      rw [List.zipWith_cons_cons] at hz
      rcases List.mem_cons.1 hz with rfl | hz
      · exact hf _ _ (ha x (by simp)) (hb y (by simp))
      · exact ih (fun w hw => ha w (by simp [hw])) (fun w hw => hb w (by simp [hw])) z hz

theorem polySub_closed (hF : F.Closed ok) {a b : List α} (ha : ∀ x ∈ a, ok x)
    (hb : ∀ x ∈ b, ok x) : ∀ x ∈ polySub F a b, ok x :=
  zipWith_closed hF.sub (padTo_closed hF ha) (padTo_closed hF hb)

theorem polyEuclid_closed (hF : F.Closed ok) (n : Nat) {r0 r1 t0 t1 : List α}
    {res : List α × List α} (h0 : ∀ x ∈ r0, ok x) (h1 : ∀ x ∈ r1, ok x) (ht0 : ∀ x ∈ t0, ok x)
    (ht1 : ∀ x ∈ t1, ok x) (h : polyEuclid F n r0 r1 t0 t1 = .ok res) :
    (∀ x ∈ res.1, ok x) ∧ ∀ x ∈ res.2, ok x := by
  induction n generalizing r0 r1 t0 t1 with
  | zero =>
    cases h
    exact ⟨h0, ht0⟩
  | succ n ih =>
    simp only [polyEuclid] at h
    split at h
    · cases h
      exact ⟨h0, ht0⟩
    · simp only [bind_eq_ok] at h
      obtain ⟨qr, hqr, prod, hprod, h⟩ := h
      obtain ⟨hq, hr, -⟩ := polyDivMod_closed hF h0 h1 hqr
      exact ih h1 hr ht1
        (polySub_closed hF ht0 (polyMulRaw_closed hF hq ht1 hprod).1) h

theorem extLift_closed (hF : F.Closed ok) {m : List α} (hd : 1 ≤ m.length - 1) {e : α}
    (he : ok e) : ExtOk ok (m.length - 1) (extLift F m e) := by
  constructor
  · simp only [extLift, List.length_cons, List.length_replicate]
    omega
  · intro x hx
    rcases List.mem_cons.1 hx with rfl | hx
    · exact he
    · rw [List.eq_of_mem_replicate hx]
      exact hF.zero

/-- Closure goes up one level of the tower (rule R31). -/
theorem extOps_closed (hF : F.Closed ok) {m : List α} (hd : 1 ≤ m.length - 1)
    (hm : ∀ x ∈ m, ok x) : (extOps F m).Closed (ExtOk ok (m.length - 1)) where
  zero := ⟨by simp [extOps], fun x hx => by
    rw [List.eq_of_mem_replicate hx]
    exact hF.zero⟩
  one := extLift_closed hF hd hF.one
  ofInt n := extLift_closed hF hd (hF.ofInt n)
  add a b ha hb := ⟨by simp [extOps, ha.1, hb.1], zipWith_closed hF.add ha.2 hb.2⟩
  sub a b ha hb := ⟨by simp [extOps, ha.1, hb.1], zipWith_closed hF.sub ha.2 hb.2⟩
  neg a ha := by
    refine ⟨by simp [extOps, ha.1], ?_⟩
    intro x hx
    obtain ⟨y, hy, rfl⟩ := List.mem_map.1 hx
    exact hF.neg y (ha.2 y hy)
  mul a b c ha hb h := by
    simp only [extOps, extMul, bind_eq_ok] at h
    obtain ⟨raw, hraw, h⟩ := h
    exact polyMod_closed hF (polyMulRaw_closed hF ha.2 hb.2 hraw).1 hm h
  inv a c ha h := by
    simp only [extOps, extInv] at h
    split at h
    · cases h
    · simp only [bind_eq_ok] at h
      obtain ⟨rt, hrt, h⟩ := h
      split at h
      · cases h
      · simp only [bind_eq_ok] at h
        obtain ⟨g, hg, t, ht, h⟩ := h
        obtain ⟨h0, ht0⟩ := polyEuclid_closed hF _ hm ha.2
          (by simpa using hF.zero) (by simpa using hF.one) hrt
        have hgok := hF.inv _ _ (getD_closed hF.zero h0 _) hg
        exact polyMod_closed hF
          (mapM_closed ht fun x hx c hc => hF.mul _ _ _ (ht0 x hx) hgok hc) hm h

theorem div_closed (hF : F.Closed ok) {a b c : α} (ha : ok a) (hb : ok b)
    (h : F.div a b = .ok c) : ok c := by
  simp only [FieldOps.div, bind_eq_ok] at h
  obtain ⟨i, hi, h⟩ := h
  exact hF.mul _ _ _ ha (hF.inv _ _ hb hi) h

theorem expLoop_closed (hF : F.Closed ok) {b : α} (hb : ok b) (e i : Nat) {acc c : α}
    (hacc : ok acc) (h : expLoop F b e i acc = .ok c) : ok c := by
  induction i generalizing acc with
  | zero =>
    cases h
    exact hacc
  | succ i ih =>
    simp only [expLoop, bind_eq_ok] at h
    obtain ⟨sq, hsq, h⟩ := h
    have h1 := hF.mul _ _ _ hacc hacc hsq
    split at h
    · obtain ⟨acc', hacc', h⟩ := bind_eq_ok.1 h
      exact ih (hF.mul _ _ _ h1 hb hacc') h
    · exact ih h1 h

theorem exp_closed (hF : F.Closed ok) {b c : α} (hb : ok b) {e : Int}
    (h : F.exp b e = .ok c) : ok c := by
  simp only [FieldOps.exp] at h
  split at h
  · cases h
  · split at h
    · obtain ⟨b', hb', h⟩ := bind_eq_ok.1 h
      exact expLoop_closed hF (hF.inv _ _ hb hb') _ _ hF.one h
    · exact expLoop_closed hF hb _ _ hF.one h

/-! ### Totality -/

theorem mapM_total {β γ : Type} {f : β → Except FaultCode γ} {l : List β}
    (h : ∀ b ∈ l, ∃ c, f b = .ok c) : ∃ r, l.mapM f = .ok r := by
  induction l with
  | nil => exact ⟨[], rfl⟩
  | cons b l ih =>
    obtain ⟨c, hc⟩ := h b (by simp)
    obtain ⟨r, hr⟩ := ih fun b hb => h b (by simp [hb])
    exact ⟨c :: r, by simp [List.mapM_cons, hc, hr, pure, Except.pure]⟩

/-- The level's multiplication raises no fault. -/
def FieldOps.MulTotal (F : FieldOps α) (ok : α → Prop) : Prop :=
  ∀ a b, ok a → ok b → ∃ c, F.mul a b = .ok c

theorem fpOps_mulTotal (p : Nat) (ok : Nat → Prop) : (fpOps p).MulTotal ok :=
  fun a b _ _ => ⟨fpMul p a b, rfl⟩

theorem divLoop_total (hF : F.Closed ok) (hM : F.MulTotal ok) {lcinv : α} {m : List α}
    (hl : ok lcinv) (hm : ∀ x ∈ m, ok x) (dm k : Nat) {q r : List α} (hr : ∀ x ∈ r, ok x) :
    ∃ res, divLoop F lcinv m dm k q r = .ok res := by
  induction k generalizing q r with
  | zero => exact ⟨_, rfl⟩
  | succ k ih =>
    simp only [divLoop]
    split
    · exact ih hr
    · have hri := getD_closed hF.zero hr (dm + k)
      obtain ⟨t, ht⟩ := hM _ _ hri hl
      have hok := hF.mul _ _ _ hri hl ht
      obtain ⟨row, hrow⟩ := mapM_total (l := m.take (dm + 1)) (f := F.mul t)
        fun x hx => hM _ _ hok (hm x (List.mem_of_mem_take hx))
      rw [ht, bind_ok, hrow, bind_ok]
      exact ih (combineAt_closed hF.sub k hr (mapM_closed hrow fun x hx c hc =>
        hF.mul _ _ _ hok (hm x (List.mem_of_mem_take hx)) hc))

/-- The degree of a polynomial whose last coefficient is not zero. -/
theorem polyDeg_of_lead {m : List α} (hm : m ≠ [])
    (h : F.isZero (m.getD (m.length - 1) F.zero) = false) :
    polyDeg F m = some (m.length - 1) := by
  induction m with
  | nil => exact absurd rfl hm
  | cons x xs ih =>
    cases xs with
    | nil =>
      have hx : F.isZero x = false := by simpa using h
      simp [polyDeg, hx]
    | cons y ys =>
      have := ih (by simp) (by simpa using h)
      rw [polyDeg, this]
      simp

theorem polyDivMod_total (hF : F.Closed ok) (hM : F.MulTotal ok) {a m : List α}
    (ha : ∀ x ∈ a, ok x) (hm : ∀ x ∈ m, ok x) (hne : m ≠ [])
    (hlead : F.isZero (m.getD (m.length - 1) F.zero) = false) {u : α}
    (hu : F.inv (m.getD (m.length - 1) F.zero) = .ok u) : ∃ qr, polyDivMod F a m = .ok qr := by
  simp only [polyDivMod, polyDeg_of_lead hne hlead, hu, bind_ok]
  obtain ⟨res, hres⟩ := divLoop_total hF hM (q := List.replicate
    (max (a.length - (m.length - 1)) 1) F.zero) (hF.inv _ _ (getD_closed hF.zero hm _) hu) hm
    (m.length - 1) (a.length - (m.length - 1)) ha
  rw [hres]
  exact ⟨_, rfl⟩

/-- Reduction by a modulus with invertible leading coefficient raises no fault (rule R161). -/
theorem polyMod_total (hF : F.Closed ok) (hM : F.MulTotal ok) {a m : List α}
    (ha : ∀ x ∈ a, ok x) (hm : ∀ x ∈ m, ok x) (hne : m ≠ [])
    (hlead : F.isZero (m.getD (m.length - 1) F.zero) = false) {u : α}
    (hu : F.inv (m.getD (m.length - 1) F.zero) = .ok u) : ∃ r, polyMod F m a = .ok r := by
  obtain ⟨qr, hqr⟩ := polyDivMod_total hF hM ha hm hne hlead hu
  exact ⟨_, by rw [polyMod, hqr, bind_ok]⟩

theorem mulRows_total (hM : F.MulTotal ok) {a b : List α}
    (ha : ∀ x ∈ a, ok x) (hb : ∀ x ∈ b, ok x) (i : Nat) (c : List α) :
    ∃ r, mulRows F b a i c = .ok r := by
  induction a generalizing i c with
  | nil => exact ⟨_, rfl⟩
  | cons x xs ih =>
    obtain ⟨row, hrow⟩ := mapM_total (l := b) (f := F.mul x)
      fun y hy => hM _ _ (ha x (by simp)) (hb y hy)
    rw [mulRows, hrow, bind_ok]
    exact ih (fun y hy => ha y (by simp [hy])) _ _

/-- Multiplication in an extension raises no fault when the modulus's leading coefficient is
invertible (rule R170). -/
theorem extOps_mulTotal (hF : F.Closed ok) (hM : F.MulTotal ok) {m : List α}
    (hm : ∀ x ∈ m, ok x) (hne : m ≠ [])
    (hlead : F.isZero (m.getD (m.length - 1) F.zero) = false) {u : α}
    (hu : F.inv (m.getD (m.length - 1) F.zero) = .ok u) :
    (extOps F m).MulTotal (ExtOk ok (m.length - 1)) := by
  intro a b ha hb
  obtain ⟨raw, hraw⟩ := mulRows_total hM ha.2 hb.2 0
    (List.replicate (a.length + b.length - 1) F.zero)
  obtain ⟨r, hr⟩ := polyMod_total hF hM (a := raw)
    (polyMulRaw_closed hF ha.2 hb.2 hraw).1 hm hne hlead hu
  exact ⟨r, by simp only [extOps, extMul, polyMulRaw, hraw, bind_ok, hr]⟩

theorem expLoop_total (hF : F.Closed ok) (hM : F.MulTotal ok) {b : α} (hb : ok b) (e i : Nat)
    {acc : α} (hacc : ok acc) : ∃ c, expLoop F b e i acc = .ok c := by
  induction i generalizing acc with
  | zero => exact ⟨_, rfl⟩
  | succ i ih =>
    obtain ⟨sq, hsq⟩ := hM _ _ hacc hacc
    have h1 := hF.mul _ _ _ hacc hacc hsq
    obtain ⟨c, hc⟩ := hM _ _ h1 hb
    rw [expLoop, hsq, bind_ok]
    split
    · rw [hc, bind_ok]
      exact ih (hF.mul _ _ _ h1 hb hc)
    · exact ih h1

/-- A positive power raises no fault where multiplication raises none (rules R145, R250). -/
theorem exp_pos_total (hF : F.Closed ok) (hM : F.MulTotal ok) {b : α} (hb : ok b) {e : Int}
    (he : 0 < e) : ∃ c, F.exp b e = .ok c := by
  have h1 : ¬ (F.isZero b = true ∧ e = 0) := by omega
  have h2 : ¬ e < 0 := by omega
  unfold FieldOps.exp
  rw [if_neg h1, if_neg h2]
  exact expLoop_total hF hM hb _ _ hF.one

/-! ### The bounds of the loops (rule R346) -/

/-- The Euclidean loop of rule R143 ends before any bound above its `r1`: the bound `fpInv` gives it is
never reached, and a larger one changes nothing. -/
theorem euclid_fuel (n : Nat) {r0 r1 : Nat} (s0 s1 : Int) (h : r1 < n) :
    euclid (n + 1) r0 r1 s0 s1 = euclid n r0 r1 s0 s1 := by
  induction n generalizing r0 r1 s0 s1 with
  | zero => omega
  | succ n ih =>
    by_cases hz : r1 = 0
    · simp [euclid, hz]
    · have hlt : r0 - r0 / r1 * r1 < r1 := by
        have h1 := Nat.mod_lt r0 (Nat.pos_of_ne_zero hz)
        have h2 := Nat.div_add_mod r0 r1
        have h3 : r0 / r1 * r1 = r1 * (r0 / r1) := Nat.mul_comm _ _
        omega
      simp only [euclid, if_neg hz] at ih ⊢
      exact ih _ _ (by omega)

theorem polyDivMod_length {a m : List α} {qr : List α × List α}
    (h : polyDivMod F a m = .ok qr) : polyDeg F m = some qr.2.length := by
  simp only [polyDivMod] at h
  split at h
  · cases h
  · next dm hd =>
    simp only [bind_eq_ok] at h
    obtain ⟨lcinv, -, res, -, h⟩ := h
    cases h
    rw [hd, padTo_length (List.length_take_le _ _)]

/-- The polynomial loop of rule R171 ends before any bound above the length of its `r1`: the bound
`extInv` gives it is never reached, and a larger one changes nothing. -/
theorem polyEuclid_fuel (n : Nat) {r0 r1 t0 t1 : List α} (h : r1.length < n) :
    polyEuclid F (n + 1) r0 r1 t0 t1 = polyEuclid F n r0 r1 t0 t1 := by
  induction n generalizing r0 r1 t0 t1 with
  | zero => omega
  | succ n ih =>
    rw [polyEuclid, polyEuclid]
    cases hd : polyDeg F r1 with
    | none => rfl
    | some d =>
      simp only
      cases hqr : polyDivMod F r0 r1 with
      | error e => rfl
      | ok qr =>
        have h1 := polyDivMod_length hqr
        have h2 := polyDeg_lt h1
        simp only [bind_ok]
        cases polyMulRaw F qr.1 t1 with
        | error e => rfl
        | ok prod =>
          simp only [bind_ok]
          exact ih (by omega)

/-! ### The levels of a state -/

theorem p_gt_two {s : State} (h : s.Inv) (hu : s.usable .l0 = true) : 2 < s.p := by
  obtain ⟨p, hp⟩ := Option.isSome_iff_exists.1 hu
  simpa [State.p, hp] using (h.prime p hp).1

theorem usable_l0 {s : State} {l : Level} (h : s.usable l = true) : s.usable .l0 = true := by
  cases l <;> simp_all [State.usable]

theorem usable_l1 {s : State} (h : s.usable .l2 = true) : s.usable .l1 = true := by
  simp_all [State.usable]

theorem usable_l2 {s : State} (h : s.usable .l3 = true) : s.usable .l2 = true := by
  simp_all [State.usable]

theorem modulus1 {s : State} (h : s.Inv) (hu : s.usable .l1 = true) : s.ModulusOk .l0 s.m1 := by
  obtain ⟨m, hm⟩ := Option.isSome_iff_exists.1 (show s.ext1.isSome = true by
    simp_all [State.usable])
  simpa [State.m1, hm] using h.ext1 m hm

theorem modulus2 {s : State} (h : s.Inv) (hu : s.usable .l2 = true) : s.ModulusOk .l1 s.m2 := by
  obtain ⟨m, hm⟩ := Option.isSome_iff_exists.1 (show s.ext2.isSome = true by
    simp_all [State.usable])
  simpa [State.m2, hm] using h.ext2 m hm

theorem modulus3 {s : State} (h : s.Inv) (hu : s.usable .l3 = true) : s.ModulusOk .l2 s.m3 := by
  obtain ⟨m, hm⟩ := Option.isSome_iff_exists.1 (show s.ext3.isSome = true by
    simp_all [State.usable])
  simpa [State.m3, hm] using h.ext3 m hm

/-- The functions of a usable level keep to its elements (rule R31). -/
theorem field_closed {s : State} (h : s.Inv) {l : Level} (hu : s.usable l = true) :
    (s.field l).Closed (s.ElemOk l) := by
  have hp := p_gt_two h (usable_l0 hu)
  have h0 : (s.field .l0).Closed (s.ElemOk .l0) := fpOps_closed (by omega)
  have up1 (h1 : s.usable .l1 = true) : (s.field .l1).Closed (s.ElemOk .l1) :=
    extOps_closed h0 (modulus1 h h1).2.1 (modulus1 h h1).2.2.2.1
  have up2 (h2 : s.usable .l2 = true) : (s.field .l2).Closed (s.ElemOk .l2) :=
    extOps_closed (up1 (usable_l1 h2)) (modulus2 h h2).2.1 (modulus2 h h2).2.2.2.1
  cases l with
  | l0 => exact h0
  | l1 => exact up1 hu
  | l2 => exact up2 hu
  | l3 => exact extOps_closed (up2 (usable_l2 hu)) (modulus3 h hu).2.1 (modulus3 h hu).2.2.2.1

/-- Multiplication at a usable level raises no fault when the moduli's leading coefficients are
invertible (rule R170). -/
theorem field_mulTotal {s : State} (h : s.Inv) {l : Level} (hu : s.usable l = true)
    (hm : s.ModuliInvertible l) : (s.field l).MulTotal (s.ElemOk l) := by
  have ne (b : Level) (m : List (Elem b)) (hd : s.ModulusOk b m) : m ≠ [] := by
    rintro rfl
    simpa using hd.2.1
  have up1 (h1 : s.usable .l1 = true) (hl : s.LeadInvertible .l1) :
      (s.field .l1).MulTotal (s.ElemOk .l1) := by
    obtain ⟨u, hu⟩ := hl
    have hd := modulus1 h h1
    exact extOps_mulTotal (field_closed h hd.1) (fpOps_mulTotal _ _) hd.2.2.2.1 (ne _ _ hd)
      hd.2.2.2.2 hu
  have up2 (h2 : s.usable .l2 = true) (hl1 : s.LeadInvertible .l1)
      (hl2 : s.LeadInvertible .l2) : (s.field .l2).MulTotal (s.ElemOk .l2) := by
    obtain ⟨u, hu⟩ := hl2
    have hd := modulus2 h h2
    exact extOps_mulTotal (field_closed h hd.1) (up1 hd.1 hl1) hd.2.2.2.1 (ne _ _ hd)
      hd.2.2.2.2 hu
  cases l with
  | l0 => exact fpOps_mulTotal _ _
  | l1 => exact up1 hu hm
  | l2 => exact up2 hu hm.1 hm.2
  | l3 =>
    obtain ⟨hl1, hl2, u, hu3⟩ := hm
    have hd := modulus3 h hu
    exact extOps_mulTotal (field_closed h hd.1) (up2 hd.1 hl1 hl2) hd.2.2.2.1 (ne _ _ hd)
      hd.2.2.2.2 hu3

end Sys2Proof.Machine
end

