-- ==== Sys2Proof/Laws/State.lean ====
section
/-! SUPPORT. The state's fields after each update, the register file's read-after-write laws, and reset. -/

namespace Sys2Proof.Machine

/-! ### `State.setReg` -/

@[simp] theorem setReg_build (s : State) (r : Reg) (v : Value) : (s.setReg r v).build = s.build := rfl
@[simp] theorem setReg_regs (s : State) (r : Reg) (v : Value) : (s.setReg r v).regs = s.regs.set r.toNat v r.isLt := rfl
@[simp] theorem setReg_prime (s : State) (r : Reg) (v : Value) : (s.setReg r v).prime = s.prime := rfl
@[simp] theorem setReg_ext1 (s : State) (r : Reg) (v : Value) : (s.setReg r v).ext1 = s.ext1 := rfl
@[simp] theorem setReg_ext2 (s : State) (r : Reg) (v : Value) : (s.setReg r v).ext2 = s.ext2 := rfl
@[simp] theorem setReg_ext3 (s : State) (r : Reg) (v : Value) : (s.setReg r v).ext3 = s.ext3 := rfl
@[simp] theorem setReg_curve0 (s : State) (r : Reg) (v : Value) : (s.setReg r v).curve0 = s.curve0 := rfl
@[simp] theorem setReg_curve1 (s : State) (r : Reg) (v : Value) : (s.setReg r v).curve1 = s.curve1 := rfl
@[simp] theorem setReg_curve2 (s : State) (r : Reg) (v : Value) : (s.setReg r v).curve2 = s.curve2 := rfl
@[simp] theorem setReg_twist (s : State) (r : Reg) (v : Value) : (s.setReg r v).twist = s.twist := rfl
@[simp] theorem setReg_pair (s : State) (r : Reg) (v : Value) : (s.setReg r v).pair = s.pair := rfl
@[simp] theorem setReg_mode (s : State) (r : Reg) (v : Value) : (s.setReg r v).mode = s.mode := rfl
@[simp] theorem setReg_faultCmd (s : State) (r : Reg) (v : Value) : (s.setReg r v).faultCmd = s.faultCmd := rfl
@[simp] theorem setReg_cmdCnt (s : State) (r : Reg) (v : Value) : (s.setReg r v).cmdCnt = s.cmdCnt := rfl
@[simp] theorem setReg_cmd (s : State) (r : Reg) (v : Value) : (s.setReg r v).cmd = s.cmd := rfl
@[simp] theorem setReg_din (s : State) (r : Reg) (v : Value) : (s.setReg r v).din = s.din := rfl
@[simp] theorem setReg_dout (s : State) (r : Reg) (v : Value) : (s.setReg r v).dout = s.dout := rfl
@[simp] theorem setReg_p (s : State) (r : Reg) (v : Value) : (s.setReg r v).p = s.p := rfl
@[simp] theorem setReg_m1 (s : State) (r : Reg) (v : Value) : (s.setReg r v).m1 = s.m1 := rfl
@[simp] theorem setReg_m2 (s : State) (r : Reg) (v : Value) : (s.setReg r v).m2 = s.m2 := rfl
@[simp] theorem setReg_m3 (s : State) (r : Reg) (v : Value) : (s.setReg r v).m3 = s.m3 := rfl
@[simp] theorem setReg_embedDegree (s : State) (r : Reg) (v : Value) : (s.setReg r v).embedDegree = s.embedDegree := rfl
@[simp] theorem setReg_usable (s : State) (r : Reg) (v : Value) (l : Level) : (s.setReg r v).usable l = s.usable l := rfl
@[simp] theorem setReg_degree (s : State) (r : Reg) (v : Value) (l : Level) : (s.setReg r v).degree l = s.degree l := rfl
@[simp] theorem setReg_field (s : State) (r : Reg) (v : Value) (l : Level) : (s.setReg r v).field l = s.field l := rfl

/-! ### `State.complete` -/

@[simp] theorem complete_build (s : State) : s.complete.build = s.build := rfl
@[simp] theorem complete_regs (s : State) : s.complete.regs = s.regs := rfl
@[simp] theorem complete_prime (s : State) : s.complete.prime = s.prime := rfl
@[simp] theorem complete_ext1 (s : State) : s.complete.ext1 = s.ext1 := rfl
@[simp] theorem complete_ext2 (s : State) : s.complete.ext2 = s.ext2 := rfl
@[simp] theorem complete_ext3 (s : State) : s.complete.ext3 = s.ext3 := rfl
@[simp] theorem complete_curve0 (s : State) : s.complete.curve0 = s.curve0 := rfl
@[simp] theorem complete_curve1 (s : State) : s.complete.curve1 = s.curve1 := rfl
@[simp] theorem complete_curve2 (s : State) : s.complete.curve2 = s.curve2 := rfl
@[simp] theorem complete_twist (s : State) : s.complete.twist = s.twist := rfl
@[simp] theorem complete_pair (s : State) : s.complete.pair = s.pair := rfl
@[simp] theorem complete_mode (s : State) : s.complete.mode = s.mode := rfl
@[simp] theorem complete_faultCmd (s : State) : s.complete.faultCmd = s.faultCmd := rfl
@[simp] theorem complete_cmdCnt (s : State) : s.complete.cmdCnt = s.cmdCnt + 1 := rfl
@[simp] theorem complete_cmd (s : State) : s.complete.cmd = s.cmd.tail := rfl
@[simp] theorem complete_din (s : State) : s.complete.din = s.din := rfl
@[simp] theorem complete_dout (s : State) : s.complete.dout = s.dout := rfl
@[simp] theorem complete_p (s : State) : s.complete.p = s.p := rfl
@[simp] theorem complete_m1 (s : State) : s.complete.m1 = s.m1 := rfl
@[simp] theorem complete_m2 (s : State) : s.complete.m2 = s.m2 := rfl
@[simp] theorem complete_m3 (s : State) : s.complete.m3 = s.m3 := rfl
@[simp] theorem complete_embedDegree (s : State) : s.complete.embedDegree = s.embedDegree := rfl
@[simp] theorem complete_usable (s : State) (l : Level) : s.complete.usable l = s.usable l := rfl
@[simp] theorem complete_degree (s : State) (l : Level) : s.complete.degree l = s.degree l := rfl
@[simp] theorem complete_field (s : State) (l : Level) : s.complete.field l = s.field l := rfl
@[simp] theorem complete_reg (s : State) (q : Reg) : s.complete.reg q = s.reg q := rfl

/-! ### `State.takeFault` -/

@[simp] theorem takeFault_build (s : State) (w : CmdWord) (c : FaultCode) : (s.takeFault w c).build = s.build := rfl
@[simp] theorem takeFault_regs (s : State) (w : CmdWord) (c : FaultCode) : (s.takeFault w c).regs = s.regs := rfl
@[simp] theorem takeFault_prime (s : State) (w : CmdWord) (c : FaultCode) : (s.takeFault w c).prime = s.prime := rfl
@[simp] theorem takeFault_ext1 (s : State) (w : CmdWord) (c : FaultCode) : (s.takeFault w c).ext1 = s.ext1 := rfl
@[simp] theorem takeFault_ext2 (s : State) (w : CmdWord) (c : FaultCode) : (s.takeFault w c).ext2 = s.ext2 := rfl
@[simp] theorem takeFault_ext3 (s : State) (w : CmdWord) (c : FaultCode) : (s.takeFault w c).ext3 = s.ext3 := rfl
@[simp] theorem takeFault_curve0 (s : State) (w : CmdWord) (c : FaultCode) : (s.takeFault w c).curve0 = s.curve0 := rfl
@[simp] theorem takeFault_curve1 (s : State) (w : CmdWord) (c : FaultCode) : (s.takeFault w c).curve1 = s.curve1 := rfl
@[simp] theorem takeFault_curve2 (s : State) (w : CmdWord) (c : FaultCode) : (s.takeFault w c).curve2 = s.curve2 := rfl
@[simp] theorem takeFault_twist (s : State) (w : CmdWord) (c : FaultCode) : (s.takeFault w c).twist = s.twist := rfl
@[simp] theorem takeFault_pair (s : State) (w : CmdWord) (c : FaultCode) : (s.takeFault w c).pair = s.pair := rfl
@[simp] theorem takeFault_mode (s : State) (w : CmdWord) (c : FaultCode) : (s.takeFault w c).mode = .fault c := rfl
@[simp] theorem takeFault_faultCmd (s : State) (w : CmdWord) (c : FaultCode) : (s.takeFault w c).faultCmd = w := rfl
@[simp] theorem takeFault_cmdCnt (s : State) (w : CmdWord) (c : FaultCode) : (s.takeFault w c).cmdCnt = s.cmdCnt := rfl
@[simp] theorem takeFault_cmd (s : State) (w : CmdWord) (c : FaultCode) : (s.takeFault w c).cmd = s.cmd.tail := rfl
@[simp] theorem takeFault_din (s : State) (w : CmdWord) (c : FaultCode) : (s.takeFault w c).din = s.din := rfl
@[simp] theorem takeFault_dout (s : State) (w : CmdWord) (c : FaultCode) : (s.takeFault w c).dout = s.dout := rfl
@[simp] theorem takeFault_p (s : State) (w : CmdWord) (c : FaultCode) : (s.takeFault w c).p = s.p := rfl
@[simp] theorem takeFault_m1 (s : State) (w : CmdWord) (c : FaultCode) : (s.takeFault w c).m1 = s.m1 := rfl
@[simp] theorem takeFault_m2 (s : State) (w : CmdWord) (c : FaultCode) : (s.takeFault w c).m2 = s.m2 := rfl
@[simp] theorem takeFault_m3 (s : State) (w : CmdWord) (c : FaultCode) : (s.takeFault w c).m3 = s.m3 := rfl
@[simp] theorem takeFault_embedDegree (s : State) (w : CmdWord) (c : FaultCode) : (s.takeFault w c).embedDegree = s.embedDegree := rfl
@[simp] theorem takeFault_usable (s : State) (w : CmdWord) (c : FaultCode) (l : Level) : (s.takeFault w c).usable l = s.usable l := rfl
@[simp] theorem takeFault_degree (s : State) (w : CmdWord) (c : FaultCode) (l : Level) : (s.takeFault w c).degree l = s.degree l := rfl
@[simp] theorem takeFault_field (s : State) (w : CmdWord) (c : FaultCode) (l : Level) : (s.takeFault w c).field l = s.field l := rfl
@[simp] theorem takeFault_reg (s : State) (w : CmdWord) (c : FaultCode) (q : Reg) : (s.takeFault w c).reg q = s.reg q := rfl

/-! ### `State.placeWord` -/

@[simp] theorem placeWord_build (s : State) (w : CmdWord) : (s.placeWord w).build = s.build := rfl
@[simp] theorem placeWord_regs (s : State) (w : CmdWord) : (s.placeWord w).regs = s.regs := rfl
@[simp] theorem placeWord_prime (s : State) (w : CmdWord) : (s.placeWord w).prime = s.prime := rfl
@[simp] theorem placeWord_ext1 (s : State) (w : CmdWord) : (s.placeWord w).ext1 = s.ext1 := rfl
@[simp] theorem placeWord_ext2 (s : State) (w : CmdWord) : (s.placeWord w).ext2 = s.ext2 := rfl
@[simp] theorem placeWord_ext3 (s : State) (w : CmdWord) : (s.placeWord w).ext3 = s.ext3 := rfl
@[simp] theorem placeWord_curve0 (s : State) (w : CmdWord) : (s.placeWord w).curve0 = s.curve0 := rfl
@[simp] theorem placeWord_curve1 (s : State) (w : CmdWord) : (s.placeWord w).curve1 = s.curve1 := rfl
@[simp] theorem placeWord_curve2 (s : State) (w : CmdWord) : (s.placeWord w).curve2 = s.curve2 := rfl
@[simp] theorem placeWord_twist (s : State) (w : CmdWord) : (s.placeWord w).twist = s.twist := rfl
@[simp] theorem placeWord_pair (s : State) (w : CmdWord) : (s.placeWord w).pair = s.pair := rfl
@[simp] theorem placeWord_mode (s : State) (w : CmdWord) : (s.placeWord w).mode = s.mode := rfl
@[simp] theorem placeWord_faultCmd (s : State) (w : CmdWord) : (s.placeWord w).faultCmd = s.faultCmd := rfl
@[simp] theorem placeWord_cmdCnt (s : State) (w : CmdWord) : (s.placeWord w).cmdCnt = s.cmdCnt := rfl
@[simp] theorem placeWord_cmd (s : State) (w : CmdWord) : (s.placeWord w).cmd = w :: s.cmd.tail := rfl
@[simp] theorem placeWord_din (s : State) (w : CmdWord) : (s.placeWord w).din = s.din := rfl
@[simp] theorem placeWord_dout (s : State) (w : CmdWord) : (s.placeWord w).dout = s.dout := rfl
@[simp] theorem placeWord_p (s : State) (w : CmdWord) : (s.placeWord w).p = s.p := rfl
@[simp] theorem placeWord_m1 (s : State) (w : CmdWord) : (s.placeWord w).m1 = s.m1 := rfl
@[simp] theorem placeWord_m2 (s : State) (w : CmdWord) : (s.placeWord w).m2 = s.m2 := rfl
@[simp] theorem placeWord_m3 (s : State) (w : CmdWord) : (s.placeWord w).m3 = s.m3 := rfl
@[simp] theorem placeWord_embedDegree (s : State) (w : CmdWord) : (s.placeWord w).embedDegree = s.embedDegree := rfl
@[simp] theorem placeWord_usable (s : State) (w : CmdWord) (l : Level) : (s.placeWord w).usable l = s.usable l := rfl
@[simp] theorem placeWord_degree (s : State) (w : CmdWord) (l : Level) : (s.placeWord w).degree l = s.degree l := rfl
@[simp] theorem placeWord_field (s : State) (w : CmdWord) (l : Level) : (s.placeWord w).field l = s.field l := rfl
@[simp] theorem placeWord_reg (s : State) (w : CmdWord) (q : Reg) : (s.placeWord w).reg q = s.reg q := rfl

/-! ### `State.rejectWord` -/

@[simp] theorem rejectWord_build (s : State) (w : CmdWord) : (s.rejectWord w).build = s.build := rfl
@[simp] theorem rejectWord_regs (s : State) (w : CmdWord) : (s.rejectWord w).regs = s.regs := rfl
@[simp] theorem rejectWord_prime (s : State) (w : CmdWord) : (s.rejectWord w).prime = s.prime := rfl
@[simp] theorem rejectWord_ext1 (s : State) (w : CmdWord) : (s.rejectWord w).ext1 = s.ext1 := rfl
@[simp] theorem rejectWord_ext2 (s : State) (w : CmdWord) : (s.rejectWord w).ext2 = s.ext2 := rfl
@[simp] theorem rejectWord_ext3 (s : State) (w : CmdWord) : (s.rejectWord w).ext3 = s.ext3 := rfl
@[simp] theorem rejectWord_curve0 (s : State) (w : CmdWord) : (s.rejectWord w).curve0 = s.curve0 := rfl
@[simp] theorem rejectWord_curve1 (s : State) (w : CmdWord) : (s.rejectWord w).curve1 = s.curve1 := rfl
@[simp] theorem rejectWord_curve2 (s : State) (w : CmdWord) : (s.rejectWord w).curve2 = s.curve2 := rfl
@[simp] theorem rejectWord_twist (s : State) (w : CmdWord) : (s.rejectWord w).twist = s.twist := rfl
@[simp] theorem rejectWord_pair (s : State) (w : CmdWord) : (s.rejectWord w).pair = s.pair := rfl
@[simp] theorem rejectWord_mode (s : State) (w : CmdWord) : (s.rejectWord w).mode = .fault .illegalCommand := rfl
@[simp] theorem rejectWord_faultCmd (s : State) (w : CmdWord) : (s.rejectWord w).faultCmd = w := rfl
@[simp] theorem rejectWord_cmdCnt (s : State) (w : CmdWord) : (s.rejectWord w).cmdCnt = s.cmdCnt := rfl
@[simp] theorem rejectWord_cmd (s : State) (w : CmdWord) : (s.rejectWord w).cmd = s.cmd.tail := rfl
@[simp] theorem rejectWord_din (s : State) (w : CmdWord) : (s.rejectWord w).din = s.din := rfl
@[simp] theorem rejectWord_dout (s : State) (w : CmdWord) : (s.rejectWord w).dout = s.dout := rfl
@[simp] theorem rejectWord_p (s : State) (w : CmdWord) : (s.rejectWord w).p = s.p := rfl
@[simp] theorem rejectWord_m1 (s : State) (w : CmdWord) : (s.rejectWord w).m1 = s.m1 := rfl
@[simp] theorem rejectWord_m2 (s : State) (w : CmdWord) : (s.rejectWord w).m2 = s.m2 := rfl
@[simp] theorem rejectWord_m3 (s : State) (w : CmdWord) : (s.rejectWord w).m3 = s.m3 := rfl
@[simp] theorem rejectWord_embedDegree (s : State) (w : CmdWord) : (s.rejectWord w).embedDegree = s.embedDegree := rfl
@[simp] theorem rejectWord_usable (s : State) (w : CmdWord) (l : Level) : (s.rejectWord w).usable l = s.usable l := rfl
@[simp] theorem rejectWord_degree (s : State) (w : CmdWord) (l : Level) : (s.rejectWord w).degree l = s.degree l := rfl
@[simp] theorem rejectWord_field (s : State) (w : CmdWord) (l : Level) : (s.rejectWord w).field l = s.field l := rfl
@[simp] theorem rejectWord_reg (s : State) (w : CmdWord) (q : Reg) : (s.rejectWord w).reg q = s.reg q := rfl

/-! ### `State.hold` -/

@[simp] theorem hold_build (s : State) : s.hold.build = s.build := rfl
@[simp] theorem hold_regs (s : State) : s.hold.regs = s.regs := rfl
@[simp] theorem hold_prime (s : State) : s.hold.prime = s.prime := rfl
@[simp] theorem hold_ext1 (s : State) : s.hold.ext1 = s.ext1 := rfl
@[simp] theorem hold_ext2 (s : State) : s.hold.ext2 = s.ext2 := rfl
@[simp] theorem hold_ext3 (s : State) : s.hold.ext3 = s.ext3 := rfl
@[simp] theorem hold_curve0 (s : State) : s.hold.curve0 = s.curve0 := rfl
@[simp] theorem hold_curve1 (s : State) : s.hold.curve1 = s.curve1 := rfl
@[simp] theorem hold_curve2 (s : State) : s.hold.curve2 = s.curve2 := rfl
@[simp] theorem hold_twist (s : State) : s.hold.twist = s.twist := rfl
@[simp] theorem hold_pair (s : State) : s.hold.pair = s.pair := rfl
@[simp] theorem hold_mode (s : State) : s.hold.mode = s.mode := rfl
@[simp] theorem hold_faultCmd (s : State) : s.hold.faultCmd = s.faultCmd := rfl
@[simp] theorem hold_cmdCnt (s : State) : s.hold.cmdCnt = s.cmdCnt := rfl
@[simp] theorem hold_cmd (s : State) : s.hold.cmd = s.cmd := rfl
@[simp] theorem hold_din (s : State) : s.hold.din = s.din := rfl
@[simp] theorem hold_dout (s : State) : s.hold.dout = s.dout := rfl
@[simp] theorem hold_p (s : State) : s.hold.p = s.p := rfl
@[simp] theorem hold_m1 (s : State) : s.hold.m1 = s.m1 := rfl
@[simp] theorem hold_m2 (s : State) : s.hold.m2 = s.m2 := rfl
@[simp] theorem hold_m3 (s : State) : s.hold.m3 = s.m3 := rfl
@[simp] theorem hold_embedDegree (s : State) : s.hold.embedDegree = s.embedDegree := rfl
@[simp] theorem hold_usable (s : State) (l : Level) : s.hold.usable l = s.usable l := rfl
@[simp] theorem hold_degree (s : State) (l : Level) : s.hold.degree l = s.degree l := rfl
@[simp] theorem hold_field (s : State) (l : Level) : s.hold.field l = s.field l := rfl
@[simp] theorem hold_reg (s : State) (q : Reg) : s.hold.reg q = s.reg q := rfl

/-! ### `State.pushDin` -/

@[simp] theorem pushDin_build (s : State) (ws : List DataWord) : (s.pushDin ws).build = s.build := rfl
@[simp] theorem pushDin_regs (s : State) (ws : List DataWord) : (s.pushDin ws).regs = s.regs := rfl
@[simp] theorem pushDin_prime (s : State) (ws : List DataWord) : (s.pushDin ws).prime = s.prime := rfl
@[simp] theorem pushDin_ext1 (s : State) (ws : List DataWord) : (s.pushDin ws).ext1 = s.ext1 := rfl
@[simp] theorem pushDin_ext2 (s : State) (ws : List DataWord) : (s.pushDin ws).ext2 = s.ext2 := rfl
@[simp] theorem pushDin_ext3 (s : State) (ws : List DataWord) : (s.pushDin ws).ext3 = s.ext3 := rfl
@[simp] theorem pushDin_curve0 (s : State) (ws : List DataWord) : (s.pushDin ws).curve0 = s.curve0 := rfl
@[simp] theorem pushDin_curve1 (s : State) (ws : List DataWord) : (s.pushDin ws).curve1 = s.curve1 := rfl
@[simp] theorem pushDin_curve2 (s : State) (ws : List DataWord) : (s.pushDin ws).curve2 = s.curve2 := rfl
@[simp] theorem pushDin_twist (s : State) (ws : List DataWord) : (s.pushDin ws).twist = s.twist := rfl
@[simp] theorem pushDin_pair (s : State) (ws : List DataWord) : (s.pushDin ws).pair = s.pair := rfl
@[simp] theorem pushDin_mode (s : State) (ws : List DataWord) : (s.pushDin ws).mode = s.mode := rfl
@[simp] theorem pushDin_faultCmd (s : State) (ws : List DataWord) : (s.pushDin ws).faultCmd = s.faultCmd := rfl
@[simp] theorem pushDin_cmdCnt (s : State) (ws : List DataWord) : (s.pushDin ws).cmdCnt = s.cmdCnt := rfl
@[simp] theorem pushDin_cmd (s : State) (ws : List DataWord) : (s.pushDin ws).cmd = s.cmd := rfl
@[simp] theorem pushDin_din (s : State) (ws : List DataWord) : (s.pushDin ws).din = s.din ++ ws := rfl
@[simp] theorem pushDin_dout (s : State) (ws : List DataWord) : (s.pushDin ws).dout = s.dout := rfl
@[simp] theorem pushDin_p (s : State) (ws : List DataWord) : (s.pushDin ws).p = s.p := rfl
@[simp] theorem pushDin_m1 (s : State) (ws : List DataWord) : (s.pushDin ws).m1 = s.m1 := rfl
@[simp] theorem pushDin_m2 (s : State) (ws : List DataWord) : (s.pushDin ws).m2 = s.m2 := rfl
@[simp] theorem pushDin_m3 (s : State) (ws : List DataWord) : (s.pushDin ws).m3 = s.m3 := rfl
@[simp] theorem pushDin_embedDegree (s : State) (ws : List DataWord) : (s.pushDin ws).embedDegree = s.embedDegree := rfl
@[simp] theorem pushDin_usable (s : State) (ws : List DataWord) (l : Level) : (s.pushDin ws).usable l = s.usable l := rfl
@[simp] theorem pushDin_degree (s : State) (ws : List DataWord) (l : Level) : (s.pushDin ws).degree l = s.degree l := rfl
@[simp] theorem pushDin_field (s : State) (ws : List DataWord) (l : Level) : (s.pushDin ws).field l = s.field l := rfl
@[simp] theorem pushDin_reg (s : State) (ws : List DataWord) (q : Reg) : (s.pushDin ws).reg q = s.reg q := rfl

/-! ### The register file -/

@[simp] theorem reg_setReg_self (s : State) (r : Reg) (v : Value) : (s.setReg r v).reg r = v := by
  simp [State.reg, State.setReg]

theorem reg_setReg_ne (s : State) {r q : Reg} (v : Value) (h : q ≠ r) :
    (s.setReg r v).reg q = s.reg q := by
  have hn : r.toNat ≠ q.toNat := fun e => h (BitVec.eq_of_toNat_eq e.symm)
  simp only [State.reg, State.setReg]
  exact Vector.getElem_set_ne r.isLt q.isLt hn

theorem reg_setReg (s : State) (r q : Reg) (v : Value) :
    (s.setReg r v).reg q = if q = r then v else s.reg q := by
  split
  · next h => rw [h, reg_setReg_self]
  · next h => exact reg_setReg_ne s v h

/-- Reset leaves every register EMPTY (rules R22, R49). -/
@[simp] theorem resetWith_reg (b : Config.Build) (r : Reg) : (State.resetWith b).reg r = .empty := by
  simp [State.reg, State.resetWith]

@[simp] theorem assertReset_eq (s : State) : s.assertReset = State.resetWith s.build := rfl

/-! ### Configuration contexts -/

@[simp] theorem setExt_regs (s : State) (l : ExtLevel) (m : List (Elem l.base)) :
    (s.setExt l m).regs = s.regs := by cases l <;> rfl
@[simp] theorem setExt_reg (s : State) (l : ExtLevel) (m : List (Elem l.base)) (r : Reg) :
    (s.setExt l m).reg r = s.reg r := by cases l <;> rfl
@[simp] theorem setExt_din (s : State) (l : ExtLevel) (m : List (Elem l.base)) :
    (s.setExt l m).din = s.din := by cases l <;> rfl
@[simp] theorem setExt_dout (s : State) (l : ExtLevel) (m : List (Elem l.base)) :
    (s.setExt l m).dout = s.dout := by cases l <;> rfl
@[simp] theorem setExt_mode (s : State) (l : ExtLevel) (m : List (Elem l.base)) :
    (s.setExt l m).mode = s.mode := by cases l <;> rfl
@[simp] theorem setExt_faultCmd (s : State) (l : ExtLevel) (m : List (Elem l.base)) :
    (s.setExt l m).faultCmd = s.faultCmd := by cases l <;> rfl
@[simp] theorem setExt_cmdCnt (s : State) (l : ExtLevel) (m : List (Elem l.base)) :
    (s.setExt l m).cmdCnt = s.cmdCnt := by cases l <;> rfl
@[simp] theorem setExt_build (s : State) (l : ExtLevel) (m : List (Elem l.base)) :
    (s.setExt l m).build = s.build := by cases l <;> rfl
@[simp] theorem setCurve_regs (s : State) (k : Slot) (E : CurveCtx (Elem k.level)) :
    (s.setCurve k E).regs = s.regs := by cases k <;> rfl
@[simp] theorem setCurve_reg (s : State) (k : Slot) (E : CurveCtx (Elem k.level)) (r : Reg) :
    (s.setCurve k E).reg r = s.reg r := by cases k <;> rfl
@[simp] theorem setCurve_din (s : State) (k : Slot) (E : CurveCtx (Elem k.level)) :
    (s.setCurve k E).din = s.din := by cases k <;> rfl
@[simp] theorem setCurve_dout (s : State) (k : Slot) (E : CurveCtx (Elem k.level)) :
    (s.setCurve k E).dout = s.dout := by cases k <;> rfl
@[simp] theorem setCurve_mode (s : State) (k : Slot) (E : CurveCtx (Elem k.level)) :
    (s.setCurve k E).mode = s.mode := by cases k <;> rfl
@[simp] theorem setCurve_faultCmd (s : State) (k : Slot) (E : CurveCtx (Elem k.level)) :
    (s.setCurve k E).faultCmd = s.faultCmd := by cases k <;> rfl
@[simp] theorem setCurve_cmdCnt (s : State) (k : Slot) (E : CurveCtx (Elem k.level)) :
    (s.setCurve k E).cmdCnt = s.cmdCnt := by cases k <;> rfl
@[simp] theorem setCurve_build (s : State) (k : Slot) (E : CurveCtx (Elem k.level)) :
    (s.setCurve k E).build = s.build := by cases k <;> rfl

end Sys2Proof.Machine
end

