-- ==== Sys2Proof/Laws/Ops.lean ====
section
/-! SUPPORT. What the shared operations can do, each said once: the end of a command, source reads, the
contexts a command needs, and the shared shapes of the register-only commands. -/

namespace Sys2Proof.Machine

open Host (Outcome)

/-! ### The end of a command -/

@[simp] theorem conclude_ok (s : State) (w : CmdWord) (t : State) :
    s.conclude w (.ok t) = .next t.complete := rfl

@[simp] theorem conclude_error (s : State) (w : CmdWord) (c : FaultCode) :
    s.conclude w (.error c) = .next (s.takeFault w c) := rfl

@[simp] theorem writeResult_ok (s : State) (w : CmdWord) (rd : Reg) (v : Value) :
    s.writeResult w rd (.ok v) = .next (s.setReg rd v).complete := rfl

@[simp] theorem writeResult_error (s : State) (w : CmdWord) (rd : Reg) (c : FaultCode) :
    s.writeResult w rd (.error c) = .next (s.takeFault w c) := rfl

/-- A command with a destination either writes that register and completes, or takes a fault. -/
theorem writeResult_cases {s : State} {w : CmdWord} {rd : Reg} {r : Except FaultCode Value}
    {o : Outcome State Fault Refusal} (h : s.writeResult w rd r = o) :
    (∃ v, r = .ok v ∧ o = .next (s.setReg rd v).complete) ∨
      ∃ c, r = .error c ∧ o = .next (s.takeFault w c) := by
  cases r with
  | ok v => exact .inl ⟨v, rfl, h.symm⟩
  | error c => exact .inr ⟨c, rfl, h.symm⟩

/-- Any command of the form of rule R110 either completes in the state it gives or takes a fault. -/
theorem conclude_cases {s : State} {w : CmdWord} {r : Except FaultCode State}
    {o : Outcome State Fault Refusal} (h : s.conclude w r = o) :
    (∃ t, r = .ok t ∧ o = .next t.complete) ∨
      ∃ c, r = .error c ∧ o = .next (s.takeFault w c) := by
  cases r with
  | ok t => exact .inl ⟨t, rfl, h.symm⟩
  | error c => exact .inr ⟨c, rfl, h.symm⟩

/-! ### Checks -/

@[simp] theorem require_eq_ok {b : Bool} {c : FaultCode} {u : Unit} :
    require b c = .ok u ↔ b = true := by
  cases b <;> simp [require]

@[simp] theorem require_true (c : FaultCode) : require true c = .ok () := rfl

@[simp] theorem require_false (c : FaultCode) : require false c = .error c := rfl

@[simp] theorem needContext_some {α : Type} (a : α) : needContext (some a) = .ok a := rfl

@[simp] theorem needContext_none {α : Type} :
    needContext (none : Option α) = .error .contextInvalid := rfl

theorem needContext_eq_ok {α : Type} {c : Option α} {a : α} :
    needContext c = .ok a ↔ c = some a := by
  cases c <;> simp

theorem needField_eq_ok {s : State} {l : Level} {F : FieldOps (Elem l)} :
    s.needField l = .ok F ↔ s.usable l = true ∧ F = s.field l := by
  unfold State.needField
  split
  · next h => exact ⟨fun e => ⟨h, (Except.ok.inj e).symm⟩, fun e => congrArg _ e.2.symm⟩
  · next h => exact ⟨(fun e => by cases e), fun e => absurd e.1 h⟩

theorem needCurve_eq_ok {s : State} {k : Slot} {E : CurveCtx (Elem k.level)} :
    s.needCurve k = .ok E ↔ s.curve k = some E := needContext_eq_ok

theorem needPair_eq_ok {s : State} {e : PairEnv} :
    s.needPair = .ok e ↔ s.pair = some e.pair ∧ s.curve0 = some e.e0 ∧ s.curve1 = some e.e1 ∧
      s.curve2 = some e.e2 ∧ s.twist = some e.tw := by
  obtain ⟨pr, e0, e1, e2, tw⟩ := e
  simp only [State.needPair, bind_eq_ok, needContext_eq_ok]
  constructor
  · rintro ⟨_, h1, _, h2, _, h3, _, h4, _, h5, h⟩
    cases h
    exact ⟨h1, h2, h3, h4, h5⟩
  · rintro ⟨h1, h2, h3, h4, h5⟩
    exact ⟨_, h1, _, h2, _, h3, _, h4, _, h5, rfl⟩

/-! ### Source reads (rule R28) -/

theorem src_eq_ok {α : Type} {s : State} {r : Reg} {pick : Value → Option α} {a : α} :
    s.src r pick = .ok a ↔ s.reg r ≠ .empty ∧ pick (s.reg r) = some a := by
  unfold State.src
  split
  · simp_all
  · split <;> simp_all

theorem int?_eq_some {v : Value} {n : Int} : v.int? = some n ↔ v = .int n := by
  cases v <;> simp [Value.int?]

theorem elem?_eq_some {l : Level} {v : Value} {a : Elem l} :
    v.elem? l = some a ↔ v = .ofElem l a := by
  cases l <;> cases v <;> simp [Value.elem?, Value.ofElem]

theorem poly?_eq_some {l : ExtLevel} {v : Value} {c : List (Elem l.base)} :
    v.poly? l = some c ↔ v = .ofPoly l c := by
  cases l <;> cases v <;> simp [Value.poly?, Value.ofPoly]

theorem point?_eq_some {k : Slot} {v : Value} {P : Point (Elem k.level)} :
    v.point? k = some P ↔ v = .ofPoint k P := by
  cases k <;> cases v <;> simp [Value.point?, Value.ofPoint]

@[simp] theorem ofElem_ne_empty (l : Level) (a : Elem l) : Value.ofElem l a ≠ .empty := by
  cases l <;> simp [Value.ofElem]

@[simp] theorem ofPoly_ne_empty (l : ExtLevel) (c : List (Elem l.base)) :
    Value.ofPoly l c ≠ .empty := by
  cases l <;> simp [Value.ofPoly]

@[simp] theorem ofPoint_ne_empty (k : Slot) (P : Point (Elem k.level)) :
    Value.ofPoint k P ≠ .empty := by
  cases k <;> simp [Value.ofPoint]

theorem srcInt_eq_ok {s : State} {r : Reg} {n : Int} :
    s.srcInt r = .ok n ↔ s.reg r = .int n := by
  rw [State.srcInt, src_eq_ok, int?_eq_some]
  constructor
  · exact And.right
  · intro h
    exact ⟨by simp [h], h⟩

theorem srcElem_eq_ok {s : State} {l : Level} {r : Reg} {a : Elem l} :
    s.srcElem l r = .ok a ↔ s.reg r = .ofElem l a := by
  rw [State.srcElem, src_eq_ok, elem?_eq_some]
  constructor
  · exact And.right
  · intro h
    exact ⟨by simp [h], h⟩

theorem srcPoly_eq_ok {s : State} {l : ExtLevel} {r : Reg} {c : List (Elem l.base)} :
    s.srcPoly l r = .ok c ↔ s.reg r = .ofPoly l c := by
  rw [State.srcPoly, src_eq_ok, poly?_eq_some]
  constructor
  · exact And.right
  · intro h
    exact ⟨by simp [h], h⟩

theorem srcPoint_eq_ok {s : State} {k : Slot} {r : Reg} {P : Point (Elem k.level)} :
    s.srcPoint k r = .ok P ↔ s.reg r = .ofPoint k P := by
  rw [State.srcPoint, src_eq_ok, point?_eq_some]
  constructor
  · exact And.right
  · intro h
    exact ⟨by simp [h], h⟩

/-! ### The shared shapes of the register-only commands -/

/-- A binary element command answers exactly when its level is usable, its operands are elements of
the level, and its function answers. -/
theorem elemBinary_eq_ok {s : State} {l : Level} {rs1 rs2 : Reg}
    {f : FieldOps (Elem l) → Elem l → Elem l → Except FaultCode (Elem l)} {v : Value} :
    s.elemBinary l rs1 rs2 f = .ok v ↔ s.usable l = true ∧ ∃ a b c,
      s.reg rs1 = .ofElem l a ∧ s.reg rs2 = .ofElem l b ∧ f (s.field l) a b = .ok c ∧
        v = .ofElem l c := by
  simp only [State.elemBinary, bind_eq_ok, needField_eq_ok, srcElem_eq_ok]
  constructor
  · rintro ⟨_, ⟨hu, rfl⟩, a, ha, b, hb, c, hc, h⟩
    cases h
    exact ⟨hu, a, b, c, ha, hb, hc, rfl⟩
  · rintro ⟨hu, a, b, c, ha, hb, hc, rfl⟩
    exact ⟨_, ⟨hu, rfl⟩, a, ha, b, hb, c, hc, rfl⟩

/-- A unary element command, likewise. -/
theorem elemUnary_eq_ok {s : State} {l : Level} {rs1 : Reg}
    {f : FieldOps (Elem l) → Elem l → Except FaultCode (Elem l)} {v : Value} :
    s.elemUnary l rs1 f = .ok v ↔ s.usable l = true ∧ ∃ a c,
      s.reg rs1 = .ofElem l a ∧ f (s.field l) a = .ok c ∧ v = .ofElem l c := by
  simp only [State.elemUnary, bind_eq_ok, needField_eq_ok, srcElem_eq_ok]
  constructor
  · rintro ⟨_, ⟨hu, rfl⟩, a, ha, c, hc, h⟩
    cases h
    exact ⟨hu, a, c, ha, hc, rfl⟩
  · rintro ⟨hu, a, c, ha, hc, rfl⟩
    exact ⟨_, ⟨hu, rfl⟩, a, ha, c, hc, rfl⟩

/-- An exponentiation command, likewise. -/
theorem elemPower_eq_ok {s : State} {l : Level} {rs1 rs2 : Reg} {v : Value} :
    s.elemPower l rs1 rs2 = .ok v ↔ s.usable l = true ∧ ∃ a e c,
      s.reg rs1 = .ofElem l a ∧ s.reg rs2 = .int e ∧ (s.field l).exp a e = .ok c ∧
        v = .ofElem l c := by
  simp only [State.elemPower, bind_eq_ok, needField_eq_ok, srcElem_eq_ok, srcInt_eq_ok]
  constructor
  · rintro ⟨_, ⟨hu, rfl⟩, a, ha, e, he, c, hc, h⟩
    cases h
    exact ⟨hu, a, e, c, ha, he, hc, rfl⟩
  · rintro ⟨hu, a, e, c, ha, he, hc, rfl⟩
    exact ⟨_, ⟨hu, rfl⟩, a, ha, e, he, c, hc, rfl⟩

/-- An equality command, likewise. -/
theorem elemEqual_eq_ok {s : State} {l : Level} {rs1 rs2 : Reg} {v : Value} :
    s.elemEqual l rs1 rs2 = .ok v ↔ s.usable l = true ∧ ∃ a b,
      s.reg rs1 = .ofElem l a ∧ s.reg rs2 = .ofElem l b ∧ v = .bool ((s.field l).eq a b) := by
  simp only [State.elemEqual, bind_eq_ok, needField_eq_ok, srcElem_eq_ok]
  constructor
  · rintro ⟨_, ⟨hu, rfl⟩, a, ha, b, hb, h⟩
    cases h
    exact ⟨hu, a, b, ha, hb, rfl⟩
  · rintro ⟨hu, a, b, ha, hb, rfl⟩
    exact ⟨_, ⟨hu, rfl⟩, a, ha, b, hb, rfl⟩

/-- A command on one point answers exactly when its slot is configured, its operand is a point of the
slot, and its function answers. -/
theorem pointUnary_eq_ok {s : State} {k : Slot} {rs1 : Reg}
    {f : FieldOps (Elem k.level) → CurveCtx (Elem k.level) → Point (Elem k.level) →
      Except FaultCode Value} {v : Value} :
    s.pointUnary k rs1 f = .ok v ↔ ∃ E P, s.curve k = some E ∧ s.reg rs1 = .ofPoint k P ∧
      f (s.field k.level) E P = .ok v := by
  simp only [State.pointUnary, bind_eq_ok, needCurve_eq_ok, srcPoint_eq_ok]
  constructor
  · rintro ⟨E, hE, P, hP, h⟩
    exact ⟨E, P, hE, hP, h⟩
  · rintro ⟨E, P, hE, hP, h⟩
    exact ⟨E, hE, P, hP, h⟩

end Sys2Proof.Machine
end

