-- ==== Sys2Proof/Laws/Algebra.lean ====
section
/-! SUPPORT. The field functions compute in the rings of `Sys2Proof/Algebra.lean`: one law per function,
and the passage from one level to the next, proved once for every level (rule R191). -/

namespace Sys2Proof.Machine

open Polynomial

variable {α R : Type} [CommRing R] {F : FieldOps α} {ok : α → Prop} {φ : α → R}

/-- The functions `F` of a level are those of the ring `R`, where `φ` reads elements. -/
structure Represents (F : FieldOps α) (ok : α → Prop) (φ : α → R) : Prop where
  zero : φ F.zero = 0
  one : φ F.one = 1
  ofInt : ∀ n : Int, φ (F.ofInt n) = n
  add : ∀ a b, ok a → ok b → φ (F.add a b) = φ a + φ b
  sub : ∀ a b, ok a → ok b → φ (F.sub a b) = φ a - φ b
  neg : ∀ a, ok a → φ (F.neg a) = -φ a
  mul : ∀ a b c, ok a → ok b → F.mul a b = .ok c → φ c = φ a * φ b
  inv : ∀ a c, ok a → F.inv a = .ok c → φ a * φ c = 1
  isZero : ∀ a, ok a → F.isZero a = true → φ a = 0

/-! ### Coefficient lists as polynomials -/

@[simp] theorem listPoly_nil : listPoly φ [] = 0 := rfl

@[simp] theorem listPoly_cons (c : α) (cs : List α) :
    listPoly φ (c :: cs) = C (φ c) + X * listPoly φ cs := rfl

theorem listPoly_append (a b : List α) :
    listPoly φ (a ++ b) = listPoly φ a + X ^ a.length * listPoly φ b := by
  induction a with
  | nil => simp
  | cons x xs ih =>
    simp only [List.cons_append, listPoly_cons, ih, List.length_cons]
    ring

/-- A list of coefficients that all read as zero is the zero polynomial. -/
theorem listPoly_eq_zero {c : List α} (h : ∀ x ∈ c, φ x = 0) : listPoly φ c = 0 := by
  induction c with
  | nil => rfl
  | cons x xs ih =>
    rw [listPoly_cons, h x (by simp), ih fun y hy => h y (by simp [hy])]
    simp

theorem listPoly_replicate (hR : Represents F ok φ) (n : Nat) :
    listPoly φ (List.replicate n F.zero) = 0 :=
  listPoly_eq_zero fun x hx => by rw [List.eq_of_mem_replicate hx, hR.zero]

theorem listPoly_padTo (hR : Represents F ok φ) (n : Nat) (c : List α) :
    listPoly φ (padTo F n c) = listPoly φ c := by
  rw [padTo, listPoly_append, listPoly_replicate hR]
  simp

theorem listPoly_coeff (c : List α) (z : α) (hφ : φ z = 0) (i : Nat) :
    (listPoly φ c).coeff i = φ (c.getD i z) := by
  induction c generalizing i with
  | nil => simp [hφ]
  | cons x xs ih =>
    cases i with
    | zero => simp
    | succ i => simpa [coeff_C] using ih i

theorem listPoly_degree_lt (c : List α) : (listPoly φ c).degree < c.length := by
  induction c with
  | nil => simp
  | cons x xs ih =>
    rw [listPoly_cons, List.length_cons]
    refine lt_of_le_of_lt (degree_add_le _ _) (max_lt ?_ ?_)
    · exact lt_of_le_of_lt degree_C_le (by exact_mod_cast Nat.succ_pos _)
    · rcases eq_or_ne (listPoly φ xs) 0 with h | h
      · rw [h, mul_zero, degree_zero]
        exact WithBot.bot_lt_coe _
      · have h1 : (X * listPoly φ xs).degree ≤ (listPoly φ xs).degree + 1 := by
          rw [mul_comm, add_comm]
          exact le_trans (degree_mul_le _ _) (by
            rw [add_comm]
            exact add_le_add degree_X_le le_rfl)
        rw [degree_eq_natDegree h] at ih h1
        refine lt_of_le_of_lt h1 ?_
        have : (listPoly φ xs).natDegree < xs.length := by exact_mod_cast ih
        exact_mod_cast Nat.succ_lt_succ this

/-- The coefficientwise sum or difference (`v` is 1 or -1) of two lists of one length. -/
theorem listPoly_zipWith {f : α → α → α} {v : R}
    (hf : ∀ a b, ok a → ok b → φ (f a b) = φ a + v * φ b) {a b : List α}
    (ha : ∀ x ∈ a, ok x) (hb : ∀ x ∈ b, ok x) (hl : a.length = b.length) :
    listPoly φ (List.zipWith f a b) = listPoly φ a + C v * listPoly φ b := by
  induction a generalizing b with
  | nil =>
    cases b with
    | nil => simp
    | cons y ys => simp at hl
  | cons x xs ih =>
    cases b with
    | nil => simp at hl
    | cons y ys =>
      simp only [List.zipWith_cons_cons, listPoly_cons, hf _ _ (ha x (by simp)) (hb y (by simp)),
        ih (b := ys) (fun z hz => ha z (by simp [hz])) (fun z hz => hb z (by simp [hz]))
          (by simpa using hl)]
      simp only [C_add, C_mul]
      ring

/-- Combining a row into a list at an offset adds the shifted row, `v` times. -/
theorem listPoly_combineAt {f : α → α → α} {v : R}
    (hf : ∀ a b, ok a → ok b → φ (f a b) = φ a + v * φ b) (off : Nat) {r row : List α}
    (hr : ∀ x ∈ r, ok x) (hrow : ∀ x ∈ row, ok x) (hl : off + row.length ≤ r.length) :
    listPoly φ (combineAt f off r row) = listPoly φ r + C v * (X ^ off * listPoly φ row) := by
  induction r generalizing off row with
  | nil =>
    have : row = [] := List.eq_nil_of_length_eq_zero (by simp only [List.length_nil] at hl; omega)
    cases off <;> simp [combineAt, this]
  | cons c cs ih =>
    have hcs : ∀ x ∈ cs, ok x := fun x h => hr x (by simp [h])
    cases off with
    | zero =>
      cases row with
      | nil => simp [combineAt]
      | cons y ys =>
        simp only [combineAt, listPoly_cons, hf _ _ (hr c (by simp)) (hrow y (by simp)),
          ih 0 (row := ys) hcs (fun z hz => hrow z (by simp [hz])) (by simpa using hl)]
        simp only [C_add, C_mul]
        ring
    | succ n =>
      simp only [combineAt, listPoly_cons, ih n hcs hrow (by simp at hl; omega)]
      ring

/-- A list multiplied coefficient by coefficient by `t`. -/
theorem listPoly_mapM {f : α → Except FaultCode α} {v : R} {c d : List α}
    (hf : ∀ x ∈ c, ∀ y, f x = .ok y → φ y = v * φ x) (h : c.mapM f = .ok d) :
    listPoly φ d = C v * listPoly φ c := by
  have h2 := mapM_eq_ok.1 h
  clear h
  induction h2 with
  | nil => simp
  | cons hc _ ih =>
    rw [listPoly_cons, listPoly_cons, hf _ (by simp) _ hc,
      ih fun x hx => hf x (by simp [hx]), C_mul]
    ring

theorem add_form (hR : Represents F ok φ) (a b : α) (ha : ok a) (hb : ok b) :
    φ (F.add a b) = φ a + 1 * φ b := by rw [hR.add a b ha hb, one_mul]

theorem sub_form (hR : Represents F ok φ) (a b : α) (ha : ok a) (hb : ok b) :
    φ (F.sub a b) = φ a + -1 * φ b := by rw [hR.sub a b ha hb]; ring

/-! ### The polynomial functions -/

theorem listPoly_mulRows (hF : F.Closed ok) (hR : Represents F ok φ) {a b : List α}
    (ha : ∀ x ∈ a, ok x) (hb : ∀ x ∈ b, ok x) (i : Nat) {c r : List α} (hc : ∀ x ∈ c, ok x)
    (hl : a ≠ [] → i + a.length + b.length ≤ c.length + 1)
    (h : mulRows F b a i c = .ok r) :
    listPoly φ r = listPoly φ c + X ^ i * (listPoly φ a * listPoly φ b) := by
  induction a generalizing i c with
  | nil =>
    cases h
    simp
  | cons x xs ih =>
    simp only [mulRows, bind_eq_ok] at h
    obtain ⟨row, hrow, h⟩ := h
    have hx := ha x (by simp)
    have hrowok := mapM_closed hrow fun y hy c hc => hF.mul _ _ _ hx (hb y hy) hc
    have hlen := mapM_length hrow
    have hl0 := hl (by simp)
    simp only [List.length_cons] at hl0
    rw [ih (fun y hy => ha y (by simp [hy])) (i + 1) (combineAt_closed hF.add i hc hrowok)
        (fun _ => by rw [combineAt_length]; omega) h,
      listPoly_combineAt (add_form hR) i hc hrowok (by omega),
      listPoly_mapM (v := φ x) (fun y hy z hz => hR.mul _ _ _ hx (hb y hy) hz) hrow]
    simp only [listPoly_cons, C_1]
    ring

/-- `polymulraw` multiplies (rule R170). -/
theorem listPoly_mulRaw (hF : F.Closed ok) (hR : Represents F ok φ) {a b r : List α}
    (ha : ∀ x ∈ a, ok x) (hb : ∀ x ∈ b, ok x) (h : polyMulRaw F a b = .ok r) :
    listPoly φ r = listPoly φ a * listPoly φ b := by
  rw [listPoly_mulRows hF hR ha hb 0
    (fun x hx => by rw [List.eq_of_mem_replicate hx]; exact hF.zero)
    (fun hne => by
      have := List.length_pos_iff.2 hne
      rw [List.length_replicate]
      omega) h, listPoly_replicate hR]
  simp

/-- `polysub` subtracts (rule R171). -/
theorem listPoly_polySub (hF : F.Closed ok) (hR : Represents F ok φ) {a b : List α}
    (ha : ∀ x ∈ a, ok x) (hb : ∀ x ∈ b, ok x) :
    listPoly φ (polySub F a b) = listPoly φ a - listPoly φ b := by
  rw [polySub, listPoly_zipWith (sub_form hR) (padTo_closed hF ha) (padTo_closed hF hb)
    (by rw [padTo_length (le_max_left _ _), padTo_length (le_max_right _ _)]),
    listPoly_padTo hR, listPoly_padTo hR]
  simp [sub_eq_add_neg]

/-- The coefficients above the degree are zero. -/
theorem polyDeg_none (hR : Represents F ok φ) {m : List α} (hm : ∀ x ∈ m, ok x)
    (h : polyDeg F m = none) : ∀ x ∈ m, φ x = 0 := by
  induction m with
  | nil => simp
  | cons x xs ih =>
    simp only [polyDeg] at h
    split at h
    · cases h
    · next hn =>
      split at h
      · next hz =>
        intro y hy
        rcases List.mem_cons.1 hy with rfl | hy
        · exact hR.isZero _ (hm _ (by simp)) hz
        · exact ih (fun z hz => hm z (by simp [hz])) hn y hy
      · cases h

theorem polyDeg_some (hR : Represents F ok φ) {m : List α} (hm : ∀ x ∈ m, ok x) {d : Nat}
    (h : polyDeg F m = some d) : ∀ x ∈ m.drop (d + 1), φ x = 0 := by
  induction m generalizing d with
  | nil => simp
  | cons x xs ih =>
    simp only [polyDeg] at h
    split at h
    · next n hn =>
      cases h
      simpa using ih (fun z hz => hm z (by simp [hz])) hn
    · next hn =>
      split at h
      · cases h
      · cases h
        simpa using polyDeg_none hR (fun z hz => hm z (by simp [hz])) hn

theorem listPoly_take_of_drop {m : List α} (n : Nat) (h : ∀ x ∈ m.drop n, φ x = 0) :
    listPoly φ (m.take n) = listPoly φ m := by
  conv_rhs => rw [← List.take_append_drop n m, listPoly_append, listPoly_eq_zero h]
  simp

theorem listPoly_set (q : List α) (k : Nat) (t z : α) (hk : k < q.length) :
    listPoly φ (q.set k t) = listPoly φ q + C (φ t - φ (q.getD k z)) * X ^ k := by
  induction q generalizing k with
  | nil => simp at hk
  | cons x xs ih =>
    cases k with
    | zero =>
      simp only [List.set_cons_zero, listPoly_cons, List.getD_cons_zero, C_sub]
      ring
    | succ k =>
      simp only [List.set_cons_succ, listPoly_cons, List.getD_cons_succ,
        ih k (by simpa using hk)]
      ring

theorem getD_set_ne {q : List α} {i k : Nat} (h : i ≠ k) (t z : α) :
    (q.set k t).getD i z = q.getD i z := by
  rw [List.getD_eq_getElem?_getD, List.getD_eq_getElem?_getD, List.getElem?_set_ne h.symm]

/-- The division loop keeps `q * m + r`, and leaves a remainder below the degree of `m` (rule R161). -/
theorem listPoly_divLoop (hF : F.Closed ok) (hR : Represents F ok φ) {lcinv : α} {m : List α}
    {dm : Nat} (hl : ok lcinv) (hm : ∀ x ∈ m, ok x) (hd : dm < m.length)
    (hlc : φ (m.getD dm F.zero) * φ lcinv = 1) (k : Nat) {q r : List α} {res : List α × List α}
    (hr : ∀ x ∈ r, ok x) (hkr : k ≠ 0 → dm + k ≤ r.length) (hkq : k ≤ q.length)
    (hq0 : ∀ i < k, φ (q.getD i F.zero) = 0)
    (hr0 : ∀ i, dm + k ≤ i → (listPoly φ r).coeff i = 0)
    (h : divLoop F lcinv m dm k q r = .ok res) :
    listPoly φ res.1 * listPoly φ (m.take (dm + 1)) + listPoly φ res.2 =
        listPoly φ q * listPoly φ (m.take (dm + 1)) + listPoly φ r ∧
      ∀ i, dm ≤ i → (listPoly φ res.2).coeff i = 0 := by
  induction k generalizing q r with
  | zero =>
    cases h
    exact ⟨rfl, by simpa using hr0⟩
  | succ k ih =>
    have hri := getD_closed hF.zero hr (dm + k)
    simp only [divLoop] at h
    split at h
    · next hz =>
      refine ih hr (fun _ => by have := hkr (by omega); omega) (by omega)
        (fun i hi => hq0 i (by omega)) (fun i hi => ?_) h
      rcases Nat.eq_or_lt_of_le hi with rfl | hlt
      · rw [listPoly_coeff r F.zero hR.zero]
        exact hR.isZero _ hri hz
      · exact hr0 i (by omega)
    · simp only [bind_eq_ok] at h
      obtain ⟨t, ht, row, hrow, h⟩ := h
      have hokt := hF.mul _ _ _ hri hl ht
      have hmt : ∀ x ∈ m.take (dm + 1), ok x := fun x hx => hm x (List.mem_of_mem_take hx)
      have hrowok := mapM_closed hrow fun b hb c hc => hF.mul _ _ _ hokt (hmt b hb) hc
      have hlen : row.length = dm + 1 := by
        rw [mapM_length hrow, List.length_take]
        omega
      have hlr := hkr (by omega)
      have hnew : listPoly φ (combineAt F.sub k r row) =
          listPoly φ r - X ^ k * (C (φ t) * listPoly φ (m.take (dm + 1))) := by
        rw [listPoly_combineAt (sub_form hR) k hr hrowok (by omega),
          listPoly_mapM (v := φ t) (fun x hx y hy => hR.mul _ _ _ hokt (hmt x hx) hy) hrow]
        simp [sub_eq_add_neg]
      have hset : listPoly φ (q.set k t) = listPoly φ q + C (φ t) * X ^ k := by
        rw [listPoly_set q k t F.zero (by omega), hq0 k (by omega), sub_zero]
      have hstep := ih (combineAt_closed hF.sub k hr hrowok)
        (fun _ => by rw [combineAt_length]; omega) (by rw [List.length_set]; omega)
        (fun i hi => by rw [getD_set_ne (by omega)]; exact hq0 i (by omega))
        (fun i hi => ?_) h
      · refine ⟨hstep.1.trans ?_, hstep.2⟩
        rw [hset, hnew]
        ring
      · have hcoeff : (X ^ k * (C (φ t) * listPoly φ (m.take (dm + 1)))).coeff i =
            φ t * φ ((m.take (dm + 1)).getD (i - k) F.zero) := by
          rw [show i = (i - k) + k by omega, coeff_X_pow_mul, coeff_C_mul, Nat.add_sub_cancel,
            listPoly_coeff _ F.zero hR.zero]
        rw [hnew, coeff_sub, hcoeff]
        rcases Nat.eq_or_lt_of_le hi with rfl | hlt
        · have h1 : (m.take (dm + 1)).getD (dm + k - k) F.zero = m.getD dm F.zero := by
            rw [Nat.add_sub_cancel, List.getD_eq_getElem?_getD, List.getD_eq_getElem?_getD,
              List.getElem?_take_of_lt (by omega)]
          rw [h1, listPoly_coeff r F.zero hR.zero, hR.mul _ _ _ hri hl ht, mul_assoc,
            mul_comm (φ lcinv), hlc, mul_one, sub_self]
        · have h1 : (m.take (dm + 1)).getD (i - k) F.zero = F.zero := by
            rw [List.getD_eq_getElem?_getD, List.getElem?_take_eq_none (by omega)]
            rfl
          rw [h1, hR.zero, mul_zero, sub_zero]
          exact hr0 i (by omega)

/-- `polydivmod` divides with remainder (rule R161): `a = q*m + r`. -/
theorem listPoly_divMod (hF : F.Closed ok) (hR : Represents F ok φ) {a m : List α}
    (ha : ∀ x ∈ a, ok x) (hm : ∀ x ∈ m, ok x) {qr : List α × List α}
    (h : polyDivMod F a m = .ok qr) :
    listPoly φ a = listPoly φ qr.1 * listPoly φ m + listPoly φ qr.2 := by
  simp only [polyDivMod] at h
  split at h
  · cases h
  · next dm hd =>
    simp only [bind_eq_ok] at h
    obtain ⟨lcinv, hl, res, hres, h⟩ := h
    have hlead := getD_closed hF.zero hm dm
    have hdrop := polyDeg_some hR hm hd
    have hrep : listPoly φ (List.replicate (max (a.length - dm) 1) F.zero) = 0 :=
      listPoly_replicate hR _
    obtain ⟨h1, h2⟩ := listPoly_divLoop hF hR (hF.inv _ _ hlead hl) hm (polyDeg_lt hd)
      (hR.inv _ _ hlead hl) (a.length - dm) ha (fun _ => by omega)
      (by rw [List.length_replicate]; exact le_max_left _ _)
      (fun i hi => by rw [← listPoly_coeff _ F.zero hR.zero, hrep, coeff_zero])
      (fun i hi => coeff_eq_zero_of_degree_lt
        (lt_of_lt_of_le (listPoly_degree_lt a) (by exact_mod_cast (by omega : a.length ≤ i)))) hres
    cases h
    rw [listPoly_take_of_drop _ hdrop, hrep, zero_mul, zero_add] at h1
    have h3 : listPoly φ (res.2.take dm) = listPoly φ res.2 := by
      ext i
      rw [listPoly_coeff _ F.zero hR.zero]
      rcases lt_or_ge i dm with hi | hi
      · rw [List.getD_eq_getElem?_getD, List.getElem?_take_of_lt hi, ← List.getD_eq_getElem?_getD,
          listPoly_coeff _ F.zero hR.zero]
      · rw [List.getD_eq_getElem?_getD, List.getElem?_take_eq_none hi, h2 i hi]
        exact hR.zero
    rw [listPoly_padTo hR, h3, h1]

/-- `polymod` reduces (rule R162): the result differs by a multiple of `m`. -/
theorem listPoly_polyMod (hF : F.Closed ok) (hR : Represents F ok φ) {a m r : List α}
    (ha : ∀ x ∈ a, ok x) (hm : ∀ x ∈ m, ok x) (h : polyMod F m a = .ok r) :
    listPoly φ m ∣ listPoly φ a - listPoly φ r := by
  simp only [polyMod, bind_eq_ok] at h
  obtain ⟨qr, hqr, h⟩ := h
  cases h
  rw [listPoly_padTo hR, listPoly_divMod hF hR ha hm hqr, add_sub_cancel_right]
  exact dvd_mul_left _ _

/-- The Euclidean loop keeps `r ≡ t * a` modulo `m` (rule R171). -/
theorem listPoly_euclid (hF : F.Closed ok) (hR : Represents F ok φ) {A M : R[X]} (n : Nat)
    {r0 r1 t0 t1 : List α} {res : List α × List α} (h0 : ∀ x ∈ r0, ok x) (h1 : ∀ x ∈ r1, ok x)
    (ht0 : ∀ x ∈ t0, ok x) (ht1 : ∀ x ∈ t1, ok x)
    (hi0 : M ∣ listPoly φ r0 - listPoly φ t0 * A) (hi1 : M ∣ listPoly φ r1 - listPoly φ t1 * A)
    (h : polyEuclid F n r0 r1 t0 t1 = .ok res) :
    M ∣ listPoly φ res.1 - listPoly φ res.2 * A := by
  induction n generalizing r0 r1 t0 t1 with
  | zero =>
    cases h
    exact hi0
  | succ n ih =>
    simp only [polyEuclid] at h
    split at h
    · cases h
      exact hi0
    · simp only [bind_eq_ok] at h
      obtain ⟨qr, hqr, prod, hprod, h⟩ := h
      obtain ⟨hq, hr, -⟩ := polyDivMod_closed hF h0 h1 hqr
      have hpr := (polyMulRaw_closed hF hq ht1 hprod).1
      refine ih h1 hr ht1 (polySub_closed hF ht0 hpr) hi1 ?_ h
      have hd := listPoly_divMod hF hR h0 h1 hqr
      rw [listPoly_polySub hF hR ht0 hpr, listPoly_mulRaw hF hR hq ht1 hprod]
      have : listPoly φ qr.2 - (listPoly φ t0 - listPoly φ qr.1 * listPoly φ t1) * A =
          (listPoly φ r0 - listPoly φ t0 * A) -
            listPoly φ qr.1 * (listPoly φ r1 - listPoly φ t1 * A) := by
        rw [hd]
        ring
      rw [this]
      exact dvd_sub hi0 (dvd_mul_of_dvd_right hi1 _)

/-! ### The levels -/

theorem cast_residue {p : Nat} (hp : 0 < p) (x : Int) : ((residue p x : Nat) : ZMod p) = x := by
  have h0 : (0 : Int) ≤ x % p := Int.emod_nonneg x (by exact_mod_cast hp.ne')
  rw [← Int.cast_natCast, residue, Int.toNat_of_nonneg h0]
  simp

/-- The loop of rule R143 keeps `r ≡ s * a` modulo `p`. -/
theorem cast_euclid {p : Nat} {a : ZMod p} (n : Nat) {r0 r1 : Nat} {s0 s1 : Int}
    (h0 : (r0 : ZMod p) = s0 * a) (h1 : (r1 : ZMod p) = s1 * a) :
    ((euclid n r0 r1 s0 s1).1 : ZMod p) = (euclid n r0 r1 s0 s1).2 * a := by
  induction n generalizing r0 r1 s0 s1 with
  | zero => exact h0
  | succ n ih =>
    rw [euclid]
    split
    · exact h0
    · refine ih h1 ?_
      rw [Nat.cast_sub (Nat.div_mul_le_self _ _), Nat.cast_mul, Int.cast_sub, Int.cast_mul,
        Int.cast_natCast, h0, h1]
      ring

/-- The loop of rule R143 ends in the greatest common divisor. -/
theorem euclid_gcd (n : Nat) {r0 r1 : Nat} (s0 s1 : Int) (h : r1 < n) :
    (euclid n r0 r1 s0 s1).1 = Nat.gcd r0 r1 := by
  induction n generalizing r0 r1 s0 s1 with
  | zero => omega
  | succ n ih =>
    rw [euclid]
    split
    · next hz => rw [hz, Nat.gcd_zero_right]
    · next hz =>
      have h1 : r0 - r0 / r1 * r1 = r0 % r1 := by
        rw [Nat.mul_comm, ← Nat.mod_eq_sub_mul_div]
      rw [h1, ih _ _ (lt_of_lt_of_le (Nat.mod_lt _ (Nat.pos_of_ne_zero hz)) (by omega)),
        Nat.gcd_comm, ← Nat.gcd_rec, Nat.gcd_comm]

/-- `inv_0` answers exactly the elements prime to `p`, and faults on every other (rules R143, R301). -/
theorem fpInv_cases (p a : Nat) :
    (a ≠ 0 ∧ Nat.Coprime p a ∧ ∃ c, fpInv p a = .ok c) ∨
      ((a = 0 ∨ ¬ Nat.Coprime p a) ∧ fpInv p a = .error .divisionByZero) := by
  have hgcd := euclid_gcd (a + 1) (r0 := p) (r1 := a) 0 1 (by omega)
  simp only [fpInv, hgcd]
  by_cases ha : a = 0
  · exact .inr ⟨.inl ha, by rw [if_pos ha]⟩
  · by_cases hg : Nat.gcd p a = 1
    · exact .inl ⟨ha, hg, _, by rw [if_neg ha, if_neg (not_not.2 hg)]⟩
    · exact .inr ⟨.inr hg, by rw [if_neg ha, if_pos hg]⟩

/-- Level 0 is the integers modulo `p` (rules R141 to R146). -/
theorem fpOps_represents {p : Nat} (ok : Nat → Prop) (hp : 0 < p) :
    Represents (fpOps p) ok (fun a => (a : ZMod p)) where
  zero := Nat.cast_zero
  one := Nat.cast_one
  ofInt n := cast_residue hp n
  add a b _ _ := by simp [fpOps, fpAdd]
  sub a b _ _ := by
    simp only [fpOps, fpSub, cast_residue hp]
    push_cast
    rfl
  neg a _ := by
    simp only [fpOps, fpNeg, cast_residue hp]
    push_cast
    ring
  mul a b c _ _ h := by
    simp only [fpOps, Except.ok.injEq] at h
    simp [← h, fpMul]
  inv a c _ h := by
    simp only [fpOps, fpInv] at h
    split at h
    · cases h
    · split at h
      · cases h
      · next hg =>
        cases h
        have h1 := cast_euclid (p := p) (a := (a : ZMod p)) (a + 1) (r0 := p) (r1 := a) (s0 := 0)
          (s1 := 1) (by simp) (by simp)
        rw [not_not.1 hg] at h1
        rw [cast_residue hp, mul_comm, ← h1]
        simp
  isZero a _ h := by
    have : a = 0 := by simpa [fpOps] using h
    simp [this]

theorem listPoly_extLift (hR : Represents F ok φ) (m : List α) (e : α) :
    listPoly φ (extLift F m e) = C (φ e) := by
  rw [extLift, listPoly_cons, listPoly_replicate hR]
  simp

/-- The extension of a level is the polynomials over it modulo `m` (rules R160 to R174). -/
theorem extOps_represents (hF : F.Closed ok) (hR : Represents F ok φ) {m : List α}
    (hm : ∀ x ∈ m, ok x) :
    Represents (extOps F m) (ExtOk ok (m.length - 1))
      (fun e => AdjoinRoot.mk (listPoly φ m) (listPoly φ e)) where
  zero := by rw [extOps, listPoly_replicate hR, map_zero]
  one := by rw [extOps, listPoly_extLift hR, hR.one, C_1, map_one]
  ofInt n := by rw [extOps, listPoly_extLift hR, hR.ofInt]; simp
  add a b ha hb := by
    rw [extOps, listPoly_zipWith (add_form hR) ha.2 hb.2 (ha.1.trans hb.1.symm)]
    simp
  sub a b ha hb := by
    rw [extOps, listPoly_zipWith (sub_form hR) ha.2 hb.2 (ha.1.trans hb.1.symm)]
    simp [sub_eq_add_neg]
  neg a ha := by
    have h : listPoly φ (a.map F.neg) = -listPoly φ a := by
      have ha2 := ha.2
      clear ha
      induction a with
      | nil => simp
      | cons x xs ih =>
        rw [List.map_cons, listPoly_cons, listPoly_cons, hR.neg x (ha2 x (by simp)),
          ih fun y hy => ha2 y (by simp [hy]), C_neg]
        ring
    simp only [extOps, h, map_neg]
  mul a b c ha hb h := by
    simp only [extOps, extMul, bind_eq_ok] at h
    obtain ⟨raw, hraw, h⟩ := h
    have hd := listPoly_polyMod hF hR (polyMulRaw_closed hF ha.2 hb.2 hraw).1 hm h
    rw [listPoly_mulRaw hF hR ha.2 hb.2 hraw] at hd
    rw [← map_mul]
    exact (AdjoinRoot.mk_eq_mk.2 hd).symm
  inv a c ha h := by
    simp only [extOps, extInv] at h
    split at h
    · cases h
    · simp only [bind_eq_ok] at h
      obtain ⟨rt, hrt, h⟩ := h
      split at h
      · cases h
      · next hdeg =>
        simp only [bind_eq_ok] at h
        obtain ⟨g, hg, t, ht, h⟩ := h
        have hz : ∀ x ∈ [F.zero], ok x := by simpa using hF.zero
        have ho : ∀ x ∈ [F.one], ok x := by simpa using hF.one
        obtain ⟨hc1, hc2⟩ := polyEuclid_closed hF _ hm ha.2 hz ho hrt
        have hinv := listPoly_euclid hF hR (A := listPoly φ a) (M := listPoly φ m) _ hm ha.2 hz ho
          (by simp [hR.zero]) (by simp [hR.one]) hrt
        have hlead := getD_closed hF.zero hc1 0
        have hgok := hF.inv _ _ hlead hg
        have htok := mapM_closed ht fun x hx y hy => hF.mul _ _ _ (hc2 x hx) hgok hy
        have hd := listPoly_polyMod hF hR htok hm h
        rw [listPoly_mapM (v := φ g)
          (fun x hx y hy => by rw [hR.mul _ _ _ (hc2 x hx) hgok hy, mul_comm]) ht] at hd
        have hconst : listPoly φ rt.1 = C (φ (rt.1.getD 0 F.zero)) := by
          rw [← listPoly_take_of_drop 1 (polyDeg_some hR hc1 (not_not.1 hdeg))]
          cases rt.1 <;> simp [hR.zero]
        have hunit := hR.inv _ _ hlead hg
        rw [← map_mul, ← map_one (AdjoinRoot.mk (listPoly φ m))]
        refine (AdjoinRoot.mk_eq_mk.2 ?_).symm
        have h1 : (1 : R[X]) = C (φ g) * listPoly φ rt.1 := by
          rw [hconst, ← C_mul, mul_comm (φ g), hunit, C_1]
        have h2 : 1 - listPoly φ a * listPoly φ c =
            C (φ g) * (listPoly φ rt.1 - listPoly φ rt.2 * listPoly φ a) +
              listPoly φ a * (C (φ g) * listPoly φ rt.2 - listPoly φ c) := by
          linear_combination h1
        rw [h2]
        exact dvd_add (dvd_mul_of_dvd_right hinv _) (dvd_mul_of_dvd_right hd _)
  isZero a ha h := by
    have : ∀ x ∈ a, φ x = 0 := fun x hx => hR.isZero x (ha.2 x hx) (by
      have := List.all_eq_true.1 h x hx
      simpa using this)
    rw [listPoly_eq_zero this, map_zero]

/-! ### Equality and zero are exact -/

/-- Equality of elements is equality of their payloads, and the zero test finds `F.zero` alone. -/
structure ExactEq (F : FieldOps α) (ok : α → Prop) : Prop where
  eq : ∀ a b, ok a → ok b → (F.eq a b = true ↔ a = b)
  isZero : ∀ a, ok a → (F.isZero a = true ↔ a = F.zero)

theorem fpOps_exactEq (p : Nat) (ok : Nat → Prop) : ExactEq (fpOps p) ok where
  eq a b _ _ := by simp [fpOps]
  isZero a _ := by simp [fpOps]

theorem extOps_exactEq (hE : ExactEq F ok) (m : List α) :
    ExactEq (extOps F m) (ExtOk ok (m.length - 1)) where
  eq a b ha hb := by
    obtain ⟨hla, ha⟩ := ha
    obtain ⟨hlb, hb⟩ := hb
    have hl := hla.trans hlb.symm
    clear hla hlb
    simp only [extOps, extEq]
    induction a generalizing b with
    | nil =>
      cases b with
      | nil => simp
      | cons y ys => simp at hl
    | cons x xs ih =>
      cases b with
      | nil => simp at hl
      | cons y ys =>
        have h1 := hE.eq x y (ha x (by simp)) (hb y (by simp))
        have h2 := ih ys (fun z hz => ha z (by simp [hz])) (fun z hz => hb z (by simp [hz]))
          (by simpa using hl)
        simp only [List.zipWith_cons_cons, List.all_cons, Bool.and_eq_true, h2, id_eq, h1,
          List.cons.injEq]
  isZero a ha := by
    simp only [extOps, List.all_eq_true]
    constructor
    · intro h
      refine List.eq_replicate_iff.2 ⟨ha.1, fun x hx => (hE.isZero x (ha.2 x hx)).1 (h x hx)⟩
    · intro h x hx
      refine (hE.isZero x (ha.2 x hx)).2 ?_
      rw [h] at hx
      exact List.eq_of_mem_replicate hx

/-! ### Elements are determined by what they read as -/

/-- `φ` reads different elements as different members of the ring. -/
def Separates (ok : α → Prop) (φ : α → R) : Prop := ∀ a b, ok a → ok b → φ a = φ b → a = b

theorem val0_separates {p : Nat} : Separates (· < p) (fun a : Nat => (a : ZMod p)) := by
  intro a b ha hb h
  have := (ZMod.natCast_eq_natCast_iff' a b p).1 h
  rwa [Nat.mod_eq_of_lt ha, Nat.mod_eq_of_lt hb] at this

theorem listPoly_separates (hS : Separates ok φ) {a b : List α} (ha : ∀ x ∈ a, ok x)
    (hb : ∀ x ∈ b, ok x) (hl : a.length = b.length) (h : listPoly φ a = listPoly φ b) : a = b := by
  induction a generalizing b with
  | nil => exact (List.eq_nil_of_length_eq_zero hl.symm).symm
  | cons x xs ih =>
    cases b with
    | nil => simp at hl
    | cons y ys =>
      rw [listPoly_cons, listPoly_cons] at h
      have h0 : φ x = φ y := by simpa using congrArg (coeff · 0) h
      have h1 : listPoly φ xs = listPoly φ ys := by
        ext i
        simpa [coeff_C] using congrArg (coeff · (i + 1)) h
      rw [hS x y (ha x (by simp)) (hb y (by simp)) h0,
        ih (fun z hz => ha z (by simp [hz])) (fun z hz => hb z (by simp [hz])) (by simpa using hl) h1]

/-- An element of an extension is determined by what it reads as, when the modulus's leading
coefficient is invertible. -/
theorem extOps_separates (hF : F.Closed ok) (hR : Represents F ok φ) (hS : Separates ok φ)
    {m : List α} (hm : ∀ x ∈ m, ok x) (hne : m ≠ []) {u : α}
    (hu : F.inv (m.getD (m.length - 1) F.zero) = .ok u) :
    Separates (ExtOk ok (m.length - 1))
      (fun e => AdjoinRoot.mk (listPoly φ m) (listPoly φ e)) := by
  intro a b ha hb h
  refine listPoly_separates hS ha.2 hb.2 (ha.1.trans hb.1.symm) ?_
  rcases subsingleton_or_nontrivial R with hR0 | hR0
  · exact Subsingleton.elim _ _
  have hpos := List.length_pos_iff.2 hne
  have hdvd := AdjoinRoot.mk_eq_mk.1 h
  have hunit := hR.inv _ _ (getD_closed hF.zero hm _) hu
  have hcoeff : (listPoly φ m).coeff (m.length - 1) = φ (m.getD (m.length - 1) F.zero) :=
    listPoly_coeff m F.zero hR.zero _
  have hle : (C (φ u) * listPoly φ m).degree ≤ ((m.length - 1 : Nat) : WithBot Nat) := by
    refine degree_le_iff_coeff_zero _ _ |>.2 fun i hi => ?_
    rw [coeff_C_mul, coeff_eq_zero_of_degree_lt (lt_of_lt_of_le (listPoly_degree_lt m) ?_), mul_zero]
    have : m.length - 1 < i := by exact_mod_cast hi
    exact_mod_cast (by omega : m.length ≤ i)
  have hlead : (C (φ u) * listPoly φ m).coeff (m.length - 1) = 1 := by
    rw [coeff_C_mul, hcoeff, mul_comm, hunit]
  have hmonic : (C (φ u) * listPoly φ m).Monic := monic_of_degree_le _ hle hlead
  have hdeg : (C (φ u) * listPoly φ m).degree = ((m.length - 1 : Nat) : WithBot Nat) :=
    le_antisymm hle (le_degree_of_ne_zero (by rw [hlead]; exact one_ne_zero))
  have hdvd' : C (φ u) * listPoly φ m ∣ listPoly φ a - listPoly φ b := by
    obtain ⟨q, hq⟩ := hdvd
    refine ⟨C (φ (m.getD (m.length - 1) F.zero)) * q, ?_⟩
    have : C (φ (m.getD (m.length - 1) F.zero)) * C (φ u) = (1 : R[X]) := by
      rw [← C_mul, hunit, C_1]
    rw [hq]
    linear_combination (-listPoly φ m * q) * this
  by_contra hne'
  refine hmonic.not_dvd_of_degree_lt (sub_ne_zero.2 hne') ?_ hdvd'
  rw [hdeg]
  refine lt_of_le_of_lt (degree_sub_le _ _) (max_lt ?_ ?_)
  · have := listPoly_degree_lt (φ := φ) a
    rwa [ha.1] at this
  · have := listPoly_degree_lt (φ := φ) b
    rwa [hb.1] at this

/-! ### Powers -/

theorem expLoop_represents (hF : F.Closed ok) (hR : Represents F ok φ) {b : α} (hb : ok b)
    (e i : Nat) {acc c : α} (hacc : ok acc) (h : expLoop F b e i acc = .ok c) :
    φ c = φ acc ^ 2 ^ i * φ b ^ (e % 2 ^ i) := by
  induction i generalizing acc with
  | zero =>
    cases h
    simp [Nat.mod_one]
  | succ i ih =>
    have hmod : e % 2 ^ (i + 1) = e % 2 ^ i + 2 ^ i * (e.testBit i).toNat := by
      rw [Nat.mod_pow_succ, Nat.toNat_testBit]
    simp only [expLoop, bind_eq_ok] at h
    obtain ⟨sq, hsq, h⟩ := h
    have h1 := hF.mul _ _ _ hacc hacc hsq
    have hsq' := hR.mul _ _ _ hacc hacc hsq
    split at h
    · next ht =>
      obtain ⟨acc', hacc', h⟩ := bind_eq_ok.1 h
      rw [ih (hF.mul _ _ _ h1 hb hacc') h, hR.mul _ _ _ h1 hb hacc', hsq', hmod, ht]
      simp only [Bool.toNat_true, mul_one]
      ring
    · next ht =>
      rw [ih h1 h, hsq', hmod, Bool.eq_false_iff.2 ht]
      simp only [Bool.toNat_false, mul_zero, add_zero]
      ring

theorem lt_two_pow_bitLen (n : Nat) : n < 2 ^ bitLen n := by
  unfold bitLen
  split
  · next h => simp [h]
  · exact Nat.lt_log2_self

/-- `exp` raises to the power; a negative exponent inverts first (rules R145, R173). -/
theorem exp_represents (hF : F.Closed ok) (hR : Represents F ok φ) {b c : α} (hb : ok b) {e : Int}
    (h : F.exp b e = .ok c) :
    (0 ≤ e → φ c = φ b ^ e.natAbs) ∧ (e < 0 → φ c * φ b ^ e.natAbs = 1) := by
  have key (x d : α) (hx : ok x)
      (h : expLoop F x e.natAbs (bitLen e.natAbs) F.one = .ok d) : φ d = φ x ^ e.natAbs := by
    rw [expLoop_represents hF hR hx _ _ hF.one h, hR.one, one_pow, one_mul,
      Nat.mod_eq_of_lt (lt_two_pow_bitLen _)]
  unfold FieldOps.exp at h
  split at h
  · cases h
  · split at h
    · next he =>
      obtain ⟨b', hb', h⟩ := bind_eq_ok.1 h
      refine ⟨fun h0 => by omega, fun _ => ?_⟩
      rw [key b' c (hF.inv _ _ hb hb') h, ← mul_pow, mul_comm, hR.inv _ _ hb hb', one_pow]
    · next he => exact ⟨fun _ => key b c hb h, fun h0 => absurd h0 he⟩

/-! ### The levels of a state -/

theorem val0_represents {s : State} (h : s.Inv) (hu : s.usable .l0 = true) :
    Represents (s.field .l0) (s.ElemOk .l0) s.val0 :=
  fpOps_represents _ (by have := p_gt_two h hu; omega)

theorem val1_represents {s : State} (h : s.Inv) (hu : s.usable .l1 = true) :
    Represents (s.field .l1) (s.ElemOk .l1) s.val1 :=
  have hd := modulus1 h hu
  extOps_represents (field_closed h hd.1) (val0_represents h hd.1) hd.2.2.2.1

theorem val2_represents {s : State} (h : s.Inv) (hu : s.usable .l2 = true) :
    Represents (s.field .l2) (s.ElemOk .l2) s.val2 :=
  have hd := modulus2 h hu
  extOps_represents (field_closed h hd.1) (val1_represents h hd.1) hd.2.2.2.1

theorem val3_represents {s : State} (h : s.Inv) (hu : s.usable .l3 = true) :
    Represents (s.field .l3) (s.ElemOk .l3) s.val3 :=
  have hd := modulus3 h hu
  extOps_represents (field_closed h hd.1) (val2_represents h hd.1) hd.2.2.2.1

/-- What holds in every ring the level's functions compute in holds in the level's ring. -/
theorem inRing {s : State} (h : s.Inv) {l : Level} (hu : s.usable l = true)
    {P : (R : Type) → [CommRing R] → (Elem l → R) → Prop}
    (hP : ∀ (R : Type) [CommRing R] (φ : Elem l → R), Represents (s.field l) (s.ElemOk l) φ → P R φ) :
    s.InRing l P := by
  cases l with
  | l0 => exact hP _ _ (val0_represents h hu)
  | l1 => exact hP _ _ (val1_represents h hu)
  | l2 => exact hP _ _ (val2_represents h hu)
  | l3 => exact hP _ _ (val3_represents h hu)

theorem field_exactEq (s : State) (l : Level) : ExactEq (s.field l) (s.ElemOk l) := by
  cases l with
  | l0 => exact fpOps_exactEq _ _
  | l1 => exact extOps_exactEq (fpOps_exactEq _ _) _
  | l2 => exact extOps_exactEq (extOps_exactEq (fpOps_exactEq _ _) _) _
  | l3 => exact extOps_exactEq (extOps_exactEq (extOps_exactEq (fpOps_exactEq _ _) _) _) _

end Sys2Proof.Machine
end

