-- ==== Sys2Proof/Laws/Inverse.lean ====
section
/-! SUPPORT. Inversion: an extension by an irreducible modulus of a level that is a field is a field, and
the engine inverts every nonzero element of it (rules R160, R171); and the only fault the field functions
raise, but for `0^0`, is DivisionByZero (rule R301). -/

namespace Sys2Proof.Machine

open Polynomial

variable {α R : Type} [CommRing R] {F : FieldOps α} {ok : α → Prop} {φ : α → R}

/-! ### The one fault of multiplication and inversion -/

/-- Multiplication and inversion raise no fault but DivisionByZero. -/
structure FieldOps.OnlyDivision (F : FieldOps α) : Prop where
  mul : ∀ a b e, F.mul a b = .error e → e = .divisionByZero
  inv : ∀ a e, F.inv a = .error e → e = .divisionByZero

theorem bind_eq_error {ε β γ : Type} {x : Except ε β} {f : β → Except ε γ} {e : ε} :
    (x >>= f) = .error e ↔ x = .error e ∨ ∃ b, x = .ok b ∧ f b = .error e := by
  cases x <;> simp [bind, Except.bind]

theorem mapM_error {β γ : Type} {f : β → Except FaultCode γ} {l : List β} {e : FaultCode}
    (hf : ∀ b e, f b = .error e → e = .divisionByZero) (h : l.mapM f = .error e) :
    e = .divisionByZero := by
  induction l with
  | nil => simp [pure, Except.pure] at h
  | cons b l ih =>
    rw [List.mapM_cons] at h
    rcases bind_eq_error.1 h with h | ⟨c, -, h⟩
    · exact hf b e h
    · rcases bind_eq_error.1 h with h | ⟨cs, -, h⟩
      · exact ih h
      · simp [pure, Except.pure] at h

theorem fpOps_onlyDivision (p : Nat) : (fpOps p).OnlyDivision where
  mul a b e h := by simp [fpOps] at h
  inv a e h := by
    have h : fpInv p a = .error e := h
    rcases fpInv_cases p a with ⟨-, -, c, hc⟩ | ⟨-, hc⟩
    · rw [hc] at h
      cases h
    · rw [hc] at h
      cases h
      rfl

theorem divLoop_error (hF : F.OnlyDivision) {lcinv : α} {m : List α} (dm k : Nat) {q r : List α}
    {e : FaultCode} (h : divLoop F lcinv m dm k q r = .error e) : e = .divisionByZero := by
  induction k generalizing q r with
  | zero => cases h
  | succ k ih =>
    simp only [divLoop] at h
    split at h
    · exact ih h
    · rcases bind_eq_error.1 h with h | ⟨t, -, h⟩
      · exact hF.mul _ _ _ h
      · rcases bind_eq_error.1 h with h | ⟨row, -, h⟩
        · exact mapM_error (hF.mul t) h
        · exact ih h

theorem polyDivMod_error (hF : F.OnlyDivision) {a m : List α} {e : FaultCode}
    (h : polyDivMod F a m = .error e) : e = .divisionByZero := by
  simp only [polyDivMod] at h
  split at h
  · cases h
    rfl
  · rcases bind_eq_error.1 h with h | ⟨u, -, h⟩
    · exact hF.inv _ _ h
    · rcases bind_eq_error.1 h with h | ⟨qr, -, h⟩
      · exact divLoop_error hF _ _ h
      · cases h

theorem polyMod_error (hF : F.OnlyDivision) {a m : List α} {e : FaultCode}
    (h : polyMod F m a = .error e) : e = .divisionByZero := by
  rcases bind_eq_error.1 h with h | ⟨qr, -, h⟩
  · exact polyDivMod_error hF h
  · cases h

theorem mulRows_error (hF : F.OnlyDivision) {a b : List α} (i : Nat) {c : List α} {e : FaultCode}
    (h : mulRows F b a i c = .error e) : e = .divisionByZero := by
  induction a generalizing i c with
  | nil => cases h
  | cons x xs ih =>
    rcases bind_eq_error.1 h with h | ⟨row, -, h⟩
    · exact mapM_error (hF.mul x) h
    · exact ih _ h

theorem polyEuclid_error (hF : F.OnlyDivision) (n : Nat) {r0 r1 t0 t1 : List α} {e : FaultCode}
    (h : polyEuclid F n r0 r1 t0 t1 = .error e) : e = .divisionByZero := by
  induction n generalizing r0 r1 t0 t1 with
  | zero => cases h
  | succ n ih =>
    simp only [polyEuclid] at h
    split at h
    · cases h
    · rcases bind_eq_error.1 h with h | ⟨qr, -, h⟩
      · exact polyDivMod_error hF h
      · rcases bind_eq_error.1 h with h | ⟨prod, -, h⟩
        · exact mulRows_error hF 0 h
        · exact ih h

theorem extOps_onlyDivision (hF : F.OnlyDivision) (m : List α) : (extOps F m).OnlyDivision where
  mul a b e h := by
    rcases bind_eq_error.1 (show extMul F m a b = .error e from h) with h | ⟨c, -, h⟩
    · exact mulRows_error hF 0 h
    · exact polyMod_error hF h
  inv a e h := by
    simp only [extOps, extInv] at h
    split at h
    · cases h
      rfl
    · rcases bind_eq_error.1 h with h | ⟨rt, -, h⟩
      · exact polyEuclid_error hF _ h
      · split at h
        · cases h
          rfl
        · rcases bind_eq_error.1 h with h | ⟨g, -, h⟩
          · exact hF.inv _ _ h
          · rcases bind_eq_error.1 h with h | ⟨t, -, h⟩
            · exact mapM_error (fun x => hF.mul x g) h
            · exact polyMod_error hF h

theorem field_onlyDivision (s : State) (l : Level) : (s.field l).OnlyDivision := by
  cases l with
  | l0 => exact fpOps_onlyDivision _
  | l1 => exact extOps_onlyDivision (fpOps_onlyDivision _) _
  | l2 => exact extOps_onlyDivision (extOps_onlyDivision (fpOps_onlyDivision _) _) _
  | l3 =>
    exact extOps_onlyDivision (extOps_onlyDivision (extOps_onlyDivision (fpOps_onlyDivision _) _) _) _

/-! ### Inversion in a field -/

/-- Every element but those the zero test finds has an inverse. -/
def FieldOps.InvertsAll (F : FieldOps α) (ok : α → Prop) : Prop :=
  ∀ a, ok a → F.isZero a = false → ∃ c, F.inv a = .ok c

/-- The coefficient at the degree is not zero. -/
theorem polyDeg_lead {m : List α} {d : Nat} (h : polyDeg F m = some d) (z : α) :
    F.isZero (m.getD d z) = false := by
  induction m generalizing d with
  | nil => simp [polyDeg] at h
  | cons x xs ih =>
    simp only [polyDeg] at h
    split at h
    · next n hn =>
      cases h
      simpa using ih hn
    · split at h
      · cases h
      · next hz =>
        cases h
        simpa using hz

/-- Division by a polynomial that is not zero raises no fault over a field (rule R161). -/
theorem polyDivMod_total_field (hF : F.Closed ok) (hM : F.MulTotal ok) (hI : F.InvertsAll ok)
    {a m : List α} (ha : ∀ x ∈ a, ok x) (hm : ∀ x ∈ m, ok x) {d : Nat}
    (hd : polyDeg F m = some d) : ∃ qr, polyDivMod F a m = .ok qr := by
  have hlead := getD_closed hF.zero hm d
  obtain ⟨u, hu⟩ := hI _ hlead (polyDeg_lead hd F.zero)
  obtain ⟨res, hres⟩ := divLoop_total hF hM (q := List.replicate (max (a.length - d) 1) F.zero)
    (hF.inv _ _ hlead hu) hm d (a.length - d) ha
  simp only [polyDivMod, hd, hu, bind_ok, hres]
  exact ⟨_, rfl⟩

/-- The Euclidean loop raises no fault over a field (rule R171). -/
theorem polyEuclid_total (hF : F.Closed ok) (hM : F.MulTotal ok) (hI : F.InvertsAll ok) (n : Nat)
    {r0 r1 t0 t1 : List α} (h0 : ∀ x ∈ r0, ok x) (h1 : ∀ x ∈ r1, ok x) (ht0 : ∀ x ∈ t0, ok x)
    (ht1 : ∀ x ∈ t1, ok x) : ∃ rt, polyEuclid F n r0 r1 t0 t1 = .ok rt := by
  induction n generalizing r0 r1 t0 t1 with
  | zero => exact ⟨_, rfl⟩
  | succ n ih =>
    rw [polyEuclid]
    split
    · exact ⟨_, rfl⟩
    · next d hd =>
      obtain ⟨qr, hqr⟩ := polyDivMod_total_field hF hM hI h0 h1 hd
      obtain ⟨hq, hr, -⟩ := polyDivMod_closed hF h0 h1 hqr
      obtain ⟨prod, hprod⟩ := mulRows_total hM hq ht1 0
        (List.replicate (qr.1.length + t1.length - 1) F.zero)
      have hprod : polyMulRaw F qr.1 t1 = .ok prod := hprod
      rw [hqr, bind_ok, hprod, bind_ok]
      exact ih h1 hr ht1 (polySub_closed hF ht0 (polyMulRaw_closed hF hq ht1 hprod).1)

/-- The loop ends in a common divisor. -/
theorem polyEuclid_dvd (hF : F.Closed ok) (hR : Represents F ok φ) (n : Nat)
    {r0 r1 t0 t1 : List α} {res : List α × List α} (h0 : ∀ x ∈ r0, ok x) (h1 : ∀ x ∈ r1, ok x)
    (hn : r1.length < n) (h : polyEuclid F n r0 r1 t0 t1 = .ok res) :
    listPoly φ res.1 ∣ listPoly φ r0 ∧ listPoly φ res.1 ∣ listPoly φ r1 := by
  induction n generalizing r0 r1 t0 t1 with
  | zero => omega
  | succ n ih =>
    simp only [polyEuclid] at h
    split at h
    · next hd =>
      cases h
      exact ⟨dvd_refl _, by rw [listPoly_eq_zero (polyDeg_none hR h1 hd)]; exact dvd_zero _⟩
    · next d hd =>
      simp only [bind_eq_ok] at h
      obtain ⟨qr, hqr, prod, hprod, h⟩ := h
      obtain ⟨-, hr, hlen⟩ := polyDivMod_closed hF h0 h1 hqr
      have hlt := polyDeg_lt hlen
      obtain ⟨hd1, hd2⟩ := ih h1 hr (by omega) h
      refine ⟨?_, hd1⟩
      rw [listPoly_divMod hF hR h0 h1 hqr]
      exact dvd_add (dvd_mul_of_dvd_right hd1 _) hd2

theorem natDegree_of_polyDeg [IsDomain R] (hF : F.Closed ok) (hR : Represents F ok φ)
    (hS : Separates ok φ) (hE : ExactEq F ok) {m : List α} (hm : ∀ x ∈ m, ok x) {d : Nat}
    (hd : polyDeg F m = some d) : (listPoly φ m).natDegree = d ∧ listPoly φ m ≠ 0 := by
  have hlead : (listPoly φ m).coeff d ≠ 0 := by
    rw [listPoly_coeff m F.zero hR.zero]
    intro h0
    have hz := polyDeg_lead hd F.zero
    have hok := getD_closed hF.zero hm d
    have := hS _ _ hok hF.zero (h0.trans hR.zero.symm)
    rw [(hE.isZero _ hok).2 this] at hz
    cases hz
  refine ⟨le_antisymm ?_ (le_natDegree_of_ne_zero hlead), fun h => hlead (by rw [h, coeff_zero])⟩
  rw [← listPoly_take_of_drop (d + 1) (polyDeg_some hR hm hd)]
  have := listPoly_degree_lt (φ := φ) (m.take (d + 1))
  have hlen := List.length_take_le (d + 1) m
  refine natDegree_le_of_degree_le (Order.le_of_lt_succ ?_)
  refine lt_of_lt_of_le this ?_
  rw [show Order.succ (d : WithBot Nat) = ((d + 1 : Nat) : WithBot Nat) from rfl]
  exact_mod_cast hlen

/-- Over a field, an irreducible modulus lets the engine invert every nonzero element (rules R160,
R171). -/
theorem extOps_invertsAll [IsDomain R] (hF : F.Closed ok) (hR : Represents F ok φ)
    (hS : Separates ok φ) (hE : ExactEq F ok) (hM : F.MulTotal ok) (hI : F.InvertsAll ok)
    {m : List α} (hm : ∀ x ∈ m, ok x) (hd1 : 1 ≤ m.length - 1)
    (hlead : F.isZero (m.getD (m.length - 1) F.zero) = false)
    (hirr : Irreducible (listPoly φ m)) :
    (extOps F m).InvertsAll (ExtOk ok (m.length - 1)) := by
  intro a ha hz
  have hz' : a.all F.isZero = false := hz
  have hne : m ≠ [] := by rintro rfl; simp at hd1
  have hz0 : ∀ x ∈ [F.zero], ok x := by simpa using hF.zero
  have ho : ∀ x ∈ [F.one], ok x := by simpa using hF.one
  obtain ⟨rt, hrt⟩ := polyEuclid_total hF hM hI (a.length + 1) hm ha.2 hz0 ho
  obtain ⟨hc1, hc2⟩ := polyEuclid_closed hF _ hm ha.2 hz0 ho hrt
  obtain ⟨hdm, hda⟩ := polyEuclid_dvd hF hR _ hm ha.2 (by omega) hrt
  have ha0 : listPoly φ a ≠ 0 := by
    intro h0
    have : a = List.replicate (m.length - 1) F.zero :=
      listPoly_separates hS ha.2 (fun x hx => by rw [List.eq_of_mem_replicate hx]; exact hF.zero)
        (by rw [ha.1, List.length_replicate]) (by rw [h0, listPoly_replicate hR])
    rw [this, List.all_eq_false] at hz'
    obtain ⟨x, hx, hxz⟩ := hz'
    rw [List.eq_of_mem_replicate hx] at hxz
    exact hxz ((hE.isZero _ hF.zero).2 rfl)
  have hmdeg := natDegree_of_polyDeg hF hR hS hE hm (polyDeg_of_lead hne hlead)
  have hunit : IsUnit (listPoly φ rt.1) := by
    obtain ⟨q, hq⟩ := hdm
    rcases hirr.isUnit_or_isUnit hq with h | h
    · exact h
    · exfalso
      have hma : listPoly φ m ∣ listPoly φ a := by
        obtain ⟨u, rfl⟩ := h
        rw [hq]
        exact (Units.mul_right_dvd).2 hda
      have h1 := natDegree_le_of_dvd hma ha0
      have h2 : (listPoly φ a).natDegree < m.length - 1 := by
        rw [natDegree_lt_iff_degree_lt ha0]
        simpa only [ha.1] using listPoly_degree_lt (φ := φ) a
      omega
  have hdeg : polyDeg F rt.1 = some 0 := by
    rcases hd : polyDeg F rt.1 with _ | d
    · exact absurd (listPoly_eq_zero (polyDeg_none hR hc1 hd)) hunit.ne_zero
    · have := (natDegree_of_polyDeg hF hR hS hE hc1 hd).1
      rw [natDegree_eq_zero_of_isUnit hunit] at this
      rw [this]
  have hlead0 := getD_closed hF.zero hc1 0
  obtain ⟨g, hg⟩ := hI _ hlead0 (polyDeg_lead hdeg F.zero)
  have hgok := hF.inv _ _ hlead0 hg
  obtain ⟨t, ht⟩ := mapM_total (l := rt.2) (f := fun x => F.mul x g)
    fun x hx => hM _ _ (hc2 x hx) hgok
  have htok := mapM_closed ht fun x hx y hy => hF.mul _ _ _ (hc2 x hx) hgok hy
  obtain ⟨u, hu⟩ := hI _ (getD_closed hF.zero hm _) hlead
  obtain ⟨c, hc⟩ := polyMod_total hF hM htok hm hne hlead hu
  refine ⟨c, ?_⟩
  simp only [extOps, extInv, hz', Bool.false_eq_true, if_false, hrt, bind_ok, hdeg, ne_eq,
    not_true_eq_false, hg, ht, hc]

/-- The extension of a field by an irreducible polynomial is a field (rule R160). -/
theorem adjoinRoot_isField (hfield : IsField R) {f : R[X]} (hf : Irreducible f) :
    IsField (AdjoinRoot f) := by
  let K : Field R := hfield.toField
  have : Fact (Irreducible f) := ⟨hf⟩
  exact Field.toIsField (AdjoinRoot f)

theorem isField_isDomain (h : IsField R) : IsDomain R := h.isDomain

end Sys2Proof.Machine
end

