-- ==== Sys2Proof/Laws/Curve.lean ====
section
/-! SUPPORT. The group law, the line function and the Frobenius maps: their results stay in the field,
they are the formulas of rules R203, R204, R230 and R250 in the level's ring, and over a field they
fault only where those rules say so. -/

namespace Sys2Proof.Machine

variable {α R : Type} [CommRing R] {F : FieldOps α} {ok : α → Prop} {φ : α → R}

/-- A curve's parameters are elements of its level. -/
abbrev CurveElems (ok : α → Prop) (E : CurveCtx α) : Prop := ok E.a ∧ ok E.b

@[simp] theorem pointOk_identity : PointOk ok (.identity : Point α) = True := rfl

@[simp] theorem pointOk_affine (x y : α) : PointOk ok (.affine x y) = (ok x ∧ ok y) := rfl

/-! ### Closure -/

theorem slope_closed (hF : F.Closed ok) {E : CurveCtx α} (hE : CurveElems ok E) {x1 y1 x2 y2 m : α}
    (h1 : ok x1) (h2 : ok y1) (h3 : ok x2) (h4 : ok y2) (h : slope F E x1 y1 x2 y2 = .ok m) :
    ok m := by
  simp only [slope] at h
  split at h
  · simp only [bind_eq_ok] at h
    obtain ⟨xx, hxx, xx3, hxx3, den, hden, h⟩ := h
    have hok := hF.mul _ _ _ (hF.ofInt 3) (hF.mul _ _ _ h1 h1 hxx) hxx3
    exact div_closed hF (hF.add _ _ hok hE.1) (hF.mul _ _ _ (hF.ofInt 2) h2 hden) h
  · exact div_closed hF (hF.sub _ _ h4 h2) (hF.sub _ _ h3 h1) h

theorem pointNeg_closed (hF : F.Closed ok) {P : Point α} (hP : PointOk ok P) :
    PointOk ok (pointNeg F P) := by
  cases P with
  | identity => trivial
  | affine x y => exact ⟨hP.1, hF.neg _ hP.2⟩

theorem pointAdd_closed (hF : F.Closed ok) {E : CurveCtx α} (hE : CurveElems ok E)
    {P Q S : Point α} (hP : PointOk ok P) (hQ : PointOk ok Q) (h : pointAdd F E P Q = .ok S) :
    PointOk ok S := by
  cases P with
  | identity =>
    cases h
    exact hQ
  | affine x1 y1 =>
    cases Q with
    | identity =>
      cases h
      exact hP
    | affine x2 y2 =>
      simp only [pointAdd] at h
      split at h
      · cases h
        trivial
      · simp only [bind_eq_ok] at h
        obtain ⟨m, hm, mm, hmm, t, ht, h⟩ := h
        cases h
        have hmok := slope_closed hF hE hP.1 hP.2 hQ.1 hQ.2 hm
        have hx3 := hF.sub _ _ (hF.sub _ _ (hF.mul _ _ _ hmok hmok hmm) hP.1) hQ.1
        exact ⟨hx3, hF.sub _ _ (hF.mul _ _ _ hmok (hF.sub _ _ hP.1 hx3) ht) hP.2⟩

theorem pointAddComplete_closed (hF : F.Closed ok) {E : CurveCtx α} (hE : CurveElems ok E)
    {P Q S : Point α} (hP : PointOk ok P) (hQ : PointOk ok Q)
    (h : pointAddComplete F E P Q = .ok S) : PointOk ok S := by
  unfold pointAddComplete at h
  split at h
  · split at h
    · cases h
      trivial
    · exact pointAdd_closed hF hE hP hQ h
  · exact pointAdd_closed hF hE hP hQ h

/-- What a double-and-add loop keeps, if its addition keeps it. -/
theorem scalarLoop_invariant {add : Point α → Point α → Except FaultCode (Point α)} {P : Point α}
    {n : Nat} {good : Point α → Prop} (hadd : ∀ A B C, good A → good B → add A B = .ok C → good C)
    (hP : good P) (i : Nat) {A S : Point α} (hA : good A)
    (h : scalarLoop add P n i A = .ok S) : good S := by
  induction i generalizing A with
  | zero =>
    cases h
    exact hA
  | succ i ih =>
    simp only [scalarLoop, bind_eq_ok] at h
    obtain ⟨D, hD, h⟩ := h
    have h1 := hadd _ _ _ hA hA hD
    split at h
    · obtain ⟨T, hT, h⟩ := bind_eq_ok.1 h
      exact ih (hadd _ _ _ h1 hP hT) h
    · exact ih h1 h

/-- A double-and-add loop answers, if its addition answers on what it keeps. -/
theorem scalarLoop_total {add : Point α → Point α → Except FaultCode (Point α)} {P : Point α}
    {n : Nat} {good : Point α → Prop} (hadd : ∀ A B, good A → good B → ∃ C, add A B = .ok C ∧ good C)
    (hP : good P) (i : Nat) {A : Point α} (hA : good A) :
    ∃ S, scalarLoop add P n i A = .ok S ∧ good S := by
  induction i generalizing A with
  | zero => exact ⟨A, rfl, hA⟩
  | succ i ih =>
    obtain ⟨D, hD, h1⟩ := hadd _ _ hA hA
    rw [scalarLoop, hD, bind_ok]
    split
    · obtain ⟨T, hT, h2⟩ := hadd _ _ h1 hP
      rw [hT, bind_ok]
      exact ih h2
    · exact ih h1

theorem pointMul_closed (hF : F.Closed ok) {E : CurveCtx α} (hE : CurveElems ok E) {P S : Point α}
    (hP : PointOk ok P) {n : Int} (h : pointMul F E P n = .ok S) : PointOk ok S := by
  refine scalarLoop_invariant (good := PointOk ok)
    (fun A B C hA hB hC => pointAdd_closed hF hE hA hB hC) ?_ _ (A := .identity) trivial h
  split
  · exact pointNeg_closed hF hP
  · exact hP

theorem lineValue_closed (hF : F.Closed ok) {E : CurveCtx α} (hE : CurveElems ok E)
    {P Q T : Point α} {v : α} (hP : PointOk ok P) (hQ : PointOk ok Q) (hT : PointOk ok T)
    (h : lineValue F E P Q T = .ok v) : ok v := by
  cases P with
  | identity => cases h
  | affine x1 y1 =>
    cases Q with
    | identity => cases h
    | affine x2 y2 =>
      cases T with
      | identity => cases h
      | affine xT yT =>
        simp only [lineValue] at h
        split at h
        · cases h
          exact hF.sub _ _ hT.1 hP.1
        · simp only [bind_eq_ok] at h
          obtain ⟨m, hm, t, ht, h⟩ := h
          cases h
          have hmok := slope_closed hF hE hP.1 hP.2 hQ.1 hQ.2 hm
          exact hF.sub _ _ (hF.sub _ _ hT.2 hP.2)
            (hF.mul _ _ _ hmok (hF.sub _ _ hT.1 hP.1) ht)

theorem frobenius_closed (hF : F.Closed ok) {p n : Nat} {a c : α} (ha : ok a)
    (h : frobenius F p a n = .ok c) : ok c := exp_closed hF ha h

theorem frobPoint_closed (hF : F.Closed ok) {p n : Nat} {P S : Point α} (hP : PointOk ok P)
    (h : frobPoint F p P n = .ok S) : PointOk ok S := by
  cases P with
  | identity =>
    cases h
    trivial
  | affine x y =>
    simp only [frobPoint, bind_eq_ok] at h
    obtain ⟨x', hx, y', hy, h⟩ := h
    cases h
    exact ⟨frobenius_closed hF hP.1 hx, frobenius_closed hF hP.2 hy⟩

theorem discriminant_closed (hF : F.Closed ok) {a b d : α} (ha : ok a) (hb : ok b)
    (h : discriminant F a b = .ok d) : ok d := by
  simp only [discriminant, bind_eq_ok] at h
  obtain ⟨aa, h1, aaa, h2, l, h3, bb, h4, r, h5, h⟩ := h
  cases h
  have h1 := hF.mul _ _ _ ha ha h1
  have h2 := hF.mul _ _ _ h1 ha h2
  exact hF.add _ _ (hF.mul _ _ _ (hF.ofInt 4) h2 h3)
    (hF.mul _ _ _ (hF.ofInt 27) (hF.mul _ _ _ hb hb h4) h5)

/-! ### The case tests of the group law -/

theorem samePoint_iff (hX : ExactEq F ok) {x1 y1 x2 y2 : α} (h1 : ok x1) (h2 : ok y1) (h3 : ok x2)
    (h4 : ok y2) : (F.eq x1 x2 && F.eq y1 y2) = true ↔ x1 = x2 ∧ y1 = y2 := by
  rw [Bool.and_eq_true, hX.eq _ _ h1 h3, hX.eq _ _ h2 h4]

theorem opposite_iff (hX : ExactEq F ok) {x1 y1 x2 y2 : α} (h1 : ok x1) (h2 : ok y1) (h3 : ok x2)
    (h4 : ok y2) : (F.eq x1 x2 && !F.eq y1 y2) = true ↔ x1 = x2 ∧ y1 ≠ y2 := by
  rw [Bool.and_eq_true, hX.eq _ _ h1 h3, Bool.not_eq_true', ← Bool.not_eq_true, hX.eq _ _ h2 h4]

/-! ### The formulas -/

theorem div_represents (hF : F.Closed ok) (hR : Represents F ok φ) {a b c : α} (ha : ok a)
    (hb : ok b) (h : F.div a b = .ok c) : φ c * φ b = φ a := by
  simp only [FieldOps.div, bind_eq_ok] at h
  obtain ⟨i, hi, h⟩ := h
  rw [hR.mul _ _ _ ha (hF.inv _ _ hb hi) h, mul_assoc, mul_comm (φ i), hR.inv _ _ hb hi, mul_one]

/-- `discriminant` is `4*a^3 + 27*b^2` (rule R113). -/
theorem discriminant_represents (hF : F.Closed ok) (hR : Represents F ok φ) {a b d : α} (ha : ok a)
    (hb : ok b) (h : discriminant F a b = .ok d) : φ d = 4 * φ a ^ 3 + 27 * φ b ^ 2 := by
  simp only [discriminant, bind_eq_ok] at h
  obtain ⟨aa, h1, aaa, h2, l, h3, bb, h4, r, h5, h⟩ := h
  cases h
  have k1 := hF.mul _ _ _ ha ha h1
  have k2 := hF.mul _ _ _ k1 ha h2
  have k4 := hF.mul _ _ _ hb hb h4
  rw [hR.add _ _ (hF.mul _ _ _ (hF.ofInt 4) k2 h3) (hF.mul _ _ _ (hF.ofInt 27) k4 h5),
    hR.mul _ _ _ (hF.ofInt 4) k2 h3, hR.mul _ _ _ (hF.ofInt 27) k4 h5, hR.mul _ _ _ k1 ha h2,
    hR.mul _ _ _ ha ha h1, hR.mul _ _ _ hb hb h4, hR.ofInt, hR.ofInt]
  push_cast
  ring

/-- `slope` is the tangent for equal points and the chord otherwise (rule R203). -/
theorem slope_represents (hF : F.Closed ok) (hR : Represents F ok φ) (hX : ExactEq F ok)
    {E : CurveCtx α} (hE : CurveElems ok E) {x1 y1 x2 y2 m : α} (h1 : ok x1) (h2 : ok y1)
    (h3 : ok x2) (h4 : ok y2) (h : slope F E x1 y1 x2 y2 = .ok m) :
    (x1 = x2 ∧ y1 = y2 → TangentSlope (φ E.a) (φ m) (φ x1) (φ y1)) ∧
      (¬ (x1 = x2 ∧ y1 = y2) → ChordSlope (φ m) (φ x1) (φ y1) (φ x2) (φ y2)) := by
  have hiff := samePoint_iff hX h1 h2 h3 h4
  simp only [slope] at h
  split at h
  · next heq =>
    rw [hiff] at heq
    refine ⟨fun _ => ?_, fun hn => absurd heq hn⟩
    simp only [bind_eq_ok] at h
    obtain ⟨xx, hxx, xx3, hxx3, den, hden, h⟩ := h
    have k1 := hF.mul _ _ _ h1 h1 hxx
    have k3 := hF.mul _ _ _ (hF.ofInt 3) k1 hxx3
    have hd := div_represents hF hR (hF.add _ _ k3 hE.1) (hF.mul _ _ _ (hF.ofInt 2) h2 hden) h
    rw [hR.add _ _ k3 hE.1, hR.mul _ _ _ (hF.ofInt 3) k1 hxx3, hR.mul _ _ _ h1 h1 hxx,
      hR.mul _ _ _ (hF.ofInt 2) h2 hden, hR.ofInt, hR.ofInt] at hd
    unfold TangentSlope
    push_cast at hd
    rw [hd]
    ring
  · next hne =>
    rw [hiff] at hne
    refine ⟨fun heq => absurd heq hne, fun _ => ?_⟩
    have hd := div_represents hF hR (hF.sub _ _ h4 h2) (hF.sub _ _ h3 h1) h
    rw [hR.sub _ _ h4 h2, hR.sub _ _ h3 h1] at hd
    exact hd

/-- The affine case of `pointAdd` is the sum formulas of rule R204. -/
theorem pointAdd_represents (hF : F.Closed ok) (hR : Represents F ok φ) (hX : ExactEq F ok)
    {E : CurveCtx α} (hE : CurveElems ok E) {x1 y1 x2 y2 : α} {S : Point α} (h1 : ok x1)
    (h2 : ok y1) (h3 : ok x2) (h4 : ok y2) (hne : ¬ (x1 = x2 ∧ y1 ≠ y2))
    (h : pointAdd F E (.affine x1 y1) (.affine x2 y2) = .ok S) :
    ∃ m x3 y3, slope F E x1 y1 x2 y2 = .ok m ∧ S = .affine x3 y3 ∧
      SumFormula (φ m) (φ x1) (φ y1) (φ x2) (φ x3) (φ y3) := by
  simp only [pointAdd] at h
  rw [if_neg (fun hc => hne ((opposite_iff hX h1 h2 h3 h4).1 hc))] at h
  simp only [bind_eq_ok] at h
  obtain ⟨m, hm, mm, hmm, t, ht, h⟩ := h
  cases h
  have hmok := slope_closed hF hE h1 h2 h3 h4 hm
  have kmm := hF.mul _ _ _ hmok hmok hmm
  have k1 := hF.sub _ _ kmm h1
  have hx3 := hF.sub _ _ k1 h3
  have kd := hF.sub _ _ h1 hx3
  refine ⟨m, _, _, hm, rfl, ?_, ?_⟩
  · rw [hR.sub _ _ k1 h3, hR.sub _ _ kmm h1, hR.mul _ _ _ hmok hmok hmm]
    ring
  · rw [hR.sub _ _ (hF.mul _ _ _ hmok kd ht) h2, hR.mul _ _ _ hmok kd ht, hR.sub _ _ h1 hx3]

/-- The affine cases of `lineValue` are the formulas of rule R230. -/
theorem lineValue_represents (hF : F.Closed ok) (hR : Represents F ok φ) (hX : ExactEq F ok)
    {E : CurveCtx α} (hE : CurveElems ok E) {x1 y1 x2 y2 xT yT v : α} (h1 : ok x1) (h2 : ok y1)
    (h3 : ok x2) (h4 : ok y2) (h5 : ok xT) (h6 : ok yT)
    (h : lineValue F E (.affine x1 y1) (.affine x2 y2) (.affine xT yT) = .ok v) :
    (x1 = x2 ∧ y1 ≠ y2 → φ v = φ xT - φ x1) ∧
      (¬ (x1 = x2 ∧ y1 ≠ y2) → ∃ m, slope F E x1 y1 x2 y2 = .ok m ∧
        φ v = φ yT - φ y1 - φ m * (φ xT - φ x1)) := by
  have hiff := opposite_iff hX h1 h2 h3 h4
  simp only [lineValue] at h
  split at h
  · next hv =>
    rw [hiff] at hv
    cases h
    exact ⟨fun _ => hR.sub _ _ h5 h1, fun hn => absurd hv hn⟩
  · next hv =>
    rw [hiff] at hv
    simp only [bind_eq_ok] at h
    obtain ⟨m, hm, t, ht, h⟩ := h
    cases h
    have hmok := slope_closed hF hE h1 h2 h3 h4 hm
    have kd := hF.sub _ _ h5 h1
    refine ⟨fun hc => absurd hc hv, fun _ => ⟨m, hm, ?_⟩⟩
    rw [hR.sub _ _ (hF.sub _ _ h6 h2) (hF.mul _ _ _ hmok kd ht), hR.sub _ _ h6 h2,
      hR.mul _ _ _ hmok kd ht, hR.sub _ _ h5 h1]

/-- `onCurve` decides the curve equation (rule R202). -/
theorem onCurve_represents (hF : F.Closed ok) (hR : Represents F ok φ) (hX : ExactEq F ok)
    (hS : Separates ok φ) {E : CurveCtx α} (hE : CurveElems ok E) {x y : α} {b : Bool} (hx : ok x)
    (hy : ok y) (h : onCurve F E (.affine x y) = .ok b) :
    b = true ↔ OnCurveEq (φ E.a) (φ E.b) (φ x) (φ y) := by
  simp only [onCurve, bind_eq_ok] at h
  obtain ⟨lhs, hl, xx, hxx, xxx, hxxx, ax, hax, h⟩ := h
  cases h
  have kl := hF.mul _ _ _ hy hy hl
  have kxx := hF.mul _ _ _ hx hx hxx
  have kxxx := hF.mul _ _ _ kxx hx hxxx
  have kax := hF.mul _ _ _ hE.1 hx hax
  have k1 := hF.add _ _ kxxx kax
  have k2 := hF.add _ _ k1 hE.2
  rw [hX.eq _ _ kl k2]
  have hval : φ (F.add (F.add xxx ax) E.b) = φ x ^ 3 + φ E.a * φ x + φ E.b := by
    rw [hR.add _ _ k1 hE.2, hR.add _ _ kxxx kax, hR.mul _ _ _ kxx hx hxxx, hR.mul _ _ _ hx hx hxx,
      hR.mul _ _ _ hE.1 hx hax]
    ring
  have hlhs : φ lhs = φ y ^ 2 := by rw [hR.mul _ _ _ hy hy hl]; ring
  unfold OnCurveEq
  rw [← hlhs, ← hval]
  exact ⟨fun h => by rw [h], fun h => hS _ _ kl k2 h⟩

/-- `frob` is the power `a^(p^n)` (rule R250). -/
theorem frobenius_represents (hF : F.Closed ok) (hR : Represents F ok φ) {p n : Nat} {a c : α}
    (ha : ok a) (h : frobenius F p a n = .ok c) : φ c = φ a ^ p ^ n := by
  have := (exp_represents hF hR ha h).1 (by positivity)
  rwa [Int.natAbs_natCast] at this

/-! ### Totality -/

theorem onCurve_total (hF : F.Closed ok) (hM : F.MulTotal ok) {E : CurveCtx α}
    (hE : CurveElems ok E) {P : Point α} (hP : PointOk ok P) : ∃ b, onCurve F E P = .ok b := by
  cases P with
  | identity => exact ⟨true, rfl⟩
  | affine x y =>
    obtain ⟨lhs, hl⟩ := hM _ _ hP.2 hP.2
    obtain ⟨xx, hxx⟩ := hM _ _ hP.1 hP.1
    obtain ⟨xxx, hxxx⟩ := hM _ _ (hF.mul _ _ _ hP.1 hP.1 hxx) hP.1
    obtain ⟨ax, hax⟩ := hM _ _ hE.1 hP.1
    exact ⟨_, by simp only [onCurve, hl, bind_ok, hxx, hxxx, hax]; rfl⟩

theorem discriminant_total (hF : F.Closed ok) (hM : F.MulTotal ok) {a b : α} (ha : ok a)
    (hb : ok b) : ∃ d, discriminant F a b = .ok d := by
  obtain ⟨aa, h1⟩ := hM _ _ ha ha
  have k1 := hF.mul _ _ _ ha ha h1
  obtain ⟨aaa, h2⟩ := hM _ _ k1 ha
  obtain ⟨l, h3⟩ := hM _ _ (hF.ofInt 4) (hF.mul _ _ _ k1 ha h2)
  obtain ⟨bb, h4⟩ := hM _ _ hb hb
  obtain ⟨r, h5⟩ := hM _ _ (hF.ofInt 27) (hF.mul _ _ _ hb hb h4)
  exact ⟨_, by simp only [discriminant, h1, bind_ok, h2, h3, h4, h5]; rfl⟩

theorem frobenius_total (hF : F.Closed ok) (hM : F.MulTotal ok) {p : Nat} (hp : 0 < p) (n : Nat)
    {a : α} (ha : ok a) : ∃ c, frobenius F p a n = .ok c :=
  exp_pos_total hF hM ha (by positivity)

theorem frobPoint_total (hF : F.Closed ok) (hM : F.MulTotal ok) {p : Nat} (hp : 0 < p) (n : Nat)
    {P : Point α} (hP : PointOk ok P) : ∃ S, frobPoint F p P n = .ok S := by
  cases P with
  | identity => exact ⟨_, rfl⟩
  | affine x y =>
    obtain ⟨x', hx⟩ := frobenius_total hF hM hp n hP.1
    obtain ⟨y', hy⟩ := frobenius_total hF hM hp n hP.2
    exact ⟨_, by simp only [frobPoint, hx, bind_ok, hy]; rfl⟩

/-! ### Over a field -/

/-- The level is a field, as the engine computes in it, of a characteristic other than 2. -/
structure FieldLevel (F : FieldOps α) (ok : α → Prop) (φ : α → R) : Prop where
  closed : F.Closed ok
  represents : Represents F ok φ
  total : F.MulTotal ok
  inverts : F.InvertsAll ok
  exact : ExactEq F ok
  separates : Separates ok φ
  domain : IsDomain R
  two : (2 : R) ≠ 0

namespace FieldLevel

variable (h : FieldLevel F ok φ)

include h

theorem isZero_iff {a : α} (ha : ok a) : F.isZero a = true ↔ φ a = 0 := by
  rw [h.exact.isZero a ha]
  exact ⟨fun e => by rw [e, h.represents.zero],
    fun e => h.separates _ _ ha h.closed.zero (e.trans h.represents.zero.symm)⟩

theorem ne_zero_iff {a : α} (ha : ok a) : a ≠ F.zero ↔ φ a ≠ 0 :=
  not_congr ((h.exact.isZero a ha).symm.trans (h.isZero_iff ha))

theorem inv_total {a : α} (ha : ok a) (hz : φ a ≠ 0) : ∃ c, F.inv a = .ok c :=
  h.inverts a ha (Bool.eq_false_iff.2 fun e => hz ((h.isZero_iff ha).1 e))

theorem div_total {a b : α} (ha : ok a) (hb : ok b) (hz : φ b ≠ 0) : ∃ c, F.div a b = .ok c := by
  obtain ⟨i, hi⟩ := h.inv_total hb hz
  obtain ⟨c, hc⟩ := h.total _ _ ha (h.closed.inv _ _ hb hi)
  exact ⟨c, by simp only [FieldOps.div, hi, bind_ok, hc]⟩

/-- The tangent exists where `y` is not zero, the chord where the `x` differ (rule R203). -/
theorem slope_total {E : CurveCtx α} (hE : CurveElems ok E) {x1 y1 x2 y2 : α} (h1 : ok x1)
    (h2 : ok y1) (h3 : ok x2) (h4 : ok y2) (hne : ¬ (x1 = x2 ∧ y1 ≠ y2))
    (hy : x1 = x2 → y1 = y2 → y1 ≠ F.zero) : ∃ m, slope F E x1 y1 x2 y2 = .ok m := by
  have hiff := samePoint_iff h.exact h1 h2 h3 h4
  simp only [slope]
  have := h.domain
  split
  · next heq =>
    rw [hiff] at heq
    obtain ⟨xx, hxx⟩ := h.total _ _ h1 h1
    have k1 := h.closed.mul _ _ _ h1 h1 hxx
    obtain ⟨xx3, hxx3⟩ := h.total _ _ (h.closed.ofInt 3) k1
    have k3 := h.closed.mul _ _ _ (h.closed.ofInt 3) k1 hxx3
    obtain ⟨den, hden⟩ := h.total _ _ (h.closed.ofInt 2) h2
    have hd : φ den ≠ 0 := by
      rw [h.represents.mul _ _ _ (h.closed.ofInt 2) h2 hden, h.represents.ofInt]
      exact mul_ne_zero (by exact_mod_cast h.two) ((h.ne_zero_iff h2).1 (hy heq.1 heq.2))
    obtain ⟨m, hm⟩ := h.div_total (h.closed.add _ _ k3 hE.1)
      (h.closed.mul _ _ _ (h.closed.ofInt 2) h2 hden) hd
    exact ⟨m, by simp only [hxx, bind_ok, hxx3, hden, hm]⟩
  · next hneq =>
    rw [hiff] at hneq
    refine h.div_total (h.closed.sub _ _ h4 h2) (h.closed.sub _ _ h3 h1) ?_
    rw [h.represents.sub _ _ h3 h1]
    intro h0
    have hx : x2 = x1 := h.separates _ _ h3 h1 (sub_eq_zero.1 h0)
    exact hneq ⟨hx.symm, by_contra fun hyy => hne ⟨hx.symm, hyy⟩⟩

/-- Addition answers unless it is the tangent at `y = 0` (rule R204). -/
theorem pointAdd_total {E : CurveCtx α} (hE : CurveElems ok E) {x1 y1 x2 y2 : α} (h1 : ok x1)
    (h2 : ok y1) (h3 : ok x2) (h4 : ok y2) (hy : x1 = x2 → y1 = y2 → y1 ≠ F.zero) :
    ∃ S, pointAdd F E (.affine x1 y1) (.affine x2 y2) = .ok S := by
  have hiff := opposite_iff h.exact h1 h2 h3 h4
  simp only [pointAdd]
  split
  · exact ⟨_, rfl⟩
  · next hne =>
    rw [hiff] at hne
    obtain ⟨m, hm⟩ := h.slope_total hE h1 h2 h3 h4 hne hy
    have hmok := slope_closed h.closed hE h1 h2 h3 h4 hm
    obtain ⟨mm, hmm⟩ := h.total _ _ hmok hmok
    have hx3 := h.closed.sub _ _ (h.closed.sub _ _ (h.closed.mul _ _ _ hmok hmok hmm) h1) h3
    obtain ⟨t, ht⟩ := h.total _ _ hmok (h.closed.sub _ _ h1 hx3)
    exact ⟨_, by simp only [hm, bind_ok, hmm, ht]; rfl⟩

/-- The line answers unless it is the tangent at `y = 0` (rule R230). -/
theorem lineValue_total {E : CurveCtx α} (hE : CurveElems ok E) {x1 y1 x2 y2 xT yT : α}
    (h1 : ok x1) (h2 : ok y1) (h3 : ok x2) (h4 : ok y2) (h5 : ok xT)
    (hy : x1 = x2 → y1 = y2 → y1 ≠ F.zero) :
    ∃ v, lineValue F E (.affine x1 y1) (.affine x2 y2) (.affine xT yT) = .ok v := by
  have hiff := opposite_iff h.exact h1 h2 h3 h4
  simp only [lineValue]
  split
  · exact ⟨_, rfl⟩
  · next hne =>
    rw [hiff] at hne
    obtain ⟨m, hm⟩ := h.slope_total hE h1 h2 h3 h4 hne hy
    have hmok := slope_closed h.closed hE h1 h2 h3 h4 hm
    obtain ⟨t, ht⟩ := h.total _ _ hmok (h.closed.sub _ _ h5 h1)
    exact ⟨_, by simp only [hm, bind_ok, ht]; rfl⟩

/-- The complete group law answers on every pair of points (rule R207). -/
theorem pointAddComplete_total {E : CurveCtx α} (hE : CurveElems ok E) {P Q : Point α}
    (hP : PointOk ok P) (hQ : PointOk ok Q) : ∃ S, pointAddComplete F E P Q = .ok S := by
  cases P with
  | identity => exact ⟨Q, by cases Q <;> rfl⟩
  | affine x1 y1 =>
    cases Q with
    | identity => exact ⟨_, rfl⟩
    | affine x2 y2 =>
      simp only [pointAddComplete]
      split
      · exact ⟨_, rfl⟩
      · next hn =>
        refine h.pointAdd_total hE hP.1 hP.2 hQ.1 hQ.2 fun hx hyy hz => hn ?_
        rw [(h.exact.eq _ _ hP.1 hQ.1).2 hx, (h.exact.eq _ _ hP.2 hQ.2).2 hyy,
          (h.exact.isZero _ hP.2).2 hz]
        rfl

/-- A subgroup check answers on every point (rule R262). -/
theorem inSubgroup_total {E : CurveCtx α} (hE : CurveElems ok E) (r : Nat) {P : Point α}
    (hP : PointOk ok P) : ∃ b, inSubgroup F E r P = .ok b := by
  cases P with
  | identity => exact ⟨true, rfl⟩
  | affine x y =>
    obtain ⟨b, hb⟩ := onCurve_total h.closed h.total hE hP
    obtain ⟨S, hS, -⟩ := scalarLoop_total (add := pointAddComplete F E) (P := .affine x y) (n := r)
      (good := PointOk ok) (fun A B hA hB => by
        obtain ⟨C, hC⟩ := h.pointAddComplete_total hE hA hB
        exact ⟨C, hC, pointAddComplete_closed h.closed hE hA hB hC⟩) hP (bitLen r)
      (A := .identity) trivial
    simp only [inSubgroup, hb, bind_ok]
    split
    · exact ⟨_, by rw [pointMulComplete, hS, bind_ok]⟩
    · exact ⟨_, rfl⟩

end FieldLevel

/-- The formulas of rule R204 lead from the curve to the curve: the third point of a chord or tangent,
reflected, satisfies the equation (rule R200). -/
theorem sum_on_curve [IsDomain R] {a b m x1 y1 x2 y2 x3 y3 : R} (h1 : OnCurveEq a b x1 y1)
    (h2 : OnCurveEq a b x2 y2) (hs : SumFormula m x1 y1 x2 x3 y3)
    (hm : x1 ≠ x2 ∧ ChordSlope m x1 y1 x2 y2 ∨ x1 = x2 ∧ TangentSlope a m x1 y1) :
    OnCurveEq a b x3 y3 := by
  unfold OnCurveEq at *
  obtain ⟨hx, hy⟩ := hs
  have key : a - 2 * m * (y1 - m * x1) - (x1 * x2 + (x1 + x2) * (m ^ 2 - x1 - x2)) = 0 := by
    rcases hm with ⟨hne, hc⟩ | ⟨rfl, ht⟩
    · unfold ChordSlope at hc
      have hd : x2 - x1 ≠ 0 := sub_ne_zero.2 hne.symm
      refine mul_left_cancel₀ hd ?_
      linear_combination h1 - h2 - (y2 + y1 + m * (x2 - x1)) * hc
    · unfold TangentSlope at ht
      linear_combination -ht
  rw [hy, hx]
  linear_combination (-(m ^ 2 - x1 - x2 - x1)) * key + h1

end Sys2Proof.Machine
end

