-- ==== Sys2Proof/Laws/Decode.lean ====
section
/-! SUPPORT. Fields and words are one to one, what `accept` accepts, and the selectors read back. -/

namespace Sys2Proof

/-- The fields of a word made of fields (rule R81). -/
theorem fieldsOf_mkWord (op : BitVec 8) (sel fn : BitVec 2) (rs3 rs2 rs1 rd : Reg) :
    fieldsOf (mkWord op sel fn rs3 rs2 rs1 rd) =
      { op := op, sel := sel, fn := fn, rs3 := rs3, rs2 := rs2, rs1 := rs1, rd := rd } := by
  simp only [fieldsOf, mkWord, Fields.mk.injEq]
  refine ⟨?_, ?_, ?_, ?_, ?_, ?_, ?_⟩ <;>
  · ext i hi
    simp only [BitVec.getElem_extractLsb', BitVec.getLsbD_append]
    interval_cases i <;> simp

/-- A word is made of its fields (rule R81). -/
theorem mkWord_fieldsOf (w : CmdWord) :
    mkWord (fieldsOf w).op (fieldsOf w).sel (fieldsOf w).fn (fieldsOf w).rs3 (fieldsOf w).rs2
      (fieldsOf w).rs1 (fieldsOf w).rd = w := by
  simp only [fieldsOf, mkWord]
  ext i hi
  simp only [BitVec.getElem_append, BitVec.getElem_extractLsb']
  interval_cases i <;> simp

/-- What `accept` accepts: a legal selector, a legal `fn` and zeros in the unused fields (rule R88). -/
theorem accept_eq_ok {α β : Type} {f : Fields} {fmt : Format} {sel : BitVec 2 → Option α}
    {fn : BitVec 2 → Option β} {mk : α → β → Instr} {i : Instr} :
    accept f fmt sel fn mk = .ok i ↔ ∃ a b, sel f.sel = some a ∧ fn f.fn = some b ∧
      (∀ r ∈ unusedRegs f fmt, r = 0) ∧ mk a b = i := by
  unfold accept
  cases sel f.sel with
  | none => simp
  | some a =>
    cases fn f.fn with
    | none => simp
    | some b =>
      simp only [List.all_eq_true, beq_iff_eq, Option.some.injEq]
      split
      · next hz =>
        constructor
        · intro h
          exact ⟨a, b, rfl, rfl, hz, Except.ok.inj h⟩
        · rintro ⟨_, _, rfl, rfl, -, rfl⟩
          rfl
      · next hz =>
        constructor
        · intro h
          cases h
        · rintro ⟨_, _, -, -, hz', -⟩
          exact absurd hz' hz

theorem noSel_eq_some {b : BitVec 2} {u : Unit} : noSel b = some u ↔ b = 0 := by
  simp [noSel]

theorem noFn_eq_some {b : BitVec 2} {u : Unit} : noFn b = some u ↔ b = 0 := by
  simp [noFn]

theorem level_ofBits {b : BitVec 2} {l : Level} : Level.ofBits b = some l ↔ l.bits = b := by
  revert b
  cases l <;> decide

theorem extLevel_ofBits {b : BitVec 2} {l : ExtLevel} :
    ExtLevel.ofBits b = some l ↔ l.bits = b := by
  revert b
  cases l <;> decide

theorem slot_ofBits {b : BitVec 2} {k : Slot} : Slot.ofBits b = some k ↔ k.bits = b := by
  revert b
  cases k <;> decide

theorem frobPow_ofBits {b : BitVec 2} {n : FrobPow} :
    FrobPow.ofBits b = some n ↔ n.bits = b := by
  revert b
  cases n <;> decide

theorem post_ofBits {b : BitVec 2} {p : Post} : Post.ofBits b = some p ↔ p.bits = b := by
  revert b
  cases p <;> decide

end Sys2Proof
end

