-- ==== Sys2Proof/Laws/Levels.lean ====
section
/-! SUPPORT. The laws of the field functions at the levels of a state that meets the invariant: what
registers and contexts hold, which levels are fields, and leading coefficients. -/

namespace Sys2Proof.Machine

/-! ### What registers and contexts hold -/

theorem reg_elem {s : State} (h : s.Inv) {l : Level} {r : Reg} {a : Elem l}
    (hr : s.reg r = .ofElem l a) : s.usable l = true ∧ s.ElemOk l a := by
  have := h.regs r
  rw [hr] at this
  cases l <;> exact this

theorem reg_poly {s : State} (h : s.Inv) {l : ExtLevel} {r : Reg} {c : List (Elem l.base)}
    (hr : s.reg r = .ofPoly l c) : s.usable l.base = true ∧ s.PolyOk l.base c := by
  have := h.regs r
  rw [hr] at this
  cases l <;> exact this

theorem reg_point {s : State} (h : s.Inv) {k : Slot} {r : Reg} {P : Point (Elem k.level)}
    (hr : s.reg r = .ofPoint k P) : s.usable k.level = true ∧ PointOk (s.ElemOk k.level) P := by
  have := h.regs r
  rw [hr] at this
  cases k <;> exact this

theorem curve_ok {s : State} (h : s.Inv) {k : Slot} {E : CurveCtx (Elem k.level)}
    (hE : s.curve k = some E) : s.CurveOk k E := by
  cases k with
  | c0 => exact h.curve0 E hE
  | c1 => exact h.curve1 E hE
  | c2 => exact h.curve2 E hE

theorem curve_elems {s : State} (h : s.Inv) {k : Slot} {E : CurveCtx (Elem k.level)}
    (hE : s.curve k = some E) : CurveElems (s.ElemOk k.level) E :=
  ⟨(curve_ok h hE).2.1, (curve_ok h hE).2.2.1⟩

theorem curve_usable {s : State} (h : s.Inv) {k : Slot} {E : CurveCtx (Elem k.level)}
    (hE : s.curve k = some E) : s.usable k.level = true := (curve_ok h hE).1

/-! ### Elements are separated by their readings -/

theorem modulus_ne_nil {s : State} {b : Level} {m : List (Elem b)} (h : s.ModulusOk b m) :
    m ≠ [] := by
  rintro rfl
  simpa using h.2.1

theorem val0_sep (s : State) : Separates (s.ElemOk .l0) s.val0 := val0_separates

theorem val1_sep {s : State} (h : s.Inv) (hu : s.usable .l1 = true)
    (hm : s.LeadInvertible .l1) : Separates (s.ElemOk .l1) s.val1 := by
  obtain ⟨u, hu'⟩ := hm
  have hd := modulus1 h hu
  exact extOps_separates (field_closed h hd.1) (val0_represents h hd.1) (val0_sep s) hd.2.2.2.1
    (modulus_ne_nil hd) hu'

theorem val2_sep {s : State} (h : s.Inv) (hu : s.usable .l2 = true)
    (hm1 : s.LeadInvertible .l1) (hm : s.LeadInvertible .l2) :
    Separates (s.ElemOk .l2) s.val2 := by
  obtain ⟨u, hu'⟩ := hm
  have hd := modulus2 h hu
  exact extOps_separates (field_closed h hd.1) (val1_represents h hd.1) (val1_sep h hd.1 hm1)
    hd.2.2.2.1 (modulus_ne_nil hd) hu'

theorem val3_sep {s : State} (h : s.Inv) (hu : s.usable .l3 = true)
    (hm1 : s.LeadInvertible .l1) (hm2 : s.LeadInvertible .l2) (hm : s.LeadInvertible .l3) :
    Separates (s.ElemOk .l3) s.val3 := by
  obtain ⟨u, hu'⟩ := hm
  have hd := modulus3 h hu
  exact extOps_separates (field_closed h hd.1) (val2_represents h hd.1) (val2_sep h hd.1 hm1 hm2)
    hd.2.2.2.1 (modulus_ne_nil hd) hu'

/-- As `inRing`, for what also needs elements to be separated by their readings. -/
theorem inRing_sep {s : State} (h : s.Inv) {l : Level} (hu : s.usable l = true)
    (hm : s.ModuliInvertible l) {P : (R : Type) → [CommRing R] → (Elem l → R) → Prop}
    (hP : ∀ (R : Type) [CommRing R] (φ : Elem l → R), Represents (s.field l) (s.ElemOk l) φ →
      Separates (s.ElemOk l) φ → P R φ) : s.InRing l P := by
  cases l with
  | l0 => exact hP _ _ (val0_represents h hu) (val0_sep s)
  | l1 => exact hP _ _ (val1_represents h hu) (val1_sep h hu hm)
  | l2 => exact hP _ _ (val2_represents h hu) (val2_sep h hu hm.1 hm.2)
  | l3 => exact hP _ _ (val3_represents h hu) (val3_sep h hu hm.1 hm.2.1 hm.2.2)

/-! ### The constant 2 -/

theorem ofInt_two_ne_zero {s : State} (h : s.Inv) {l : Level} (hu : s.usable l = true) :
    (s.field l).isZero ((s.field l).ofInt 2) = false := by
  have hp := p_gt_two h (usable_l0 hu)
  have h0 : (s.field .l0).isZero ((s.field .l0).ofInt 2) = false := by
    have : residue s.p 2 = 2 := by
      unfold residue
      rw [Int.emod_eq_of_lt (by omega) (by omega)]
      rfl
    simp [State.field, fpOps, this]
  cases l with
  | l0 => exact h0
  | l1 =>
    have h0 : (fpOps s.p).isZero ((fpOps s.p).ofInt 2) = false := h0
    simp [State.field, extOps, extLift, h0]
  | l2 =>
    have h0 : (fpOps s.p).isZero ((fpOps s.p).ofInt 2) = false := h0
    simp [State.field, extOps, extLift, h0]
  | l3 =>
    have h0 : (fpOps s.p).isZero ((fpOps s.p).ofInt 2) = false := h0
    simp [State.field, extOps, extLift, h0]

/-! ### Fields -/

theorem two_ne_zero_of {s : State} (h : s.Inv) {l : Level} (hu : s.usable l = true) {R : Type}
    [CommRing R] {φ : Elem l → R} (hR : Represents (s.field l) (s.ElemOk l) φ)
    (hS : Separates (s.ElemOk l) φ) : (2 : R) ≠ 0 := by
  intro h2
  have hF := field_closed h hu
  have h1 : φ ((s.field l).ofInt 2) = φ (s.field l).zero := by
    rw [hR.ofInt, hR.zero]
    exact_mod_cast h2
  have h3 := hS _ _ (hF.ofInt 2) hF.zero h1
  have h4 := ofInt_two_ne_zero h hu
  rw [((field_exactEq s l).isZero _ (hF.ofInt 2)).2 h3] at h4
  cases h4

theorem ring0_isField {s : State} (hp : s.p.Prime) : IsField s.Ring0 := by
  have : Fact s.p.Prime := ⟨hp⟩
  exact Field.toIsField (ZMod s.p)

theorem fpOps_invertsAll {p : Nat} (hp : p.Prime) : (fpOps p).InvertsAll (· < p) := by
  intro a ha hz
  have hz : a ≠ 0 := by simpa [fpOps] using hz
  rcases fpInv_cases p a with ⟨-, -, h⟩ | ⟨h, -⟩
  · exact h
  · rcases h with h | h
    · exact absurd h hz
    · exact absurd (Nat.coprime_of_lt_prime hz ha hp) h

theorem fieldLevel0 {s : State} (h : s.Inv) (hu : s.usable .l0 = true) (hp : s.p.Prime) :
    FieldLevel (s.field .l0) (s.ElemOk .l0) s.val0 where
  closed := field_closed h hu
  represents := val0_represents h hu
  total := fpOps_mulTotal _ _
  inverts := fpOps_invertsAll hp
  exact := field_exactEq s .l0
  separates := val0_sep s
  domain := isField_isDomain (ring0_isField hp)
  two := two_ne_zero_of h hu (val0_represents h hu) (val0_sep s)

/-- The leading coefficient of a valid modulus over a field is invertible. -/
theorem lead_invertible {s : State} {b : Level} {m : List (Elem b)} (hd : s.ModulusOk b m)
    (hF : (s.field b).Closed (s.ElemOk b)) (hI : (s.field b).InvertsAll (s.ElemOk b)) :
    ∃ u, (s.field b).inv (m.getD (m.length - 1) (s.field b).zero) = .ok u :=
  hI _ (getD_closed hF.zero hd.2.2.2.1 _) hd.2.2.2.2

theorem fieldLevel1 {s : State} (h : s.Inv) (hu : s.usable .l1 = true) (ht : s.FieldTower .l1) :
    FieldLevel (s.field .l1) (s.ElemOk .l1) s.val1 ∧ s.LeadInvertible .l1 := by
  have hd := modulus1 h hu
  have h0 := fieldLevel0 h hd.1 ht.1
  have hl : s.LeadInvertible .l1 := lead_invertible hd h0.closed h0.inverts
  have hfield := adjoinRoot_isField (ring0_isField ht.1) ht.2
  have := h0.domain
  refine ⟨{
    closed := field_closed h hu
    represents := val1_represents h hu
    total := field_mulTotal h hu hl
    inverts := extOps_invertsAll h0.closed h0.represents h0.separates h0.exact h0.total h0.inverts
      hd.2.2.2.1 hd.2.1 hd.2.2.2.2 ht.2
    exact := field_exactEq s .l1
    separates := val1_sep h hu hl
    domain := isField_isDomain hfield
    two := two_ne_zero_of h hu (val1_represents h hu) (val1_sep h hu hl) }, hl⟩

theorem ring1_isField {s : State} (ht : s.FieldTower .l1) : IsField s.Ring1 :=
  adjoinRoot_isField (ring0_isField ht.1) ht.2

theorem fieldLevel2 {s : State} (h : s.Inv) (hu : s.usable .l2 = true) (ht : s.FieldTower .l2) :
    FieldLevel (s.field .l2) (s.ElemOk .l2) s.val2 ∧ s.ModuliInvertible .l2 := by
  have hd := modulus2 h hu
  obtain ⟨h1, hl1⟩ := fieldLevel1 h hd.1 ⟨ht.1, ht.2.1⟩
  have hl : s.LeadInvertible .l2 := lead_invertible hd h1.closed h1.inverts
  have := h1.domain
  refine ⟨{
    closed := field_closed h hu
    represents := val2_represents h hu
    total := field_mulTotal h hu ⟨hl1, hl⟩
    inverts := extOps_invertsAll h1.closed h1.represents h1.separates h1.exact h1.total h1.inverts
      hd.2.2.2.1 hd.2.1 hd.2.2.2.2 ht.2.2
    exact := field_exactEq s .l2
    separates := val2_sep h hu hl1 hl
    domain := isField_isDomain
      (adjoinRoot_isField (ring1_isField ⟨ht.1, ht.2.1⟩) ht.2.2)
    two := two_ne_zero_of h hu (val2_represents h hu) (val2_sep h hu hl1 hl) }, hl1, hl⟩

theorem ring2_isField {s : State} (ht : s.FieldTower .l2) : IsField s.Ring2 :=
  adjoinRoot_isField (ring1_isField ⟨ht.1, ht.2.1⟩) ht.2.2

theorem fieldLevel3 {s : State} (h : s.Inv) (hu : s.usable .l3 = true) (ht : s.FieldTower .l3) :
    FieldLevel (s.field .l3) (s.ElemOk .l3) s.val3 ∧ s.ModuliInvertible .l3 := by
  have hd := modulus3 h hu
  obtain ⟨h2, hl1, hl2⟩ := fieldLevel2 h hd.1 ⟨ht.1, ht.2.1, ht.2.2.1⟩
  have hl : s.LeadInvertible .l3 := lead_invertible hd h2.closed h2.inverts
  have := h2.domain
  refine ⟨{
    closed := field_closed h hu
    represents := val3_represents h hu
    total := field_mulTotal h hu ⟨hl1, hl2, hl⟩
    inverts := extOps_invertsAll h2.closed h2.represents h2.separates h2.exact h2.total h2.inverts
      hd.2.2.2.1 hd.2.1 hd.2.2.2.2 ht.2.2.2
    exact := field_exactEq s .l3
    separates := val3_sep h hu hl1 hl2 hl
    domain := isField_isDomain
      (adjoinRoot_isField (ring2_isField ⟨ht.1, ht.2.1, ht.2.2.1⟩) ht.2.2.2)
    two := two_ne_zero_of h hu (val3_represents h hu) (val3_sep h hu hl1 hl2 hl) }, hl1, hl2, hl⟩

/-- A level of a tower of fields is a field in some ring its elements are read in, and the moduli up to
it have invertible leading coefficients. -/
theorem fieldLevel {s : State} (h : s.Inv) {l : Level} (hu : s.usable l = true)
    (ht : s.FieldTower l) : s.ModuliInvertible l ∧ ∃ (R : Type) (_ : CommRing R) (φ : Elem l → R),
      FieldLevel (s.field l) (s.ElemOk l) φ := by
  cases l with
  | l0 => exact ⟨trivial, _, _, _, fieldLevel0 h hu ht⟩
  | l1 => exact ⟨(fieldLevel1 h hu ht).2, _, _, _, (fieldLevel1 h hu ht).1⟩
  | l2 => exact ⟨(fieldLevel2 h hu ht).2, _, _, _, (fieldLevel2 h hu ht).1⟩
  | l3 => exact ⟨(fieldLevel3 h hu ht).2, _, _, _, (fieldLevel3 h hu ht).1⟩

/-- As `inRing`, in a tower of fields. -/
theorem inRing_field {s : State} (h : s.Inv) {l : Level} (hu : s.usable l = true)
    (ht : s.FieldTower l) {P : (R : Type) → [CommRing R] → (Elem l → R) → Prop}
    (hP : ∀ (R : Type) [CommRing R] (φ : Elem l → R), FieldLevel (s.field l) (s.ElemOk l) φ →
      P R φ) : s.InRing l P := by
  cases l with
  | l0 => exact hP _ _ (fieldLevel0 h hu ht)
  | l1 => exact hP _ _ (fieldLevel1 h hu ht).1
  | l2 => exact hP _ _ (fieldLevel2 h hu ht).1
  | l3 => exact hP _ _ (fieldLevel3 h hu ht).1

/-- Inverting zero is DivisionByZero at every level (rule R301). -/
theorem inv_isZero (s : State) (l : Level) {a : Elem l} (hz : (s.field l).isZero a = true) :
    (s.field l).inv a = .error .divisionByZero := by
  cases l with
  | l0 =>
    have : a = 0 := by simpa [State.field, fpOps] using hz
    subst this
    rfl
  | l1 =>
    have hz' : List.all a (s.field .l0).isZero = true := hz
    show extInv (s.field .l0) s.m1 a = _
    rw [extInv, if_pos hz']
  | l2 =>
    have hz' : List.all a (s.field .l1).isZero = true := hz
    show extInv (s.field .l1) s.m2 a = _
    rw [extInv, if_pos hz']
  | l3 =>
    have hz' : List.all a (s.field .l2).isZero = true := hz
    show extInv (s.field .l2) s.m3 a = _
    rw [extInv, if_pos hz']

end Sys2Proof.Machine
end

