-- ==== Sys2Proof/Laws/Inv.lean ====
section
/-! SUPPORT. The invariant under the shared operations: what a register write, a completion, a fault
entry and a change of the data queues leave of it. -/

namespace Sys2Proof.Machine

/-- The invariant reads neither the port queues, nor CMDCNT, nor (but for FAULTCMD) the status. -/
theorem inv_ports {s : State} (h : s.Inv) (mode : Mode) (faultCmd : BitVec 32)
    (hf : mode = .ready → faultCmd = 0) (cmdCnt : BitVec 64) (cmd : List CmdWord)
    (din dout : List DataWord) :
    ({ s with mode := mode, faultCmd := faultCmd, cmdCnt := cmdCnt, cmd := cmd, din := din,
              dout := dout } : State).Inv :=
  { build := h.build
    regs := h.regs
    prime := h.prime
    ext1 := h.ext1
    ext2 := h.ext2
    ext3 := h.ext3
    curve0 := h.curve0
    curve1 := h.curve1
    curve2 := h.curve2
    twist := h.twist
    pair := h.pair
    faultCmd := hf }

/-- A completed command keeps the invariant of the state it completes (rule R44). -/
theorem inv_complete {s : State} (h : s.Inv) : s.complete.Inv :=
  inv_ports h s.mode s.faultCmd h.faultCmd _ _ s.din s.dout

/-- Fault entry keeps the invariant (rules R310, R311). -/
theorem inv_takeFault {s : State} (h : s.Inv) (w : CmdWord) (c : FaultCode) :
    (s.takeFault w c).Inv :=
  inv_ports h (.fault c) w nofun s.cmdCnt _ s.din s.dout

/-- Words taken from `din` or given to `dout` are no part of the invariant. -/
theorem inv_queues {s : State} (h : s.Inv) (din dout : List DataWord) :
    ({ s with din := din, dout := dout } : State).Inv :=
  inv_ports h s.mode s.faultCmd h.faultCmd s.cmdCnt s.cmd din dout

/-- Writing a well-shaped value to a register keeps the invariant (rules R29, R31). -/
theorem inv_setReg {s : State} (h : s.Inv) (r : Reg) {v : Value} (hv : s.ValueOk v) :
    (s.setReg r v).Inv :=
  { build := h.build
    regs := fun q => by
      rw [reg_setReg]
      show s.ValueOk _
      split
      · exact hv
      · exact h.regs q
    prime := h.prime
    ext1 := h.ext1
    ext2 := h.ext2
    ext3 := h.ext3
    curve0 := h.curve0
    curve1 := h.curve1
    curve2 := h.curve2
    twist := h.twist
    pair := h.pair
    faultCmd := h.faultCmd }

/-- A command with a destination keeps the invariant when every value it can give is well shaped. -/
theorem inv_writeResult {s t : State} {w : CmdWord} {rd : Reg} {r : Except FaultCode Value}
    (h : s.Inv) (hv : ∀ v, r = .ok v → s.ValueOk v) (ht : s.writeResult w rd r = .next t) : t.Inv := by
  rcases writeResult_cases ht with ⟨v, hr, e⟩ | ⟨c, -, e⟩
  · cases e
    exact inv_complete (inv_setReg h rd (hv v hr))
  · cases e
    exact inv_takeFault h w c

end Sys2Proof.Machine
end

