-- ==== Sys2Proof/Laws/Pairing.lean ====
section
/-! SUPPORT. The functions of a pairing configuration: their results stay in their level (rules R31,
R235, R252, R254, R258, R260, R265, R267). -/

namespace Sys2Proof.Machine

/-- The contexts of a pairing configuration hold elements of usable levels (rules R38, R39, R40). -/
theorem pairEnv_ok {s : State} (h : s.Inv) {e : PairEnv} (he : s.needPair = .ok e) :
    s.usable .l2 = true ∧ CurveElems (s.ElemOk .l0) e.e0 ∧ CurveElems (s.ElemOk .l1) e.e1 ∧
      CurveElems (s.ElemOk .l2) e.e2 ∧ s.TwistOk e.tw := by
  obtain ⟨-, h0, h1, h2, ht⟩ := needPair_eq_ok.1 he
  exact ⟨(h.curve2 _ h2).1, (h.curve0 _ h0).2.imp_right And.left,
    (h.curve1 _ h1).2.imp_right And.left, (h.curve2 _ h2).2.imp_right And.left, h.twist _ ht⟩

variable {s : State}

theorem up1_closed (h : s.Inv) (hu : s.usable .l1 = true) {a : Nat} (ha : s.ElemOk .l0 a) :
    s.ElemOk .l1 (s.up1 a) :=
  extLift_closed (field_closed h (usable_l0 hu)) (modulus1 h hu).2.1 ha

theorem up2_closed (h : s.Inv) (hu : s.usable .l2 = true) {a : List Nat} (ha : s.ElemOk .l1 a) :
    s.ElemOk .l2 (s.up2 a) :=
  extLift_closed (field_closed h (usable_l1 hu)) (modulus2 h hu).2.1 ha

theorem up3_closed (h : s.Inv) (hu : s.usable .l3 = true) {a : List (List Nat)}
    (ha : s.ElemOk .l2 a) : s.ElemOk .l3 (s.up3 a) :=
  extLift_closed (field_closed h (usable_l2 hu)) (modulus3 h hu).2.1 ha

theorem embed_closed (h : s.Inv) (hu : s.usable .l2 = true) {P : Point Nat}
    (hP : PointOk (s.ElemOk .l0) P) : PointOk (s.ElemOk .l2) (s.embed P) := by
  cases P with
  | identity => trivial
  | affine x y =>
    exact ⟨up2_closed h hu (up1_closed h (usable_l1 hu) hP.1),
      up2_closed h hu (up1_closed h (usable_l1 hu) hP.2)⟩

theorem untwist_closed (h : s.Inv) {tw : TwistCtx} (ht : s.TwistOk tw) {Q : Point (List Nat)}
    {R : Point (List (List Nat))} (hQ : PointOk (s.ElemOk .l1) Q) (hR : s.untwist tw Q = .ok R) :
    PointOk (s.ElemOk .l2) R := by
  have hF := field_closed h ht.1
  cases Q with
  | identity =>
    cases hR
    trivial
  | affine x y =>
    simp only [State.untwist, bind_eq_ok] at hR
    obtain ⟨x', hx, y', hy, hR⟩ := hR
    cases hR
    exact ⟨hF.mul _ _ _ (up2_closed h ht.1 hQ.1) ht.2.1 hx,
      hF.mul _ _ _ (up2_closed h ht.1 hQ.2) ht.2.2.1 hy⟩

theorem twistBack_closed (h : s.Inv) {tw : TwistCtx} (ht : s.TwistOk tw)
    {P : Point (List (List Nat))} {R : Point (List Nat)} (hP : PointOk (s.ElemOk .l2) P)
    (hR : s.twistBack tw P = .ok R) : PointOk (s.ElemOk .l1) R := by
  have hF := field_closed h ht.1
  have hF1 := field_closed h (usable_l1 ht.1)
  cases P with
  | identity =>
    cases hR
    trivial
  | affine X Y =>
    simp only [State.twistBack, bind_eq_ok] at hR
    obtain ⟨x, hx, y, hy, hR⟩ := hR
    have hx := div_closed hF hP.1 ht.2.1 hx
    have hy := div_closed hF hP.2 ht.2.2.1 hy
    split at hR
    · cases hR
      exact ⟨getD_closed hF1.zero hx.2 0, getD_closed hF1.zero hy.2 0⟩
    · cases hR

theorem millerAdd_closed (h : s.Inv) {e : PairEnv} (he : s.needPair = .ok e)
    {Pe T R R' : Point (List (List Nat))} {f f' : List (List Nat)} (hPe : PointOk (s.ElemOk .l2) Pe)
    (hT : PointOk (s.ElemOk .l2) T) (hf : s.ElemOk .l2 f) (hR : PointOk (s.ElemOk .l2) R)
    (hr : s.millerAdd e Pe T f R = .ok (f', R')) :
    s.ElemOk .l2 f' ∧ PointOk (s.ElemOk .l2) R' := by
  obtain ⟨hu, -, -, hE, -⟩ := pairEnv_ok h he
  have hF := field_closed h hu
  simp only [State.millerAdd, bind_eq_ok] at hr
  obtain ⟨l, hl, g, hg, A, hA, hr⟩ := hr
  cases hr
  exact ⟨hF.mul _ _ _ hf (lineValue_closed hF hE hR hT hPe hl) hg,
    pointAdd_closed hF hE hR hT hA⟩

theorem millerLoop_closed (h : s.Inv) {e : PairEnv} (he : s.needPair = .ok e)
    {Pe Qe nQ : Point (List (List Nat))} (hPe : PointOk (s.ElemOk .l2) Pe)
    (hQe : PointOk (s.ElemOk .l2) Qe) (hnQ : PointOk (s.ElemOk .l2) nQ) (i : Nat)
    {f f' : List (List Nat)} {R R' : Point (List (List Nat))} (hf : s.ElemOk .l2 f)
    (hR : PointOk (s.ElemOk .l2) R) (hr : s.millerLoop e Pe Qe nQ i f R = .ok (f', R')) :
    s.ElemOk .l2 f' ∧ PointOk (s.ElemOk .l2) R' := by
  have hF := field_closed h (pairEnv_ok h he).1
  induction i generalizing f R with
  | zero =>
    cases hr
    exact ⟨hf, hR⟩
  | succ i ih =>
    simp only [State.millerLoop, bind_eq_ok] at hr
    obtain ⟨ff, hff, ⟨f1, R1⟩, h1, hr⟩ := hr
    have k1 := millerAdd_closed h he hPe hR (hF.mul _ _ _ hf hf hff) hR h1
    split at hr
    · obtain ⟨⟨f2, R2⟩, h2, hr⟩ := bind_eq_ok.1 hr
      have k2 := millerAdd_closed h he hPe hQe k1.1 k1.2 h2
      exact ih k2.1 k2.2 hr
    split at hr
    · obtain ⟨⟨f2, R2⟩, h2, hr⟩ := bind_eq_ok.1 hr
      have k2 := millerAdd_closed h he hPe hnQ k1.1 k1.2 h2
      exact ih k2.1 k2.2 hr
    · obtain ⟨⟨f2, R2⟩, h2, hr⟩ := bind_eq_ok.1 hr
      cases h2
      exact ih k1.1 k1.2 hr

theorem conjugate_closed (h : s.Inv) (hu : s.usable .l2 = true) {f g : List (List Nat)}
    (hf : s.ElemOk .l2 f) (hg : s.conjugate f = .ok g) : s.ElemOk .l2 g :=
  exp_closed (field_closed h hu) hf hg

theorem miller_closed (h : s.Inv) {e : PairEnv} (he : s.needPair = .ok e) {Q : Point (List Nat)}
    {P : Point Nat} {f : List (List Nat)} (hQ : PointOk (s.ElemOk .l1) Q)
    (hP : PointOk (s.ElemOk .l0) P) (hf : s.miller e Q P = .ok f) : s.ElemOk .l2 f := by
  obtain ⟨hu, -, -, hE, ht⟩ := pairEnv_ok h he
  have hF := field_closed h hu
  simp only [State.miller, bind_eq_ok] at hf
  obtain ⟨Qe, hQe, hf⟩ := hf
  have kQ := untwist_closed h ht hQ hQe
  have kP := embed_closed h hu hP
  split at hf
  · cases hf
  simp only [bind_eq_ok] at hf
  obtain ⟨⟨g, R⟩, hg, hf⟩ := hf
  obtain ⟨k1, k2⟩ := millerLoop_closed h he kP kQ (pointNeg_closed hF kQ) _ hF.one kQ hg
  unfold State.millerPost at hf
  split at hf
  · cases hf
    exact k1
  · simp only [bind_eq_ok] at hf
    obtain ⟨Q1, hQ1, F2, hF2, ⟨f1, R1⟩, h1, l, hl, hf⟩ := hf
    obtain ⟨k3, k4⟩ := millerAdd_closed h he kP (frobPoint_closed hF kQ hQ1) k1 k2 h1
    exact hF.mul _ _ _ k3 (lineValue_closed hF hE k4
      (pointNeg_closed hF (frobPoint_closed hF kQ hF2)) kP hl) hf
  · exact conjugate_closed h hu k1 hf

theorem finalExp_closed (h : s.Inv) (hu : s.usable .l2 = true) {e : PairEnv}
    {f g : List (List Nat)} (hf : s.ElemOk .l2 f) (hg : s.finalExp e f = .ok g) :
    s.ElemOk .l2 g := by
  unfold State.finalExp at hg
  split at hg
  · cases hg
  · exact exp_closed (field_closed h hu) hf hg

theorem pairing_closed (h : s.Inv) {e : PairEnv} (he : s.needPair = .ok e) {P : Point Nat}
    {Q : Point (List Nat)} {g : List (List Nat)} (hP : PointOk (s.ElemOk .l0) P)
    (hQ : PointOk (s.ElemOk .l1) Q) (hg : s.pairing e P Q = .ok g) : s.ElemOk .l2 g := by
  have hu := (pairEnv_ok h he).1
  have hF := field_closed h hu
  unfold State.pairing at hg
  split at hg
  · cases hg
    exact hF.one
  · simp only [bind_eq_ok] at hg
    obtain ⟨_, _, _, _, hg⟩ := hg
    cases hg
    exact hF.one
  · simp only [bind_eq_ok] at hg
    obtain ⟨_, _, _, _, hg⟩ := hg
    cases hg
    exact hF.one
  · simp only [bind_eq_ok] at hg
    obtain ⟨_, _, _, _, _, _, _, _, f, hf, hg⟩ := hg
    exact finalExp_closed h hu (miller_closed h he hQ hP hf) hg

theorem pairProduct_closed (h : s.Inv) {e : PairEnv} (he : s.needPair = .ok e)
    (l : List (Point Nat × Point (List Nat)))
    (hl : ∀ q ∈ l, PointOk (s.ElemOk .l0) q.1 ∧ PointOk (s.ElemOk .l1) q.2) {a g : List (List Nat)}
    (ha : s.ElemOk .l2 a) (hg : s.pairProduct e l a = .ok g) : s.ElemOk .l2 g := by
  have hF := field_closed h (pairEnv_ok h he).1
  induction l generalizing a with
  | nil =>
    cases hg
    exact ha
  | cons q l ih =>
    obtain ⟨P, Q⟩ := q
    simp only [State.pairProduct, bind_eq_ok] at hg
    obtain ⟨b, hb, c, hc, hg⟩ := hg
    have hq := hl (P, Q) (by simp)
    exact ih (fun q hq => hl q (by simp [hq]))
      (hF.mul _ _ _ ha (pairing_closed h he hq.1 hq.2 hb) hc) hg

end Sys2Proof.Machine
end

