-- ==== Sys2Proof/Laws/Relations.lean ====
section
/-! SUPPORT. The functions of a level that is a field answer what the relations of
`Sys2Proof/Algebra.lean` say, and answer whenever those hold: products, powers, slopes, sums, lines,
negatives, Frobenius images, and multiples by the complete group law. -/

namespace Sys2Proof.Machine

/-- A level of a tower of fields, with the ring `State.InRing` reads it in. -/
theorem fieldLevel_reads {s : State} (h : s.Inv) {l : Level} (hu : s.usable l = true)
    (ht : s.FieldTower l) : ∃ (R : Type) (_ : CommRing R) (φ : Elem l → R),
      FieldLevel (s.field l) (s.ElemOk l) φ ∧
        ∀ P : (R : Type) → [CommRing R] → (Elem l → R) → Prop, s.InRing l P ↔ P R φ := by
  cases l with
  | l0 => exact ⟨_, _, _, fieldLevel0 h hu ht, fun _ => Iff.rfl⟩
  | l1 => exact ⟨_, _, _, (fieldLevel1 h hu ht).1, fun _ => Iff.rfl⟩
  | l2 => exact ⟨_, _, _, (fieldLevel2 h hu ht).1, fun _ => Iff.rfl⟩
  | l3 => exact ⟨_, _, _, (fieldLevel3 h hu ht).1, fun _ => Iff.rfl⟩

section FieldLaws

variable {s : State} {l : Level} (h : s.Inv) (hu : s.usable l = true) (ht : s.FieldTower l)

include h hu ht

/-- `mul_l` answers the product, always (rule R170). -/
theorem mul_iff_productIs {a b c : Elem l} (ha : s.ElemOk l a) (hb : s.ElemOk l b) :
    (s.field l).mul a b = .ok c ↔ s.ProductIs l a b c := by
  obtain ⟨R, _, φ, FL, rd⟩ := fieldLevel_reads h hu ht
  constructor
  · intro hc
    exact ⟨FL.closed.mul _ _ _ ha hb hc, (rd _).2 (FL.represents.mul _ _ _ ha hb hc)⟩
  · rintro ⟨hc, hv⟩
    obtain ⟨c', hc'⟩ := FL.total _ _ ha hb
    have := FL.represents.mul _ _ _ ha hb hc'
    rw [hc', FL.separates _ _ (FL.closed.mul _ _ _ ha hb hc') hc (this.trans ((rd _).1 hv).symm)]

/-- `exp_l` answers the power, for every positive exponent (rules R145, R173). -/
theorem exp_iff_powerIs {b c : Elem l} {n : Nat} (hb : s.ElemOk l b) (hn : 0 < n) :
    (s.field l).exp b n = .ok c ↔ s.PowerIs l b n c := by
  obtain ⟨R, _, φ, FL, rd⟩ := fieldLevel_reads h hu ht
  have hval : ∀ {c}, (s.field l).exp b n = .ok c → φ c = φ b ^ n := fun hc =>
    (exp_represents FL.closed FL.represents hb hc).1 (by omega)
  constructor
  · intro hc
    exact ⟨exp_closed FL.closed hb hc, (rd _).2 (hval hc)⟩
  · rintro ⟨hc, hv⟩
    obtain ⟨c', hc'⟩ := exp_pos_total (e := (n : Int)) FL.closed FL.total hb (by omega)
    rw [hc', FL.separates _ _ (exp_closed FL.closed hb hc') hc
      ((hval hc').trans ((rd _).1 hv).symm)]

/-- `slope_l` of two points that are not each other's opposite answers the slope (rule R203). -/
theorem slope_iff_slopeIs {E : CurveCtx (Elem l)} (hE : CurveElems (s.ElemOk l) E)
    {x1 y1 x2 y2 m : Elem l} (h1 : s.ElemOk l x1) (h2 : s.ElemOk l y1) (h3 : s.ElemOk l x2)
    (h4 : s.ElemOk l y2) (hne : ¬ (x1 = x2 ∧ y1 ≠ y2)) :
    slope (s.field l) E x1 y1 x2 y2 = .ok m ↔ s.SlopeIs l E.a x1 y1 x2 y2 m := by
  obtain ⟨R, _, φ, FL, rd⟩ := fieldLevel_reads h hu ht
  have := FL.domain
  have hyy : x1 = x2 → y1 = y2 := fun hx => by_contra fun hy => hne ⟨hx, hy⟩
  have hforms : ∀ {m}, slope (s.field l) E x1 y1 x2 y2 = .ok m →
      (x1 = x2 → TangentSlope (φ E.a) (φ m) (φ x1) (φ y1)) ∧
        (x1 ≠ x2 → ChordSlope (φ m) (φ x1) (φ y1) (φ x2) (φ y2)) := fun hm => by
    have hr := slope_represents FL.closed FL.represents FL.exact hE h1 h2 h3 h4 hm
    exact ⟨fun hx => hr.1 ⟨hx, hyy hx⟩, fun hx => hr.2 fun hc => hx hc.1⟩
  constructor
  · intro hm
    refine ⟨slope_closed FL.closed hE h1 h2 h3 h4 hm, fun hx => ?_, (rd _).2 (hforms hm)⟩
    simp only [slope, (samePoint_iff FL.exact h1 h2 h3 h4).2 ⟨hx, hyy hx⟩, if_true,
      FieldOps.div, bind_eq_ok] at hm
    obtain ⟨xx, -, xx3, -, den, hden, i, hi, -⟩ := hm
    have k2 := FL.closed.ofInt 2
    have hi' := FL.represents.inv _ _ (FL.closed.mul _ _ _ k2 h2 hden) hi
    rw [FL.represents.mul _ _ _ k2 h2 hden] at hi'
    rw [FL.ne_zero_iff h2]
    intro h0
    simp [h0] at hi'
  · rintro ⟨hm, hy, hv⟩
    rw [rd] at hv
    obtain ⟨m', hm'⟩ := FL.slope_total hE h1 h2 h3 h4 hne fun hx _ => hy hx
    have hv' := hforms hm'
    rw [hm', FL.separates _ _ (slope_closed FL.closed hE h1 h2 h3 h4 hm') hm]
    by_cases hx : x1 = x2
    · have hz : (2 : R) * φ y1 ≠ 0 := mul_ne_zero FL.two ((FL.ne_zero_iff h2).1 (hy hx))
      exact mul_right_cancel₀ hz ((hv'.1 hx).trans (hv.1 hx).symm)
    · have hz : φ x2 - φ x1 ≠ 0 := fun h0 =>
        hx (FL.separates _ _ h1 h3 (sub_eq_zero.1 h0).symm)
      exact mul_right_cancel₀ hz ((hv'.2 hx).trans (hv.2 hx).symm)

/-- `add_E` answers the sum, and answers exactly where there is one (rule R204). -/
theorem pointAdd_iff_sumIs {E : CurveCtx (Elem l)} (hE : CurveElems (s.ElemOk l) E)
    {P Q S : Point (Elem l)} (hP : PointOk (s.ElemOk l) P) (hQ : PointOk (s.ElemOk l) Q) :
    pointAdd (s.field l) E P Q = .ok S ↔ s.SumIs l E.a P Q S := by
  obtain ⟨R, _, φ, FL, rd⟩ := fieldLevel_reads h hu ht
  match P, Q with
  | .identity, Q =>
    simp only [pointAdd, State.SumIs, Except.ok.injEq]
    exact eq_comm
  | .affine x1 y1, .identity =>
    simp only [pointAdd, State.SumIs, Except.ok.injEq]
    exact eq_comm
  | .affine x1 y1, .affine x2 y2 =>
    obtain ⟨h1, h2⟩ := hP
    obtain ⟨h3, h4⟩ := hQ
    have hopp := opposite_iff FL.exact h1 h2 h3 h4
    simp only [State.SumIs]
    by_cases hc : x1 = x2 ∧ y1 ≠ y2
    · rw [pointAdd, if_pos (hopp.2 hc), Except.ok.injEq, eq_comm]
      exact ⟨fun hS => ⟨fun _ => hS, fun hn => absurd hc hn⟩, fun hS => hS.1 hc⟩
    · simp only [hc, false_implies, true_and, not_false_eq_true, true_implies]
      constructor
      · intro hS
        obtain ⟨m, x3, y3, hm, rfl, hf⟩ := pointAdd_represents FL.closed FL.represents FL.exact hE
          h1 h2 h3 h4 hc hS
        obtain ⟨k1, k2⟩ := pointAdd_closed FL.closed hE (P := .affine x1 y1)
          (Q := .affine x2 y2) ⟨h1, h2⟩ ⟨h3, h4⟩ hS
        exact ⟨m, x3, y3, rfl, k1, k2,
          (slope_iff_slopeIs h hu ht hE h1 h2 h3 h4 hc).1 hm, (rd _).2 hf⟩
      · rintro ⟨m, x3, y3, rfl, k1, k2, hm, hf⟩
        rw [rd] at hf
        obtain ⟨S', hS'⟩ := FL.pointAdd_total hE h1 h2 h3 h4 fun hx _ => hm.2.1 hx
        obtain ⟨m', x', y', hm', rfl, hf'⟩ := pointAdd_represents FL.closed FL.represents FL.exact
          hE h1 h2 h3 h4 hc hS'
        obtain ⟨k1', k2'⟩ := pointAdd_closed FL.closed hE (P := .affine x1 y1)
          (Q := .affine x2 y2) ⟨h1, h2⟩ ⟨h3, h4⟩ hS'
        rw [(slope_iff_slopeIs h hu ht hE h1 h2 h3 h4 hc).2 hm] at hm'
        cases hm'
        have hx : φ x' = φ x3 := hf'.1.trans hf.1.symm
        have hy : φ y' = φ y3 := by rw [hf'.2, hf.2, hx]
        rw [hS', FL.separates _ _ k1' k1 hx, FL.separates _ _ k2' k2 hy]

/-- `line` answers the line's value, and answers exactly where there is one (rule R230). -/
theorem lineValue_iff_lineIs {E : CurveCtx (Elem l)} (hE : CurveElems (s.ElemOk l) E)
    {P Q T : Point (Elem l)} {v : Elem l} (hP : PointOk (s.ElemOk l) P)
    (hQ : PointOk (s.ElemOk l) Q) (hT : PointOk (s.ElemOk l) T) :
    lineValue (s.field l) E P Q T = .ok v ↔ s.LineIs l E.a P Q T v := by
  obtain ⟨R, _, φ, FL, rd⟩ := fieldLevel_reads h hu ht
  match P, Q, T with
  | .identity, _, _ => simp [lineValue, State.LineIs]
  | .affine _ _, .identity, _ => simp [lineValue, State.LineIs]
  | .affine _ _, .affine _ _, .identity => simp [lineValue, State.LineIs]
  | .affine x1 y1, .affine x2 y2, .affine xT yT =>
    obtain ⟨h1, h2⟩ := hP
    obtain ⟨h3, h4⟩ := hQ
    obtain ⟨h5, h6⟩ := hT
    have hforms : ∀ {v}, lineValue (s.field l) E (.affine x1 y1) (.affine x2 y2) (.affine xT yT) =
        .ok v → _ := fun hv =>
      lineValue_represents FL.closed FL.represents FL.exact hE h1 h2 h3 h4 h5 h6 hv
    have hok : ∀ {v}, lineValue (s.field l) E (.affine x1 y1) (.affine x2 y2) (.affine xT yT) =
        .ok v → s.ElemOk l v := fun hv =>
      lineValue_closed FL.closed hE (P := .affine x1 y1) (Q := .affine x2 y2)
        (T := .affine xT yT) ⟨h1, h2⟩ ⟨h3, h4⟩ ⟨h5, h6⟩ hv
    constructor
    · intro hv
      obtain ⟨hvert, hline⟩ := hforms hv
      refine ⟨hok hv, fun hc => (rd _).2 (hvert hc), fun hc => ?_⟩
      obtain ⟨m, hm, hval⟩ := hline hc
      exact ⟨m, (slope_iff_slopeIs h hu ht hE h1 h2 h3 h4 hc).1 hm, (rd _).2 hval⟩
    · rintro ⟨kv, hvert, hline⟩
      obtain ⟨v', hv'⟩ := FL.lineValue_total hE h1 h2 h3 h4 h5 (yT := yT) (fun hx hy => by
        obtain ⟨m, hm, -⟩ := hline fun hc => hc.2 hy
        exact hm.2.1 hx)
      rw [hv', FL.separates _ _ (hok hv') kv]
      by_cases hc : x1 = x2 ∧ y1 ≠ y2
      · exact ((hforms hv').1 hc).trans ((rd _).1 (hvert hc)).symm
      · obtain ⟨m, hm, hval⟩ := hline hc
        obtain ⟨m', hm', hval'⟩ := (hforms hv').2 hc
        rw [(slope_iff_slopeIs h hu ht hE h1 h2 h3 h4 hc).2 hm] at hm'
        cases hm'
        exact hval'.trans ((rd _).1 hval).symm

/-- `neg_E` answers the negative, always (rule R205). -/
theorem pointNeg_iff_negativeIs {P N : Point (Elem l)} (hP : PointOk (s.ElemOk l) P) :
    pointNeg (s.field l) P = N ↔ s.NegativeIs l P N := by
  obtain ⟨R, _, φ, FL, rd⟩ := fieldLevel_reads h hu ht
  cases P with
  | identity => exact eq_comm
  | affine x y =>
    have hn := FL.closed.neg _ hP.2
    have hv := FL.represents.neg _ hP.2
    constructor
    · rintro rfl
      exact ⟨_, rfl, hn, (rd _).2 hv⟩
    · rintro ⟨y', rfl, hy', hval⟩
      rw [pointNeg, FL.separates _ _ hn hy' (hv.trans ((rd _).1 hval).symm)]

/-- `frobpoint` answers the Frobenius image, always (rule R257). -/
theorem frobPoint_iff_frobeniusIs {P N : Point (Elem l)} {n : Nat}
    (hP : PointOk (s.ElemOk l) P) :
    frobPoint (s.field l) s.p P n = .ok N ↔ s.FrobeniusIs l n P N := by
  have hp : 0 < s.p := by
    have := p_gt_two h (usable_l0 hu)
    omega
  have hpow : 0 < s.p ^ n := by positivity
  cases P with
  | identity =>
    simp only [frobPoint, State.FrobeniusIs, Except.ok.injEq]
    exact eq_comm
  | affine x y =>
    simp only [frobPoint, frobenius, State.FrobeniusIs, bind_eq_ok, Except.ok.injEq]
    constructor
    · rintro ⟨x', hx, y', hy, rfl⟩
      exact ⟨x', y', rfl, (exp_iff_powerIs h hu ht hP.1 hpow).1 hx,
        (exp_iff_powerIs h hu ht hP.2 hpow).1 hy⟩
    · rintro ⟨x', y', rfl, hx, hy⟩
      exact ⟨x', (exp_iff_powerIs h hu ht hP.1 hpow).2 hx, y',
        (exp_iff_powerIs h hu ht hP.2 hpow).2 hy, rfl⟩

/-! ### The complete group law (rule R207) -/

/-- `gadd` answers the sum by the complete group law. -/
theorem pointAddComplete_iff_completeSumIs {E : CurveCtx (Elem l)}
    (hE : CurveElems (s.ElemOk l) E) {P Q S : Point (Elem l)} (hP : PointOk (s.ElemOk l) P)
    (hQ : PointOk (s.ElemOk l) Q) :
    pointAddComplete (s.field l) E P Q = .ok S ↔ s.CompleteSumIs l E.a P Q S := by
  obtain ⟨R, _, φ, FL, rd⟩ := fieldLevel_reads h hu ht
  have hsum := pointAdd_iff_sumIs h hu ht hE hP hQ (S := S)
  match P, Q with
  | .identity, Q => simpa [pointAddComplete, State.CompleteSumIs] using hsum
  | .affine x1 y1, .identity => simpa [pointAddComplete, State.CompleteSumIs] using hsum
  | .affine x1 y1, .affine x2 y2 =>
    have htwo : (((s.field l).eq x1 x2 && (s.field l).eq y1 y2) && (s.field l).isZero y1) = true ↔
        ∃ x, Point.affine x1 y1 = .affine x (s.field l).zero ∧
          Point.affine x2 y2 = .affine x1 y1 := by
      rw [Bool.and_eq_true, samePoint_iff FL.exact hP.1 hP.2 hQ.1 hQ.2,
        FL.exact.isZero _ hP.2]
      simp only [Point.affine.injEq]
      constructor
      · rintro ⟨⟨rfl, rfl⟩, hz⟩
        exact ⟨_, ⟨rfl, hz⟩, rfl, rfl⟩
      · rintro ⟨x, ⟨-, hz⟩, rfl, rfl⟩
        exact ⟨⟨rfl, rfl⟩, hz⟩
    simp only [pointAddComplete, State.CompleteSumIs]
    split
    · next hc =>
      rw [htwo] at hc
      obtain ⟨x, hx⟩ := hc
      constructor
      · intro hS
        cases hS
        exact .inl ⟨x, hx.1, hx.2, rfl⟩
      · rintro (⟨_, _, _, rfl⟩ | ⟨hn, -⟩)
        · rfl
        · exact absurd ⟨x, hx⟩ hn
    · next hc =>
      rw [htwo] at hc
      rw [hsum]
      constructor
      · exact fun hS => .inr ⟨hc, hS⟩
      · rintro (⟨x, h1, h2, -⟩ | ⟨-, hS⟩)
        · exact absurd ⟨x, h1, h2⟩ hc
        · exact hS

theorem completeMultiple_closed {E : CurveCtx (Elem l)} (hE : CurveElems (s.ElemOk l) E)
    {P S : Point (Elem l)} (hP : PointOk (s.ElemOk l) P) {n : Nat}
    (hS : CompleteMultiple s l E.a P n S) : PointOk (s.ElemOk l) S := by
  obtain ⟨R, _, φ, FL, -⟩ := fieldLevel_reads h hu ht
  have hadd : ∀ {A B C : Point (Elem l)}, PointOk (s.ElemOk l) A → PointOk (s.ElemOk l) B →
      s.CompleteSumIs l E.a A B C → PointOk (s.ElemOk l) C := fun hA hB hC =>
    pointAddComplete_closed FL.closed hE hA hB
      ((pointAddComplete_iff_completeSumIs h hu ht hE hA hB).2 hC)
  induction hS with
  | zero => trivial
  | double _ hD ih => exact hadd ih ih hD
  | doubleAdd _ hD hT ih => exact hadd (hadd ih ih hD) hP hT

omit h hu ht in
theorem completeMultiple_zero {a : Elem l} {P S : Point (Elem l)} {n : Nat}
    (hS : CompleteMultiple s l a P n S) (hn : n = 0) : S = .identity := by
  induction hS with
  | zero => rfl
  | double _ hD ih =>
    rw [ih (by omega)] at hD
    rcases hD with ⟨_, hx, -⟩ | ⟨-, hD⟩
    · cases hx
    · exact hD
  | doubleAdd => omega

/-- A point has one multiple by each number. -/
theorem completeMultiple_unique {E : CurveCtx (Elem l)} (hE : CurveElems (s.ElemOk l) E)
    {P S S' : Point (Elem l)} (hP : PointOk (s.ElemOk l) P) {n : Nat}
    (hS : CompleteMultiple s l E.a P n S) (hS' : CompleteMultiple s l E.a P n S') : S = S' := by
  have hadd : ∀ {A B C C' : Point (Elem l)}, PointOk (s.ElemOk l) A → PointOk (s.ElemOk l) B →
      s.CompleteSumIs l E.a A B C → s.CompleteSumIs l E.a A B C' → C = C' :=
    fun hA hB hC hC' => by
      have h1 := (pointAddComplete_iff_completeSumIs h hu ht hE hA hB).2 hC
      have h2 := (pointAddComplete_iff_completeSumIs h hu ht hE hA hB).2 hC'
      rw [h1] at h2
      exact Except.ok.inj h2
  have hclosed : ∀ {n S}, CompleteMultiple s l E.a P n S → PointOk (s.ElemOk l) S :=
    completeMultiple_closed h hu ht hE hP
  induction hS generalizing S' with
  | zero => exact (completeMultiple_zero hS' rfl).symm
  | @double n A D hA hD ih =>
    generalize hk : 2 * n = k at hS'
    cases hS' with
    | zero => exact completeMultiple_zero (.double hA hD) hk
    | @double m _ _ hA' hD' =>
      obtain rfl : n = m := by omega
      have := ih hA'
      subst this
      exact hadd (hclosed hA) (hclosed hA) hD hD'
    | doubleAdd => omega
  | @doubleAdd n A D T hA hD hT ih =>
    generalize hk : 2 * n + 1 = k at hS'
    cases hS' with
    | zero => omega
    | double => omega
    | @doubleAdd m _ _ _ hA' hD' hT' =>
      obtain rfl : n = m := by omega
      have := ih hA'
      subst this
      have := hadd (hclosed hA) (hclosed hA) hD hD'
      subst this
      exact hadd (hclosed (.double hA hD)) hP hT hT'

/-- The double-and-add loop over the bits below `i` goes from the multiple by `n / 2^i` to that by
`n`. -/
theorem scalarLoop_completeMultiple {E : CurveCtx (Elem l)} (hE : CurveElems (s.ElemOk l) E)
    {P : Point (Elem l)} (hP : PointOk (s.ElemOk l) P) (n i : Nat) {A S : Point (Elem l)}
    (hA : CompleteMultiple s l E.a P (n / 2 ^ i) A)
    (hS : scalarLoop (pointAddComplete (s.field l) E) P n i A = .ok S) :
    CompleteMultiple s l E.a P n S := by
  induction i generalizing A with
  | zero =>
    cases hS
    simpa using hA
  | succ i ih =>
    obtain ⟨D, hD, hS⟩ := bind_eq_ok.1 hS
    obtain ⟨B, hB, hS⟩ : ∃ B, (if n.testBit i then pointAddComplete (s.field l) E D P else .ok D) =
        .ok B ∧ scalarLoop (pointAddComplete (s.field l) E) P n i B = .ok S := by
      split at hS
      · obtain ⟨B, hB, hS⟩ := bind_eq_ok.1 hS
        exact ⟨B, by rwa [if_pos ‹_›], hS⟩
      · exact ⟨D, by rw [if_neg ‹_›], hS⟩
    have kA := completeMultiple_closed h hu ht hE hP hA
    have hD' := (pointAddComplete_iff_completeSumIs h hu ht hE kA kA).1 hD
    have kD := completeMultiple_closed h hu ht hE hP (.double hA hD')
    have hhalf : n / 2 ^ (i + 1) = n / 2 ^ i / 2 := by rw [Nat.pow_succ, Nat.div_div_eq_div_mul]
    refine ih ?_ hS
    rw [Nat.testBit_eq_decide_div_mod_eq] at hB
    split at hB
    · next hbit =>
      have hB' := (pointAddComplete_iff_completeSumIs h hu ht hE kD hP).1 hB
      have hn : n / 2 ^ i = 2 * (n / 2 ^ (i + 1)) + 1 := by
        simp only [decide_eq_true_eq] at hbit
        omega
      rw [hn]
      exact .doubleAdd hA hD' hB'
    · next hbit =>
      cases hB
      have hn : n / 2 ^ i = 2 * (n / 2 ^ (i + 1)) := by
        simp only [decide_eq_true_eq] at hbit
        omega
      rw [hn]
      exact .double hA hD'

/-- `gmul` answers the multiple by the complete group law (rule R207). -/
theorem pointMulComplete_iff_completeMultiple {E : CurveCtx (Elem l)}
    (hE : CurveElems (s.ElemOk l) E) {P S : Point (Elem l)} (hP : PointOk (s.ElemOk l) P)
    {n : Nat} : pointMulComplete (s.field l) E P n = .ok S ↔ CompleteMultiple s l E.a P n S := by
  obtain ⟨R, _, φ, FL, -⟩ := fieldLevel_reads h hu ht
  have hsound : ∀ {S}, pointMulComplete (s.field l) E P n = .ok S →
      CompleteMultiple s l E.a P n S := fun hS =>
    scalarLoop_completeMultiple h hu ht hE hP n (bitLen n)
      (by rw [Nat.div_eq_of_lt (lt_two_pow_bitLen n)]; exact .zero) hS
  refine ⟨hsound, fun hS => ?_⟩
  obtain ⟨S', hS', -⟩ := scalarLoop_total (add := pointAddComplete (s.field l) E) (P := P) (n := n)
    (good := PointOk (s.ElemOk l)) (fun A B hA hB => by
      obtain ⟨C, hC⟩ := FL.pointAddComplete_total hE hA hB
      exact ⟨C, hC, pointAddComplete_closed FL.closed hE hA hB hC⟩) hP (bitLen n)
    (A := .identity) trivial
  rw [completeMultiple_unique h hu ht hE hP hS (hsound hS')]
  exact hS'

end FieldLaws

end Sys2Proof.Machine
end

