-- ==== Sys2Proof/Laws/Miller.lean ====
section
/-! SUPPORT. The functions of a pairing configuration over fields answer what the relations of the
statements say: subgroup membership, the untwist map, one addition of the Miller loop, its rounds, its
post-loop step and the whole Miller value. -/

namespace Sys2Proof.Machine

open Sys2Proof.Claims

/-! ### The curve equation and subgroup membership -/

section Membership

variable {s : State} {k : Slot} {E : CurveCtx (Elem k.level)} {P : Point (Elem k.level)}
  (h : s.Inv) (hE : CurveElems (s.ElemOk k.level) E) (hu : s.usable k.level = true)
  (ht : s.FieldTower k.level) (hP : PointOk (s.ElemOk k.level) P)

include h hE hu ht hP

/-- `on_curve_l` completes and answers whether the point is on the curve (rule R201). -/
theorem onCurve_decides :
    ∃ b, onCurve (s.field k.level) E P = .ok b ∧ (b = true ↔ OnCurve s k E P) := by
  obtain ⟨R, _, φ, FL, rd⟩ := fieldLevel_reads h hu ht
  obtain ⟨b, hb⟩ := onCurve_total FL.closed FL.total hE hP
  refine ⟨b, hb, ?_⟩
  cases P with
  | identity =>
    cases hb
    simp [OnCurve]
  | affine x y =>
    rw [onCurve_represents FL.closed FL.represents FL.exact FL.separates hE hP.1 hP.2 hb, OnCurve, rd]

/-- The multiple by the complete group law always exists (rule R207). -/
theorem pointMulComplete_total (n : Nat) :
    ∃ S, pointMulComplete (s.field k.level) E P n = .ok S := by
  obtain ⟨R, _, φ, FL, -⟩ := fieldLevel_reads h hu ht
  obtain ⟨S, hS, -⟩ := scalarLoop_total (add := pointAddComplete (s.field k.level) E) (n := n)
    (good := PointOk (s.ElemOk k.level)) (fun A B hA hB => by
      obtain ⟨C, hC⟩ := FL.pointAddComplete_total hE hA hB
      exact ⟨C, hC, pointAddComplete_closed FL.closed hE hA hB hC⟩) hP (bitLen n)
    (A := .identity) trivial
  exact ⟨S, hS⟩

/-- `in_subgroup` completes and answers membership (rule R262). -/
theorem inSubgroup_decides (r : Nat) :
    ∃ b, inSubgroup (s.field k.level) E r P = .ok b ∧ (b = true ↔ Member s k E r P) := by
  cases hPc : P with
  | identity => exact ⟨true, rfl, by simp [Member]⟩
  | affine x y =>
    subst hPc
    obtain ⟨b, hb, hon⟩ := onCurve_decides h hE hu ht hP
    obtain ⟨S, hS⟩ := pointMulComplete_total h hE hu ht hP r
    cases b with
    | false =>
      have hoff : ¬ OnCurve s k E (.affine x y) := fun ho => by simpa using hon.2 ho
      exact ⟨false, by simp [inSubgroup, hb], by simp [Member, hoff]⟩
    | true =>
      refine ⟨S.isIdentity, by simp [inSubgroup, hb, hS], ?_⟩
      simp only [Member, reduceCtorEq, false_or, hon.1 rfl, true_and,
        ← pointMulComplete_iff_completeMultiple h hu ht hE hP, hS, Except.ok.injEq]
      cases S <;> simp [Point.isIdentity]

/-- `in_subgroup` answers true on the members, and on them alone (rule R262). -/
theorem inSubgroup_true_iff_member {r : Nat} :
    inSubgroup (s.field k.level) E r P = .ok true ↔ Member s k E r P := by
  obtain ⟨b, hb, hm⟩ := inSubgroup_decides h hE hu ht hP r
  rw [hb, ← hm, Except.ok.injEq]

end Membership

/-! ### The Miller loop -/

/-- A digit of the loop parameter, by the bits of its two words (rule R234). -/
theorem loopDigit_eq (c : PairCtx) (i : Nat) : loopDigit c i = c.digit i := by
  simp only [loopDigit, PairCtx.digit, Nat.testBit_eq_decide_div_mod_eq]
  rcases Nat.mod_two_eq_zero_or_one (c.loopPos / 2 ^ i) with h1 | h1 <;>
    rcases Nat.mod_two_eq_zero_or_one (c.loopNeg / 2 ^ i) with h2 | h2 <;> simp [h1, h2]

/-- A digit is 0, 1 or -1 (rule R234). -/
theorem loopDigit_cases (c : PairCtx) (i : Nat) :
    loopDigit c i = 0 ∨ loopDigit c i = 1 ∨ loopDigit c i = -1 := by
  simp only [loopDigit]
  omega

section Miller

variable {s : State} (h : s.Inv) {e : PairEnv} (hnp : s.needPair = .ok e) (ht : s.FieldTower .l2)

include h hnp ht

/-- One line and one addition of the loop (rule R235). -/
theorem millerAdd_iff_timesLine {Pe T R S : Point (Elem .l2)} {f g : Elem .l2}
    (hPe : PointOk (s.ElemOk .l2) Pe) (hT : PointOk (s.ElemOk .l2) T) (hf : s.ElemOk .l2 f)
    (hR : PointOk (s.ElemOk .l2) R) :
    s.millerAdd e Pe T f R = .ok (g, S) ↔ TimesLine s e Pe T f R g S := by
  obtain ⟨hu, -, -, hE, -⟩ := pairEnv_ok h hnp
  have FL := (fieldLevel2 h hu ht).1
  have line := fun {v} => lineValue_iff_lineIs h hu ht hE hR hT hPe (v := v)
  have sum := pointAdd_iff_sumIs h hu ht hE hR hT (S := S)
  simp only [State.millerAdd, bind_eq_ok, Except.ok.injEq, Prod.mk.injEq, TimesLine]
  constructor
  · rintro ⟨v, hv, f', hf', S', hS', rfl, rfl⟩
    have kv := lineValue_closed FL.closed hE hR hT hPe hv
    exact ⟨v, line.1 hv, (mul_iff_productIs h hu ht hf kv).1 hf', sum.1 hS'⟩
  · rintro ⟨v, hv, hf', hS'⟩
    have hv := line.2 hv
    have kv := lineValue_closed FL.closed hE hR hT hPe hv
    exact ⟨v, hv, g, (mul_iff_productIs h hu ht hf kv).2 hf', S, sum.2 hS', rfl, rfl⟩

/-- The rounds of the loop (rule R235). -/
theorem millerLoop_iff_rounds {Pe Qe nQ S : Point (Elem .l2)} {g : Elem .l2}
    (hPe : PointOk (s.ElemOk .l2) Pe) (hQe : PointOk (s.ElemOk .l2) Qe)
    (hnQ : PointOk (s.ElemOk .l2) nQ) (i : Nat) : ∀ {f : Elem .l2} {R : Point (Elem .l2)},
      s.ElemOk .l2 f → PointOk (s.ElemOk .l2) R →
      (s.millerLoop e Pe Qe nQ i f R = .ok (g, S) ↔ Rounds s e Pe Qe nQ i f R g S) := by
  obtain ⟨hu, -, -, hE, -⟩ := pairEnv_ok h hnp
  have FL := (fieldLevel2 h hu ht).1
  induction i with
  | zero =>
    intro f R _ _
    simp [State.millerLoop, Rounds, eq_comm]
  | succ i ih =>
    intro f R hf hR
    simp only [State.millerLoop, Rounds]
    constructor
    · intro hh
      obtain ⟨ff, hff, hh⟩ := bind_eq_ok.1 hh
      obtain ⟨⟨f1, R1⟩, h1, hh⟩ := bind_eq_ok.1 hh
      have kff := FL.closed.mul _ _ _ hf hf hff
      obtain ⟨k1, k2⟩ := millerAdd_closed h hnp hPe hR kff hR h1
      refine ⟨ff, f1, R1, (mul_iff_productIs h hu ht hf hf).1 hff,
        (millerAdd_iff_timesLine h hnp ht hPe hR kff hR).1 h1, ?_, ?_, ?_⟩ <;> intro hd <;>
        rw [loopDigit_eq] at hd <;> rw [hd] at hh <;> simp at hh
      · exact (ih k1 k2).1 hh
      · obtain ⟨⟨f2, R2⟩, h2, hh⟩ := bind_eq_ok.1 hh
        obtain ⟨k3, k4⟩ := millerAdd_closed h hnp hPe hQe k1 k2 h2
        exact ⟨f2, R2, (millerAdd_iff_timesLine h hnp ht hPe hQe k1 k2).1 h2, (ih k3 k4).1 hh⟩
      · obtain ⟨⟨f2, R2⟩, h2, hh⟩ := bind_eq_ok.1 hh
        obtain ⟨k3, k4⟩ := millerAdd_closed h hnp hPe hnQ k1 k2 h2
        exact ⟨f2, R2, (millerAdd_iff_timesLine h hnp ht hPe hnQ k1 k2).1 h2, (ih k3 k4).1 hh⟩
    · rintro ⟨ff, f1, R1, hff, h1, hd0, hd1, hdm⟩
      have hff := (mul_iff_productIs h hu ht hf hf).2 hff
      have kff := FL.closed.mul _ _ _ hf hf hff
      have h1 := (millerAdd_iff_timesLine h hnp ht hPe hR kff hR).2 h1
      obtain ⟨k1, k2⟩ := millerAdd_closed h hnp hPe hR kff hR h1
      rw [hff, bind_ok, h1, bind_ok]
      rcases loopDigit_cases e.pair i with hd | hd | hd
      · have hh := hd0 hd
        rw [loopDigit_eq] at hd
        simpa [hd] using (ih k1 k2).2 hh
      · obtain ⟨f2, R2, h2, hh⟩ := hd1 hd
        rw [loopDigit_eq] at hd
        have h2 := (millerAdd_iff_timesLine h hnp ht hPe hQe k1 k2).2 h2
        obtain ⟨k3, k4⟩ := millerAdd_closed h hnp hPe hQe k1 k2 h2
        simpa [hd, h2] using (ih k3 k4).2 hh
      · obtain ⟨f2, R2, h2, hh⟩ := hdm hd
        rw [loopDigit_eq] at hd
        have h2 := (millerAdd_iff_timesLine h hnp ht hPe hnQ k1 k2).2 h2
        obtain ⟨k3, k4⟩ := millerAdd_closed h hnp hPe hnQ k1 k2 h2
        simpa [hd, h2] using (ih k3 k4).2 hh

/-- The post-loop step (rule R235). -/
theorem millerPost_iff_postStep {Pe Qe R : Point (Elem .l2)} {f g : Elem .l2}
    (hPe : PointOk (s.ElemOk .l2) Pe) (hQe : PointOk (s.ElemOk .l2) Qe) (hf : s.ElemOk .l2 f)
    (hR : PointOk (s.ElemOk .l2) R) :
    s.millerPost e Pe Qe f R = .ok g ↔ PostStep s e Pe Qe f R g := by
  obtain ⟨hu, -, -, hE, -⟩ := pairEnv_ok h hnp
  have FL := (fieldLevel2 h hu ht).1
  have hp := p_gt_two h (usable_l0 hu)
  cases hpost : e.pair.post <;> simp only [State.millerPost, PostStep, hpost]
  · simp [eq_comm]
  · simp only [bind_eq_ok]
    constructor
    · rintro ⟨Q1, hQ1, F2, hF2, ⟨f1, R1⟩, h1, v, hv, hg⟩
      have k1 := frobPoint_closed FL.closed hQe hQ1
      have k2 := frobPoint_closed FL.closed hQe hF2
      have k3 := pointNeg_closed FL.closed k2
      obtain ⟨k4, k5⟩ := millerAdd_closed h hnp hPe k1 hf hR h1
      have k6 := lineValue_closed FL.closed hE k5 k3 hPe hv
      exact ⟨Q1, F2, _, f1, R1, v, (frobPoint_iff_frobeniusIs h hu ht hQe).1 hQ1,
        (frobPoint_iff_frobeniusIs h hu ht hQe).1 hF2,
        (pointNeg_iff_negativeIs h hu ht k2).1 rfl,
        (millerAdd_iff_timesLine h hnp ht hPe k1 hf hR).1 h1,
        (lineValue_iff_lineIs h hu ht hE k5 k3 hPe).1 hv, (mul_iff_productIs h hu ht k4 k6).1 hg⟩
    · rintro ⟨Q1, F2, Q2, f1, R1, v, hQ1, hF2, hQ2, h1, hv, hg⟩
      have hQ1 := (frobPoint_iff_frobeniusIs h hu ht hQe).2 hQ1
      have hF2 := (frobPoint_iff_frobeniusIs h hu ht hQe).2 hF2
      have k1 := frobPoint_closed FL.closed hQe hQ1
      have k2 := frobPoint_closed FL.closed hQe hF2
      have hQ2 := (pointNeg_iff_negativeIs h hu ht k2).2 hQ2
      subst hQ2
      have k3 := pointNeg_closed FL.closed k2
      have h1 := (millerAdd_iff_timesLine h hnp ht hPe k1 hf hR).2 h1
      obtain ⟨k4, k5⟩ := millerAdd_closed h hnp hPe k1 hf hR h1
      have hv := (lineValue_iff_lineIs h hu ht hE k5 k3 hPe).2 hv
      have k6 := lineValue_closed FL.closed hE k5 k3 hPe hv
      exact ⟨Q1, hQ1, F2, hF2, (f1, R1), h1, v, hv, (mul_iff_productIs h hu ht k4 k6).2 hg⟩
  · exact exp_iff_powerIs h hu ht hf (Nat.pow_pos (by omega))

/-- The untwist map (rule R258). -/
theorem untwist_iff_untwistIs {Q : Point (List Nat)} {R : Point (Elem .l2)}
    (hQ : PointOk (s.ElemOk .l1) Q) : s.untwist e.tw Q = .ok R ↔ UntwistIs s e.tw Q R := by
  obtain ⟨hu, -, -, -, htw⟩ := pairEnv_ok h hnp
  cases Q with
  | identity => simp [State.untwist, UntwistIs, eq_comm]
  | affine x y =>
    have hx := fun {c} => mul_iff_productIs h hu ht (up2_closed h hu hQ.1) htw.2.1 (c := c)
    have hy := fun {c} => mul_iff_productIs h hu ht (up2_closed h hu hQ.2) htw.2.2.1 (c := c)
    simp only [State.untwist, bind_eq_ok, UntwistIs, Except.ok.injEq]
    constructor
    · rintro ⟨x', h1, y', h2, rfl⟩
      exact ⟨x', y', rfl, hx.1 h1, hy.1 h2⟩
    · rintro ⟨x', y', rfl, h1, h2⟩
      exact ⟨x', hx.2 h1, y', hy.2 h2, rfl⟩

/-- The Miller value (rule R235). -/
theorem miller_iff_millerIs {Q : Point (List Nat)} {P : Point Nat} {f : List (List Nat)}
    (hQ : PointOk (s.ElemOk .l1) Q) (hP : PointOk (s.ElemOk .l0) P) :
    s.miller e Q P = .ok f ↔ MillerIs s e Q P f := by
  obtain ⟨hu, -, -, hE, htw⟩ := pairEnv_ok h hnp
  have FL := (fieldLevel2 h hu ht).1
  have kP := embed_closed h hu hP
  have hlog : bitLen e.pair.loopPos - 1 = e.pair.loopPos.log2 := by
    have hlt : e.pair.loopNeg < e.pair.loopPos :=
      (h.pair _ (needPair_eq_ok.1 hnp).1).2.2.2.2.2.2.1
    simp [bitLen, show e.pair.loopPos ≠ 0 by omega]
  constructor
  · intro hm
    obtain ⟨Qe, hQe, hm⟩ := bind_eq_ok.1 hm
    have kQ := untwist_closed h htw hQ hQe
    simp only [] at hm
    split at hm
    · cases hm
    · next hne =>
      obtain ⟨⟨g, S⟩, hg, hm⟩ := bind_eq_ok.1 hm
      obtain ⟨x, y, rfl⟩ : ∃ x y, P = .affine x y := by
        cases P with
        | identity => exact absurd (by simp [State.embed, Point.isIdentity]) hne
        | affine x y => exact ⟨x, y, rfl⟩
      obtain ⟨Qx, Qy, rfl⟩ : ∃ x y, Qe = .affine x y := by
        cases Qe with
        | identity => exact absurd (by simp [Point.isIdentity]) hne
        | affine x y => exact ⟨x, y, rfl⟩
      have kn := pointNeg_closed FL.closed kQ
      rw [hlog] at hg
      obtain ⟨k1, k2⟩ := millerLoop_closed h hnp kP kQ kn _ FL.closed.one kQ hg
      exact ⟨x, y, Qx, Qy, _, g, S, rfl, (untwist_iff_untwistIs h hnp ht hQ).1 hQe,
        (pointNeg_iff_negativeIs h hu ht kQ).1 rfl,
        (millerLoop_iff_rounds h hnp ht kP kQ kn _ FL.closed.one kQ).1 hg,
        (millerPost_iff_postStep h hnp ht kP kQ k1 k2).1 hm⟩
  · rintro ⟨x, y, Qx, Qy, nQ, g, S, rfl, hQe, hn, hg, hm⟩
    have hQe := (untwist_iff_untwistIs h hnp ht hQ).2 hQe
    have kQ := untwist_closed h htw hQ hQe
    have hn := (pointNeg_iff_negativeIs h hu ht kQ).2 hn
    have kn := pointNeg_closed FL.closed kQ
    subst hn
    have hg := (millerLoop_iff_rounds h hnp ht kP kQ kn _ FL.closed.one kQ).2 hg
    obtain ⟨k1, k2⟩ := millerLoop_closed h hnp kP kQ kn _ FL.closed.one kQ hg
    have hm := (millerPost_iff_postStep h hnp ht kP kQ k1 k2).2 hm
    simp only [State.miller, hQe, bind_ok]
    rw [if_neg (by simp [State.embed, Point.isIdentity]), hlog]
    exact bind_eq_ok.2 ⟨(g, S), hg, hm⟩

end Miller

end Sys2Proof.Machine
end

