-- ==== Sys2Proof/Laws/PerInstr.lean ====
section
/-! SUPPORT. One statement about every command as syntax: its word has the fixed bits of its row of
spec/opcode_table.json (rules R82, R83, R87). -/

namespace Sys2Proof

/-- The bitwise and of two words, field by field. -/
theorem mkWord_and (a a' : BitVec 8) (b b' c c' : BitVec 2) (d d' e e' f f' g g' : Reg) :
    mkWord a b c d e f g &&& mkWord a' b' c' d' e' f' g' =
      mkWord (a &&& a') (b &&& b') (c &&& c') (d &&& d') (e &&& e') (f &&& f') (g &&& g') := by
  simp only [mkWord, ← BitVec.and_append]

/-- The mask and the fixed bits of a command's row of spec/opcode_table.json. -/
def tableRow : Instr → CmdWord × CmdWord
  | .setp _ => (0xFFFFFC1F, 0x01000000)
  | .setmod _ _ => (0xFF3FFC1F, 0x02000000)
  | .setcurve _ _ _ => (0xFF3F801F, 0x03000000)
  | .settwist _ _ => (0xFFFF801F, 0x04000000)
  | .setpair _ _ _ _ => (0xFFC0001F, 0x05000000)
  | .ld _ => (0xFFFFFFE0, 0x08000000)
  | .st _ => (0xFFFFFC1F, 0x09000000)
  | .fpAdd _ _ _ => (0xFFFF8000, 0x10000000)
  | .fpSub _ _ _ => (0xFFFF8000, 0x11000000)
  | .fpNeg _ _ => (0xFFFFFC00, 0x12000000)
  | .fpMul _ _ _ => (0xFFFF8000, 0x13000000)
  | .fpInv _ _ => (0xFFFFFC00, 0x14000000)
  | .fpDiv _ _ _ => (0xFFFF8000, 0x15000000)
  | .fpExp _ _ _ => (0xFFFF8000, 0x16000000)
  | .fpEq _ _ _ => (0xFFFF8000, 0x17000000)
  | .xfAdd _ _ _ _ => (0xFF3F8000, 0x20000000)
  | .xfSub _ _ _ _ => (0xFF3F8000, 0x21000000)
  | .xfNeg _ _ _ => (0xFF3FFC00, 0x22000000)
  | .xfMul _ _ _ _ => (0xFF3F8000, 0x23000000)
  | .xfInv _ _ _ => (0xFF3FFC00, 0x24000000)
  | .xfDiv _ _ _ _ => (0xFF3F8000, 0x25000000)
  | .xfExp _ _ _ _ => (0xFF3F8000, 0x26000000)
  | .xfEq _ _ _ _ => (0xFF3F8000, 0x27000000)
  | .xfMod _ _ _ => (0xFF3FFC00, 0x28000000)
  | .lift _ _ _ => (0xFF3FFC00, 0x29000000)
  | .ecIsZero _ _ _ => (0xFF3FFC00, 0x30000000)
  | .ecIsOnCurve _ _ _ => (0xFF3FFC00, 0x31000000)
  | .ecAdd _ _ _ _ => (0xFF3F8000, 0x32000000)
  | .ecDbl _ _ _ => (0xFF3FFC00, 0x33000000)
  | .ecNeg _ _ _ => (0xFF3FFC00, 0x34000000)
  | .ecSmul _ _ _ _ => (0xFF3F8000, 0x35000000)
  | .line _ _ _ _ _ => (0xFF300000, 0x40000000)
  | .miller _ _ _ => (0xFFFF8000, 0x41000000)
  | .frob _ _ _ _ => (0xFF0FFC00, 0x50000000)
  | .conj _ _ => (0xFFFFFC00, 0x51000000)
  | .finalexp _ _ => (0xFFFFFC00, 0x52000000)
  | .ecFrob _ _ _ _ => (0xFF0FFC00, 0x53000000)
  | .untwist _ _ => (0xFFFFFC00, 0x54000000)
  | .twist _ _ => (0xFFFFFC00, 0x55000000)
  | .subgrpG1 _ _ => (0xFFFFFC00, 0x56000000)
  | .subgrpG2 _ _ => (0xFFFFFC00, 0x57000000)
  | .pair _ _ _ => (0xFFFF8000, 0x58000000)
  | .pairchk _ _ _ _ => (0xFFF00000, 0x59000000)

/-- The word of a command has its row's fixed bits. -/
def Laws.TableRow.Statement (i : Instr) : Prop := encode i &&& (tableRow i).1 = (tableRow i).2

theorem Laws.TableRow.setp (rs1 : Reg) :
    Laws.TableRow.Statement (.setp rs1) := by
  show _ &&& mkWord 255 3 3 31 31 0 31 = _
  rw [encode, mkWord_and]
  simp [tableRow, mkWord]

theorem Laws.TableRow.setmod (l : ExtLevel) (rs1 : Reg) :
    Laws.TableRow.Statement (.setmod l rs1) := by
  show _ &&& mkWord 255 0 3 31 31 0 31 = _
  rw [encode, mkWord_and]
  simp [tableRow, mkWord]

theorem Laws.TableRow.setcurve (k : Slot) (rs1 : Reg) (rs2 : Reg) :
    Laws.TableRow.Statement (.setcurve k rs1 rs2) := by
  show _ &&& mkWord 255 0 3 31 0 0 31 = _
  rw [encode, mkWord_and]
  simp [tableRow, mkWord]

theorem Laws.TableRow.settwist (rs1 : Reg) (rs2 : Reg) :
    Laws.TableRow.Statement (.settwist rs1 rs2) := by
  show _ &&& mkWord 255 3 3 31 0 0 31 = _
  rw [encode, mkWord_and]
  simp [tableRow, mkWord]

theorem Laws.TableRow.setpair (post : Post) (rs1 : Reg) (rs2 : Reg) (rs3 : Reg) :
    Laws.TableRow.Statement (.setpair post rs1 rs2 rs3) := by
  show _ &&& mkWord 255 3 0 0 0 0 31 = _
  rw [encode, mkWord_and]
  simp [tableRow, mkWord]

theorem Laws.TableRow.ld (rd : Reg) :
    Laws.TableRow.Statement (.ld rd) := by
  show _ &&& mkWord 255 3 3 31 31 31 0 = _
  rw [encode, mkWord_and]
  simp [tableRow, mkWord]

theorem Laws.TableRow.st (rs1 : Reg) :
    Laws.TableRow.Statement (.st rs1) := by
  show _ &&& mkWord 255 3 3 31 31 0 31 = _
  rw [encode, mkWord_and]
  simp [tableRow, mkWord]

theorem Laws.TableRow.fpAdd (rd : Reg) (rs1 : Reg) (rs2 : Reg) :
    Laws.TableRow.Statement (.fpAdd rd rs1 rs2) := by
  show _ &&& mkWord 255 3 3 31 0 0 0 = _
  rw [encode, mkWord_and]
  simp [tableRow, mkWord]

theorem Laws.TableRow.fpSub (rd : Reg) (rs1 : Reg) (rs2 : Reg) :
    Laws.TableRow.Statement (.fpSub rd rs1 rs2) := by
  show _ &&& mkWord 255 3 3 31 0 0 0 = _
  rw [encode, mkWord_and]
  simp [tableRow, mkWord]

theorem Laws.TableRow.fpNeg (rd : Reg) (rs1 : Reg) :
    Laws.TableRow.Statement (.fpNeg rd rs1) := by
  show _ &&& mkWord 255 3 3 31 31 0 0 = _
  rw [encode, mkWord_and]
  simp [tableRow, mkWord]

theorem Laws.TableRow.fpMul (rd : Reg) (rs1 : Reg) (rs2 : Reg) :
    Laws.TableRow.Statement (.fpMul rd rs1 rs2) := by
  show _ &&& mkWord 255 3 3 31 0 0 0 = _
  rw [encode, mkWord_and]
  simp [tableRow, mkWord]

theorem Laws.TableRow.fpInv (rd : Reg) (rs1 : Reg) :
    Laws.TableRow.Statement (.fpInv rd rs1) := by
  show _ &&& mkWord 255 3 3 31 31 0 0 = _
  rw [encode, mkWord_and]
  simp [tableRow, mkWord]

theorem Laws.TableRow.fpDiv (rd : Reg) (rs1 : Reg) (rs2 : Reg) :
    Laws.TableRow.Statement (.fpDiv rd rs1 rs2) := by
  show _ &&& mkWord 255 3 3 31 0 0 0 = _
  rw [encode, mkWord_and]
  simp [tableRow, mkWord]

theorem Laws.TableRow.fpExp (rd : Reg) (rs1 : Reg) (rs2 : Reg) :
    Laws.TableRow.Statement (.fpExp rd rs1 rs2) := by
  show _ &&& mkWord 255 3 3 31 0 0 0 = _
  rw [encode, mkWord_and]
  simp [tableRow, mkWord]

theorem Laws.TableRow.fpEq (rd : Reg) (rs1 : Reg) (rs2 : Reg) :
    Laws.TableRow.Statement (.fpEq rd rs1 rs2) := by
  show _ &&& mkWord 255 3 3 31 0 0 0 = _
  rw [encode, mkWord_and]
  simp [tableRow, mkWord]

theorem Laws.TableRow.xfAdd (l : ExtLevel) (rd : Reg) (rs1 : Reg) (rs2 : Reg) :
    Laws.TableRow.Statement (.xfAdd l rd rs1 rs2) := by
  show _ &&& mkWord 255 0 3 31 0 0 0 = _
  rw [encode, mkWord_and]
  simp [tableRow, mkWord]

theorem Laws.TableRow.xfSub (l : ExtLevel) (rd : Reg) (rs1 : Reg) (rs2 : Reg) :
    Laws.TableRow.Statement (.xfSub l rd rs1 rs2) := by
  show _ &&& mkWord 255 0 3 31 0 0 0 = _
  rw [encode, mkWord_and]
  simp [tableRow, mkWord]

theorem Laws.TableRow.xfNeg (l : ExtLevel) (rd : Reg) (rs1 : Reg) :
    Laws.TableRow.Statement (.xfNeg l rd rs1) := by
  show _ &&& mkWord 255 0 3 31 31 0 0 = _
  rw [encode, mkWord_and]
  simp [tableRow, mkWord]

theorem Laws.TableRow.xfMul (l : ExtLevel) (rd : Reg) (rs1 : Reg) (rs2 : Reg) :
    Laws.TableRow.Statement (.xfMul l rd rs1 rs2) := by
  show _ &&& mkWord 255 0 3 31 0 0 0 = _
  rw [encode, mkWord_and]
  simp [tableRow, mkWord]

theorem Laws.TableRow.xfInv (l : ExtLevel) (rd : Reg) (rs1 : Reg) :
    Laws.TableRow.Statement (.xfInv l rd rs1) := by
  show _ &&& mkWord 255 0 3 31 31 0 0 = _
  rw [encode, mkWord_and]
  simp [tableRow, mkWord]

theorem Laws.TableRow.xfDiv (l : ExtLevel) (rd : Reg) (rs1 : Reg) (rs2 : Reg) :
    Laws.TableRow.Statement (.xfDiv l rd rs1 rs2) := by
  show _ &&& mkWord 255 0 3 31 0 0 0 = _
  rw [encode, mkWord_and]
  simp [tableRow, mkWord]

theorem Laws.TableRow.xfExp (l : ExtLevel) (rd : Reg) (rs1 : Reg) (rs2 : Reg) :
    Laws.TableRow.Statement (.xfExp l rd rs1 rs2) := by
  show _ &&& mkWord 255 0 3 31 0 0 0 = _
  rw [encode, mkWord_and]
  simp [tableRow, mkWord]

theorem Laws.TableRow.xfEq (l : ExtLevel) (rd : Reg) (rs1 : Reg) (rs2 : Reg) :
    Laws.TableRow.Statement (.xfEq l rd rs1 rs2) := by
  show _ &&& mkWord 255 0 3 31 0 0 0 = _
  rw [encode, mkWord_and]
  simp [tableRow, mkWord]

theorem Laws.TableRow.xfMod (l : ExtLevel) (rd : Reg) (rs1 : Reg) :
    Laws.TableRow.Statement (.xfMod l rd rs1) := by
  show _ &&& mkWord 255 0 3 31 31 0 0 = _
  rw [encode, mkWord_and]
  simp [tableRow, mkWord]

theorem Laws.TableRow.lift (l : Level) (rd : Reg) (rs1 : Reg) :
    Laws.TableRow.Statement (.lift l rd rs1) := by
  show _ &&& mkWord 255 0 3 31 31 0 0 = _
  rw [encode, mkWord_and]
  simp [tableRow, mkWord]

theorem Laws.TableRow.ecIsZero (k : Slot) (rd : Reg) (rs1 : Reg) :
    Laws.TableRow.Statement (.ecIsZero k rd rs1) := by
  show _ &&& mkWord 255 0 3 31 31 0 0 = _
  rw [encode, mkWord_and]
  simp [tableRow, mkWord]

theorem Laws.TableRow.ecIsOnCurve (k : Slot) (rd : Reg) (rs1 : Reg) :
    Laws.TableRow.Statement (.ecIsOnCurve k rd rs1) := by
  show _ &&& mkWord 255 0 3 31 31 0 0 = _
  rw [encode, mkWord_and]
  simp [tableRow, mkWord]

theorem Laws.TableRow.ecAdd (k : Slot) (rd : Reg) (rs1 : Reg) (rs2 : Reg) :
    Laws.TableRow.Statement (.ecAdd k rd rs1 rs2) := by
  show _ &&& mkWord 255 0 3 31 0 0 0 = _
  rw [encode, mkWord_and]
  simp [tableRow, mkWord]

theorem Laws.TableRow.ecDbl (k : Slot) (rd : Reg) (rs1 : Reg) :
    Laws.TableRow.Statement (.ecDbl k rd rs1) := by
  show _ &&& mkWord 255 0 3 31 31 0 0 = _
  rw [encode, mkWord_and]
  simp [tableRow, mkWord]

theorem Laws.TableRow.ecNeg (k : Slot) (rd : Reg) (rs1 : Reg) :
    Laws.TableRow.Statement (.ecNeg k rd rs1) := by
  show _ &&& mkWord 255 0 3 31 31 0 0 = _
  rw [encode, mkWord_and]
  simp [tableRow, mkWord]

theorem Laws.TableRow.ecSmul (k : Slot) (rd : Reg) (rs1 : Reg) (rs2 : Reg) :
    Laws.TableRow.Statement (.ecSmul k rd rs1 rs2) := by
  show _ &&& mkWord 255 0 3 31 0 0 0 = _
  rw [encode, mkWord_and]
  simp [tableRow, mkWord]

theorem Laws.TableRow.line (k : Slot) (rd : Reg) (rs1 : Reg) (rs2 : Reg) (rs3 : Reg) :
    Laws.TableRow.Statement (.line k rd rs1 rs2 rs3) := by
  show _ &&& mkWord 255 0 3 0 0 0 0 = _
  rw [encode, mkWord_and]
  simp [tableRow, mkWord]

theorem Laws.TableRow.miller (rd : Reg) (rs1 : Reg) (rs2 : Reg) :
    Laws.TableRow.Statement (.miller rd rs1 rs2) := by
  show _ &&& mkWord 255 3 3 31 0 0 0 = _
  rw [encode, mkWord_and]
  simp [tableRow, mkWord]

theorem Laws.TableRow.frob (l : Level) (n : FrobPow) (rd : Reg) (rs1 : Reg) :
    Laws.TableRow.Statement (.frob l n rd rs1) := by
  show _ &&& mkWord 255 0 0 31 31 0 0 = _
  rw [encode, mkWord_and]
  simp [tableRow, mkWord]

theorem Laws.TableRow.conj (rd : Reg) (rs1 : Reg) :
    Laws.TableRow.Statement (.conj rd rs1) := by
  show _ &&& mkWord 255 3 3 31 31 0 0 = _
  rw [encode, mkWord_and]
  simp [tableRow, mkWord]

theorem Laws.TableRow.finalexp (rd : Reg) (rs1 : Reg) :
    Laws.TableRow.Statement (.finalexp rd rs1) := by
  show _ &&& mkWord 255 3 3 31 31 0 0 = _
  rw [encode, mkWord_and]
  simp [tableRow, mkWord]

theorem Laws.TableRow.ecFrob (k : Slot) (n : FrobPow) (rd : Reg) (rs1 : Reg) :
    Laws.TableRow.Statement (.ecFrob k n rd rs1) := by
  show _ &&& mkWord 255 0 0 31 31 0 0 = _
  rw [encode, mkWord_and]
  simp [tableRow, mkWord]

theorem Laws.TableRow.untwist (rd : Reg) (rs1 : Reg) :
    Laws.TableRow.Statement (.untwist rd rs1) := by
  show _ &&& mkWord 255 3 3 31 31 0 0 = _
  rw [encode, mkWord_and]
  simp [tableRow, mkWord]

theorem Laws.TableRow.twist (rd : Reg) (rs1 : Reg) :
    Laws.TableRow.Statement (.twist rd rs1) := by
  show _ &&& mkWord 255 3 3 31 31 0 0 = _
  rw [encode, mkWord_and]
  simp [tableRow, mkWord]

theorem Laws.TableRow.subgrpG1 (rd : Reg) (rs1 : Reg) :
    Laws.TableRow.Statement (.subgrpG1 rd rs1) := by
  show _ &&& mkWord 255 3 3 31 31 0 0 = _
  rw [encode, mkWord_and]
  simp [tableRow, mkWord]

theorem Laws.TableRow.subgrpG2 (rd : Reg) (rs1 : Reg) :
    Laws.TableRow.Statement (.subgrpG2 rd rs1) := by
  show _ &&& mkWord 255 3 3 31 31 0 0 = _
  rw [encode, mkWord_and]
  simp [tableRow, mkWord]

theorem Laws.TableRow.pair (rd : Reg) (rs1 : Reg) (rs2 : Reg) :
    Laws.TableRow.Statement (.pair rd rs1 rs2) := by
  show _ &&& mkWord 255 3 3 31 0 0 0 = _
  rw [encode, mkWord_and]
  simp [tableRow, mkWord]

theorem Laws.TableRow.pairchk (rd : Reg) (rs1 : Reg) (rs2 : Reg) (n : BitVec 5) :
    Laws.TableRow.Statement (.pairchk rd rs1 rs2 n) := by
  show _ &&& mkWord 255 3 3 0 0 0 0 = _
  rw [encode, mkWord_and]
  simp [tableRow, mkWord]

end Sys2Proof
end

