-- ==== Sys2Proof/Laws/Record.lean ====
section
/-! SUPPORT. Records: the words of an integer give it back, what serialisation writes deserialisation
reads, and what LD can find on `din`. -/

namespace Sys2Proof.Machine

/-! ### Words (rule R65) -/

@[simp] theorem limbs_length (w n : Nat) : (limbs w n).length = w := by
  induction w generalizing n with
  | zero => rfl
  | succ w ih => simp [limbs, ih]

theorem limbsValue_limbs (w n : Nat) : limbsValue (limbs w n) = n % 2 ^ (64 * w) := by
  induction w generalizing n with
  | zero => simp [limbs, limbsValue, Nat.mod_one]
  | succ w ih =>
    simp only [limbs, limbsValue, ih, BitVec.toNat_ofNat]
    rw [show 64 * (w + 1) = 64 + 64 * w by omega, pow_add, Nat.mod_mul]

theorem limbsValue_lt (ws : List DataWord) : limbsValue ws < 2 ^ (64 * ws.length) := by
  induction ws with
  | nil => simp [limbsValue]
  | cons w ws ih =>
    have := w.isLt
    simp only [limbsValue, List.length_cons]
    rw [show 64 * (ws.length + 1) = 64 + 64 * ws.length by omega, pow_add]
    nlinarith

/-! ### Chunks -/

@[simp] theorem chunks_length (n size : Nat) (ws : List DataWord) : (chunks n size ws).length = n := by
  simp [chunks]

/-- The chunks of joined words of one size are those words. -/
theorem chunks_flatMap {α : Type} {f : α → List DataWord} {size : Nat} (l : List α)
    (h : ∀ a ∈ l, (f a).length = size) : chunks l.length size (l.flatMap f) = l.map f := by
  induction l with
  | nil => rfl
  | cons a l ih =>
    have ha := h a (by simp)
    have ih := ih fun b hb => h b (by simp [hb])
    simp only [chunks, List.length_cons, List.range_succ_eq_map, List.map_cons, List.map_map,
      List.flatMap_cons, Nat.zero_mul, List.drop_zero] at ih ⊢
    rw [List.take_left' ha, ← ih]
    congr 1
    refine List.map_congr_left fun i _ => ?_
    simp only [Function.comp]
    rw [Nat.succ_mul, Nat.add_comm, ← List.drop_drop, List.drop_left' ha]

theorem mapM_ok_of {α β : Type} {f : β → Except FaultCode α} {g : α → β} (l : List α)
    (h : ∀ a ∈ l, f (g a) = .ok a) : (l.map g).mapM f = .ok l := by
  rw [mapM_eq_ok, List.forall₂_map_left_iff]
  exact List.forall₂_same.2 h

/-! ### Serialisation and deserialisation (rules R66, R116) -/

/-- The words of an element (rule R66). -/
theorem ser_length {s : State} {l : Level} {a : Elem l} (h : s.ElemOk l a) :
    (s.ser l a).length = s.elemWords l := by
  have sum1 : ∀ e : List Nat, (e.flatMap (limbs s.build.flimbs)).length = e.length * s.build.flimbs := by
    intro e
    simp [List.length_flatMap]
  have sum2 : ∀ e : List (List Nat), (∀ c ∈ e, c.length = s.degree .l1) →
      (e.flatMap fun c => c.flatMap (limbs s.build.flimbs)).length =
        e.length * (s.degree .l1 * s.build.flimbs) := by
    intro e he
    rw [List.length_flatMap, List.map_congr_left (g := fun _ => s.degree .l1 * s.build.flimbs)
      (fun c hc => by rw [sum1, he c hc])]
    simp
  cases l with
  | l0 => simp [State.ser, State.elemWords, State.coeffCount]
  | l1 => rw [State.ser, sum1, h.1]; rfl
  | l2 =>
    rw [State.ser, sum2 _ fun c hc => (h.2 c hc).1, h.1, State.elemWords, State.coeffCount]
    ring
  | l3 =>
    simp only [State.ser, State.elemWords, State.coeffCount]
    rw [List.length_flatMap, List.map_congr_left
      (g := fun _ => s.degree .l2 * (s.degree .l1 * s.build.flimbs))
      (fun d hd => by rw [sum2 _ fun c hc => ((h.2 d hd).2 c hc).1, (h.2 d hd).1])]
    simp [h.1]
    ring

theorem elemWords_l1 (s : State) : s.elemWords .l1 = s.degree .l1 * s.build.flimbs := rfl

/-- Reading the words of an element gives it back (rules R66, R116). -/
theorem deser_ser {s : State} (h : s.Inv) {l : Level} (hu : s.usable l = true) {a : Elem l}
    (ha : s.ElemOk l a) : s.deser l (s.ser l a) = .ok a := by
  have hp : s.p < 2 ^ (64 * s.build.flimbs) := by
    obtain ⟨p, hp⟩ := Option.isSome_iff_exists.1 (usable_l0 hu)
    simpa [State.p, hp] using (h.prime p hp).2
  have d0 : ∀ x, x < s.p → s.deser0 (limbs s.build.flimbs x) = .ok x := by
    intro x hx
    rw [State.deser0, limbsValue_limbs, Nat.mod_eq_of_lt (hx.trans hp), if_neg (by omega)]
  have d1 : ∀ e, s.ElemOk .l1 e → s.deser1 (s.ser .l1 e) = .ok e := by
    intro e he
    rw [State.deser1, ← he.1, State.ser, chunks_flatMap e fun _ _ => limbs_length _ _]
    exact mapM_ok_of e fun x hx => d0 x (he.2 x hx)
  have d2 : ∀ e, s.ElemOk .l2 e → s.deser2 (s.ser .l2 e) = .ok e := by
    intro e he
    have := chunks_flatMap (f := s.ser .l1) e fun c hc => ser_length (l := .l1) (he.2 c hc)
    rw [State.deser2, ← he.1]
    exact (congrArg _ this).trans (mapM_ok_of e fun x hx => d1 x (he.2 x hx))
  cases l with
  | l0 => exact d0 a ha
  | l1 => exact d1 a ha
  | l2 => exact d2 a ha
  | l3 =>
    have := chunks_flatMap (f := s.ser .l2) a fun c hc => ser_length (l := .l2) (ha.2 c hc)
    show s.deser3 _ = _
    rw [State.deser3, ← ha.1]
    exact (congrArg _ this).trans (mapM_ok_of a fun x hx => d2 x (ha.2 x hx))

/-- Whatever is read as an element is one (rules R31, R116). -/
theorem deser_closed {s : State} {l : Level} {ws : List DataWord} {a : Elem l}
    (h : s.deser l ws = .ok a) : s.ElemOk l a := by
  have d0 : ∀ ws x, s.deser0 ws = .ok x → x < s.p := by
    intro ws x h
    unfold State.deser0 at h
    split at h
    · cases h
    · cases h
      omega
  have d1 : ∀ ws x, s.deser1 ws = .ok x → s.ElemOk .l1 x := fun ws x h =>
    ⟨by simpa using mapM_length h, mapM_closed h fun _ _ c hc => d0 _ c hc⟩
  have d2 : ∀ ws x, s.deser2 ws = .ok x → s.ElemOk .l2 x := fun ws x h =>
    ⟨by simpa using mapM_length h, mapM_closed h fun _ _ c hc => d1 _ c hc⟩
  cases l with
  | l0 => exact d0 _ _ h
  | l1 => exact d1 _ _ h
  | l2 => exact d2 _ _ h
  | l3 => exact ⟨by simpa using mapM_length h, mapM_closed h fun _ _ c hc => d2 _ c hc⟩

/-! ### Values of a level -/

theorem valueOk_ofElem {s : State} {l : Level} {a : Elem l} :
    s.ValueOk (.ofElem l a) ↔ s.usable l = true ∧ s.ElemOk l a := by cases l <;> rfl

theorem valueOk_ofPoly {s : State} {l : ExtLevel} {c : List (Elem l.base)} :
    s.ValueOk (.ofPoly l c) ↔ s.usable l.base = true ∧ s.PolyOk l.base c := by cases l <;> rfl

theorem valueOk_ofPoint {s : State} {k : Slot} {P : Point (Elem k.level)} :
    s.ValueOk (.ofPoint k P) ↔ s.usable k.level = true ∧ PointOk (s.ElemOk k.level) P := by
  cases k <;> rfl

/-! ### What LD can find on `din` (rule R116) -/

/-- The announcements a header can make: a usable level, and for a POLY a legal count. -/
def State.AnnouncedOk (s : State) : Announced → Prop
  | .int => True
  | .elem l => s.usable l = true
  | .poly l n => s.usable l.base = true ∧ 1 ≤ n ∧ n ≤ s.build.polymax
  | .point k => s.usable k.level = true

theorem readHeader_ok {s : State} {h : DataWord} {a : Announced} (hr : s.readHeader h = .ok a) :
    s.AnnouncedOk a := by
  unfold State.readHeader at hr
  simp only at hr
  split at hr
  · cases hr
  split at hr
  · cases hr
  split at hr
  · cases hr
  split at hr
  · cases hr
  split at hr
  · cases hr
    trivial
  split at hr
  · split at hr
    · cases hr
    · split at hr
      · next hu => cases hr; exact hu
      · cases hr
  split at hr
  · split at hr
    · cases hr
    · split at hr
      · cases hr
      · next hn =>
        split at hr
        · next hu => cases hr; exact ⟨hu, by omega, by omega⟩
        · cases hr
  · split at hr
    · cases hr
    · split at hr
      · next hu => cases hr; exact hu
      · cases hr

/-- The value of a whole payload is well shaped. -/
theorem readPayload_ok {s : State} {ws : List DataWord} {a : Announced} {v : Value}
    (ha : s.AnnouncedOk a) (hl : ws.length = s.payloadWords a) (hr : s.readPayload ws a = .ok v) :
    s.ValueOk v := by
  cases a with
  | int =>
    cases ws with
    | nil => cases hr
    | cons sign mag =>
      have hlen : mag.length = s.build.slimbs := by
        simp only [State.payloadWords, List.length_cons] at hl
        omega
      have hlt := limbsValue_lt mag
      rw [hlen] at hlt
      simp only [State.readPayload, intPayload] at hr
      split at hr
      · cases hr
        show Int.natAbs _ < _
        omega
      · split at hr
        · cases hr
          show Int.natAbs _ < _
          omega
        · cases hr
  | elem l =>
    obtain ⟨e, he, rfl⟩ := map_eq_ok.1 hr
    exact valueOk_ofElem.2 ⟨ha, deser_closed he⟩
  | poly l n =>
    obtain ⟨e, he, rfl⟩ := map_eq_ok.1 hr
    have hn : e.length = n := by simpa using mapM_length he
    exact valueOk_ofPoly.2 ⟨ha.1, hn ▸ ha.2.1, hn ▸ ha.2.2, mapM_closed he fun _ _ c hc =>
      deser_closed hc⟩
  | point k =>
    obtain ⟨P, hP, rfl⟩ := map_eq_ok.1 hr
    refine valueOk_ofPoint.2 ⟨ha, ?_⟩
    unfold State.pointPayload at hP
    split at hP
    · cases hP
    split at hP
    · cases hP
      trivial
    split at hP
    · cases hP
    simp only [bind_eq_ok] at hP
    obtain ⟨x, hx, y, hy, h⟩ := hP
    cases h
    exact ⟨deser_closed hx, deser_closed hy⟩

/-- All LD can find: nothing whole yet; or a fault; or a well-shaped value. -/
theorem incoming_ok {s : State} {n : Nat} {v : Value} (h : s.incoming = .arrived n (.ok v)) :
    s.ValueOk v := by
  unfold State.incoming at h
  split at h
  · cases h
  split at h
  · cases h
  next a ha =>
  split at h
  · cases h
  next hl =>
  simp only [Incoming.arrived.injEq] at h
  exact readPayload_ok (readHeader_ok ha) (by rw [List.length_take]; omega) h.2

end Sys2Proof.Machine
end

