-- ==== Sys2Proof/Machine/Assembly.lean ====
section
/-! DEFINITION. The assembler text of a command (rule R91). -/

namespace Sys2Proof

/-- A register, `v0` to `v31`. -/
def regAsm (r : Reg) : String := "v" ++ toString r.toNat

/-- An immediate: the `fn` field, or the count of PAIRCHK. -/
def immAsm (n : Nat) : String := "#" ++ toString n

/-- The selector of a field level. -/
def Level.asm (l : Level) : String := "L" ++ toString l.toNat

/-- The selector of a curve slot. -/
def Slot.asm (k : Slot) : String := "C" ++ toString k.bits.toNat

/-- A mnemonic and its operands, separated by commas. -/
def asmLine (mnemonic : String) (operands : List String) : String :=
  mnemonic ++ " " ++ String.intercalate ", " operands

/-- A command as text, its operands in the order of rule R91: selector, `fn` immediate, `rd`, sources,
and PAIRCHK's count last. -/
def Instr.asm : Instr → String
  | .setp rs1 => asmLine "SETP" [regAsm rs1]
  | .setmod l rs1 => asmLine "SETMOD" [l.level.asm, regAsm rs1]
  | .setcurve k rs1 rs2 => asmLine "SETCURVE" [k.asm, regAsm rs1, regAsm rs2]
  | .settwist rs1 rs2 => asmLine "SETTWIST" [regAsm rs1, regAsm rs2]
  | .setpair post rs1 rs2 rs3 => asmLine "SETPAIR" [immAsm post.bits.toNat, regAsm rs1, regAsm rs2, regAsm rs3]
  | .ld rd => asmLine "LD" [regAsm rd]
  | .st rs1 => asmLine "ST" [regAsm rs1]
  | .fpAdd rd rs1 rs2 => asmLine "FP.ADD" [regAsm rd, regAsm rs1, regAsm rs2]
  | .fpSub rd rs1 rs2 => asmLine "FP.SUB" [regAsm rd, regAsm rs1, regAsm rs2]
  | .fpNeg rd rs1 => asmLine "FP.NEG" [regAsm rd, regAsm rs1]
  | .fpMul rd rs1 rs2 => asmLine "FP.MUL" [regAsm rd, regAsm rs1, regAsm rs2]
  | .fpInv rd rs1 => asmLine "FP.INV" [regAsm rd, regAsm rs1]
  | .fpDiv rd rs1 rs2 => asmLine "FP.DIV" [regAsm rd, regAsm rs1, regAsm rs2]
  | .fpExp rd rs1 rs2 => asmLine "FP.EXP" [regAsm rd, regAsm rs1, regAsm rs2]
  | .fpEq rd rs1 rs2 => asmLine "FP.EQ" [regAsm rd, regAsm rs1, regAsm rs2]
  | .xfAdd l rd rs1 rs2 => asmLine "XF.ADD" [l.level.asm, regAsm rd, regAsm rs1, regAsm rs2]
  | .xfSub l rd rs1 rs2 => asmLine "XF.SUB" [l.level.asm, regAsm rd, regAsm rs1, regAsm rs2]
  | .xfNeg l rd rs1 => asmLine "XF.NEG" [l.level.asm, regAsm rd, regAsm rs1]
  | .xfMul l rd rs1 rs2 => asmLine "XF.MUL" [l.level.asm, regAsm rd, regAsm rs1, regAsm rs2]
  | .xfInv l rd rs1 => asmLine "XF.INV" [l.level.asm, regAsm rd, regAsm rs1]
  | .xfDiv l rd rs1 rs2 => asmLine "XF.DIV" [l.level.asm, regAsm rd, regAsm rs1, regAsm rs2]
  | .xfExp l rd rs1 rs2 => asmLine "XF.EXP" [l.level.asm, regAsm rd, regAsm rs1, regAsm rs2]
  | .xfEq l rd rs1 rs2 => asmLine "XF.EQ" [l.level.asm, regAsm rd, regAsm rs1, regAsm rs2]
  | .xfMod l rd rs1 => asmLine "XF.MOD" [l.level.asm, regAsm rd, regAsm rs1]
  | .lift l rd rs1 => asmLine "LIFT" [l.asm, regAsm rd, regAsm rs1]
  | .ecIsZero k rd rs1 => asmLine "EC.ISZERO" [k.asm, regAsm rd, regAsm rs1]
  | .ecIsOnCurve k rd rs1 => asmLine "EC.ISONCURVE" [k.asm, regAsm rd, regAsm rs1]
  | .ecAdd k rd rs1 rs2 => asmLine "EC.ADD" [k.asm, regAsm rd, regAsm rs1, regAsm rs2]
  | .ecDbl k rd rs1 => asmLine "EC.DBL" [k.asm, regAsm rd, regAsm rs1]
  | .ecNeg k rd rs1 => asmLine "EC.NEG" [k.asm, regAsm rd, regAsm rs1]
  | .ecSmul k rd rs1 rs2 => asmLine "EC.SMUL" [k.asm, regAsm rd, regAsm rs1, regAsm rs2]
  | .line k rd rs1 rs2 rs3 => asmLine "LINE" [k.asm, regAsm rd, regAsm rs1, regAsm rs2, regAsm rs3]
  | .miller rd rs1 rs2 => asmLine "MILLER" [regAsm rd, regAsm rs1, regAsm rs2]
  | .frob l n rd rs1 => asmLine "FROB" [l.asm, immAsm n.toNat, regAsm rd, regAsm rs1]
  | .conj rd rs1 => asmLine "CONJ" [regAsm rd, regAsm rs1]
  | .finalexp rd rs1 => asmLine "FINALEXP" [regAsm rd, regAsm rs1]
  | .ecFrob k n rd rs1 => asmLine "EC.FROB" [k.asm, immAsm n.toNat, regAsm rd, regAsm rs1]
  | .untwist rd rs1 => asmLine "UNTWIST" [regAsm rd, regAsm rs1]
  | .twist rd rs1 => asmLine "TWIST" [regAsm rd, regAsm rs1]
  | .subgrpG1 rd rs1 => asmLine "SUBGRP.G1" [regAsm rd, regAsm rs1]
  | .subgrpG2 rd rs1 => asmLine "SUBGRP.G2" [regAsm rd, regAsm rs1]
  | .pair rd rs1 rs2 => asmLine "PAIR" [regAsm rd, regAsm rs1, regAsm rs2]
  | .pairchk rd rs1 rs2 n => asmLine "PAIRCHK" [regAsm rd, regAsm rs1, regAsm rs2, immAsm n.toNat]

end Sys2Proof
end

