-- ==== Sys2Proof/Tests/Slice0.lean ====
section
/-! SUPPORT. Tests of the model, with results from spec/30_encoding.md (rule R91) and
spec/95_test_vectors.md, and for every obligation with hypotheses a state that meets them. -/

namespace Sys2Proof.Tests

open Sys2Proof.Machine Sys2Proof.Claims Polynomial

/-! ### States -/

/-- `FLIMBS = SLIMBS = 1`, as in the programs of spec/95_test_vectors.md. -/
def small : Config.Build := { flimbs := 1, slimbs := 1, dmax := 12, polymax := 24 }

/-- The state after reset. -/
def blank : State := State.resetWith small

/-- The toy pairing configuration of spec/95_test_vectors.md section 6, with a level 3 of degree 1. -/
def toy : State :=
  { blank with
    prime := some 59
    ext1 := some [0, 1]
    ext2 := some [[1], [0], [1]]
    ext3 := some [[[0], [0]], [[1], [0]]]
    curve0 := some { a := 1, b := 0 }
    curve1 := some { a := [1], b := [0] }
    curve2 := some { a := [[1], [0]], b := [[0], [0]] }
    twist := some { ux := [[58], [0]], uy := [[0], [1]] }
    pair := some { r := 5, loopPos := 5, loopNeg := 0, post := .plain } }

/-- `s` with `v1`, `v2`, `v3` and `v5` holding the values given, as many as there are. -/
def holding (s : State) : List Value → State
  | [] => s
  | [a] => s.setReg 1 a
  | [a, b] => (s.setReg 1 a).setReg 2 b
  | [a, b, c] => ((s.setReg 1 a).setReg 2 b).setReg 3 c
  | a :: b :: c :: d :: _ => (((s.setReg 1 a).setReg 2 b).setReg 3 c).setReg 5 d

/-- The state a command leaves. -/
def after (s : State) (i : Instr) : Option State :=
  match exec i s with
  | .next t => some t
  | _ => none

/-- What a command writes to `v4`. -/
def gives (s : State) (i : Instr) : Option Value := (after s i).map (·.reg 4)

/-- The fault a command raises. -/
def raises (s : State) (i : Instr) : Option Mode := (after s i).map (·.mode)

/-- `State.ElemOk` as a test. -/
def elemOk (s : State) : (l : Level) → Elem l → Bool
  | .l0, a => decide (a < s.p)
  | .l1, e => decide (ExtOk (· < s.p) (s.degree .l1) e)
  | .l2, e => decide (ExtOk (ExtOk (· < s.p) (s.degree .l1)) (s.degree .l2) e)
  | .l3, e =>
    decide (ExtOk (ExtOk (ExtOk (· < s.p) (s.degree .l1)) (s.degree .l2)) (s.degree .l3) e)

theorem elemOk_sound {s : State} {l : Level} {a : Elem l} (h : elemOk s l a = true) :
    s.ElemOk l a := by
  cases l <;> exact of_decide_eq_true (p := _) (inst := _) h

theorem elemsOk_sound {s : State} {l : Level} {c : List (Elem l)} (h : c.all (elemOk s l) = true) :
    ∀ a ∈ c, s.ElemOk l a := fun a ha => elemOk_sound (List.all_eq_true.1 h a ha)

/-- `PointOk` as a test. -/
def pointOk (s : State) (l : Level) : Point (Elem l) → Bool
  | .identity => true
  | .affine x y => elemOk s l x && elemOk s l y

theorem pointOk_sound {s : State} {l : Level} {P : Point (Elem l)} (h : pointOk s l P = true) :
    PointOk (s.ElemOk l) P := by
  cases P with
  | identity => trivial
  | affine x y =>
    simp only [pointOk, Bool.and_eq_true] at h
    exact ⟨elemOk_sound h.1, elemOk_sound h.2⟩

/-- `State.ValueOk` as a test. -/
def valueOk (s : State) : Value → Bool
  | .empty => true
  | .int n => decide (n.natAbs < 2 ^ (64 * s.build.slimbs))
  | .elem0 a => s.usable .l0 && elemOk s .l0 a
  | .elem1 a => s.usable .l1 && elemOk s .l1 a
  | .elem2 a => s.usable .l2 && elemOk s .l2 a
  | .elem3 a => s.usable .l3 && elemOk s .l3 a
  | .poly0 c => s.usable .l0 && (decide (1 ≤ c.length) &&
    (decide (c.length ≤ s.build.polymax) && c.all (elemOk s .l0)))
  | .poly1 c => s.usable .l1 && (decide (1 ≤ c.length) &&
    (decide (c.length ≤ s.build.polymax) && c.all (elemOk s .l1)))
  | .poly2 c => s.usable .l2 && (decide (1 ≤ c.length) &&
    (decide (c.length ≤ s.build.polymax) && c.all (elemOk s .l2)))
  | .point0 P => s.usable .l0 && pointOk s .l0 P
  | .point1 P => s.usable .l1 && pointOk s .l1 P
  | .point2 P => s.usable .l2 && pointOk s .l2 P
  | .bool _ => true

theorem valueOk_sound {s : State} {v : Value} (h : valueOk s v = true) : s.ValueOk v := by
  cases v <;> simp only [valueOk, Bool.and_eq_true, decide_eq_true_eq] at h
  case empty | bool => trivial
  case int => exact h
  case elem0 | elem1 | elem2 | elem3 => exact ⟨h.1, elemOk_sound h.2⟩
  case poly0 | poly1 | poly2 => exact ⟨h.1, h.2.1, h.2.2.1, elemsOk_sound h.2.2.2⟩
  case point0 | point1 | point2 => exact ⟨h.1, pointOk_sound h.2⟩

theorem holding_inv {s : State} (h : s.Inv) {vs : List Value} (hv : vs.all (valueOk s) = true) :
    (holding s vs).Inv := by
  match vs with
  | [] => exact h
  | [a] =>
    simp only [List.all_cons, List.all_nil, Bool.and_true] at hv
    exact inv_setReg h 1 (valueOk_sound hv)
  | [a, b] =>
    simp only [List.all_cons, List.all_nil, Bool.and_true, Bool.and_eq_true] at hv
    exact inv_setReg (inv_setReg h 1 (valueOk_sound hv.1)) 2 (valueOk_sound (s := s) hv.2)
  | [a, b, c] =>
    simp only [List.all_cons, List.all_nil, Bool.and_true, Bool.and_eq_true] at hv
    exact inv_setReg (inv_setReg (inv_setReg h 1 (valueOk_sound hv.1)) 2
      (valueOk_sound (s := s) hv.2.1)) 3 (valueOk_sound (s := s) hv.2.2)
  | a :: b :: c :: d :: _ =>
    simp only [List.all_cons, Bool.and_eq_true] at hv
    exact inv_setReg (inv_setReg (inv_setReg (inv_setReg h 1 (valueOk_sound hv.1)) 2
      (valueOk_sound (s := s) hv.2.1)) 3 (valueOk_sound (s := s) hv.2.2.1)) 5
      (valueOk_sound (s := s) hv.2.2.2.1)

theorem blank_reg (r : Reg) : blank.reg r = .empty := resetWith_reg small r

theorem toy_inv : toy.Inv where
  build := by decide
  regs := fun r => by
    rw [show toy.reg r = .empty from blank_reg r]
    trivial
  prime := by
    intro p h
    cases h
    decide
  ext1 := by
    intro m h
    cases h
    exact ⟨rfl, by decide, by decide, elemsOk_sound rfl, rfl⟩
  ext2 := by
    intro m h
    cases h
    exact ⟨rfl, by decide, by decide, elemsOk_sound rfl, rfl⟩
  ext3 := by
    intro m h
    cases h
    exact ⟨rfl, by decide, by decide, elemsOk_sound rfl, rfl⟩
  curve0 := by
    intro m h
    cases h
    exact ⟨rfl, elemOk_sound rfl, elemOk_sound rfl, (4 : Nat), rfl, rfl⟩
  curve1 := by
    intro m h
    cases h
    exact ⟨rfl, elemOk_sound rfl, elemOk_sound rfl, ([4] : List Nat), rfl, rfl⟩
  curve2 := by
    intro m h
    cases h
    exact ⟨rfl, elemOk_sound rfl, elemOk_sound rfl, ([[4], [0]] : List (List Nat)), rfl, rfl⟩
  twist := by
    intro m h
    cases h
    exact ⟨rfl, elemOk_sound rfl, elemOk_sound rfl, rfl, rfl⟩
  pair := by
    intro m h
    cases h
    exact ⟨rfl, rfl, rfl, rfl, by decide, by decide, by decide, by decide, by decide⟩
  faultCmd := fun _ => rfl

/-- A polynomial `x^2 + 1` without roots is irreducible. -/
theorem sq_add_one_irreducible {R : Type} [CommRing R] [IsDomain R] (h : ∀ z : R, z ^ 2 + 1 ≠ 0) :
    Irreducible (X ^ 2 + 1 : R[X]) := by
  have hd : (X ^ 2 + 1 : R[X]).natDegree = 2 := by compute_degree!
  have hm : (X ^ 2 + 1 : R[X]).Monic := by monicity!
  rw [hm.irreducible_iff_roots_eq_zero_of_degree_le_three (by omega) (by omega)]
  refine Multiset.eq_zero_of_forall_notMem fun z hz => h z ?_
  simpa using (mem_roots'.1 hz).2

/-- A tower whose levels 1 and 3 have degree 1 and whose level 2 is by `w^2 + 1`. -/
theorem fieldTower_of {s : State} (hp : s.p.Prime) (h1 : s.m1 = [0, 1]) (h2 : s.m2 = [[1], [0], [1]])
    (h3 : s.m3 = [[[0], [0]], [[1], [0]]]) (h : ∀ a : ZMod s.p, a ^ 2 + 1 ≠ 0) :
    s.FieldTower .l3 := by
  have e1 : listPoly s.val0 s.m1 = X := by simp [h1, listPoly, State.val0]
  have : Fact s.p.Prime := ⟨hp⟩
  have i1 : Irreducible (listPoly s.val0 s.m1) := e1 ▸ irreducible_X
  have d1 : IsDomain s.Ring1 := isField_isDomain (ring1_isField ⟨hp, i1⟩)
  have e2 : listPoly s.val1 s.m2 = X ^ 2 + 1 := by
    simp [h2, listPoly, State.val1, State.val0, pow_two, add_comm]
  have i2 : Irreducible (listPoly s.val1 s.m2) := by
    rw [e2]
    refine sq_add_one_irreducible fun z hz => ?_
    let g : s.Ring1 →+* ZMod s.p := AdjoinRoot.lift (RingHom.id _) 0 (by rw [e1]; simp)
    have := congrArg g hz
    simp only [map_add, map_pow, map_one, map_zero] at this
    exact h _ this
  have e3 : listPoly s.val2 s.m3 = X := by
    simp [h3, listPoly, State.val2, State.val1, State.val0]
  have d2 : IsDomain s.Ring2 := isField_isDomain (ring2_isField ⟨hp, i1, i2⟩)
  exact ⟨hp, i1, i2, e3 ▸ irreducible_X⟩

theorem toy_tower : toy.FieldTower .l3 :=
  fieldTower_of (by show Nat.Prime 59; norm_num) rfl rfl rfl (by
    have : ∀ a : ZMod 59, a ^ 2 + 1 ≠ 0 := by decide +kernel
    exact this)

/-! ### Other configurations -/

/-- `p = 13`, as in spec/95_test_vectors.md section 2. -/
def fp13 : State := { blank with prime := some 13 }

/-- The composite modulus of spec/95_test_vectors.md section 2. -/
def fp15 : State := { blank with prime := some 15 }

/-- The tower of spec/95_test_vectors.md section 3, with the slot-1 curve of section 4. -/
def tower : State :=
  { blank with
    prime := some 59
    ext1 := some [1, 0, 1]
    ext2 := some [[57, 58], [0, 0], [0, 0], [1, 0]]
    ext3 := some [[[58, 0], [58, 0], [0, 0]], [[0, 0], [0, 0], [0, 0]], [[1, 0], [0, 0], [0, 0]]]
    curve1 := some { a := [1, 0], b := [0, 0] } }

/-- `y^2 = x^3 + 2` over the integers modulo 13: no point has `y = 0`. -/
def cubic : State := { fp13 with curve0 := some { a := 0, b := 2 } }

/-- Level 2 of degree 1 over level 1: `K = 1`, odd. -/
def oddK : State := { fp13 with ext1 := some [0, 1], ext2 := some [[0], [1]] }

/-- The toy configuration before SETTWIST and SETPAIR. -/
def toyCurves : State := { toy with twist := none, pair := none }

/-- The toy configuration with the two final lines and the loop parameter 4 - 1. -/
def toyLines : State :=
  { toy with pair := some { r := 5, loopPos := 4, loopNeg := 1, post := .twoLines } }

/-- The toy configuration with an untwist map that only embeds. -/
def toyEmbed : State := { toy with twist := some { ux := [[1], [0]], uy := [[1], [0]] } }

theorem fp13_inv : fp13.Inv where
  build := by decide
  regs := fun r => by
    rw [show fp13.reg r = .empty from blank_reg r]
    trivial
  prime := by
    intro p h
    cases h
    decide
  ext1 := nofun
  ext2 := nofun
  ext3 := nofun
  curve0 := nofun
  curve1 := nofun
  curve2 := nofun
  twist := nofun
  pair := nofun
  faultCmd := fun _ => rfl

theorem cubic_inv : cubic.Inv where
  build := by decide
  regs := fun r => by
    rw [show cubic.reg r = .empty from blank_reg r]
    trivial
  prime := fp13_inv.prime
  ext1 := nofun
  ext2 := nofun
  ext3 := nofun
  curve0 := by
    intro m h
    cases h
    exact ⟨rfl, elemOk_sound rfl, elemOk_sound rfl, (4 : Nat), rfl, rfl⟩
  curve1 := nofun
  curve2 := nofun
  twist := nofun
  pair := nofun
  faultCmd := fun _ => rfl

theorem oddK_inv : oddK.Inv where
  build := by decide
  regs := fun r => by
    rw [show oddK.reg r = .empty from blank_reg r]
    trivial
  prime := fp13_inv.prime
  ext1 := by
    intro m h
    cases h
    exact ⟨rfl, by decide, by decide, elemsOk_sound rfl, rfl⟩
  ext2 := by
    intro m h
    cases h
    exact ⟨rfl, by decide, by decide, elemsOk_sound rfl, rfl⟩
  ext3 := nofun
  curve0 := nofun
  curve1 := nofun
  curve2 := nofun
  twist := nofun
  pair := nofun
  faultCmd := fun _ => rfl

theorem toyCurves_inv : toyCurves.Inv where
  build := toy_inv.build
  regs := toy_inv.regs
  prime := toy_inv.prime
  ext1 := toy_inv.ext1
  ext2 := toy_inv.ext2
  ext3 := toy_inv.ext3
  curve0 := toy_inv.curve0
  curve1 := toy_inv.curve1
  curve2 := toy_inv.curve2
  twist := nofun
  pair := nofun
  faultCmd := toy_inv.faultCmd

theorem toyLines_inv : toyLines.Inv where
  build := toy_inv.build
  regs := toy_inv.regs
  prime := toy_inv.prime
  ext1 := toy_inv.ext1
  ext2 := toy_inv.ext2
  ext3 := toy_inv.ext3
  curve0 := toy_inv.curve0
  curve1 := toy_inv.curve1
  curve2 := toy_inv.curve2
  twist := toy_inv.twist
  pair := by
    intro m h
    cases h
    exact ⟨rfl, rfl, rfl, rfl, by decide, by decide, by decide, by decide, by decide⟩
  faultCmd := toy_inv.faultCmd

theorem toyEmbed_inv : toyEmbed.Inv where
  build := toy_inv.build
  regs := toy_inv.regs
  prime := toy_inv.prime
  ext1 := toy_inv.ext1
  ext2 := toy_inv.ext2
  ext3 := toy_inv.ext3
  curve0 := toy_inv.curve0
  curve1 := toy_inv.curve1
  curve2 := toy_inv.curve2
  twist := by
    intro m h
    cases h
    exact ⟨rfl, elemOk_sound rfl, elemOk_sound rfl, rfl, rfl⟩
  pair := toy_inv.pair
  faultCmd := toy_inv.faultCmd

theorem toy_tower2 : toy.FieldTower .l2 := ⟨toy_tower.1, toy_tower.2.1, toy_tower.2.2.1⟩

theorem toy_tower1 : toy.FieldTower .l1 := ⟨toy_tower.1, toy_tower.2.1⟩

theorem toy_tower0 : toy.FieldTower .l0 := toy_tower.1

theorem toy_invertible : toy.ModuliInvertible .l2 := (fieldLevel toy_inv rfl toy_tower2).1

/-- A state a command leaves, as the outcome of `exec`. -/
theorem exec_of_after {s t : State} {i : Instr} (h : after s i = some t) : exec i s = .next t := by
  unfold after at h
  split at h
  · next hx => rw [hx, Option.some.inj h]
  · cases h

/-! ### Well-formed commands -/

theorem test_runs_fit : (Instr.pairchk 0 31 31 1).wellFormed = true := by decide

theorem test_first_run_past_v31 : (Instr.pairchk 0 31 0 2).wellFormed = false := by decide

theorem test_second_run_past_v31 : (Instr.pairchk 0 0 2 31).wellFormed = false := by decide

theorem test_run_decoded_as_refused :
    decode (encode (.pairchk 0 31 0 2)) = .error .runPastV31 := by decide

/-! ### Decoding: words of spec/30_encoding.md rule R91 and spec/95_test_vectors.md section 8 -/

theorem test_decode_setp : decode 0x01000000 = .ok (.setp 0) := by decide
theorem test_decode_setmod : decode 0x02400020 = .ok (.setmod .l1 1) := by decide
theorem test_decode_setcurve : decode 0x03400400 = .ok (.setcurve .c1 0 1) := by decide
theorem test_decode_settwist : decode 0x04000400 = .ok (.settwist 0 1) := by decide
theorem test_decode_setpair : decode 0x05010400 = .ok (.setpair .plain 0 1 2) := by decide
theorem test_decode_ld : decode 0x08000001 = .ok (.ld 1) := by decide
theorem test_decode_st : decode 0x09000080 = .ok (.st 4) := by decide
theorem test_decode_fpAdd : decode 0x10000824 = .ok (.fpAdd 4 1 2) := by decide
theorem test_decode_fpSub : decode 0x11000821 = .ok (.fpSub 1 1 2) := by decide
theorem test_decode_fpMul : decode 0x13000825 = .ok (.fpMul 5 1 2) := by decide
theorem test_decode_fpInv : decode 0x14000022 = .ok (.fpInv 2 1) := by decide
theorem test_decode_fpDiv : decode 0x15000826 = .ok (.fpDiv 6 1 2) := by decide
theorem test_decode_fpExp : decode 0x16000C27 = .ok (.fpExp 7 1 3) := by decide
theorem test_decode_fpEq : decode 0x17001488 = .ok (.fpEq 8 4 5) := by decide
theorem test_decode_xfMul : decode 0x23400C44 = .ok (.xfMul .l1 4 2 3) := by decide
theorem test_decode_xfInv : decode 0x24400045 = .ok (.xfInv .l1 5 2) := by decide
theorem test_decode_xfEq : decode 0x2780314D = .ok (.xfEq .l2 13 10 12) := by decide
theorem test_decode_xfMod : decode 0x28400023 = .ok (.xfMod .l1 3 1) := by decide
theorem test_decode_lift : decode 0x29800025 = .ok (.lift .l2 5 1) := by decide
theorem test_decode_ecIsZero : decode 0x300002B6 = .ok (.ecIsZero .c0 22 21) := by decide
theorem test_decode_ecIsOnCurve : decode 0x31000065 = .ok (.ecIsOnCurve .c0 5 3) := by decide
theorem test_decode_ecAdd : decode 0x3200358E = .ok (.ecAdd .c0 14 12 13) := by decide
theorem test_decode_ecDbl : decode 0x338000C9 = .ok (.ecDbl .c2 9 6) := by decide
theorem test_decode_ecNeg : decode 0x34000194 = .ok (.ecNeg .c0 20 12) := by decide
theorem test_decode_ecSmul : decode 0x35004191 = .ok (.ecSmul .c0 17 12 16) := by decide
theorem test_decode_line : decode 0x40073593 = .ok (.line .c0 19 12 13 14) := by decide
theorem test_decode_miller : decode 0x4100046B = .ok (.miller 11 3 1) := by decide
theorem test_decode_frob : decode 0x50900023 = .ok (.frob .l2 .one 3 1) := by decide
theorem test_decode_conj : decode 0x51000064 = .ok (.conj 4 3) := by decide
theorem test_decode_finalexp : decode 0x5200016C = .ok (.finalexp 12 11) := by decide
theorem test_decode_untwist : decode 0x54000070 = .ok (.untwist 16 3) := by decide
theorem test_decode_twist : decode 0x55000211 = .ok (.twist 17 16) := by decide
theorem test_decode_subgrpG1 : decode 0x5600002F = .ok (.subgrpG1 15 1) := by decide
theorem test_decode_pair : decode 0x58000C2A = .ok (.pair 10 1 3) := by decide
theorem test_decode_pairchk : decode 0x59010C2E = .ok (.pairchk 14 1 3 2) := by decide

/-- Rule R91's text of one of its words. -/
theorem test_asm_setpair :
    (decode 0x05010400).toOption.map Instr.asm = some "SETPAIR #0, v0, v1, v2" := by decide +kernel

theorem test_asm_pairchk :
    (decode 0x59010C2E).toOption.map Instr.asm = some "PAIRCHK v14, v1, v3, #2" := by decide +kernel

/-! ### Single-fault runs of spec/95_test_vectors.md section 8, one step each -/

/-- STATUS, FAULTCMD and CMDCNT after one step on a word. -/
def statusAfter (s : State) (w : CmdWord) : Option (BitVec 32 × BitVec 32 × BitVec 64) :=
  match step (s.placeWord w) with
  | .next t => some (t.statusWord, t.faultCmd, t.cmdCnt)
  | _ => none

theorem test_zero_word : statusAfter blank 0 = some (0x1002, 0, 0) := by decide +kernel

theorem test_xf_at_level_0 : statusAfter blank 0x20000000 = some (0x1002, 0x20000000, 0) := by
  decide +kernel

theorem test_before_setp : statusAfter blank 0x10000C41 = some (0x1302, 0x10000C41, 0) := by
  decide +kernel

theorem test_empty_operand : statusAfter fp13 0x10000C41 = some (0x1102, 0x10000C41, 0) := by
  decide +kernel

theorem test_fetched_word :
    step (State.reset.withFetchWord 32 0x08000001) =
      .next (State.reset.withFetchWord 32 0x08000001) :=
  rfl

/-! ### One step of each command, results from spec/95_test_vectors.md -/

/-- `p = 59`, no other context. -/
def fp59 : State := { blank with prime := some 59 }

/-- A point of slot 0. -/
abbrev pt0 (x y : Nat) : Value := .point0 (.affine x y)

/-- A point of slot 1 of the toy configuration. -/
abbrev pt1 (x y : Nat) : Value := .point1 (.affine [x] [y])

theorem test_configuration :
    (after (holding blank [.int 13]) (.setp 1)).map (·.prime) = some (some 13) ∧
    raises (holding blank [.int 2]) (.setp 1) = some (.fault .badParameter) ∧
    (after (holding fp59 [.poly0 [1, 0, 1]]) (.setmod .l1 1)).map (·.ext1) = some (some [1, 0, 1]) ∧
    raises (holding fp59 [.poly0 [1, 1, 0]]) (.setmod .l1 1) = some (.fault .badParameter) ∧
    (after (holding fp59 [.elem0 0, .elem0 3]) (.setcurve .c0 1 2)).map (·.curve0) =
      some (some { a := 0, b := 3 }) ∧
    raises (holding fp59 [.elem0 56, .elem0 2]) (.setcurve .c0 1 2) = some (.fault .singularCurve) ∧
    (after (holding toyCurves [.elem2 [[58], [0]], .elem2 [[0], [1]]])
      (.settwist 1 2)).map (·.twist) =
      some toy.twist ∧
    raises (holding toyCurves [.elem2 [[58], [0]], .elem2 [[0], [0]]]) (.settwist 1 2) =
      some (.fault .badParameter) ∧
    (after (holding { toy with pair := none } [.int 5, .int 5, .int 0])
      (.setpair .plain 1 2 3)).map (·.pair) =
      some toy.pair ∧
    raises (holding { toy with pair := none } [.int 7, .int 5, .int 0]) (.setpair .plain 1 2 3) =
      some (.fault .badParameter) := by
  decide +kernel

theorem test_transfer :
    gives { fp13 with din := [0x303, 1, 0, 1] } (.ld 4) = some (.poly0 [1, 0, 1]) ∧
    raises { fp13 with din := [2, 13] } (.ld 4) = some (.fault .operandRange) ∧
    (after (holding toy [.point2 (.affine [[24], [0]] [[0], [31]])]) (.st 1)).map (·.dout) =
      some [0x24, 0, 24, 0, 0, 31] ∧
    (after (holding toy [.point0 .identity]) (.st 1)).map (·.dout) = some [4, 1, 0, 0] := by
  decide +kernel

theorem test_prime_field :
    gives (holding fp13 [.elem0 7, .elem0 9]) (.fpAdd 4 1 2) = some (.elem0 3) ∧
    gives (holding fp13 [.elem0 3, .elem0 9]) (.fpSub 4 1 2) = some (.elem0 7) ∧
    gives (holding fp13 [.elem0 4]) (.fpNeg 4 1) = some (.elem0 9) ∧
    gives (holding fp13 [.elem0 0]) (.fpNeg 4 1) = some (.elem0 0) ∧
    gives (holding fp13 [.elem0 7, .elem0 9]) (.fpMul 4 1 2) = some (.elem0 11) ∧
    gives (holding fp13 [.elem0 5]) (.fpInv 4 1) = some (.elem0 8) ∧
    raises (holding fp15 [.elem0 3]) (.fpInv 4 1) = some (.fault .divisionByZero) ∧
    gives (holding fp13 [.elem0 7, .elem0 9]) (.fpDiv 4 1 2) = some (.elem0 8) ∧
    gives (holding fp13 [.elem0 2, .int (-3)]) (.fpExp 4 1 2) = some (.elem0 5) ∧
    raises (holding fp13 [.elem0 0, .int 0]) (.fpExp 4 1 2) = some (.fault .undefinedResult) ∧
    gives (holding fp13 [.elem0 3, .elem0 11]) (.fpEq 4 1 2) = some (.bool false) := by
  decide +kernel

theorem test_extension_field :
    gives (holding tower [.elem1 [3, 5], .elem1 [7, 58]]) (.xfAdd .l1 4 1 2) =
      some (.elem1 [10, 4]) ∧
    gives (holding tower [.elem2 [[1, 2], [3, 4], [5, 6]], .elem2 [[7, 0], [0, 8], [9, 10]]])
      (.xfSub .l2 4 1 2) =
      some (.elem2 [[53, 2], [3, 55], [55, 55]]) ∧
    gives (holding tower [.elem2 [[1, 2], [3, 4], [5, 6]]]) (.xfNeg .l2 4 1) =
      some (.elem2 [[58, 57], [56, 55], [54, 53]]) ∧
    gives (holding tower [.elem1 [3, 5], .elem1 [7, 58]]) (.xfMul .l1 4 1 2) =
      some (.elem1 [26, 32]) ∧
    gives (holding tower [.elem3 [[[1, 2], [3, 4], [5, 6]], [[7, 0], [0, 8], [9, 10]]],
      .elem3 [[[7, 0], [0, 8], [9, 10]], [[1, 0], [0, 0], [0, 0]]]]) (.xfMul .l3 4 1 2) =
      some (.elem3 [[[30, 17], [55, 1], [1, 53]], [[58, 12], [21, 44], [8, 28]]]) ∧
    gives (holding tower [.elem1 [3, 5]]) (.xfInv .l1 4 1) = some (.elem1 [40, 12]) ∧
    gives (holding tower [.elem2 [[1, 2], [3, 4], [5, 6]]]) (.xfInv .l2 4 1) =
      some (.elem2 [[18, 37], [27, 32], [14, 6]]) ∧
    gives (holding tower [.elem1 [3, 5], .elem1 [7, 58]]) (.xfDiv .l1 4 1 2) =
      some (.elem1 [31, 22]) ∧
    gives (holding tower [.elem2 [[1, 2], [3, 4], [5, 6]], .int (-2)]) (.xfExp .l2 4 1 2) =
      some (.elem2 [[13, 14], [54, 47], [1, 30]]) ∧
    gives (holding tower [.elem1 [3, 5], .elem1 [3, 6]]) (.xfEq .l1 4 1 2) = some (.bool false) ∧
    gives (holding tower [.poly0 [1, 2, 3, 4]]) (.xfMod .l1 4 1) = some (.elem1 [57, 57]) ∧
    gives (holding tower [.poly0 [5]]) (.xfMod .l1 4 1) = some (.elem1 [5, 0]) ∧
    gives (holding tower [.int 62]) (.lift .l1 4 1) = some (.elem1 [3, 0]) ∧
    raises (holding tower [.elem2 [[1, 2], [3, 4], [5, 6]]]) (.lift .l1 4 1) =
      some (.fault .typeMismatch) := by
  decide +kernel

theorem test_curve :
    gives (holding toy [pt0 0 0]) (.ecIsZero .c0 4 1) = some (.bool false) ∧
    gives (holding toy [pt0 1 1]) (.ecIsOnCurve .c0 4 1) = some (.bool false) ∧
    gives (holding toy [pt0 35 31, pt0 25 29]) (.ecAdd .c0 4 1 2) = some (pt0 25 30) ∧
    gives (holding tower [.point1 (.affine [35, 0] [31, 0]), .point1
      (.affine [24, 0] [0, 31])]) (.ecAdd .c1 4 1 2) =
      some (.point1 (.affine [0, 28] [37, 37])) ∧
    gives (holding toy [pt0 35 31]) (.ecDbl .c0 4 1) = some (pt0 25 29) ∧
    raises (holding toy [pt0 0 0]) (.ecDbl .c0 4 1) = some (.fault .divisionByZero) ∧
    gives (holding toy [pt0 35 31]) (.ecNeg .c0 4 1) = some (pt0 35 28) ∧
    gives (holding toy [pt0 35 31, .int (-2)]) (.ecSmul .c0 4 1 2) = some (pt0 25 30) ∧
    raises (holding toy [pt0 58 23, .int 5]) (.ecSmul .c0 4 1 2) =
      some (.fault .divisionByZero) := by
  decide +kernel

theorem test_line_and_miller :
    gives (holding toy [pt0 35 31, pt0 25 29, pt0 25 30]) (.line .c0 4 1 2 3) = some (.elem0 1) ∧
    gives (holding toy [pt0 35 31, pt0 35 28, pt0 25 30]) (.line .c0 4 1 2 3) = some (.elem0 49) ∧
    gives (holding toy [pt1 35 31, pt0 35 31]) (.miller 4 1 2) = some (.elem2 [[57], [36]]) ∧
    raises (holding toy [pt1 0 0, pt0 35 31]) (.miller 4 1 2) = some (.fault .divisionByZero) := by
  decide +kernel

theorem test_powers :
    gives (holding tower [.elem2 [[1, 2], [3, 4], [5, 6]]]) (.frob .l2 .two 4 1) =
      some (.elem2 [[1, 2], [50, 11], [53, 54]]) ∧
    gives (holding toy [.elem2 [[57], [36]]]) (.conj 4 1) = some (.elem2 [[57], [23]]) ∧
    raises (holding oddK [.elem2 [[3]]]) (.conj 4 1) = some (.fault .badParameter) ∧
    gives (holding toy [.elem2 [[57], [36]]]) (.finalexp 4 1) = some (.elem2 [[42], [40]]) ∧
    raises (holding toy [.elem2 [[0], [0]]]) (.finalexp 4 1) = some (.fault .divisionByZero) ∧
    gives (holding toy [.point2 (.affine [[24], [0]] [[0], [31]])]) (.ecFrob .c2 .one 4 1) =
      some (.point2 (.affine [[24], [0]] [[0], [28]])) := by
  decide +kernel

theorem test_twist_and_subgroup :
    gives (holding toy [pt1 35 31]) (.untwist 4 1) =
      some (.point2 (.affine [[24], [0]] [[0], [31]])) ∧
    gives (holding toy [.point2 (.affine [[24], [0]] [[0], [31]])]) (.twist 4 1) =
      some (pt1 35 31) ∧
    raises (holding toy [.point2 (.affine [[35], [0]] [[31], [0]])]) (.twist 4 1) =
      some (.fault .operandRange) ∧
    gives (holding toy [pt0 25 29]) (.subgrpG1 4 1) = some (.bool true) ∧
    gives (holding toy [pt0 58 23]) (.subgrpG1 4 1) = some (.bool false) ∧
    gives (holding toy [pt1 35 31]) (.subgrpG2 4 1) = some (.bool true) ∧
    gives (holding toy [pt1 1 1]) (.subgrpG2 4 1) = some (.bool false) := by
  decide +kernel

theorem test_pairing :
    gives (holding toy [pt0 35 31, pt1 35 31]) (.pair 4 1 2) = some (.elem2 [[42], [40]]) ∧
    raises (holding toy [pt0 1 1, .point1 .identity]) (.pair 4 1 2) =
      some (.fault .invalidSubgroupMembership) ∧
    gives ((holding toy [pt0 35 31, pt0 35 28, pt1 35 31]).setReg 4 (pt1 35 31))
      (.pairchk 4 1 3 2) =
      some (.bool true) ∧
    gives ((holding toy [pt0 35 31, pt0 35 31, pt1 35 31]).setReg 4 (pt1 35 31))
      (.pairchk 4 1 3 2) =
      some (.bool false) := by
  decide +kernel

/-! ### States that meet the hypotheses of the obligations

For each obligation with hypotheses, a state and operands for each of its clauses. -/

theorem witness_DecodeEncode : (Instr.pairchk 14 1 3 2).wellFormed = true ∧
    (Instr.pairchk 31 31 31 1).wellFormed = true := by decide

theorem witness_DecodeSound : decode 0x59010C2E = .ok (.pairchk 14 1 3 2) := by decide

theorem witness_IllegalWords :
    opcode 0xFF000000 ∉ assigned ∧
    (opcode 0x02000020 = 0x02 ∧ selField 0x02000020 = 0) ∧
    (opcode 0x20000000 = 0x20 ∧ selField 0x20000000 = 0) ∧
    (opcode 0x28000000 = 0x28 ∧ selField 0x28000000 = 0) ∧
    (opcode 0x03C00000 = 0x03 ∧ selField 0x03C00000 = 3) ∧
    (opcode 0x30C00000 = 0x30 ∧ selField 0x30C00000 = 3) ∧
    (opcode 0x35C00000 = 0x35 ∧ selField 0x35C00000 = 3) ∧
    (opcode 0x53C00000 = 0x53 ∧ selField 0x53C00000 = 3) ∧
    (opcode 0x50000000 = 0x50 ∧ fnField 0x50000000 = 0) ∧
    (opcode 0x53800000 = 0x53 ∧ selField 0x53800000 ≠ 3 ∧ fnField 0x53800000 = 0) ∧
    (opcode 0x05300000 = 0x05 ∧ selField 0x05300000 = 0 ∧ fnField 0x05300000 = 3) ∧
    (opcode 0x09000001 = 0x09 ∧ selField 0x09000001 = 0 ∧ fnField 0x09000001 = 0 ∧
      regField 0x09000001 0 ≠ 0) ∧
    (opcode 0x590103E0 = 0x59 ∧ selField 0x590103E0 = 0 ∧ fnField 0x590103E0 = 0 ∧
      32 < regField 0x590103E0 5 + regField 0x590103E0 15) ∧
    32 < regField 0x59017C00 10 + regField 0x59017C00 15 := by decide

theorem witness_StepRunsCommand : (blank.placeWord 0x08000001).mode = .ready ∧
    (blank.placeWord 0x08000001).cmd = [0x08000001] ∧ decode 0x08000001 = .ok (.ld 1) := by decide

theorem witness_StepRejectsIllegal : (blank.placeWord 0).mode = .ready ∧
    (blank.placeWord 0).cmd = [0] ∧ decode 0 = .error .unassignedOpcode := by decide

theorem witness_FaultAndIdleHold : (blank.takeFault 0 .illegalCommand).mode = .fault .illegalCommand ∧
    blank.mode = .ready ∧ blank.cmd = [] := by decide

theorem witness_StepKeepsInv : (toy.placeWord 0).Inv ∧
    step (toy.placeWord 0) = .next (toy.takeFault 0 .illegalCommand) :=
  ⟨inv_ports toy_inv toy.mode toy.faultCmd toy_inv.faultCmd toy.cmdCnt [0] toy.din toy.dout, rfl⟩

theorem witness_ResetMeetsInv : small.Legal := by decide

/-- A completed addition: `v1` is not its destination, `v4` changed. -/
theorem witness_OnlyDestinationChanges :
    exec (.fpAdd 4 1 2) (holding fp13 [.elem0 7, .elem0 9]) =
      .next (Writes (holding fp13 [.elem0 7, .elem0 9]) 4 (.elem0 3)) ∧
    dest (.fpAdd 4 1 2) ≠ some 1 :=
  ⟨exec_of_after (by decide +kernel), by decide⟩

theorem witness_TagsByCommand :
    exec (.fpAdd 4 1 2) (holding fp13 [.elem0 7, .elem0 9]) =
      .next (Writes (holding fp13 [.elem0 7, .elem0 9]) 4 (.elem0 3)) ∧
    (Writes (holding fp13 [.elem0 7, .elem0 9]) 4 (.elem0 3)).reg 4 ≠
      (holding fp13 [.elem0 7, .elem0 9]).reg 4 :=
  ⟨witness_OnlyDestinationChanges.1, by decide⟩

theorem witness_PortDiscipline :
    exec (.ld 1) { blank with din := [1, 0, 13] } = .next (Writes blank 1 (.int 13)) ∧
    exec (.st 1) (holding blank [.bool true]) =
      .next { Completes (holding blank [.bool true]) with dout := [5, 1] } :=
  ⟨rfl, rfl⟩

/-- Each context written from invalid, and a valid context met by its own command. -/
theorem witness_ContextsWriteOnce :
    exec (.setp 1) (holding blank [.int 13]) =
      .next { Completes (holding blank [.int 13]) with prime := some 13 } ∧
    exec (.setp 1) toy = .next (Faults toy (encode (.setp 1)) .configLocked) ∧
    toy.prime.isSome = true ∧ toy.ext1.isSome = true ∧ toy.ext2.isSome = true ∧
    toy.ext3.isSome = true ∧ toy.curve0.isSome = true ∧ toy.curve1.isSome = true ∧
    toy.curve2.isSome = true ∧ toy.twist.isSome = true ∧ toy.pair.isSome = true :=
  ⟨rfl, rfl, rfl, rfl, rfl, rfl, rfl, rfl, rfl, rfl, rfl⟩

theorem witness_StatusRegisters : blank.mode = .ready ∧
    (blank.takeFault 0 .badData).mode = .fault .badData := ⟨rfl, rfl⟩

/-- The first source empty, and of another tag. -/
theorem witness_FirstSourceChecked :
    (Instr.fpAdd 4 1 2).wellFormed = true ∧ contextsReady (holding fp13 [.int 7]) (.fpAdd 4 1 2) ∧
    sources (.fpAdd 4 1 2) = [] ++ (1, isElem .l0) :: [(2, isElem .l0)] ∧
    contextsReady fp13 (.fpAdd 4 1 2) ∧ fp13.reg 1 = .empty ∧
    (holding fp13 [.int 7]).reg 1 ≠ .empty ∧ isElem .l0 ((holding fp13 [.int 7]).reg 1) = false :=
  ⟨rfl, rfl, rfl, rfl, rfl, by decide, rfl⟩

/-- The second source empty, the third of another slot. -/
theorem witness_FirstSourceChecked_later :
    contextsReady (holding fp13 [.elem0 7]) (.fpAdd 4 1 2) ∧
    sources (.fpAdd 4 1 2) = [(1, isElem .l0)] ++ (2, isElem .l0) :: [] ∧
    isElem .l0 ((holding fp13 [.elem0 7]).reg 1) = true ∧
    (holding fp13 [.elem0 7]).reg 2 = .empty ∧
    contextsReady (holding toy [pt0 1 1, pt0 1 1, pt1 1 1]) (.line .c0 4 1 2 3) ∧
    sources (.line .c0 4 1 2 3) =
      [(1, isPoint .c0), (2, isPoint .c0)] ++ (3, isPoint .c0) :: [] ∧
    isPoint .c0 ((holding toy [pt0 1 1, pt0 1 1, pt1 1 1]).reg 2) = true ∧
    isPoint .c0 ((holding toy [pt0 1 1, pt0 1 1, pt1 1 1]).reg 3) = false :=
  ⟨rfl, rfl, rfl, rfl, rfl, rfl, rfl, rfl⟩

/-- The second register of each run of PAIRCHK: of another slot, and empty. -/
theorem witness_FirstSourceChecked_runs :
    (Instr.pairchk 9 1 3 2).wellFormed = true ∧
    contextsReady (holding toy [pt0 1 1, pt1 1 1]) (.pairchk 9 1 3 2) ∧
    sources (.pairchk 9 1 3 2) =
      [(1, isPoint .c0)] ++ (2, isPoint .c0) :: [(3, isPoint .c1), (4, isPoint .c1)] ∧
    isPoint .c0 ((holding toy [pt0 1 1, pt1 1 1]).reg 1) = true ∧
    isPoint .c0 ((holding toy [pt0 1 1, pt1 1 1]).reg 2) = false ∧
    contextsReady (holding toy [pt0 1 1, pt0 1 1, pt1 1 1]) (.pairchk 9 1 3 2) ∧
    sources (.pairchk 9 1 3 2) =
      [(1, isPoint .c0), (2, isPoint .c0), (3, isPoint .c1)] ++ (4, isPoint .c1) :: [] ∧
    (holding toy [pt0 1 1, pt0 1 1, pt1 1 1]).reg 4 = .empty :=
  ⟨rfl, ⟨rfl, rfl, rfl, rfl, rfl⟩, rfl, rfl, rfl, ⟨rfl, rfl, rfl, rfl, rfl⟩, rfl, rfl⟩

theorem witness_NothingConfigured : (Instr.fpAdd 4 1 2).wellFormed = true ∧ blank.prime = none ∧
    blank.ext1 = none ∧ blank.ext2 = none ∧ blank.ext3 = none ∧ blank.curve0 = none ∧
    blank.curve1 = none ∧ blank.curve2 = none ∧ blank.twist = none ∧ blank.pair = none ∧
    (∀ r, Instr.fpAdd 4 1 2 ≠ .setp r) ∧ (∀ r, Instr.fpAdd 4 1 2 ≠ .st r) ∧
    ∀ r, Instr.fpAdd 4 1 2 ≠ .ld r :=
  ⟨rfl, rfl, rfl, rfl, rfl, rfl, rfl, rfl, rfl, rfl, nofun, nofun, nofun⟩

/-- A usable level whose curve, twist or pairing context is not valid, and a level that is not usable. -/
theorem witness_NothingConfigured_missing :
    fp13.usable .l0 = true ∧ contextMissing fp13 (.ecAdd .c0 4 1 2) ∧
    contextMissing fp13 (.xfAdd .l1 4 1 2) ∧ contextMissing fp13 (.setcurve .c1 1 2) ∧
    toyCurves.usable .l2 = true ∧ contextMissing toyCurves (.untwist 4 1) ∧
    contextMissing toyCurves (.setpair .plain 1 2 3) ∧
    contextMissing toyCurves (.pairchk 9 1 3 2) :=
  ⟨rfl, rfl, rfl, ⟨rfl, rfl⟩, rfl, rfl, ⟨rfl, .inr (.inr (.inr rfl))⟩, rfl⟩

theorem witness_ConfigLocked : toy.prime.isSome = true ∧ toy.extValid .l1 = true ∧
    toy.extValid .l3 = true ∧ (toy.curve .c0).isSome = true ∧ (toy.curve .c2).isSome = true ∧
    toy.twist.isSome = true ∧ toy.pair.isSome = true := by decide

/-! #### Configuration and transfer -/

theorem witness_SetpOutcome : (holding blank [.int 3]).prime = none ∧
    (holding blank [.int 3]).reg 1 = .int 3 ∧ ((2 : Int) < 3 ∧ (3 : Int) < 2 ^ (64 * 1)) ∧
    (holding blank [.int 2]).reg 1 = .int 2 ∧ ¬ ((2 : Int) < 2 ∧ (2 : Int) < 2 ^ (64 * 1)) := by
  decide

theorem witness_SetmodOutcome : (holding fp13 [.poly0 ([0] ++ [1])]).Inv ∧
    (holding fp13 [.poly0 ([0] ++ [0])]).Inv ∧ fp13.extValid .l1 = false ∧
    fp13.usable .l0 = true ∧
    (holding fp13 [.poly0 ([0] ++ [1])]).reg 1 = .ofPoly .l1 ([(0 : Nat)] ++ [1]) ∧
    (1 ≤ [0].length ∧ [0].length ≤ small.dmax ∧ (1 : Nat) ≠ zeroOf fp13 .l0) ∧
    (0 : Nat) = zeroOf fp13 .l0 :=
  ⟨holding_inv fp13_inv rfl, holding_inv fp13_inv rfl, rfl, rfl, rfl, by decide, rfl⟩

/-- The longest modulus SETMOD takes and the shortest it refuses for its length. -/
theorem witness_SetmodOutcome_degree :
    (holding fp13 [.poly0 (List.replicate 12 0 ++ [1])]).Inv ∧
    (holding fp13 [.poly0 (List.replicate 13 0 ++ [1])]).Inv ∧
    (List.replicate 12 0).length ≤ small.dmax ∧ ¬ (List.replicate 13 0).length ≤ small.dmax :=
  ⟨holding_inv fp13_inv rfl, holding_inv fp13_inv rfl, by decide, by decide⟩

theorem witness_SetcurveOutcome : (holding fp13 [.elem0 0, .elem0 2]).Inv ∧
    (holding fp13 [.elem0 0, .elem0 0]).Inv ∧ fp13.curve .c0 = none ∧ fp13.usable .l0 = true ∧
    fp13.ModuliInvertible .l0 ∧ (holding fp13 [.elem0 0, .elem0 2]).reg 1 = .ofElem .l0 (0 : Nat) ∧
    (holding fp13 [.elem0 0, .elem0 2]).reg 2 = .ofElem .l0 (2 : Nat) ∧
    (4 * (0 : ZMod 13) ^ 3 + 27 * 2 ^ 2 ≠ 0) ∧ 4 * (0 : ZMod 13) ^ 3 + 27 * 0 ^ 2 = 0 :=
  ⟨holding_inv fp13_inv rfl, holding_inv fp13_inv rfl, rfl, rfl, trivial, rfl, rfl, by decide,
    by decide⟩

theorem witness_SettwistOutcome :
    (holding toyCurves [.elem2 [[58], [0]], .elem2 [[0], [1]]]).Inv ∧
    (holding toyCurves [.elem2 [[58], [0]], .elem2 [[0], [0]]]).Inv ∧ toyCurves.twist = none ∧
    toyCurves.usable .l2 = true ∧
    ([[58], [0]] ≠ zeros2 toyCurves ∧ [[0], [1]] ≠ zeros2 toyCurves) ∧
    [[0], [0]] = zeros2 toyCurves :=
  ⟨holding_inv toyCurves_inv rfl, holding_inv toyCurves_inv rfl, rfl, rfl, by decide, rfl⟩

/-- Legal parameters; and an order that does not divide `p^K - 1`. -/
theorem witness_SetpairOutcome : toyCurves.pair = none ∧ toy.curve0.isSome = true ∧
    toy.curve1.isSome = true ∧ toy.curve2.isSome = true ∧ toy.twist.isSome = true ∧
    (toy.p ^ (toy.degree .l1 * toy.degree .l2) - 1) % (5 : Int).toNat = 0 ∧
    (5 : Int).toNat &&& (0 : Int).toNat = 0 ∧ (2 : Int) ≤ 5 ∧ (0 : Int) < 5 ∧
    (toy.p ^ (toy.degree .l1 * toy.degree .l2) - 1) % (7 : Int).toNat ≠ 0 := by decide +kernel

/-- A conjugating configuration with odd `K`. -/
theorem witness_SetpairOutcome_conjugate :
    oddK.degree .l1 * oddK.degree .l2 % 2 = 1 ∧ (oddK.p ^ 1 - 1) % 3 = 0 := by decide

theorem witness_LdInt : ({ blank with din := [1, 0, 13] } : State).din = 1 :: 0 :: [13] ++ [] ∧
    ({ blank with din := [1, 1, 3, 9] } : State).din = 1 :: 1 :: [3] ++ [9] ∧
    ({ blank with din := [1, 2, 3] } : State).din = 1 :: 2 :: [3] ++ [] ∧
    [(13 : DataWord)].length = blank.build.slimbs ∧ 1 < (2 : DataWord).toNat := by decide

theorem witness_LdPrimeField : ({ fp13 with din := [2, 12, 1] } : State).din = 2 :: [12] ++ [1] ∧
    [(12 : DataWord)].length = fp13.build.flimbs ∧ fp13.prime = some 13 ∧
    sumOf [12] < 13 ∧ 13 ≤ sumOf [13] ∧ blank.prime = none := by decide

/-- A coefficient of 59 in a record of each shape: the last of an ELEM(2), of a POLY over level 2 with two
coefficients, and of a POINT of slot 1. -/
theorem witness_LdPrimeField_coefficients :
    (toy.usable .l2 = true ∧
      ({ toy with din := [0x22, 5, 59, 7] } : State).din = headerWord 2 2 0 :: [5, 59] ++ [7] ∧
      [(5 : DataWord), 59].length = toy.coeffCount .l2 * toy.build.flimbs ∧
      coefficientTooLarge toy (toy.coeffCount .l2) [5, 59]) ∧
    (toy.usable ExtLevel.l3.base = true ∧ 2 ≤ toy.build.polymax ∧
      ({ toy with din := [0x223, 5, 6, 7, 59] } : State).din =
        headerWord 3 2 2 :: [5, 6, 7, 59] ++ [] ∧
      [(5 : DataWord), 6, 7, 59].length = 2 * (toy.coeffCount .l2 * toy.build.flimbs) ∧
      coefficientTooLarge toy (2 * toy.coeffCount .l2) [5, 6, 7, 59]) ∧
    toy.usable Slot.c1.level = true ∧
      ({ toy with din := [0x14, 0, 5, 59] } : State).din = headerWord 4 1 0 :: 0 :: [5, 59] ++ [] ∧
      [(5 : DataWord), 59].length = 2 * (toy.coeffCount .l1 * toy.build.flimbs) ∧
      coefficientTooLarge toy (2 * toy.coeffCount .l1) [5, 59] :=
  ⟨⟨rfl, rfl, rfl, 1, by decide⟩, ⟨rfl, by decide, rfl, rfl, 3, by decide⟩, rfl, rfl, rfl, 1,
    by decide⟩

/-- Headers of each shape for a level that is not usable. -/
theorem witness_LdPrimeField_unusable :
    blank.usable .l0 = false ∧ fp13.usable .l1 = false ∧ fp13.usable ExtLevel.l2.base = false ∧
    ({ fp13 with din := [0x12, 7] } : State).din = headerWord 2 1 0 :: [7] ∧
    ({ fp13 with din := [0x113] } : State).din = headerWord 3 1 1 :: [] ∧
    1 ≤ fp13.build.polymax ∧ fp13.usable Slot.c2.level = false ∧
    ({ fp13 with din := [0x24] } : State).din = headerWord 4 2 0 :: [] := by decide

theorem witness_LdPointInf :
    ({ fp13 with din := [4, 1, 5, 6] } : State).din =
      headerWord 4 Slot.c0.level.toNat 0 :: 1 :: [5, 6] ++ [] ∧
    fp13.usable .l0 = true ∧
    [(5 : DataWord), 6].length = 2 * (fp13.coeffCount .l0 * fp13.build.flimbs) ∧
    1 < (2 : DataWord).toNat := by decide

/-- A header for each way of being malformed. -/
theorem witness_LdBadHeader :
    (0x10001 : DataWord).toNat / 2 ^ 16 ≠ 0 ∧ (0x41 : DataWord).toNat / 64 % 4 ≠ 0 ∧
    (0x00 : DataWord).toNat % 16 = 0 ∧ 5 ≤ (0x05 : DataWord).toNat % 16 ∧
    ((0x102 : DataWord).toNat % 16 ≠ 3 ∧ (0x102 : DataWord).toNat / 256 % 256 ≠ 0) ∧
    ((0x11 : DataWord).toNat % 16 = 1 ∧ (0x11 : DataWord).toNat / 16 % 4 ≠ 0) ∧
    ((0x34 : DataWord).toNat % 16 = 4 ∧ (0x34 : DataWord).toNat / 16 % 4 = 3) ∧
    ((0x133 : DataWord).toNat % 16 = 3 ∧ (0x133 : DataWord).toNat / 16 % 4 = 3) ∧
    ((0x03 : DataWord).toNat % 16 = 3 ∧ (0x03 : DataWord).toNat / 256 % 256 = 0) ∧
    (0x1903 : DataWord).toNat % 16 = 3 ∧
      small.polymax < (0x1903 : DataWord).toNat / 256 % 256 := by decide

theorem witness_LdHolds : blank.din = [] ∧
    ([(0 : DataWord)].length < 1 + blank.build.slimbs) ∧
    (toy.usable .l2 = true ∧ [(5 : DataWord)].length < toy.coeffCount .l2 * toy.build.flimbs) ∧
    (toy.usable ExtLevel.l3.base = true ∧ 1 ≤ 24 ∧ 24 ≤ toy.build.polymax ∧ 24 ≤ 255 ∧
      [(5 : DataWord)].length < 24 * (toy.coeffCount .l2 * toy.build.flimbs)) ∧
    toy.usable Slot.c1.level = true ∧
      [(0 : DataWord), 1].length < 1 + 2 * (toy.coeffCount .l1 * toy.build.flimbs) := by decide

theorem witness_LdReloadsRecord :
    let s := { holding toy [.poly1 [[1], [0], [1]]] with din := [0x313, 1, 0, 1, 99] }
    s.Inv ∧ s.reg 1 ≠ .empty ∧ (∀ b, s.reg 1 ≠ .bool b) ∧ s.din = recordOf s (s.reg 1) ++ [99] :=
  ⟨inv_queues (holding_inv toy_inv rfl) _ _, by decide, by decide, by decide⟩

theorem witness_StPushesRecord : (holding blank [.bool true]).reg 1 ≠ .empty ∧
    blank.reg 1 = .empty := by decide

/-! #### Fields -/

theorem witness_FpArithmetic : (holding fp13 [.elem0 7, .elem0 12]).prime = some 13 ∧
    (holding fp13 [.elem0 7, .elem0 12]).reg 1 = .elem0 7 ∧
    (holding fp13 [.elem0 7, .elem0 12]).reg 2 = .elem0 12 ∧ 7 < 13 ∧ 12 < 13 := by decide

theorem witness_FpInverse : (holding fp15 [.elem0 7, .elem0 2]).prime = some 15 ∧
    (holding fp15 [.elem0 7, .elem0 2]).reg 1 = .elem0 7 ∧
    (holding fp15 [.elem0 7, .elem0 2]).reg 2 = .elem0 2 ∧ Nat.Coprime 2 15 ∧
    (holding fp15 [.elem0 7, .elem0 3]).reg 2 = .elem0 3 ∧ ¬ Nat.Coprime 3 15 ∧
    ¬ Nat.Coprime 0 15 := by decide

theorem witness_FpPower : (holding fp15 [.elem0 0, .int 0]).reg 1 = .elem0 0 ∧
    (holding fp15 [.elem0 0, .int 0]).reg 2 = .int 0 ∧ fp15.prime = some 15 ∧
    (¬ (2 = 0 ∧ (0 : Int) = 0) ∧ (0 : Int) ≤ 0) ∧ ((-1 : Int) < 0 ∧ Nat.Coprime 2 15) ∧
    ¬ Nat.Coprime 3 15 := by decide

theorem witness_XfLinear : (holding toy [.elem2 [[3], [58]], .elem2 [[7], [0]]]).Inv ∧
    toy.usable .l2 = true ∧
    (holding toy [.elem2 [[3], [58]], .elem2 [[7], [0]]]).reg 1 = .ofElem .l2 [[3], [58]] ∧
    (holding toy [.elem2 [[3], [58]], .elem2 [[7], [0]]]).reg 2 = .ofElem .l2 [[7], [0]] ∧
    [[3], [58]] ≠ [[7], [0]] ∧ (holding toy [.elem1 [3], .elem1 [7]]).Inv ∧
    toy.usable .l1 = true :=
  ⟨holding_inv toy_inv rfl, rfl, rfl, rfl, by decide, holding_inv toy_inv rfl, rfl⟩

theorem witness_XfProduct : (holding toy [.elem2 [[3], [58]], .elem2 [[7], [0]]]).Inv ∧
    toy.usable .l2 = true ∧
    (holding toy [.elem2 [[3], [58]], .elem2 [[7], [0]]]).ModuliInvertible .l2 ∧
    (holding toy [.elem2 [[3], [58]], .elem2 [[7], [0]]]).reg 1 = .ofElem .l2 [[3], [58]] ∧
    (holding toy [.elem2 [[3], [58]], .elem2 [[7], [0]]]).reg 2 = .ofElem .l2 [[7], [0]] :=
  ⟨holding_inv toy_inv rfl, rfl, toy_invertible, rfl, rfl⟩

/-- A nonzero operand and zero, in a tower of fields. -/
theorem witness_XfInverse :
    (holding toy [.elem2 [[3], [58]], .elem2 [[7], [0]], .elem2 [[0], [0]]]).Inv ∧
    toy.usable .l2 = true ∧ toy.FieldTower .l2 ∧
    (holding toy [.elem2 [[3], [58]], .elem2 [[7], [0]], .elem2 [[0], [0]]]).reg 2 =
      .ofElem .l2 [[7], [0]] ∧
    [[7], [0]] ≠ zeroOf toy .l2 ∧ [[0], [0]] = zeroOf toy .l2 :=
  ⟨holding_inv toy_inv rfl, rfl, toy_tower2, rfl, by decide, rfl⟩

theorem witness_XfInverseOrFault : (holding toy [.elem3 [[[3], [58]]]]).Inv ∧
    toy.usable .l3 = true ∧ (holding toy [.elem3 [[[3], [58]]]]).reg 1 = .ofElem .l3 [[[3], [58]]] :=
  ⟨holding_inv toy_inv rfl, rfl, rfl⟩

theorem witness_XfPower : (holding toy [.elem2 [[3], [58]], .int (-2)]).Inv ∧
    (holding toy [.elem2 [[0], [0]], .int 0]).Inv ∧ (holding toy [.elem2 [[0], [0]], .int (-1)]).Inv ∧
    toy.usable .l2 = true ∧ toy.FieldTower .l2 ∧
    (holding toy [.elem2 [[3], [58]], .int (-2)]).reg 1 = .ofElem .l2 [[3], [58]] ∧
    (holding toy [.elem2 [[3], [58]], .int (-2)]).reg 2 = .int (-2) ∧
    [[3], [58]] ≠ zeroOf toy .l2 ∧ [[0], [0]] = zeroOf toy .l2 :=
  ⟨holding_inv toy_inv rfl, holding_inv toy_inv rfl, holding_inv toy_inv rfl, rfl, toy_tower2, rfl,
    rfl, by decide, rfl⟩

theorem witness_XfReduces : (holding toy [.poly1 [[1], [0], [1], [5], [0]]]).Inv ∧
    toy.usable .l2 = true ∧ toy.ModuliInvertible .l2 ∧
    (holding toy [.poly1 [[1], [0], [1], [5], [0]]]).reg 1 =
      .ofPoly .l2 [[1], [0], [1], [5], [0]] :=
  ⟨holding_inv toy_inv rfl, rfl, toy_invertible, rfl⟩

theorem witness_LiftResult : toy.usable .l0 = true ∧ toy.usable .l2 = true ∧
    toy.usable .l3 = true ∧ (holding toy [.int (-1)]).reg 1 = .int (-1) ∧
    (holding toy [.elem0 58]).reg 1 = .elem0 58 ∧ (holding toy [.elem1 [3]]).reg 1 = .elem1 [3] ∧
    (holding toy [.elem2 [[3], [5]]]).reg 1 = .ofElem .l2 [[3], [5]] := by decide

theorem witness_IrreducibleModuliMakeFields : toy.Inv ∧ toy.usable .l3 = true ∧
    toy.FieldTower .l3 := ⟨toy_inv, rfl, toy_tower⟩

/-! #### Curves -/

/-- The generator of spec/95_test_vectors.md section 4, its double, the point of order two and a pair
off the curve. -/
theorem toy_points : OnCurve toy .c0 { a := (1 : Nat), b := (0 : Nat) } (.affine (35 : Nat) (31 : Nat)) ∧
    OnCurve toy .c0 { a := (1 : Nat), b := (0 : Nat) } (.affine (25 : Nat) (29 : Nat)) ∧
    OnCurve toy .c0 { a := (1 : Nat), b := (0 : Nat) } (.affine (0 : Nat) (0 : Nat)) ∧
    ¬ OnCurve toy .c0 { a := (1 : Nat), b := (0 : Nat) } (.affine (1 : Nat) (1 : Nat)) := by
  have h : ((31 : Nat) : ZMod 59) ^ 2 =
        ((35 : Nat) : ZMod 59) ^ 3 + ((1 : Nat) : ZMod 59) * ((35 : Nat) : ZMod 59) + ((0 : Nat) : ZMod 59) ∧
      ((29 : Nat) : ZMod 59) ^ 2 =
        ((25 : Nat) : ZMod 59) ^ 3 + ((1 : Nat) : ZMod 59) * ((25 : Nat) : ZMod 59) + ((0 : Nat) : ZMod 59) ∧
      ((0 : Nat) : ZMod 59) ^ 2 =
        ((0 : Nat) : ZMod 59) ^ 3 + ((1 : Nat) : ZMod 59) * ((0 : Nat) : ZMod 59) + ((0 : Nat) : ZMod 59) ∧
      ¬ ((1 : Nat) : ZMod 59) ^ 2 =
        ((1 : Nat) : ZMod 59) ^ 3 + ((1 : Nat) : ZMod 59) * ((1 : Nat) : ZMod 59) + ((0 : Nat) : ZMod 59) := by
    decide +kernel
  exact h

theorem witness_EcPredicates :
    (holding toy [pt0 35 31, .point0 .identity, pt0 1 1]).Inv ∧
    (holding toy [pt0 35 31, .point0 .identity, pt0 1 1]).curve .c0 =
      some { a := (1 : Nat), b := (0 : Nat) } ∧
    toy.ModuliInvertible .l0 ∧
    (holding toy [pt0 35 31, .point0 .identity, pt0 1 1]).reg 1 =
      .ofPoint .c0 (.affine (35 : Nat) (31 : Nat)) ∧
    (holding toy [pt0 35 31, .point0 .identity, pt0 1 1]).reg 2 = .ofPoint .c0 .identity ∧
    (holding toy [pt0 35 31, .point0 .identity, pt0 1 1]).reg 3 =
      .ofPoint .c0 (.affine (1 : Nat) (1 : Nat)) :=
  ⟨holding_inv toy_inv rfl, rfl, trivial, rfl, rfl, rfl⟩

/-- Operands for the chord, the tangent, the opposite point and the point with `y = 0`. -/
theorem witness_EcAddition :
    (holding toy [pt0 35 31, pt0 25 29, pt0 35 28, pt0 0 0]).Inv ∧
    (holding toy [pt0 35 31, pt0 25 29, pt0 35 28, pt0 0 0]).curve .c0 =
      some { a := (1 : Nat), b := (0 : Nat) } ∧
    toy.FieldTower .l0 ∧
    (holding toy [pt0 35 31, pt0 25 29, pt0 35 28, pt0 0 0]).reg 1 =
      .ofPoint .c0 (.affine (35 : Nat) (31 : Nat)) ∧
    (holding toy [pt0 35 31, pt0 25 29, pt0 35 28, pt0 0 0]).reg 2 =
      .ofPoint .c0 (.affine (25 : Nat) (29 : Nat)) ∧
    (holding toy [pt0 35 31, pt0 25 29, pt0 35 28, pt0 0 0]).reg 5 =
      .ofPoint .c0 (.affine (0 : Nat) (0 : Nat)) ∧
    (31 : Nat) ≠ zeroOf toy .l0 ∧ (0 : Nat) = zeroOf toy .l0 :=
  ⟨holding_inv toy_inv rfl, rfl, toy_tower0, rfl, rfl, rfl, by decide, rfl⟩

theorem witness_EcDoubling :
    (holding toy [pt0 35 31, pt0 0 0, .point0 .identity]).Inv ∧ toy.FieldTower .l0 ∧
    (holding toy [pt0 35 31, pt0 0 0, .point0 .identity]).reg 2 =
      .ofPoint .c0 (.affine (0 : Nat) (0 : Nat)) ∧
    (31 : Nat) ≠ zeroOf toy .l0 ∧ (0 : Nat) = zeroOf toy .l0 :=
  ⟨holding_inv toy_inv rfl, toy_tower0, rfl, by decide, rfl⟩

theorem witness_EcSumOnCurve :
    (holding toy [pt0 35 31, pt0 25 29]).Inv ∧ toy.FieldTower .l0 ∧
    OnCurve toy .c0 { a := (1 : Nat), b := (0 : Nat) } (.affine (35 : Nat) (31 : Nat)) ∧
    OnCurve toy .c0 { a := (1 : Nat), b := (0 : Nat) } (.affine (25 : Nat) (29 : Nat)) ∧
    exec (.ecAdd .c0 4 1 2) (holding toy [pt0 35 31, pt0 25 29]) =
      .next (Writes (holding toy [pt0 35 31, pt0 25 29]) 4
        (.ofPoint .c0 (.affine (25 : Nat) (30 : Nat)))) :=
  ⟨holding_inv toy_inv rfl, toy_tower0, toy_points.1, toy_points.2.1,
    exec_of_after (by decide +kernel)⟩

theorem witness_EcSmallMultiples :
    (holding toy [pt0 35 31, .int 0, .int 1, .int (-1)]).Inv ∧
    (holding toy [pt0 35 31, .int 0, .int 1, .int (-1)]).curve .c0 =
      some { a := (1 : Nat), b := (0 : Nat) } ∧
    (holding toy [pt0 35 31, .int 0, .int 1, .int (-1)]).reg 2 = .int 0 ∧
    (holding toy [pt0 35 31, .int 0, .int 1, .int (-1)]).reg 3 = .int 1 ∧
    (holding toy [pt0 35 31, .int 0, .int 1, .int (-1)]).reg 5 = .int (-1) :=
  ⟨holding_inv toy_inv rfl, rfl, rfl, rfl, rfl⟩

/-- From `P`, its double `2P = (25, 29)` and `3P = (25, 30)`. -/
theorem witness_EcDoubleAndAdd :
    (holding toy [pt0 35 31, .int 1, .int (2 * 1), .int (2 * 1 + 1)]).reg 1 =
      .ofPoint .c0 (.affine (35 : Nat) (31 : Nat)) ∧
    exec (.ecSmul .c0 4 1 2) (holding toy [pt0 35 31, .int 1, .int (2 * 1), .int (2 * 1 + 1)]) =
      .next (Writes (holding toy [pt0 35 31, .int 1, .int (2 * 1), .int (2 * 1 + 1)]) 4
        (.ofPoint .c0 (.affine (35 : Nat) (31 : Nat)))) ∧
    pointAdd (toy.field .l0) { a := (1 : Nat), b := (0 : Nat) } (.affine (35 : Nat) (31 : Nat))
      (.affine (35 : Nat) (31 : Nat)) = .ok (.affine (25 : Nat) (29 : Nat)) ∧
    pointAdd (toy.field .l0) { a := (1 : Nat), b := (0 : Nat) } (.affine (25 : Nat) (29 : Nat))
      (.affine (35 : Nat) (31 : Nat)) = .ok (.affine (25 : Nat) (30 : Nat)) :=
  ⟨rfl, exec_of_after (by decide +kernel), rfl, rfl⟩

/-- The multiple of `P` by -2, and of `-P` by 2. -/
theorem witness_EcDoubleAndAdd_negative :
    let s := holding toy [pt0 35 31, .int (-((2 : Nat) : Int)), pt0 35 28, .int (2 : Nat)]
    exec (.ecNeg .c0 4 1) s = .next (Writes s 4 (s.reg 3)) ∧ s.reg 2 = .int (-((2 : Nat) : Int)) ∧
    s.reg 5 = .int (2 : Nat) :=
  ⟨exec_of_after (by decide +kernel), rfl, rfl⟩

/-- `y^2 = x^3 + 2` modulo 13 has no point with `y = 0`; `(1, 4)` is on it. -/
theorem witness_EcMultipleCompletes :
    (holding cubic [pt0 1 4, .int (-9)]).Inv ∧
    (holding cubic [pt0 1 4, .int (-9)]).curve .c0 = some { a := (0 : Nat), b := (2 : Nat) } ∧
    cubic.FieldTower .l0 ∧
    (∀ x : Nat, cubic.ElemOk .l0 x → ¬ OnCurve cubic .c0 { a := (0 : Nat), b := (2 : Nat) }
      (.affine x (zeroOf cubic .l0))) ∧
    (holding cubic [pt0 1 4, .int (-9)]).reg 1 = .ofPoint .c0 (.affine (1 : Nat) (4 : Nat)) ∧
    (holding cubic [pt0 1 4, .int (-9)]).reg 2 = .int (-9) ∧
    OnCurve cubic .c0 { a := (0 : Nat), b := (2 : Nat) } (.affine (1 : Nat) (4 : Nat)) := by
  refine ⟨holding_inv cubic_inv rfl, rfl, (by show Nat.Prime 13; norm_num), fun x _ => ?_, rfl, rfl,
    ?_⟩
  · have h : ∀ z : ZMod 13, ¬ ((0 : Nat) : ZMod 13) ^ 2 =
        z ^ 3 + ((0 : Nat) : ZMod 13) * z + ((2 : Nat) : ZMod 13) := by decide +kernel
    exact h (x : ZMod 13)
  · have h : ((4 : Nat) : ZMod 13) ^ 2 = ((1 : Nat) : ZMod 13) ^ 3 +
        ((0 : Nat) : ZMod 13) * ((1 : Nat) : ZMod 13) + ((2 : Nat) : ZMod 13) := by decide +kernel
    exact h

theorem witness_LineResult :
    (holding toy [pt0 35 31, pt0 25 29, pt0 35 28, pt0 0 0]).Inv ∧
    (holding toy [pt0 35 31, pt0 25 29, .point0 .identity]).Inv ∧ toy.FieldTower .l0 ∧
    (holding toy [pt0 35 31, pt0 25 29, .point0 .identity]).reg 3 = .ofPoint .c0 .identity ∧
    (31 : Nat) ≠ zeroOf toy .l0 ∧ (0 : Nat) = zeroOf toy .l0 :=
  ⟨holding_inv toy_inv rfl, holding_inv toy_inv rfl, toy_tower0, rfl, by decide, rfl⟩

/-! #### Pairings -/

/-- The toy configuration as the commands read it. -/
def toyPair : PairEnv :=
  { pair := { r := 5, loopPos := 5, loopNeg := 0, post := .plain }
    e0 := { a := (1 : Nat), b := (0 : Nat) }
    e1 := { a := [(1 : Nat)], b := [(0 : Nat)] }
    e2 := { a := [[(1 : Nat)], [0]], b := [[(0 : Nat)], [0]] }
    tw := { ux := [[58], [0]], uy := [[0], [1]] } }

theorem toy_pairIs : pairIs toy toyPair := ⟨rfl, rfl, rfl, rfl, rfl⟩

theorem toy_needPair : toy.needPair = .ok toyPair := needPair_eq_ok.2 toy_pairIs

/-- The configuration of `toyLines` as the commands read it. -/
def linesPair : PairEnv :=
  { toyPair with pair := { r := 5, loopPos := 4, loopNeg := 1, post := .twoLines } }

theorem lines_needPair : toyLines.needPair = .ok linesPair := rfl

/-- The configuration of `toyEmbed` as the commands read it. -/
def embedPair : PairEnv := { toyPair with tw := { ux := [[1], [0]], uy := [[1], [0]] } }

theorem embed_needPair : toyEmbed.needPair = .ok embedPair := rfl

section Computed

variable {s : State} (h : s.Inv) {e : PairEnv} (hnp : s.needPair = .ok e) (ht : s.FieldTower .l2)

include h hnp ht

/-- The sum of two points on CURVE[2], from the sum the engine computes. -/
theorem sumIs_of {P Q S : Point (Elem .l2)} (hP : pointOk s .l2 P = true)
    (hQ : pointOk s .l2 Q = true) (hS : pointAdd (s.field .l2) e.e2 P Q = .ok S) :
    s.SumIs .l2 e.e2.a P Q S :=
  (pointAdd_iff_sumIs h (pairEnv_ok h hnp).1 ht (pairEnv_ok h hnp).2.2.2.1 (pointOk_sound hP)
    (pointOk_sound hQ)).1 hS

theorem negativeIs_of {P N : Point (Elem .l2)} (hP : pointOk s .l2 P = true)
    (hN : pointNeg (s.field .l2) P = N) : s.NegativeIs .l2 P N :=
  (pointNeg_iff_negativeIs h (pairEnv_ok h hnp).1 ht (pointOk_sound hP)).1 hN

theorem untwistIs_of {Q : Point (List Nat)} {R : Point (Elem .l2)} (hQ : pointOk s .l1 Q = true)
    (hR : s.untwist e.tw Q = .ok R) : UntwistIs s e.tw Q R :=
  (untwist_iff_untwistIs h hnp ht (pointOk_sound hQ)).1 hR

theorem millerIs_of {Q : Point (List Nat)} {P : Point Nat} {f : List (List Nat)}
    (hQ : pointOk s .l1 Q = true) (hP : pointOk s .l0 P = true) (hf : s.miller e Q P = .ok f) :
    MillerIs s e Q P f :=
  (miller_iff_millerIs h hnp ht (pointOk_sound hQ) (pointOk_sound (l := .l0) hP)).1 hf

end Computed

/-- The loop of spec/95_test_vectors.md program 5: its doubled points are `Qe` and `2Qe`. -/
theorem toy_regular : MillerRegular toy toyPair (.affine [35] [31]) := by
  have sum := @sumIs_of _ toy_inv _ toy_needPair toy_tower2
  refine ⟨[[24], [0]], [[0], [31]], .affine [[24], [0]] [[0], [28]],
    untwistIs_of toy_inv toy_needPair toy_tower2 rfl rfl, by decide,
    negativeIs_of toy_inv toy_needPair toy_tower2 rfl rfl, ?_⟩
  refine ⟨_, _, .affine [[34], [0]] [[0], [29]], rfl, by decide, sum rfl rfl rfl,
    fun _ => ?_, fun h => absurd h (by decide), fun h => absurd h (by decide)⟩
  exact ⟨_, _, .affine [[24], [0]] [[0], [28]], rfl, by decide, sum rfl rfl rfl,
    fun h => absurd h (by decide), fun _ => ⟨.identity, sum rfl rfl rfl, nofun⟩,
    fun h => absurd h (by decide)⟩

/-- The loop with the two final lines, its last digit -1: it doubles `Qe` and `2Qe`, and the final lines
are at `-2Qe` and, one addition of `-Qe` further, at `2Qe`. -/
theorem lines_regular : MillerRegular toyLines linesPair (.affine [35] [31]) := by
  have sum := @sumIs_of _ toyLines_inv _ lines_needPair toy_tower2
  refine ⟨[[24], [0]], [[0], [31]], .affine [[24], [0]] [[0], [28]],
    untwistIs_of toyLines_inv lines_needPair toy_tower2 rfl rfl, by decide,
    negativeIs_of toyLines_inv lines_needPair toy_tower2 rfl rfl, ?_⟩
  refine ⟨_, _, .affine [[34], [0]] [[0], [29]], rfl, by decide, sum rfl rfl rfl,
    fun _ => ?_, fun h => absurd h (by decide), fun h => absurd h (by decide)⟩
  refine ⟨_, _, .affine [[24], [0]] [[0], [28]], rfl, by decide, sum rfl rfl rfl,
    fun h => absurd h (by decide), fun h => absurd h (by decide), fun _ => ?_⟩
  refine ⟨.affine [[34], [0]] [[0], [30]], sum rfl rfl rfl, fun _ => ?_⟩
  exact ⟨_, _, [[34], [0]], [[0], [29]], .affine [[24], [0]] [[0], [28]], rfl, by decide,
    (frobPoint_iff_frobeniusIs (l := .l2) toyLines_inv rfl toy_tower2 (pointOk_sound rfl)).1
      (by decide +kernel), sum rfl rfl rfl, by decide⟩

/-- The value of spec/95_test_vectors.md program 5. -/
theorem toy_millerIs : MillerIs toy toyPair (.affine [35] [31]) (.affine 35 31) [[57], [36]] :=
  millerIs_of toy_inv toy_needPair toy_tower2 rfl rfl (by decide +kernel)

theorem witness_MillerOutcome : (holding toy [pt1 35 31, pt0 35 31, .point0 .identity]).Inv ∧
    pairIs (holding toy [pt1 35 31, pt0 35 31, .point0 .identity]) toyPair ∧
    toy.FieldTower .l2 ∧
    (holding toy [pt1 35 31, pt0 35 31, .point0 .identity]).reg 1 = .point1 (.affine [35] [31]) ∧
    (holding toy [pt1 35 31, pt0 35 31, .point0 .identity]).reg 2 = .point0 (.affine 35 31) ∧
    MillerIs (holding toy [pt1 35 31, pt0 35 31, .point0 .identity]) toyPair (.affine [35] [31])
      (.affine 35 31) [[57], [36]] ∧
    MillerRegular (holding toy [pt1 35 31, pt0 35 31, .point0 .identity]) toyPair
      (.affine [35] [31]) :=
  ⟨holding_inv toy_inv rfl, toy_pairIs, toy_tower2, rfl, rfl, toy_millerIs, toy_regular⟩

/-- The same points with the two final lines and a digit -1. -/
theorem witness_MillerOutcome_lines : (holding toyLines [pt1 35 31, pt0 35 31]).Inv ∧
    pairIs (holding toyLines [pt1 35 31, pt0 35 31]) linesPair ∧ toyLines.FieldTower .l2 ∧
    MillerRegular (holding toyLines [pt1 35 31, pt0 35 31]) linesPair (.affine [35] [31]) :=
  ⟨holding_inv toyLines_inv rfl, ⟨rfl, rfl, rfl, rfl, rfl⟩, toy_tower2, lines_regular⟩

/-- An element of level 2 with `K = 2`, and one with `K = 1`. -/
theorem witness_FrobeniusPowers : (holding toy [.elem2 [[57], [36]], .elem0 58]).Inv ∧
    toy.usable .l2 = true ∧ toy.ModuliInvertible .l2 ∧ toy.p.Prime ∧
    (holding toy [.elem2 [[57], [36]], .elem0 58]).reg 1 = .ofElem .l2 [[57], [36]] ∧
    toy.embedDegree % 2 = 0 ∧ (holding oddK [.elem2 [[3]]]).Inv ∧ oddK.usable .l2 = true ∧
    oddK.ModuliInvertible .l2 ∧ oddK.embedDegree % 2 = 1 :=
  ⟨holding_inv toy_inv rfl, rfl, toy_invertible, toy_tower0, rfl, rfl, holding_inv oddK_inv rfl, rfl,
    ⟨⟨(1 : Nat), rfl⟩, ⟨([1] : List Nat), rfl⟩⟩, rfl⟩

theorem witness_EcFrobenius : (holding toy [pt0 35 31, .point0 .identity]).Inv ∧
    (holding toy [pt0 35 31, .point0 .identity]).curve .c0 =
      some { a := (1 : Nat), b := (0 : Nat) } ∧ toy.ModuliInvertible .l0 ∧
    (holding toy [pt0 35 31, .point0 .identity]).reg 1 =
      .ofPoint .c0 (.affine (35 : Nat) (31 : Nat)) :=
  ⟨holding_inv toy_inv rfl, rfl, trivial, rfl⟩

theorem witness_FinalExponentiation :
    (holding toy [.elem2 [[57], [36]], .elem2 [[0], [0]]]).Inv ∧ pairIs toy toyPair ∧
    toy.ModuliInvertible .l2 ∧
    (holding toy [.elem2 [[57], [36]], .elem2 [[0], [0]]]).reg 1 = .elem2 [[57], [36]] ∧
    [[57], [36]] ≠ zeros2 toy ∧ [[0], [0]] = zeros2 toy :=
  ⟨holding_inv toy_inv rfl, toy_pairIs, toy_invertible, rfl, by decide, rfl⟩

theorem witness_UntwistResult : (holding toy [pt1 35 31, .point1 .identity]).Inv ∧
    toy.twist = some toyPair.tw ∧ toy.ModuliInvertible .l2 ∧
    (holding toy [pt1 35 31, .point1 .identity]).reg 1 = .point1 (.affine [35] [31]) ∧
    (holding toy [pt1 35 31, .point1 .identity]).reg 2 = .point1 .identity :=
  ⟨holding_inv toy_inv rfl, rfl, toy_invertible, rfl, rfl⟩

/-- The untwist of a point, and an embedded point that is the untwist of none: its `y` has no
component along `UY`. -/
theorem witness_TwistInvertsUntwist :
    (holding toy [.point2 (.affine [[24], [0]] [[0], [31]]),
      .point2 (.affine [[35], [0]] [[31], [0]])]).Inv ∧
    toy.twist = some toyPair.tw ∧ toy.FieldTower .l2 ∧
    (toy.ElemOk .l1 [35] ∧ toy.ElemOk .l1 [31] ∧
      toy.untwist toyPair.tw (.affine [35] [31]) = .ok (.affine [[24], [0]] [[0], [31]])) ∧
    ∀ x y, toy.ElemOk .l1 x → toy.ElemOk .l1 y →
      toy.untwist toyPair.tw (.affine x y) ≠ .ok (.affine [[35], [0]] [[31], [0]]) := by
  refine ⟨holding_inv toy_inv rfl, rfl, toy_tower2, ⟨elemOk_sound rfl, elemOk_sound rfl, rfl⟩, ?_⟩
  intro x y _ hy h
  have key : ∀ b < 59, (toy.field .l2).mul (toy.up2 [b]) [[0], [1]] ≠ .ok [[31], [0]] := by
    decide +kernel
  obtain ⟨b, rfl⟩ := List.length_eq_one_iff.1 hy.1
  simp only [State.untwist, bind_eq_ok, toyPair] at h
  obtain ⟨_, _, Y, hY, h⟩ := h
  cases h
  exact key b (hy.2 b (by simp)) hY

/-- Multiples by 5 in the complete group law: of a point of order 5 and of one of order 2. -/
theorem toy_multiples :
    CompleteMultiple toy .l0 (1 : Nat) (.affine (35 : Nat) (31 : Nat)) 5 .identity ∧
    CompleteMultiple toy .l0 (1 : Nat) (.affine (0 : Nat) (0 : Nat)) 5 (.affine (0 : Nat) (0 : Nat)) ∧
    CompleteMultiple toy .l1 [(1 : Nat)] (.affine [(35 : Nat)] [(31 : Nat)]) 5 .identity :=
  have hE := pairEnv_ok toy_inv toy_needPair
  ⟨(pointMulComplete_iff_completeMultiple toy_inv rfl toy_tower0 hE.2.1 (pointOk_sound rfl)).1
      (by decide +kernel),
    (pointMulComplete_iff_completeMultiple toy_inv rfl toy_tower0 hE.2.1 (pointOk_sound rfl)).1
      (by decide +kernel),
    (pointMulComplete_iff_completeMultiple toy_inv rfl toy_tower1 hE.2.2.1 (pointOk_sound rfl)).1
      (by decide +kernel)⟩

/-- The identity, points of the curve of order 5 and 2, and a pair off it. -/
theorem witness_SubgroupChecks :
    (holding toy [pt0 35 31, .point0 .identity, pt0 1 1, pt0 0 0]).Inv ∧ pairIs toy toyPair ∧
    toy.FieldTower .l0 ∧ toy.FieldTower .l1 ∧
    OnCurve toy .c0 toyPair.e0 (.affine (35 : Nat) (31 : Nat)) ∧
    CompleteMultiple toy .l0 toyPair.e0.a (.affine (35 : Nat) (31 : Nat)) 5 .identity ∧
    OnCurve toy .c0 toyPair.e0 (.affine (0 : Nat) (0 : Nat)) ∧
    CompleteMultiple toy .l0 toyPair.e0.a (.affine (0 : Nat) (0 : Nat)) 5
      (.affine (0 : Nat) (0 : Nat)) ∧
    ¬ OnCurve toy .c0 toyPair.e0 (.affine (1 : Nat) (1 : Nat)) ∧
    (holding toy [pt1 35 31, .point1 .identity, pt1 1 1]).Inv ∧
    CompleteMultiple toy .l1 toyPair.e1.a (.affine [(35 : Nat)] [(31 : Nat)]) 5 .identity :=
  ⟨holding_inv toy_inv rfl, toy_pairIs, toy_tower0, toy_tower1, toy_points.1, toy_multiples.1,
    toy_points.2.2.1, toy_multiples.2.1, toy_points.2.2.2, holding_inv toy_inv rfl,
    toy_multiples.2.2⟩

/-- What `in_subgroup` answers for a point of order two, a member of G1 and a member of G2. -/
theorem toy_inSubgroup :
    inSubgroup (toy.field .l0) toyPair.e0 5 (.affine (0 : Nat) (0 : Nat)) = .ok false ∧
    inSubgroup (toy.field .l0) toyPair.e0 5 (.affine (35 : Nat) (31 : Nat)) = .ok true ∧
    inSubgroup (toy.field .l1) toyPair.e1 5 (.affine [(35 : Nat)] [(31 : Nat)]) = .ok true := by
  decide +kernel

theorem toy_members : Member toy .c0 toyPair.e0 5 (.affine (35 : Nat) (31 : Nat)) ∧
    Member toy .c1 toyPair.e1 5 (.affine [(35 : Nat)] [(31 : Nat)]) ∧
    ¬ Member toy .c0 toyPair.e0 5 (.affine (0 : Nat) (0 : Nat)) :=
  have hE := pairEnv_ok toy_inv toy_needPair
  ⟨(inSubgroup_true_iff_member (k := .c0) toy_inv hE.2.1 rfl toy_tower0 (pointOk_sound rfl)).1
      toy_inSubgroup.2.1,
    (inSubgroup_true_iff_member (k := .c1) toy_inv hE.2.2.1 rfl toy_tower1 (pointOk_sound rfl)).1
      toy_inSubgroup.2.2,
    fun hm => nomatch toy_inSubgroup.1.symm.trans
      ((inSubgroup_true_iff_member (k := .c0) toy_inv hE.2.1 rfl toy_tower0
        (pointOk_sound rfl)).2 hm)⟩

/-- Two members, an identity with a member, and a point of order two. -/
theorem witness_PairOutcome : (holding toy [pt0 35 31, pt1 35 31, .point0 .identity, pt0 0 0]).Inv ∧
    pairIs (holding toy [pt0 35 31, pt1 35 31, .point0 .identity, pt0 0 0]) toyPair ∧
    toy.FieldTower .l2 ∧ Member toy .c0 toyPair.e0 5 (.affine (35 : Nat) (31 : Nat)) ∧
    Member toy .c1 toyPair.e1 5 (.affine [(35 : Nat)] [(31 : Nat)]) ∧
    ¬ Member toy .c0 toyPair.e0 5 (.affine (0 : Nat) (0 : Nat)) ∧
    Member toy .c0 toyPair.e0 5 .identity ∧
    MillerIs toy toyPair (.affine [35] [31]) (.affine 35 31) [[57], [36]] ∧
    [[57], [36]] ≠ zeros2 toy :=
  ⟨holding_inv toy_inv rfl, toy_pairIs, toy_tower2, toy_members.1, toy_members.2.1,
    toy_members.2.2, .inl rfl, toy_millerIs, by decide⟩

/-- Under an untwist map that only embeds, the tangent at the embedded point is zero there: the Miller
value of two members is zero. -/
theorem witness_PairOutcome_zero : (holding toyEmbed [pt0 35 31, pt1 35 31]).Inv ∧
    pairIs toyEmbed embedPair ∧ toyEmbed.FieldTower .l2 ∧
    Member toyEmbed .c0 embedPair.e0 5 (.affine (35 : Nat) (31 : Nat)) ∧
    Member toyEmbed .c1 embedPair.e1 5 (.affine [(35 : Nat)] [(31 : Nat)]) ∧
    MillerIs toyEmbed embedPair (.affine [35] [31]) (.affine 35 31) (zeros2 toyEmbed) :=
  have hE := pairEnv_ok toyEmbed_inv embed_needPair
  ⟨holding_inv toyEmbed_inv rfl, ⟨rfl, rfl, rfl, rfl, rfl⟩, toy_tower2,
    (inSubgroup_true_iff_member (k := .c0) toyEmbed_inv hE.2.1 rfl toy_tower0
      (pointOk_sound rfl)).1 toy_inSubgroup.2.1,
    (inSubgroup_true_iff_member (k := .c1) toyEmbed_inv hE.2.2.1 rfl toy_tower1
      (pointOk_sound rfl)).1 toy_inSubgroup.2.2,
    millerIs_of toyEmbed_inv embed_needPair toy_tower2 rfl rfl (by decide +kernel)⟩

/-- `Ps = [P, -P]`, `Qs = [Q, Q]` of spec/95_test_vectors.md section 6. -/
theorem witness_PairchkProduct :
    let s := (holding toy [pt0 35 31, pt0 35 28, pt1 35 31]).setReg 4 (pt1 35 31)
    s.Inv ∧ pairIs s toyPair ∧ s.ModuliInvertible .l2 ∧ RunsFit 1 3 2 ∧
      ∀ i : Fin 2, exec (.pair 6 (1 + BitVec.ofNat 5 i) (3 + BitVec.ofNat 5 i)) s =
        .next (Writes s 6 (.elem2 (if i = 0 then [[42], [40]] else [[42], [19]]))) := by
  refine ⟨inv_setReg (holding_inv toy_inv rfl) 4 (valueOk_sound rfl), toy_pairIs, toy_invertible,
    by decide, fun i => exec_of_after ?_⟩
  revert i
  decide +kernel

/-- The second clause: an identity beside a member, twice, once on either side. -/
theorem witness_PairchkProduct_identities :
    let s := (holding toy [.point0 .identity, pt0 35 31, pt1 35 31]).setReg 4 (.point1 .identity)
    s.Inv ∧ pairIs s toyPair ∧ s.ModuliInvertible .l2 ∧ RunsFit 1 3 2 ∧
      ∀ i : Fin 2, ∃ P Q, s.reg (1 + BitVec.ofNat 5 i) = .point0 P ∧
        s.reg (3 + BitVec.ofNat 5 i) = .point1 Q ∧ (P = .identity ∨ Q = .identity) ∧
        inSubgroup (s.field .l0) toyPair.e0 toyPair.pair.r P = .ok true ∧
        inSubgroup (s.field .l1) toyPair.e1 toyPair.pair.r Q = .ok true := by
  refine ⟨inv_setReg (holding_inv toy_inv rfl) 4 (valueOk_sound rfl), toy_pairIs, toy_invertible,
    by decide, fun i => ?_⟩
  match i with
  | 0 => exact ⟨.identity, .affine [35] [31], rfl, rfl, .inl rfl, rfl, toy_inSubgroup.2.2⟩
  | 1 => exact ⟨.affine 35 31, .identity, rfl, rfl, .inr rfl, toy_inSubgroup.2.1, rfl⟩

end Sys2Proof.Tests
end

/-! PROOFS. What each command is, seen from the state as a whole (rule R110): a command with a destination
ends by `State.writeResult`, a command without one by `State.conclude` with one of six changes, and LD by a
hold or by `State.writeResult` over the shortened `din`. -/

namespace Sys2Proof.Machine

/-! ### Commands without a destination -/

theorem notLocked_eq_ok {α : Type} {c : Option α} {u : Unit} : notLocked c = .ok u ↔ c = none := by
  simp [notLocked]

@[simp] theorem setExt_cmd (s : State) (l : ExtLevel) (m : List (Elem l.base)) :
    (s.setExt l m).cmd = s.cmd := by cases l <;> rfl

@[simp] theorem setCurve_cmd (s : State) (k : Slot) (E : CurveCtx (Elem k.level)) :
    (s.setCurve k E).cmd = s.cmd := by cases k <;> rfl

/-- What a command without a destination can make of the state before it counts: a configuration command
writes its own context, which was not valid (rule R35), and ST appends to `dout` (rule R117). -/
inductive PlainEffect (s : State) : Instr → State → Prop
  | setp (rs1 : Reg) (p : Nat) : s.prime = none →
      PlainEffect s (.setp rs1) { s with prime := some p }
  | setmod (l : ExtLevel) (rs1 : Reg) (m : List (Elem l.base)) : s.extValid l = false →
      PlainEffect s (.setmod l rs1) (s.setExt l m)
  | setcurve (k : Slot) (rs1 rs2 : Reg) (E : CurveCtx (Elem k.level)) : s.curve k = none →
      PlainEffect s (.setcurve k rs1 rs2) (s.setCurve k E)
  | settwist (rs1 rs2 : Reg) (tw : TwistCtx) : s.twist = none →
      PlainEffect s (.settwist rs1 rs2) { s with twist := some tw }
  | setpair (post : Post) (rs1 rs2 rs3 : Reg) (c : PairCtx) : s.pair = none →
      PlainEffect s (.setpair post rs1 rs2 rs3) { s with pair := some c }
  | st (rs1 : Reg) (ws : List DataWord) :
      PlainEffect s (.st rs1) { s with dout := s.dout ++ ws }

/-- A command `i` of the form of rule R110 without a destination: it ends by `State.conclude`, and what it
gives is one of the effects above. -/
def PlainCommand (i : Instr) (s : State) : Prop :=
  ∃ r, exec i s = s.conclude (encode i) r ∧ ∀ u, r = .ok u → PlainEffect s i u

theorem plainCommand_setp (rs1 : Reg) (s : State) : PlainCommand (.setp rs1) s := by
  refine ⟨_, rfl, fun u hu => ?_⟩
  simp only [bind_eq_ok, notLocked_eq_ok] at hu
  obtain ⟨_, hfree, n, _, _, _, hu⟩ := hu
  cases hu
  exact .setp rs1 n.toNat hfree

theorem plainCommand_setmod (l : ExtLevel) (rs1 : Reg) (s : State) :
    PlainCommand (.setmod l rs1) s := by
  refine ⟨_, rfl, fun u hu => ?_⟩
  simp only [bind_eq_ok, require_eq_ok] at hu
  obtain ⟨_, hfree, _, _, m, _, _, _, _, _, hu⟩ := hu
  cases hu
  exact .setmod l rs1 m (by simpa using hfree)

theorem plainCommand_setcurve (k : Slot) (rs1 rs2 : Reg) (s : State) :
    PlainCommand (.setcurve k rs1 rs2) s := by
  refine ⟨_, rfl, fun u hu => ?_⟩
  simp only [bind_eq_ok, notLocked_eq_ok] at hu
  obtain ⟨_, hfree, _, _, a, _, b, _, _, _, _, _, hu⟩ := hu
  cases hu
  exact .setcurve k rs1 rs2 _ hfree

theorem plainCommand_settwist (rs1 rs2 : Reg) (s : State) : PlainCommand (.settwist rs1 rs2) s := by
  refine ⟨_, rfl, fun u hu => ?_⟩
  simp only [bind_eq_ok, notLocked_eq_ok] at hu
  obtain ⟨_, hfree, _, _, ux, _, uy, _, _, _, hu⟩ := hu
  cases hu
  exact .settwist rs1 rs2 _ hfree

theorem plainCommand_setpair (post : Post) (rs1 rs2 rs3 : Reg) (s : State) :
    PlainCommand (.setpair post rs1 rs2 rs3) s := by
  refine ⟨_, rfl, fun u hu => ?_⟩
  simp only [bind_eq_ok, notLocked_eq_ok] at hu
  obtain ⟨_, hfree, _, _, _, _, _, _, _, _, r, _, pos, _, neg, _, _, _, hu⟩ := hu
  cases hu
  exact .setpair post rs1 rs2 rs3 _ hfree

theorem plainCommand_st (rs1 : Reg) (s : State) : PlainCommand (.st rs1) s := by
  refine ⟨_, rfl, fun u hu => ?_⟩
  obtain ⟨ws, _, hu⟩ := bind_eq_ok.1 hu
  cases hu
  exact .st rs1 ws

/-! ### LD -/

/-- LD holds, or it ends as a command with a destination over the state whose `din` has lost the words
popped, whether it completes or faults (rules R62, R64). -/
theorem execLd_cases (rd : Reg) (s : State) :
    exec (.ld rd) s = .next s ∨ ∃ n r, exec (.ld rd) s =
      State.writeResult { s with din := s.din.drop n } (encode (.ld rd)) rd r := by
  show execLd rd s = _ ∨ ∃ n r, execLd rd s = _
  unfold execLd
  cases s.incoming with
  | short => exact .inl rfl
  | arrived n r => exact .inr ⟨n, r, rfl⟩

/-! ### Every command -/

/-- Every command is LD, a command without a destination, or a command that ends by writing its
destination. -/
theorem exec_cases (i : Instr) (s : State) :
    (∃ rd, i = .ld rd) ∨ (dest i = none ∧ PlainCommand i s) ∨
      ∃ rd r, dest i = some rd ∧ exec i s = s.writeResult (encode i) rd r := by
  cases i with
  | ld rd => exact .inl ⟨rd, rfl⟩
  | setp rs1 => exact .inr (.inl ⟨rfl, plainCommand_setp rs1 s⟩)
  | setmod l rs1 => exact .inr (.inl ⟨rfl, plainCommand_setmod l rs1 s⟩)
  | setcurve k rs1 rs2 => exact .inr (.inl ⟨rfl, plainCommand_setcurve k rs1 rs2 s⟩)
  | settwist rs1 rs2 => exact .inr (.inl ⟨rfl, plainCommand_settwist rs1 rs2 s⟩)
  | setpair post rs1 rs2 rs3 => exact .inr (.inl ⟨rfl, plainCommand_setpair post rs1 rs2 rs3 s⟩)
  | st rs1 => exact .inr (.inl ⟨rfl, plainCommand_st rs1 s⟩)
  | _ => exact .inr (.inr ⟨_, _, rfl, rfl⟩)

end Sys2Proof.Machine

namespace Sys2Proof.Claims

open Sys2Proof.Machine

/-! ### How a command ends -/

/-- `t` is `s` after a command that completed: it counted, its word left the command port, and STATUS,
FAULTCMD and the build parameters are as before (rules R44, R110 step 8). -/
def Counted (s t : State) : Prop :=
  t.mode = s.mode ∧ t.faultCmd = s.faultCmd ∧ t.cmdCnt = s.cmdCnt + 1 ∧ t.cmd = s.cmd.tail ∧
    t.build = s.build

/-- The result `o` of a command `w` in `s` is a completion that counts or a precise fault. -/
def CountsOrFaults (s : State) (w : CmdWord) (o : Host.Outcome State Fault Refusal) : Prop :=
  ∃ t, o = .next t ∧ (Counted s t ∨ ∃ c, t = Faults s w c)

theorem takeFault_eq_faults (s : State) (w : CmdWord) (c : FaultCode) :
    s.takeFault w c = Faults s w c := rfl

theorem counted_setReg_complete (s : State) (rd : Reg) (v : Value) :
    Counted s (s.setReg rd v).complete := by
  simp [Counted]

theorem counted_complete_of_plainEffect {s u : State} {i : Instr} (h : PlainEffect s i u) :
    Counted s u.complete := by
  cases h <;> simp [Counted]

theorem countsOrFaults_writeResult (s : State) (w : CmdWord) (rd : Reg)
    (r : Except FaultCode Value) : CountsOrFaults s w (s.writeResult w rd r) := by
  rcases writeResult_cases (Eq.refl (s.writeResult w rd r)) with ⟨v, -, h⟩ | ⟨c, -, h⟩
  · exact ⟨_, h, .inl (counted_setReg_complete s rd v)⟩
  · exact ⟨_, h, .inr ⟨c, takeFault_eq_faults s w c⟩⟩

theorem countsOrFaults_of_plainCommand {i : Instr} {s : State} (h : PlainCommand i s) :
    CountsOrFaults s (encode i) (exec i s) := by
  obtain ⟨r, hexec, heffect⟩ := h
  rcases conclude_cases hexec.symm with ⟨u, hr, hu⟩ | ⟨c, -, hc⟩
  · exact ⟨_, hu, .inl (counted_complete_of_plainEffect (heffect u hr))⟩
  · exact ⟨_, hc, .inr ⟨c, takeFault_eq_faults s (encode i) c⟩⟩

/-- A command other than LD completes and counts, or takes a precise fault (rules R16, R311). -/
theorem countsOrFaults_of_not_ld {i : Instr} (s : State) (h : ∀ rd, i ≠ .ld rd) :
    CountsOrFaults s (encode i) (exec i s) := by
  rcases exec_cases i s with ⟨rd, hld⟩ | ⟨-, hplain⟩ | ⟨rd, r, -, hexec⟩
  · exact absurd hld (h rd)
  · exact countsOrFaults_of_plainCommand hplain
  · exact hexec ▸ countsOrFaults_writeResult s (encode i) rd r

/-- LD holds, or it completes and counts, or it takes a fault that leaves `din` without the words popped
(rules R62, R64). -/
theorem exec_ld_outcome (rd : Reg) (s : State) : ∃ t, exec (.ld rd) s = .next t ∧
    (t = s ∨ Counted s t ∨
      ∃ c n, t = Faults { s with din := s.din.drop n } (encode (.ld rd)) c) := by
  rcases execLd_cases rd s with hhold | ⟨n, r, hexec⟩
  · exact ⟨s, hhold, .inl rfl⟩
  · obtain ⟨t, ht, hcounted | ⟨c, hfault⟩⟩ :=
      countsOrFaults_writeResult { s with din := s.din.drop n } (encode (.ld rd)) rd r
    · exact ⟨t, hexec.trans ht, .inr (.inl hcounted)⟩
    · exact ⟨t, hexec.trans ht, .inr (.inr ⟨c, n, hfault⟩)⟩

/-- Settles O11: LD by what it finds on `din`, every other command by the one way its form ends. -/
theorem commandOutcomes : Obligations.CommandOutcomes := by
  unfold Obligations.CommandOutcomes
  intro i s
  by_cases hld : ∃ rd, i = .ld rd
  · obtain ⟨rd, rfl⟩ := hld
    obtain ⟨t, ht, hhold | hcounted | ⟨c, n, hfault⟩⟩ := exec_ld_outcome rd s
    · exact ⟨t, ht, .inl ⟨hhold, rd, rfl⟩⟩
    · exact ⟨t, ht, .inr (.inl hcounted)⟩
    · exact ⟨t, ht, .inr (.inr (.inr ⟨c, n, rd, rfl, hfault⟩))⟩
  · obtain ⟨t, ht, hcounted | hfault⟩ :=
      countsOrFaults_of_not_ld s fun rd h => hld ⟨rd, h⟩
    · exact ⟨t, ht, .inr (.inl hcounted)⟩
    · exact ⟨t, ht, .inr (.inr (.inl hfault))⟩

end Sys2Proof.Claims

/-! PROOFS. The invariant of 10_state.md under the commands that write a context: a context is written once, so
what was well shaped at a usable level stays so. -/

namespace Sys2Proof.Machine

/-! ### Contexts that grow -/

/-- A context kept as it is, or written for the first time with data that pass its checks (rule R35). -/
def Grown {α : Type} (old new : Option α) (ok : α → Prop) : Prop :=
  new = old ∨ old = none ∧ ∃ a, new = some a ∧ ok a

theorem Grown.kept {α : Type} {old new : Option α} {ok : α → Prop} (h : Grown old new ok)
    (hsome : old.isSome = true) : new = old := by
  rcases h with h | ⟨hnone, -⟩
  · exact h
  · simp [hnone] at hsome

theorem Grown.isSome {α : Type} {old new : Option α} {ok : α → Prop} (h : Grown old new ok)
    (hsome : old.isSome = true) : new.isSome = true := by
  rw [h.kept hsome]
  exact hsome

theorem Grown.forall_ok {α : Type} {old new : Option α} {ok : α → Prop} (h : Grown old new ok)
    (hold : ∀ a, old = some a → ok a) : ∀ a, new = some a → ok a := by
  rcases h with h | ⟨-, b, hb, hok⟩
  · exact h ▸ hold
  · intro a ha
    cases hb.symm.trans ha
    exact hok

/-- `u` is `s` but for contexts written for the first time, with data that pass their checks in `s`, and for
the port queues and CMDCNT. A field left out of a proof of it says that the context is as before. -/
structure State.Grows (s u : State) : Prop where
  build : u.build = s.build := by rfl
  regs : u.regs = s.regs := by rfl
  mode : u.mode = s.mode := by rfl
  faultCmd : u.faultCmd = s.faultCmd := by rfl
  prime : Grown s.prime u.prime (fun p => 2 < p ∧ p < 2 ^ (64 * s.build.flimbs)) := by exact .inl rfl
  ext1 : Grown s.ext1 u.ext1 (s.ModulusOk .l0) := by exact .inl rfl
  ext2 : Grown s.ext2 u.ext2 (s.ModulusOk .l1) := by exact .inl rfl
  ext3 : Grown s.ext3 u.ext3 (s.ModulusOk .l2) := by exact .inl rfl
  curve0 : Grown s.curve0 u.curve0 (s.CurveOk .c0) := by exact .inl rfl
  curve1 : Grown s.curve1 u.curve1 (s.CurveOk .c1) := by exact .inl rfl
  curve2 : Grown s.curve2 u.curve2 (s.CurveOk .c2) := by exact .inl rfl
  twist : Grown s.twist u.twist s.TwistOk := by exact .inl rfl
  pair : Grown s.pair u.pair s.PairOk := by exact .inl rfl

/-- Level `l` is in `u` what it is in `s`: usable, with the same functions and the same elements. -/
def State.SameLevel (s u : State) (l : Level) : Prop :=
  u.usable l = true ∧ u.field l = s.field l ∧ u.ElemOk l = s.ElemOk l

namespace State.Grows

variable {s u : State}

theorem p_kept (g : s.Grows u) (h : s.prime.isSome = true) : u.p = s.p := by
  simp only [State.p, g.prime.kept h]

theorem m1_kept (g : s.Grows u) (h : s.ext1.isSome = true) : u.m1 = s.m1 := by
  simp only [State.m1, g.ext1.kept h]

theorem m2_kept (g : s.Grows u) (h : s.ext2.isSome = true) : u.m2 = s.m2 := by
  simp only [State.m2, g.ext2.kept h]

theorem m3_kept (g : s.Grows u) (h : s.ext3.isSome = true) : u.m3 = s.m3 := by
  simp only [State.m3, g.ext3.kept h]

theorem usable_kept (g : s.Grows u) {l : Level} (hu : s.usable l = true) : u.usable l = true := by
  cases l <;> simp only [State.usable, Bool.and_eq_true] at hu ⊢
  case l0 => exact g.prime.isSome hu
  case l1 => exact ⟨g.prime.isSome hu.1, g.ext1.isSome hu.2⟩
  case l2 => exact ⟨⟨g.prime.isSome hu.1.1, g.ext1.isSome hu.1.2⟩, g.ext2.isSome hu.2⟩
  case l3 =>
    exact ⟨⟨⟨g.prime.isSome hu.1.1.1, g.ext1.isSome hu.1.1.2⟩, g.ext2.isSome hu.1.2⟩,
      g.ext3.isSome hu.2⟩

/-- A level that was usable rests on contexts that do not change. -/
theorem sameLevel (g : s.Grows u) {l : Level} (hu : s.usable l = true) : s.SameLevel u l := by
  refine ⟨g.usable_kept hu, ?_⟩
  cases l <;> simp only [State.usable, Bool.and_eq_true] at hu
  case l0 =>
    have hp := g.p_kept hu
    exact ⟨by simp only [State.field, hp], by funext e; simp only [State.ElemOk, hp]⟩
  case l1 =>
    obtain ⟨h0, h1⟩ := hu
    have hp := g.p_kept h0
    have hm1 := g.m1_kept h1
    exact ⟨by simp only [State.field, hp, hm1],
      by funext e; simp only [State.ElemOk, State.degree, hp, hm1]⟩
  case l2 =>
    obtain ⟨⟨h0, h1⟩, h2⟩ := hu
    have hp := g.p_kept h0
    have hm1 := g.m1_kept h1
    have hm2 := g.m2_kept h2
    exact ⟨by simp only [State.field, hp, hm1, hm2],
      by funext e; simp only [State.ElemOk, State.degree, hp, hm1, hm2]⟩
  case l3 =>
    obtain ⟨⟨⟨h0, h1⟩, h2⟩, h3⟩ := hu
    have hp := g.p_kept h0
    have hm1 := g.m1_kept h1
    have hm2 := g.m2_kept h2
    have hm3 := g.m3_kept h3
    exact ⟨by simp only [State.field, hp, hm1, hm2, hm3],
      by funext e; simp only [State.ElemOk, State.degree, hp, hm1, hm2, hm3]⟩

/-- `K` and `p` rest on level 2. -/
theorem embedDegree_p (g : s.Grows u) (hu : s.usable .l2 = true) :
    u.embedDegree = s.embedDegree ∧ u.p = s.p := by
  simp only [State.usable, Bool.and_eq_true] at hu
  obtain ⟨⟨h0, h1⟩, h2⟩ := hu
  exact ⟨by simp only [State.embedDegree, State.degree, g.m1_kept h1, g.m2_kept h2], g.p_kept h0⟩

theorem elemOk (g : s.Grows u) {l : Level} {e : Elem l}
    (h : s.usable l = true ∧ s.ElemOk l e) : u.usable l = true ∧ u.ElemOk l e := by
  obtain ⟨husable, -, helem⟩ := g.sameLevel h.1
  exact ⟨husable, helem ▸ h.2⟩

theorem polyOk (g : s.Grows u) {b : Level} {c : List (Elem b)}
    (h : s.usable b = true ∧ s.PolyOk b c) : u.usable b = true ∧ u.PolyOk b c := by
  obtain ⟨husable, -, helem⟩ := g.sameLevel h.1
  exact ⟨husable, by simpa only [State.PolyOk, g.build, helem] using h.2⟩

theorem pointOk (g : s.Grows u) {l : Level} {P : Point (Elem l)}
    (h : s.usable l = true ∧ PointOk (s.ElemOk l) P) :
    u.usable l = true ∧ PointOk (u.ElemOk l) P := by
  obtain ⟨husable, -, helem⟩ := g.sameLevel h.1
  exact ⟨husable, helem ▸ h.2⟩

theorem valueOk (g : s.Grows u) {v : Value} (h : s.ValueOk v) : u.ValueOk v := by
  cases v with
  | empty => trivial
  | int n => simpa only [State.ValueOk, g.build] using h
  | elem0 a => exact g.elemOk (l := .l0) h
  | elem1 a => exact g.elemOk (l := .l1) h
  | elem2 a => exact g.elemOk (l := .l2) h
  | elem3 a => exact g.elemOk (l := .l3) h
  | poly0 c => exact g.polyOk (b := .l0) h
  | poly1 c => exact g.polyOk (b := .l1) h
  | poly2 c => exact g.polyOk (b := .l2) h
  | point0 P => exact g.pointOk (l := .l0) h
  | point1 P => exact g.pointOk (l := .l1) h
  | point2 P => exact g.pointOk (l := .l2) h
  | bool b => trivial

theorem modulusOk (g : s.Grows u) {b : Level} {m : List (Elem b)} (h : s.ModulusOk b m) :
    u.ModulusOk b m := by
  obtain ⟨husable, hfield, helem⟩ := g.sameLevel h.1
  simpa only [State.ModulusOk, husable, hfield, helem, g.build, true_and] using h.2

theorem curveOk (g : s.Grows u) {k : Slot} {E : CurveCtx (Elem k.level)} (h : s.CurveOk k E) :
    u.CurveOk k E := by
  obtain ⟨husable, hfield, helem⟩ := g.sameLevel h.1
  simpa only [State.CurveOk, husable, hfield, helem, true_and] using h.2

theorem twistOk (g : s.Grows u) {tw : TwistCtx} (h : s.TwistOk tw) : u.TwistOk tw := by
  obtain ⟨husable, hfield, helem⟩ := g.sameLevel h.1
  simpa only [State.TwistOk, husable, hfield, helem, true_and] using h.2

theorem pairOk (g : s.Grows u) (hu : s.usable .l2 = true) {c : PairCtx} (h : s.PairOk c) :
    u.PairOk c := by
  obtain ⟨h0, h1, h2, htwist, hlegal⟩ := h
  obtain ⟨hK, hp⟩ := g.embedDegree_p hu
  refine ⟨g.curve0.isSome h0, g.curve1.isSome h1, g.curve2.isSome h2, g.twist.isSome htwist, ?_⟩
  simpa only [hK, hp] using hlegal

/-- First writes that pass their checks keep the invariant (rules R24 to R43). -/
theorem inv (g : s.Grows u) (h : s.Inv) : u.Inv where
  build := g.build ▸ h.build
  regs r := by
    have hreg : u.reg r = s.reg r := by simp only [State.reg, g.regs]
    exact hreg ▸ g.valueOk (h.regs r)
  prime := g.build ▸ g.prime.forall_ok h.prime
  ext1 m hm := g.modulusOk (g.ext1.forall_ok h.ext1 m hm)
  ext2 m hm := g.modulusOk (g.ext2.forall_ok h.ext2 m hm)
  ext3 m hm := g.modulusOk (g.ext3.forall_ok h.ext3 m hm)
  curve0 E hE := g.curveOk (g.curve0.forall_ok h.curve0 E hE)
  curve1 E hE := g.curveOk (g.curve1.forall_ok h.curve1 E hE)
  curve2 E hE := g.curveOk (g.curve2.forall_ok h.curve2 E hE)
  twist tw htw := g.twistOk (g.twist.forall_ok h.twist tw htw)
  pair c hc := by
    have hok : s.PairOk c := g.pair.forall_ok h.pair c hc
    obtain ⟨E, hE⟩ := Option.isSome_iff_exists.1 hok.2.2.1
    exact g.pairOk (h.curve2 E hE).1 hok
  faultCmd := by
    rw [g.mode, g.faultCmd]
    exact h.faultCmd

end State.Grows

/-! ### The commands without a destination -/

/-- A command without a destination keeps the invariant when the state it gives has grown. -/
theorem inv_conclude {s t : State} {w : CmdWord} {r : Except FaultCode State} (h : s.Inv)
    (hgrows : ∀ u, r = .ok u → s.Grows u) (ht : s.conclude w r = .next t) : t.Inv := by
  rcases conclude_cases ht with ⟨u, hr, e⟩ | ⟨c, -, e⟩
  · cases e
    exact inv_complete ((hgrows u hr).inv h)
  · cases e
    exact inv_takeFault h w c

theorem grows_setExt {s : State} {l : ExtLevel} {m : List (Elem l.base)} (hfree : s.extValid l = false)
    (hm : s.ModulusOk l.base m) : s.Grows (s.setExt l m) := by
  cases l with
  | l1 => exact { ext1 := .inr ⟨by simpa [State.extValid] using hfree, m, rfl, hm⟩ }
  | l2 => exact { ext2 := .inr ⟨by simpa [State.extValid] using hfree, m, rfl, hm⟩ }
  | l3 => exact { ext3 := .inr ⟨by simpa [State.extValid] using hfree, m, rfl, hm⟩ }

theorem grows_setCurve {s : State} {k : Slot} {E : CurveCtx (Elem k.level)} (hfree : s.curve k = none)
    (hE : s.CurveOk k E) : s.Grows (s.setCurve k E) := by
  cases k with
  | c0 => exact { curve0 := .inr ⟨hfree, E, rfl, hE⟩ }
  | c1 => exact { curve1 := .inr ⟨hfree, E, rfl, hE⟩ }
  | c2 => exact { curve2 := .inr ⟨hfree, E, rfl, hE⟩ }

variable {s t : State}

theorem setp_keeps_inv {rs1 : Reg} (h : s.Inv) (ht : exec (.setp rs1) s = .next t) : t.Inv := by
  refine inv_conclude h (fun u hu => ?_) ht
  simp only [bind_eq_ok, notLocked_eq_ok, require_eq_ok, decide_eq_true_eq] at hu
  obtain ⟨_, hfree, n, -, _, ⟨hlow, hhigh⟩, hu⟩ := hu
  cases hu
  refine { prime := .inr ⟨hfree, n.toNat, rfl, by omega, ?_⟩ }
  have hn : (n.toNat : Int) < 2 ^ (64 * s.build.flimbs) := by omega
  exact_mod_cast hn

theorem setmod_keeps_inv {l : ExtLevel} {rs1 : Reg} (h : s.Inv)
    (ht : exec (.setmod l rs1) s = .next t) : t.Inv := by
  refine inv_conclude h (fun u hu => ?_) ht
  simp only [bind_eq_ok, require_eq_ok, needField_eq_ok, srcPoly_eq_ok, decide_eq_true_eq,
    Bool.not_eq_true'] at hu
  obtain ⟨_, hfree, F, ⟨hbase, rfl⟩, m, hm, _, ⟨hlow, hhigh⟩, _, hlead, hu⟩ := hu
  cases hu
  obtain ⟨-, -, -, helems⟩ := reg_poly h hm
  exact grows_setExt hfree ⟨hbase, hlow, hhigh, helems, hlead⟩

theorem setcurve_keeps_inv {k : Slot} {rs1 rs2 : Reg} (h : s.Inv)
    (ht : exec (.setcurve k rs1 rs2) s = .next t) : t.Inv := by
  refine inv_conclude h (fun u hu => ?_) ht
  simp only [bind_eq_ok, notLocked_eq_ok, require_eq_ok, needField_eq_ok, srcElem_eq_ok,
    Bool.not_eq_true'] at hu
  obtain ⟨_, hfree, F, ⟨husable, rfl⟩, a, ha, b, hb, disc, hdisc, _, hnonzero, hu⟩ := hu
  cases hu
  exact grows_setCurve hfree
    ⟨husable, (reg_elem h ha).2, (reg_elem h hb).2, disc, hdisc, hnonzero⟩

theorem settwist_keeps_inv {rs1 rs2 : Reg} (h : s.Inv)
    (ht : exec (.settwist rs1 rs2) s = .next t) : t.Inv := by
  refine inv_conclude h (fun u hu => ?_) ht
  simp only [bind_eq_ok, notLocked_eq_ok, require_eq_ok, Bool.and_eq_true, Bool.not_eq_true'] at hu
  obtain ⟨_, hfree, F, hF, ux, hux, uy, huy, _, ⟨hx, hy⟩, hu⟩ := hu
  obtain ⟨husable, rfl⟩ := needField_eq_ok.1 hF
  obtain ⟨-, hxelem⟩ := reg_elem h (srcElem_eq_ok.1 hux)
  obtain ⟨-, hyelem⟩ := reg_elem h (srcElem_eq_ok.1 huy)
  cases hu
  exact { twist := .inr ⟨hfree, _, rfl, husable, hxelem, hyelem, hx, hy⟩ }

/-- The tests of SETPAIR, one by one (rule R115). -/
theorem pairParametersLegal_iff {post : Post} {r pos neg : Int} :
    s.pairParametersLegal post r pos neg = true ↔
      2 ≤ r ∧ 0 ≤ pos ∧ 0 ≤ neg ∧ pos.toNat &&& neg.toNat = 0 ∧ neg < pos ∧
        (s.p ^ s.embedDegree - 1) % r.toNat = 0 ∧
        ¬ (post = .conjugate ∧ s.embedDegree % 2 = 1) := by
  simp only [State.pairParametersLegal, Bool.and_eq_true, Bool.not_eq_true', Bool.and_eq_false_iff,
    decide_eq_true_eq, decide_eq_false_iff_not, not_and_or, and_assoc]

theorem setpair_keeps_inv {post : Post} {rs1 rs2 rs3 : Reg} (h : s.Inv)
    (ht : exec (.setpair post rs1 rs2 rs3) s = .next t) : t.Inv := by
  refine inv_conclude h (fun u hu => ?_) ht
  simp only [bind_eq_ok, notLocked_eq_ok, require_eq_ok, needContext_eq_ok, srcInt_eq_ok,
    pairParametersLegal_iff] at hu
  obtain ⟨_, hfree, _, h0, _, h1, _, h2, _, htw, r, -, pos, -, neg, -, _, hlegal, hu⟩ := hu
  obtain ⟨hr, hpos, hneg, hdisjoint, hless, hdvd, hpost⟩ := hlegal
  cases hu
  refine { pair := .inr ⟨hfree, _, rfl, by simp [h0], by simp [h1], by simp [h2], by simp [htw],
    ?_, hdisjoint, ?_, hdvd, fun hconj => ?_⟩ }
  · show 2 ≤ r.toNat
    omega
  · show neg.toNat < pos.toNat
    omega
  · have hodd : ¬ s.embedDegree % 2 = 1 := fun hodd => hpost ⟨hconj, hodd⟩
    omega

theorem st_keeps_inv {rs1 : Reg} (h : s.Inv) (ht : exec (.st rs1) s = .next t) : t.Inv := by
  refine inv_conclude h (fun u hu => ?_) ht
  obtain ⟨ws, -, hu⟩ := bind_eq_ok.1 hu
  cases hu
  exact {}

/-- A command without a destination keeps the invariant. -/
theorem plain_keeps_inv {i : Instr} (h : s.Inv) (hdest : dest i = none) (ht : exec i s = .next t) :
    t.Inv := by
  cases i with
  | setp rs1 => exact setp_keeps_inv h ht
  | setmod l rs1 => exact setmod_keeps_inv h ht
  | setcurve k rs1 rs2 => exact setcurve_keeps_inv h ht
  | settwist rs1 rs2 => exact settwist_keeps_inv h ht
  | setpair post rs1 rs2 rs3 => exact setpair_keeps_inv h ht
  | st rs1 => exact st_keeps_inv h ht
  | _ => cases hdest

end Sys2Proof.Machine

/-! PROOFS. What the commands with a destination can write: the tags of rule R30, and values that are well
shaped whenever the state is (rule R31). -/

namespace Sys2Proof.Machine

open Sys2Proof.Claims

variable {s : State}

/-! ### Results by tag -/

/-- Whatever `r` gives is an element of level `l`, well shaped when the state is. -/
def State.GivesElem (s : State) (l : Level) (r : Except FaultCode Value) : Prop :=
  ∀ v, r = .ok v → ∃ e, v = .ofElem l e ∧ (s.Inv → s.usable l = true ∧ s.ElemOk l e)

/-- Whatever `r` gives is a point of slot `k`, well shaped when the state is. -/
def State.GivesPoint (s : State) (k : Slot) (r : Except FaultCode Value) : Prop :=
  ∀ v, r = .ok v → ∃ P, v = .ofPoint k P ∧
    (s.Inv → s.usable k.level = true ∧ PointOk (s.ElemOk k.level) P)

/-- Whatever `r` gives is a BOOL. -/
def GivesBool (r : Except FaultCode Value) : Prop := ∀ v, r = .ok v → ∃ b, v = .bool b

/-- `v` is a value the command `i` may write in `s`: of a tag of rule R30, and well shaped when the state is. -/
def State.Result (s : State) (i : Instr) (v : Value) : Prop :=
  mayWrite v i = true ∧ (s.Inv → s.ValueOk v)

/-- The command `i` ends by writing its destination, and only values it may write. -/
def Writing (i : Instr) (s : State) : Prop :=
  ∃ rd r, dest i = some rd ∧ exec i s = s.writeResult (encode i) rd r ∧
    ∀ v, r = .ok v → s.Result i v

@[simp] theorem elem?_ofElem (l : Level) (e : Elem l) : (Value.ofElem l e).elem? l = some e :=
  elem?_eq_some.2 rfl

@[simp] theorem point?_ofPoint (k : Slot) (P : Point (Elem k.level)) :
    (Value.ofPoint k P).point? k = some P := point?_eq_some.2 rfl

variable {i : Instr} {rd : Reg} {r : Except FaultCode Value}

theorem writing_of_givesElem {l : Level} (hr : s.GivesElem l r) (hdest : dest i = some rd)
    (hexec : exec i s = s.writeResult (encode i) rd r)
    (htags : ∀ v, mayWrite v i = (v.elem? l).isSome) : Writing i s := by
  refine ⟨rd, r, hdest, hexec, fun v hv => ?_⟩
  obtain ⟨e, rfl, hok⟩ := hr v hv
  exact ⟨by simp [htags], fun h => valueOk_ofElem.2 (hok h)⟩

theorem writing_of_givesPoint {k : Slot} (hr : s.GivesPoint k r) (hdest : dest i = some rd)
    (hexec : exec i s = s.writeResult (encode i) rd r)
    (htags : ∀ v, mayWrite v i = (v.point? k).isSome) : Writing i s := by
  refine ⟨rd, r, hdest, hexec, fun v hv => ?_⟩
  obtain ⟨P, rfl, hok⟩ := hr v hv
  exact ⟨by simp [htags], fun h => valueOk_ofPoint.2 (hok h)⟩

theorem writing_of_givesBool (hr : GivesBool r) (hdest : dest i = some rd)
    (hexec : exec i s = s.writeResult (encode i) rd r)
    (htags : ∀ b, mayWrite (.bool b) i = true) : Writing i s := by
  refine ⟨rd, r, hdest, hexec, fun v hv => ?_⟩
  obtain ⟨b, rfl⟩ := hr v hv
  exact ⟨htags b, fun _ => trivial⟩

/-! ### Fields -/

theorem elemBinary_givesElem {l : Level} {rs1 rs2 : Reg}
    {f : FieldOps (Elem l) → Elem l → Elem l → Except FaultCode (Elem l)}
    (hf : (s.field l).Closed (s.ElemOk l) → ∀ a b c, s.ElemOk l a → s.ElemOk l b →
      f (s.field l) a b = .ok c → s.ElemOk l c) : s.GivesElem l (s.elemBinary l rs1 rs2 f) := by
  intro v hv
  obtain ⟨hu, a, b, c, ha, hb, hc, rfl⟩ := elemBinary_eq_ok.1 hv
  exact ⟨c, rfl, fun h => ⟨hu, hf (field_closed h hu) a b c (reg_elem h ha).2 (reg_elem h hb).2 hc⟩⟩

theorem elemUnary_givesElem {l : Level} {rs1 : Reg}
    {f : FieldOps (Elem l) → Elem l → Except FaultCode (Elem l)}
    (hf : (s.field l).Closed (s.ElemOk l) → ∀ a c, s.ElemOk l a → f (s.field l) a = .ok c →
      s.ElemOk l c) : s.GivesElem l (s.elemUnary l rs1 f) := by
  intro v hv
  obtain ⟨hu, a, c, ha, hc, rfl⟩ := elemUnary_eq_ok.1 hv
  exact ⟨c, rfl, fun h => ⟨hu, hf (field_closed h hu) a c (reg_elem h ha).2 hc⟩⟩

theorem elemPower_givesElem {l : Level} {rs1 rs2 : Reg} :
    s.GivesElem l (s.elemPower l rs1 rs2) := by
  intro v hv
  obtain ⟨hu, a, e, c, ha, -, hc, rfl⟩ := elemPower_eq_ok.1 hv
  exact ⟨c, rfl, fun h => ⟨hu, exp_closed (field_closed h hu) (reg_elem h ha).2 hc⟩⟩

theorem elemEqual_givesBool {l : Level} {rs1 rs2 : Reg} : GivesBool (s.elemEqual l rs1 rs2) := by
  intro v hv
  obtain ⟨-, a, b, -, -, rfl⟩ := elemEqual_eq_ok.1 hv
  exact ⟨_, rfl⟩

/-- A function that always answers `x` answers what `x` is. -/
theorem of_ok_eq {α : Type} {P : α → Prop} {x c : α} (hx : P x)
    (h : (.ok x : Except FaultCode α) = .ok c) : P c := by
  cases h
  exact hx

theorem add_givesElem {l : Level} {rs1 rs2 : Reg} :
    s.GivesElem l (s.elemBinary l rs1 rs2 fun F a b => .ok (F.add a b)) :=
  elemBinary_givesElem fun hF a b _ ha hb => of_ok_eq (hF.add a b ha hb)

theorem sub_givesElem {l : Level} {rs1 rs2 : Reg} :
    s.GivesElem l (s.elemBinary l rs1 rs2 fun F a b => .ok (F.sub a b)) :=
  elemBinary_givesElem fun hF a b _ ha hb => of_ok_eq (hF.sub a b ha hb)

theorem neg_givesElem {l : Level} {rs1 : Reg} :
    s.GivesElem l (s.elemUnary l rs1 fun F a => .ok (F.neg a)) :=
  elemUnary_givesElem fun hF a _ ha => of_ok_eq (hF.neg a ha)

theorem mul_givesElem {l : Level} {rs1 rs2 : Reg} :
    s.GivesElem l (s.elemBinary l rs1 rs2 fun F a b => F.mul a b) :=
  elemBinary_givesElem FieldOps.Closed.mul

theorem inv_givesElem {l : Level} {rs1 : Reg} :
    s.GivesElem l (s.elemUnary l rs1 fun F a => F.inv a) :=
  elemUnary_givesElem FieldOps.Closed.inv

theorem div_givesElem {l : Level} {rs1 rs2 : Reg} :
    s.GivesElem l (s.elemBinary l rs1 rs2 fun F a b => F.div a b) :=
  elemBinary_givesElem fun hF _ _ _ => div_closed hF

/-- The residue by a modulus of the state is an element (rule R162). -/
theorem reduce_closed (h : s.Inv) {l : ExtLevel} (hu : s.usable l.level = true)
    {c : List (Elem l.base)} {e : Elem l.level} (hc : ∀ x ∈ c, s.ElemOk l.base x)
    (he : s.reduce l c = .ok e) : s.ElemOk l.level e := by
  cases l with
  | l1 =>
    obtain ⟨hbase, -, -, helems, -⟩ := modulus1 h hu
    exact polyMod_closed (field_closed h hbase) hc helems he
  | l2 =>
    obtain ⟨hbase, -, -, helems, -⟩ := modulus2 h hu
    exact polyMod_closed (field_closed h hbase) hc helems he
  | l3 =>
    obtain ⟨hbase, -, -, helems, -⟩ := modulus3 h hu
    exact polyMod_closed (field_closed h hbase) hc helems he

/-- A lifted element is an element of the level it is lifted to (rule R192). -/
theorem lift_closed (h : s.Inv) {m l : Level} (hu : s.usable l = true) {a : Elem m} {e : Elem l}
    (ha : s.ElemOk m a) (he : s.lift m l a = some e) : s.ElemOk l e := by
  have up1 (hu : s.usable .l1 = true) (a : Nat) := up1_closed (a := a) h hu
  have up2 (hu : s.usable .l2 = true) (a : List Nat) := up2_closed (a := a) h hu
  have up3 (hu : s.usable .l3 = true) (a : List (List Nat)) := up3_closed (a := a) h hu
  have down3 (hu : s.usable .l3 = true) := usable_l2 hu
  have down2 (hu : s.usable .l2 = true) := usable_l1 hu
  cases m <;> cases l <;> cases he
  case l0.l1.refl => exact up1 hu _ ha
  case l0.l2.refl => exact up2 hu _ (up1 (down2 hu) _ ha)
  case l0.l3.refl => exact up3 hu _ (up2 (down3 hu) _ (up1 (down2 (down3 hu)) _ ha))
  case l1.l2.refl => exact up2 hu _ ha
  case l1.l3.refl => exact up3 hu _ (up2 (down3 hu) _ ha)
  case l2.l3.refl => exact up3 hu _ ha
  all_goals exact ha

/-- The value of LIFT is an element of its level (rule R193). -/
theorem liftValue_closed (h : s.Inv) {l : Level} (hu : s.usable l = true) {v : Value} {e : Elem l}
    (hv : s.ValueOk v) (he : s.liftValue l v = some e) : s.ElemOk l e := by
  cases v with
  | int n =>
    cases he
    exact (field_closed h hu).ofInt n
  | elem0 a => exact lift_closed h hu (m := .l0) hv.2 he
  | elem1 a => exact lift_closed h hu (m := .l1) hv.2 he
  | elem2 a => exact lift_closed h hu (m := .l2) hv.2 he
  | elem3 a => exact lift_closed h hu (m := .l3) hv.2 he
  | _ => cases he

theorem writing_xfMod (l : ExtLevel) (rd rs1 : Reg) : Writing (.xfMod l rd rs1) s := by
  refine writing_of_givesElem (l := l.level) (fun v hv => ?_) rfl rfl fun _ => rfl
  simp only [bind_eq_ok, needField_eq_ok, srcPoly_eq_ok] at hv
  obtain ⟨_, ⟨hu, -⟩, c, hc, e, he, hv⟩ := hv
  cases hv
  refine ⟨e, rfl, fun h => ⟨hu, ?_⟩⟩
  obtain ⟨-, -, -, helems⟩ := reg_poly h hc
  exact reduce_closed h hu helems he

theorem writing_lift (l : Level) (rd rs1 : Reg) : Writing (.lift l rd rs1) s := by
  refine writing_of_givesElem (l := l) (fun v hv => ?_) rfl rfl fun _ => rfl
  simp only [bind_eq_ok, needField_eq_ok, src_eq_ok] at hv
  obtain ⟨_, ⟨hu, -⟩, e, ⟨-, he⟩, hv⟩ := hv
  cases hv
  exact ⟨e, rfl, fun h => ⟨hu, liftValue_closed h hu (h.regs rs1) he⟩⟩

theorem writing_frob (l : Level) (n : FrobPow) (rd rs1 : Reg) : Writing (.frob l n rd rs1) s :=
  writing_of_givesElem (l := l) (elemUnary_givesElem fun hF _ _ => frobenius_closed hF) rfl rfl
    fun _ => rfl

theorem writing_conj (rd rs1 : Reg) : Writing (.conj rd rs1) s := by
  refine writing_of_givesElem (l := .l2) (elemUnary_givesElem fun hF a c ha hc => ?_) rfl rfl
    fun _ => rfl
  obtain ⟨_, -, hc⟩ := bind_eq_ok.1 hc
  exact exp_closed hF ha hc

/-! ### Curves -/

/-- A command on one point gives a point when its function does. -/
theorem pointUnary_givesPoint {k : Slot} {rs1 : Reg}
    {f : FieldOps (Elem k.level) → CurveCtx (Elem k.level) → Point (Elem k.level) →
      Except FaultCode (Point (Elem k.level))}
    (hf : (s.field k.level).Closed (s.ElemOk k.level) → ∀ E P R, CurveElems (s.ElemOk k.level) E →
      PointOk (s.ElemOk k.level) P → f (s.field k.level) E P = .ok R →
      PointOk (s.ElemOk k.level) R) :
    s.GivesPoint k (s.pointUnary k rs1 fun F E P => (f F E P).map (Value.ofPoint k)) := by
  intro v hv
  obtain ⟨E, P, hE, hP, hv⟩ := pointUnary_eq_ok.1 hv
  obtain ⟨R, hR, rfl⟩ := map_eq_ok.1 hv
  refine ⟨R, rfl, fun h => ?_⟩
  obtain ⟨hu, hPok⟩ := reg_point h hP
  exact ⟨hu, hf (field_closed h hu) E P R (curve_elems h hE) hPok hR⟩

theorem writing_ecIsZero (k : Slot) (rd rs1 : Reg) : Writing (.ecIsZero k rd rs1) s := by
  refine writing_of_givesBool (fun v hv => ?_) rfl rfl fun _ => rfl
  obtain ⟨_, P, -, -, hv⟩ := pointUnary_eq_ok.1 hv
  cases hv
  exact ⟨_, rfl⟩

theorem writing_ecIsOnCurve (k : Slot) (rd rs1 : Reg) : Writing (.ecIsOnCurve k rd rs1) s := by
  refine writing_of_givesBool (fun v hv => ?_) rfl rfl fun _ => rfl
  obtain ⟨_, _, -, -, hv⟩ := pointUnary_eq_ok.1 hv
  obtain ⟨b, -, rfl⟩ := map_eq_ok.1 hv
  exact ⟨b, rfl⟩

theorem writing_ecAdd (k : Slot) (rd rs1 rs2 : Reg) : Writing (.ecAdd k rd rs1 rs2) s := by
  refine writing_of_givesPoint (k := k) (fun v hv => ?_) rfl rfl fun _ => rfl
  simp only [bind_eq_ok, needCurve_eq_ok, srcPoint_eq_ok] at hv
  obtain ⟨E, hE, P, hP, Q, hQ, R, hR, hv⟩ := hv
  cases hv
  refine ⟨R, rfl, fun h => ?_⟩
  obtain ⟨hu, hPok⟩ := reg_point h hP
  obtain ⟨-, hQok⟩ := reg_point h hQ
  exact ⟨hu, pointAdd_closed (field_closed h hu) (curve_elems h hE) hPok hQok hR⟩

theorem writing_ecDbl (k : Slot) (rd rs1 : Reg) : Writing (.ecDbl k rd rs1) s :=
  writing_of_givesPoint
    (pointUnary_givesPoint fun hF _ _ _ hE hP => pointAdd_closed hF hE hP hP) rfl rfl fun _ => rfl

theorem writing_ecNeg (k : Slot) (rd rs1 : Reg) : Writing (.ecNeg k rd rs1) s :=
  writing_of_givesPoint
    (pointUnary_givesPoint (f := fun F _ P => .ok (pointNeg F P)) fun hF _ _ _ _ hP =>
      of_ok_eq (pointNeg_closed hF hP)) rfl rfl fun _ => rfl

theorem writing_ecFrob (k : Slot) (n : FrobPow) (rd rs1 : Reg) :
    Writing (.ecFrob k n rd rs1) s :=
  writing_of_givesPoint
    (pointUnary_givesPoint (f := fun F _ P => frobPoint F s.p P n.toNat) fun hF _ _ _ _ =>
      frobPoint_closed hF) rfl rfl fun _ => rfl

theorem writing_ecSmul (k : Slot) (rd rs1 rs2 : Reg) : Writing (.ecSmul k rd rs1 rs2) s := by
  refine writing_of_givesPoint (k := k) (fun v hv => ?_) rfl rfl fun _ => rfl
  simp only [bind_eq_ok, needCurve_eq_ok, srcPoint_eq_ok] at hv
  obtain ⟨E, hE, P, hP, _, -, R, hR, hv⟩ := hv
  cases hv
  refine ⟨R, rfl, fun h => ?_⟩
  obtain ⟨hu, hPok⟩ := reg_point h hP
  exact ⟨hu, pointMul_closed (field_closed h hu) (curve_elems h hE) hPok hR⟩

theorem writing_line (k : Slot) (rd rs1 rs2 rs3 : Reg) : Writing (.line k rd rs1 rs2 rs3) s := by
  refine writing_of_givesElem (l := k.level) (fun v hv => ?_) rfl rfl fun _ => rfl
  simp only [bind_eq_ok, needCurve_eq_ok, srcPoint_eq_ok] at hv
  obtain ⟨E, hE, P, hP, Q, hQ, T, hT, e, he, hv⟩ := hv
  cases hv
  refine ⟨e, rfl, fun h => ?_⟩
  obtain ⟨hu, hPok⟩ := reg_point h hP
  obtain ⟨-, hQok⟩ := reg_point h hQ
  obtain ⟨-, hTok⟩ := reg_point h hT
  exact ⟨hu, lineValue_closed (field_closed h hu) (curve_elems h hE) hPok hQok hTok he⟩

/-! ### Pairings -/

theorem srcPoint_ok (h : s.Inv) {k : Slot} {r : Reg} {P : Point (Elem k.level)}
    (hP : s.srcPoint k r = .ok P) : PointOk (s.ElemOk k.level) P :=
  (reg_point h (srcPoint_eq_ok.1 hP)).2

theorem writing_miller (rd rs1 rs2 : Reg) : Writing (.miller rd rs1 rs2) s := by
  refine writing_of_givesElem (l := .l2) (fun v hv => ?_) rfl rfl fun _ => rfl
  simp only [bind_eq_ok] at hv
  obtain ⟨env, henv, Q, hQ, P, hP, f, hf, hv⟩ := hv
  cases hv
  exact ⟨f, rfl, fun h => ⟨(pairEnv_ok h henv).1,
    miller_closed h henv (srcPoint_ok h hQ) (srcPoint_ok h hP) hf⟩⟩

theorem writing_finalexp (rd rs1 : Reg) : Writing (.finalexp rd rs1) s := by
  refine writing_of_givesElem (l := .l2) (fun v hv => ?_) rfl rfl fun _ => rfl
  simp only [bind_eq_ok] at hv
  obtain ⟨env, henv, f, hf, g, hg, hv⟩ := hv
  cases hv
  refine ⟨g, rfl, fun h => ?_⟩
  obtain ⟨hu, hfok⟩ := reg_elem h (srcElem_eq_ok.1 hf)
  exact ⟨hu, finalExp_closed h hu hfok hg⟩

theorem writing_pair (rd rs1 rs2 : Reg) : Writing (.pair rd rs1 rs2) s := by
  refine writing_of_givesElem (l := .l2) (fun v hv => ?_) rfl rfl fun _ => rfl
  simp only [bind_eq_ok] at hv
  obtain ⟨env, henv, P, hP, Q, hQ, g, hg, hv⟩ := hv
  cases hv
  exact ⟨g, rfl, fun h => ⟨(pairEnv_ok h henv).1,
    pairing_closed h henv (srcPoint_ok h hP) (srcPoint_ok h hQ) hg⟩⟩

theorem writing_untwist (rd rs1 : Reg) : Writing (.untwist rd rs1) s := by
  refine writing_of_givesPoint (k := .c2) (fun v hv => ?_) rfl rfl fun _ => rfl
  simp only [bind_eq_ok, needContext_eq_ok] at hv
  obtain ⟨tw, htw, Q, hQ, R, hR, hv⟩ := hv
  cases hv
  refine ⟨R, rfl, fun h => ?_⟩
  have htwist := h.twist tw htw
  exact ⟨htwist.1, untwist_closed h htwist (srcPoint_ok h hQ) hR⟩

theorem writing_twist (rd rs1 : Reg) : Writing (.twist rd rs1) s := by
  refine writing_of_givesPoint (k := .c1) (fun v hv => ?_) rfl rfl fun _ => rfl
  simp only [bind_eq_ok, needContext_eq_ok] at hv
  obtain ⟨tw, htw, P, hP, R, hR, hv⟩ := hv
  cases hv
  refine ⟨R, rfl, fun h => ?_⟩
  have htwist := h.twist tw htw
  exact ⟨usable_l1 htwist.1, twistBack_closed h htwist (srcPoint_ok h hP) hR⟩

theorem writing_subgrpG1 (rd rs1 : Reg) : Writing (.subgrpG1 rd rs1) s := by
  refine writing_of_givesBool (fun v hv => ?_) rfl rfl fun _ => rfl
  simp only [bind_eq_ok] at hv
  obtain ⟨_, -, _, -, b, -, hv⟩ := hv
  cases hv
  exact ⟨b, rfl⟩

theorem writing_subgrpG2 (rd rs1 : Reg) : Writing (.subgrpG2 rd rs1) s := by
  refine writing_of_givesBool (fun v hv => ?_) rfl rfl fun _ => rfl
  simp only [bind_eq_ok] at hv
  obtain ⟨_, -, _, -, b, -, hv⟩ := hv
  cases hv
  exact ⟨b, rfl⟩

theorem writing_pairchk (rd rs1 rs2 : Reg) (n : BitVec 5) : Writing (.pairchk rd rs1 rs2 n) s := by
  refine writing_of_givesBool (fun v hv => ?_) rfl rfl fun _ => rfl
  simp only [bind_eq_ok] at hv
  obtain ⟨_, -, _, -, _, -, _, -, _, -, hv⟩ := hv
  cases hv
  exact ⟨_, rfl⟩

/-! ### Every command with a destination -/

/-- A command with a destination other than LD ends by writing it, and only values it may write. -/
theorem writing_of_dest {i : Instr} {rd : Reg} (hdest : dest i = some rd) (hld : i ≠ .ld rd) :
    Writing i s := by
  cases i with
  | ld r =>
    cases hdest
    exact absurd rfl hld
  | setp | setmod | setcurve | settwist | setpair | st => cases hdest
  | fpAdd => exact writing_of_givesElem add_givesElem rfl rfl fun _ => rfl
  | fpSub => exact writing_of_givesElem sub_givesElem rfl rfl fun _ => rfl
  | fpNeg => exact writing_of_givesElem neg_givesElem rfl rfl fun _ => rfl
  | fpMul => exact writing_of_givesElem mul_givesElem rfl rfl fun _ => rfl
  | fpInv => exact writing_of_givesElem inv_givesElem rfl rfl fun _ => rfl
  | fpDiv => exact writing_of_givesElem div_givesElem rfl rfl fun _ => rfl
  | fpExp => exact writing_of_givesElem elemPower_givesElem rfl rfl fun _ => rfl
  | fpEq => exact writing_of_givesBool elemEqual_givesBool rfl rfl fun _ => rfl
  | xfAdd => exact writing_of_givesElem add_givesElem rfl rfl fun _ => rfl
  | xfSub => exact writing_of_givesElem sub_givesElem rfl rfl fun _ => rfl
  | xfNeg => exact writing_of_givesElem neg_givesElem rfl rfl fun _ => rfl
  | xfMul => exact writing_of_givesElem mul_givesElem rfl rfl fun _ => rfl
  | xfInv => exact writing_of_givesElem inv_givesElem rfl rfl fun _ => rfl
  | xfDiv => exact writing_of_givesElem div_givesElem rfl rfl fun _ => rfl
  | xfExp => exact writing_of_givesElem elemPower_givesElem rfl rfl fun _ => rfl
  | xfEq => exact writing_of_givesBool elemEqual_givesBool rfl rfl fun _ => rfl
  | xfMod l rd a => exact writing_xfMod l rd a
  | lift l rd a => exact writing_lift l rd a
  | ecIsZero k rd P => exact writing_ecIsZero k rd P
  | ecIsOnCurve k rd P => exact writing_ecIsOnCurve k rd P
  | ecAdd k rd P Q => exact writing_ecAdd k rd P Q
  | ecDbl k rd P => exact writing_ecDbl k rd P
  | ecNeg k rd P => exact writing_ecNeg k rd P
  | ecSmul k rd P n => exact writing_ecSmul k rd P n
  | line k rd P Q T => exact writing_line k rd P Q T
  | miller rd Q P => exact writing_miller rd Q P
  | frob l n rd a => exact writing_frob l n rd a
  | conj rd f => exact writing_conj rd f
  | finalexp rd f => exact writing_finalexp rd f
  | ecFrob k n rd P => exact writing_ecFrob k n rd P
  | untwist rd Q => exact writing_untwist rd Q
  | twist rd P => exact writing_twist rd P
  | subgrpG1 rd P => exact writing_subgrpG1 rd P
  | subgrpG2 rd Q => exact writing_subgrpG2 rd Q
  | pair rd P Q => exact writing_pair rd P Q
  | pairchk rd P Q n => exact writing_pairchk rd P Q n

/-! ### LD -/

/-- What LD finds on `din` is never EMPTY and never a BOOL (rules R30, R116). -/
theorem mayWrite_ld_of_readPayload {rd : Reg} {ws : List DataWord} {a : Announced} {v : Value}
    (hv : s.readPayload ws a = .ok v) : mayWrite v (.ld rd) = true := by
  cases a with
  | int =>
    cases ws with
    | nil => cases hv
    | cons sign mag =>
      simp only [State.readPayload, intPayload] at hv
      split at hv
      · cases hv
        rfl
      split at hv <;> cases hv
      rfl
  | elem l =>
    obtain ⟨e, -, rfl⟩ := map_eq_ok.1 hv
    cases l <;> rfl
  | poly l n =>
    obtain ⟨c, -, rfl⟩ := map_eq_ok.1 hv
    cases l <;> rfl
  | point k =>
    obtain ⟨P, -, rfl⟩ := map_eq_ok.1 hv
    cases k <;> rfl

theorem result_of_incoming {rd : Reg} {n : Nat} {v : Value}
    (h : s.incoming = .arrived n (.ok v)) : s.Result (.ld rd) v := by
  refine ⟨?_, fun _ => incoming_ok h⟩
  unfold State.incoming at h
  split at h
  · cases h
  split at h
  · cases h
  split at h
  · cases h
  simp only [Incoming.arrived.injEq] at h
  exact mayWrite_ld_of_readPayload h.2

/-- LD holds, or over the state whose `din` has lost the words popped it ends by writing its destination, and
only values it may write (rules R62, R64). -/
theorem execLd_results (rd : Reg) (s : State) :
    exec (.ld rd) s = .next s ∨ ∃ n r, exec (.ld rd) s =
      State.writeResult { s with din := s.din.drop n } (encode (.ld rd)) rd r ∧
        ∀ v, r = .ok v → s.Result (.ld rd) v := by
  show execLd rd s = _ ∨ ∃ n r, execLd rd s = _ ∧ _
  unfold execLd
  cases hin : s.incoming with
  | short => exact .inl rfl
  | arrived n r => exact .inr ⟨n, r, rfl, fun v hv => result_of_incoming (hv ▸ hin)⟩

/-! ### Every command -/

/-- What a command can make of the state. -/
inductive Effect (i : Instr) (s : State) : State → Prop
  /-- A waiting LD. -/
  | hold : Effect i s s
  /-- A fault, LD having popped `n` words (rules R64, R310). -/
  | fault (n : Nat) (c : FaultCode) :
      Effect i s (State.takeFault { s with din := s.din.drop n } (encode i) c)
  /-- A value written to the destination, LD having popped `n` words (rule R29). -/
  | write (n : Nat) (rd : Reg) (v : Value) : dest i = some rd → s.Result i v →
      Effect i s (State.setReg { s with din := s.din.drop n } rd v).complete
  /-- The effect of a command without a destination. -/
  | plain (u : State) : dest i = none → PlainEffect s i u → Effect i s u.complete

/-- No command without a destination writes a register. -/
theorem PlainEffect.reg {i : Instr} {s u : State} (h : PlainEffect s i u) (r : Reg) :
    u.reg r = s.reg r := by
  cases h with
  | setmod l rs1 m _ => exact setExt_reg s l m r
  | setcurve k rs1 rs2 E _ => exact setCurve_reg s k E r
  | _ => rfl

theorem effect_of_writeResult {i : Instr} {s t : State} {rd : Reg} {n : Nat}
    {r : Except FaultCode Value} (hdest : dest i = some rd) (hr : ∀ v, r = .ok v → s.Result i v)
    (ht : State.writeResult { s with din := s.din.drop n } (encode i) rd r = .next t) :
    Effect i s t := by
  rcases writeResult_cases ht with ⟨v, hv, e⟩ | ⟨c, -, e⟩
  · cases e
    exact .write n rd v hdest (hr v hv)
  · cases e
    exact .fault n c

/-- All a command can do. -/
theorem effect_of_exec {i : Instr} {s t : State} (ht : exec i s = .next t) : Effect i s t := by
  by_cases hld : ∃ rd, i = .ld rd
  · obtain ⟨rd, rfl⟩ := hld
    rcases execLd_results rd s with hhold | ⟨n, r, hexec, hr⟩
    · cases hhold.symm.trans ht
      exact .hold
    · exact effect_of_writeResult rfl hr (hexec ▸ ht)
  · have hnot : ∀ rd, i ≠ .ld rd := fun rd h => hld ⟨rd, h⟩
    rcases exec_cases i s with hld' | ⟨hdest, r, hexec, heffect⟩ | ⟨rd, -, hdest, -⟩
    · exact absurd hld' hld
    · rcases conclude_cases (hexec.symm.trans ht) with ⟨u, hr, e⟩ | ⟨c, -, e⟩
      · cases e
        exact .plain u hdest (heffect u hr)
      · cases e
        exact .fault 0 c
    · obtain ⟨rd, r, hdest, hexec, hr⟩ := writing_of_dest (s := s) hdest (hnot rd)
      exact effect_of_writeResult (n := 0) hdest hr (hexec ▸ ht)

/-- A command keeps the invariant. -/
theorem exec_keeps_inv {i : Instr} {s t : State} (h : s.Inv) (ht : exec i s = .next t) : t.Inv := by
  cases effect_of_exec ht with
  | hold => exact h
  | fault n c => exact inv_takeFault (inv_queues h (s.din.drop n) s.dout) (encode i) c
  | write n rd v _ hv =>
    exact inv_complete (inv_setReg (inv_queues h (s.din.drop n) s.dout) rd (hv.2 h))
  | plain u hdest _ => exact plain_keeps_inv h hdest ht

end Sys2Proof.Machine

namespace Sys2Proof.Claims

open Sys2Proof.Machine

/-- Settles O9: a step holds, rejects a word, or runs a command. -/
theorem stepKeepsInv : Obligations.StepKeepsInv := by
  unfold Obligations.StepKeepsInv
  intro s t h ht
  unfold step at ht
  split at ht
  · cases ht
    exact h
  · split at ht
    · cases ht
      exact inv_takeFault h _ .illegalCommand
    · exact exec_keeps_inv h ht

/-- Settles O12: an effect writes the destination or no register. -/
theorem onlyDestinationChanges : Obligations.OnlyDestinationChanges := by
  unfold Obligations.OnlyDestinationChanges
  intro i s t r ht hr
  cases effect_of_exec ht with
  | hold => rfl
  | fault n c => rfl
  | write n rd v hdest _ =>
    have hne : r ≠ rd := by
      rintro rfl
      exact hr hdest
    exact reg_setReg_ne _ v hne
  | plain u _ heffect => exact heffect.reg r

/-- Settles O13: a register that changed is the destination, and its value a result of the command. -/
theorem tagsByCommand : Obligations.TagsByCommand := by
  unfold Obligations.TagsByCommand
  intro i s t r ht hchanged
  have hdest : dest i = some r := by
    by_contra hne
    exact hchanged (onlyDestinationChanges i s t r ht hne)
  cases effect_of_exec ht with
  | hold => exact absurd rfl hchanged
  | fault n c => exact absurd rfl hchanged
  | write n rd v hrd hv =>
    cases hrd.symm.trans hdest
    rw [complete_reg, reg_setReg_self]
    exact hv.1
  | plain u hnone _ => cases hnone.symm.trans hdest

/-- Settles O15: a configuration command writes its own context, which was not valid; no other effect touches
a context. -/
theorem contextsWriteOnce : Obligations.ContextsWriteOnce := by
  unfold Obligations.ContextsWriteOnce
  intro i s t ht
  cases effect_of_exec ht with
  | hold => simp
  | fault n c => simp
  | write n rd v _ _ => simp
  | plain u _ heffect =>
    cases heffect with
    | setp rs1 p hfree => simp [hfree]
    | setmod l rs1 m hfree =>
      cases l <;> simp_all [State.setExt, State.extValid]
    | setcurve k rs1 rs2 E hfree =>
      cases k <;> simp_all [State.setCurve, State.curve]
    | settwist rs1 rs2 tw hfree => simp [hfree]
    | setpair post rs1 rs2 rs3 c hfree => simp [hfree]
    | st rs1 ws => simp

end Sys2Proof.Claims

/-! PROOFS. The faults before a command's function, in the order of rule R315: a configuration command whose
context is valid, a needed context that is not, and the first source that fails its test. -/

namespace Sys2Proof.Machine

open Sys2Proof.Claims

variable {s : State}

/-! ### Faults end a command -/

/-- The command `i` ends in `s` by what the sequence `x` answers: a fault of `x` is a fault of the command. -/
def FaultsBy {β : Type} (i : Instr) (s : State) (x : Except FaultCode β) : Prop :=
  ∀ c, x = .error c → exec i s = .next (Faults s (encode i) c)

theorem faultsBy_of_conclude {i : Instr} {x : Except FaultCode State}
    (h : exec i s = s.conclude (encode i) x) : FaultsBy i s x := by
  rintro c rfl
  exact h

theorem faultsBy_of_writeResult {i : Instr} {rd : Reg} {x : Except FaultCode Value}
    (h : exec i s = s.writeResult (encode i) rd x) : FaultsBy i s x := by
  rintro c rfl
  exact h

/-! ### Contexts -/

theorem needContext_of_none {α : Type} {c : Option α} (h : c = none) :
    needContext c = .error .contextInvalid := by
  rw [h, needContext_none]

theorem needField_of_usable {l : Level} (h : s.usable l = true) : s.needField l = .ok (s.field l) :=
  needField_eq_ok.2 ⟨h, rfl⟩

theorem needField_of_not_usable {l : Level} (h : s.usable l = false) :
    s.needField l = .error .contextInvalid := by
  simp [State.needField, h]

theorem needPair_of_none (h : s.pair = none) : s.needPair = .error .contextInvalid := by
  rw [State.needPair, h, needContext_none, bind_error]

theorem needPair_of_pairReady (h : pairReady s) : ∃ e, s.needPair = .ok e := by
  obtain ⟨hpair, h0, h1, h2, htw⟩ := h
  obtain ⟨c, hc⟩ := Option.isSome_iff_exists.1 hpair
  obtain ⟨E0, hE0⟩ := Option.isSome_iff_exists.1 h0
  obtain ⟨E1, hE1⟩ := Option.isSome_iff_exists.1 h1
  obtain ⟨E2, hE2⟩ := Option.isSome_iff_exists.1 h2
  obtain ⟨tw, htw⟩ := Option.isSome_iff_exists.1 htw
  exact ⟨⟨c, E0, E1, E2, tw⟩, needPair_eq_ok.2 ⟨hc, hE0, hE1, hE2, htw⟩⟩

theorem notLocked_of_none {α : Type} {c : Option α} (h : c = none) : notLocked c = .ok () :=
  notLocked_eq_ok.2 h

theorem notLocked_of_isSome {α : Type} {c : Option α} (h : c.isSome = true) :
    notLocked c = .error .configLocked := by
  obtain ⟨a, rfl⟩ := Option.isSome_iff_exists.1 h
  rfl

end Sys2Proof.Machine

namespace Sys2Proof.Claims

open Sys2Proof.Machine

/-- Settles O20: the VALID bit is the first test of every configuration command. -/
theorem configLocked : Obligations.ConfigLocked := by
  unfold Obligations.ConfigLocked
  refine fun s => ⟨fun r h => ?_, fun l r h => ?_, fun k a b h => ?_, fun a b h => ?_,
    fun post a b c h => ?_⟩
  · exact faultsBy_of_conclude rfl _ (by rw [notLocked_of_isSome h, bind_error])
  · exact faultsBy_of_conclude rfl _ (by rw [h, Bool.not_true, require_false, bind_error])
  · exact faultsBy_of_conclude rfl _ (by rw [notLocked_of_isSome h, bind_error])
  · exact faultsBy_of_conclude rfl _ (by rw [notLocked_of_isSome h, bind_error])
  · exact faultsBy_of_conclude rfl _ (by rw [notLocked_of_isSome h, bind_error])

end Sys2Proof.Claims

namespace Sys2Proof.Machine

open Sys2Proof.Claims

variable {s : State}

/-! ### A needed context that is not valid (rule R41) -/

theorem elemBinary_of_not_usable {l : Level} {rs1 rs2 : Reg}
    {f : FieldOps (Elem l) → Elem l → Elem l → Except FaultCode (Elem l)}
    (h : s.usable l = false) : s.elemBinary l rs1 rs2 f = .error .contextInvalid := by
  rw [State.elemBinary, needField_of_not_usable h, bind_error]

theorem elemUnary_of_not_usable {l : Level} {rs1 : Reg}
    {f : FieldOps (Elem l) → Elem l → Except FaultCode (Elem l)}
    (h : s.usable l = false) : s.elemUnary l rs1 f = .error .contextInvalid := by
  rw [State.elemUnary, needField_of_not_usable h, bind_error]

theorem elemPower_of_not_usable {l : Level} {rs1 rs2 : Reg}
    (h : s.usable l = false) : s.elemPower l rs1 rs2 = .error .contextInvalid := by
  rw [State.elemPower, needField_of_not_usable h, bind_error]

theorem elemEqual_of_not_usable {l : Level} {rs1 rs2 : Reg}
    (h : s.usable l = false) : s.elemEqual l rs1 rs2 = .error .contextInvalid := by
  rw [State.elemEqual, needField_of_not_usable h, bind_error]

theorem pointUnary_of_none {k : Slot} {rs1 : Reg}
    {f : FieldOps (Elem k.level) → CurveCtx (Elem k.level) → Point (Elem k.level) →
      Except FaultCode Value} (h : s.curve k = none) :
    s.pointUnary k rs1 f = .error .contextInvalid := by
  rw [State.pointUnary, State.needCurve, needContext_of_none h, bind_error]

/-- SETPAIR needs four contexts; the first that is not valid names the same fault as any other. -/
theorem setpair_of_missing {post : Post} {rs1 rs2 rs3 : Reg} (hfree : s.pair = none)
    (h : s.curve0 = none ∨ s.curve1 = none ∨ s.curve2 = none ∨ s.twist = none) :
    exec (.setpair post rs1 rs2 rs3) s =
      .next (Faults s (encode (.setpair post rs1 rs2 rs3)) .contextInvalid) := by
  refine faultsBy_of_conclude rfl _ ?_
  rw [notLocked_of_none hfree, bind_ok]
  cases h0 : s.curve0 with
  | none => rw [needContext_none, bind_error]
  | some E0 =>
    rw [needContext_some, bind_ok]
    cases h1 : s.curve1 with
    | none => rw [needContext_none, bind_error]
    | some E1 =>
      rw [needContext_some, bind_ok]
      cases h2 : s.curve2 with
      | none => rw [needContext_none, bind_error]
      | some E2 =>
        have htw : s.twist = none := by simpa [h0, h1, h2] using h
        rw [needContext_some, bind_ok, needContext_of_none htw, bind_error]

/-- A needed context that is not valid is the first fault of a command (rules R110 step 4, R315). -/
theorem exec_of_contextMissing {i : Instr} (hwf : i.wellFormed = true) (h : contextMissing s i) :
    exec i s = .next (Faults s (encode i) .contextInvalid) := by
  cases i with
  | setp | ld | st => exact h.elim
  | setmod =>
    refine faultsBy_of_conclude rfl _ ?_
    rw [h.1, Bool.not_false, require_true, bind_ok, needField_of_not_usable h.2, bind_error]
  | setcurve =>
    refine faultsBy_of_conclude rfl _ ?_
    rw [notLocked_of_none h.1, bind_ok, needField_of_not_usable h.2, bind_error]
  | settwist =>
    refine faultsBy_of_conclude rfl _ ?_
    rw [notLocked_of_none h.1, bind_ok, needField_of_not_usable h.2, bind_error]
  | setpair => exact setpair_of_missing h.1 h.2
  | fpAdd | fpSub | fpMul | fpDiv | xfAdd | xfSub | xfMul | xfDiv =>
    exact faultsBy_of_writeResult rfl _ (elemBinary_of_not_usable h)
  | fpNeg | fpInv | xfNeg | xfInv | frob | conj =>
    exact faultsBy_of_writeResult rfl _ (elemUnary_of_not_usable h)
  | fpExp | xfExp => exact faultsBy_of_writeResult rfl _ (elemPower_of_not_usable h)
  | fpEq | xfEq => exact faultsBy_of_writeResult rfl _ (elemEqual_of_not_usable h)
  | xfMod | lift =>
    exact faultsBy_of_writeResult rfl _ (by rw [needField_of_not_usable h, bind_error])
  | ecIsZero | ecIsOnCurve | ecDbl | ecNeg | ecFrob =>
    exact faultsBy_of_writeResult rfl _ (pointUnary_of_none h)
  | ecAdd | ecSmul | line =>
    exact faultsBy_of_writeResult rfl _
      (by rw [State.needCurve, needContext_of_none h, bind_error])
  | untwist | twist =>
    exact faultsBy_of_writeResult rfl _ (by rw [needContext_of_none h, bind_error])
  | miller | finalexp | subgrpG1 | subgrpG2 | pair =>
    exact faultsBy_of_writeResult rfl _ (by rw [needPair_of_none h, bind_error])
  | pairchk _ rs1 rs2 n =>
    have hfit : decide (RunsFit rs1 rs2 n) = true := hwf
    refine faultsBy_of_writeResult rfl _ ?_
    rw [hfit, require_true, bind_ok, needPair_of_none h, bind_error]

/-- No context is valid (rule R342). -/
structure Unconfigured (s : State) : Prop where
  prime : s.prime = none
  ext1 : s.ext1 = none
  ext2 : s.ext2 = none
  ext3 : s.ext3 = none
  curve0 : s.curve0 = none
  curve1 : s.curve1 = none
  curve2 : s.curve2 = none
  twist : s.twist = none
  pair : s.pair = none

theorem Unconfigured.usable (h : Unconfigured s) (l : Level) : s.usable l = false := by
  cases l <;> simp [State.usable, h.prime]

theorem Unconfigured.extValid (h : Unconfigured s) (l : ExtLevel) : s.extValid l = false := by
  cases l <;> simp [State.extValid, h.ext1, h.ext2, h.ext3]

theorem Unconfigured.curve (h : Unconfigured s) (k : Slot) : s.curve k = none := by
  cases k with
  | c0 => exact h.curve0
  | c1 => exact h.curve1
  | c2 => exact h.curve2

/-- While nothing is configured, every command but SETP, ST and LD misses a context. -/
theorem Unconfigured.contextMissing (h : Unconfigured s) {i : Instr} (hsetp : ∀ r, i ≠ .setp r)
    (hst : ∀ r, i ≠ .st r) (hld : ∀ r, i ≠ .ld r) : contextMissing s i := by
  cases i with
  | setp r => exact absurd rfl (hsetp r)
  | st r => exact absurd rfl (hst r)
  | ld r => exact absurd rfl (hld r)
  | setmod l => exact ⟨h.extValid l, h.usable l.base⟩
  | setcurve k => exact ⟨h.curve k, h.usable k.level⟩
  | settwist => exact ⟨h.twist, h.usable .l2⟩
  | setpair => exact ⟨h.pair, .inl h.curve0⟩
  | untwist | twist => exact h.twist
  | miller | finalexp | subgrpG1 | subgrpG2 | pair | pairchk => exact h.pair
  | ecIsZero k | ecIsOnCurve k | ecAdd k | ecDbl k | ecNeg k | ecSmul k | line k | ecFrob k =>
    exact h.curve k
  | _ => exact h.usable _

end Sys2Proof.Machine

namespace Sys2Proof.Claims

open Sys2Proof.Machine

/-- Settles O19: while nothing is configured, a context is missing. -/
theorem nothingConfigured : Obligations.NothingConfigured := by
  unfold Obligations.NothingConfigured
  refine ⟨fun i s hwf h => exec_of_contextMissing hwf h, ?_⟩
  intro i s hwf hprime h1 h2 h3 hc0 hc1 hc2 htwist hpair hsetp hst hld
  have hnone : Unconfigured s := ⟨hprime, h1, h2, h3, hc0, hc1, hc2, htwist, hpair⟩
  exact exec_of_contextMissing hwf (hnone.contextMissing hsetp hst hld)

end Sys2Proof.Claims

namespace Sys2Proof.Machine

open Sys2Proof.Claims

variable {s : State} {β : Type}

/-! ### Sources in order (rules R28, R315) -/

/-- The sequence `x` reads the sources `srcs` in order: the first that fails its test names its fault. -/
def ReadsInOrder (s : State) (srcs : List (Reg × (Value → Bool))) (x : Except FaultCode β) : Prop :=
  ∀ before r accepts after, srcs = before ++ (r, accepts) :: after →
    (∀ q ∈ before, q.2 (s.reg q.1) = true) →
    (s.reg r = .empty → x = .error .operandEmpty) ∧
      (s.reg r ≠ .empty → accepts (s.reg r) = false → x = .error .typeMismatch)

theorem readsInOrder_nil (x : Except FaultCode β) : ReadsInOrder s [] x := by
  intro before r accepts after h
  simp at h

/-- A sequence that begins with a source read reads that source first. -/
theorem readsInOrder_src {α : Type} {r : Reg} {pick : Value → Option α} {accepts : Value → Bool}
    {rest : List (Reg × (Value → Bool))} {f : α → Except FaultCode β}
    (hpick : ∀ v, accepts v = (pick v).isSome) (hempty : pick .empty = none)
    (hrest : ∀ a, ReadsInOrder s rest (f a)) :
    ReadsInOrder s ((r, accepts) :: rest) (s.src r pick >>= f) := by
  intro before r' accepts' after hsplit hbefore
  cases before with
  | nil =>
    cases hsplit
    constructor
    · intro he
      rw [State.src, if_pos he, bind_error]
    · intro hne hreject
      have hnone : pick (s.reg r) = none := by simpa [hpick] using hreject
      rw [State.src, if_neg hne, hnone]
      rfl
  | cons q before =>
    cases hsplit
    have haccept : (pick (s.reg r)).isSome = true := by
      rw [← hpick]
      exact hbefore (r, accepts) (by simp)
    obtain ⟨a, ha⟩ := Option.isSome_iff_exists.1 haccept
    have hne : s.reg r ≠ .empty := by
      intro he
      rw [he, hempty] at ha
      cases ha
    rw [src_eq_ok.2 ⟨hne, ha⟩, bind_ok]
    exact hrest a before r' accepts' after rfl fun q hq => hbefore q (by simp [hq])

theorem readsInOrder_srcInt {r : Reg} {rest : List (Reg × (Value → Bool))}
    {f : Int → Except FaultCode β} (hrest : ∀ n, ReadsInOrder s rest (f n)) :
    ReadsInOrder s ((r, isInt) :: rest) (s.srcInt r >>= f) :=
  readsInOrder_src (fun _ => rfl) rfl hrest

theorem readsInOrder_srcElem {l : Level} {r : Reg} {rest : List (Reg × (Value → Bool))}
    {f : Elem l → Except FaultCode β} (hrest : ∀ a, ReadsInOrder s rest (f a)) :
    ReadsInOrder s ((r, isElem l) :: rest) (s.srcElem l r >>= f) :=
  readsInOrder_src (fun _ => rfl) (by cases l <;> rfl) hrest

theorem readsInOrder_srcPoly {l : ExtLevel} {r : Reg} {rest : List (Reg × (Value → Bool))}
    {f : List (Elem l.base) → Except FaultCode β} (hrest : ∀ c, ReadsInOrder s rest (f c)) :
    ReadsInOrder s ((r, isPoly l) :: rest) (s.srcPoly l r >>= f) :=
  readsInOrder_src (fun _ => rfl) (by cases l <;> rfl) hrest

theorem readsInOrder_srcPoint {k : Slot} {r : Reg} {rest : List (Reg × (Value → Bool))}
    {f : Point (Elem k.level) → Except FaultCode β} (hrest : ∀ P, ReadsInOrder s rest (f P)) :
    ReadsInOrder s ((r, isPoint k) :: rest) (s.srcPoint k r >>= f) :=
  readsInOrder_src (fun _ => rfl) (by cases k <;> rfl) hrest

/-- A run of registers is read one register after the other (rule R267). -/
theorem readsInOrder_run {k : Slot} {rest : List (Reg × (Value → Bool))} (regs : List Reg)
    {f : List (Point (Elem k.level)) → Except FaultCode β}
    (hrest : ∀ Ps, ReadsInOrder s rest (f Ps)) :
    ReadsInOrder s (regs.map (fun r => (r, isPoint k)) ++ rest)
      (regs.mapM (s.srcPoint k) >>= f) := by
  induction regs generalizing f with
  | nil => exact hrest []
  | cons r regs ih =>
    simp only [List.mapM_cons, bind_assoc, List.map_cons, List.cons_append]
    exact readsInOrder_srcPoint fun P => ih fun Ps => hrest (P :: Ps)

theorem readsInOrder_lastRun {k : Slot} (regs : List Reg)
    (f : List (Point (Elem k.level)) → Except FaultCode β) :
    ReadsInOrder s (regs.map fun r => (r, isPoint k)) (regs.mapM (s.srcPoint k) >>= f) := by
  simpa using readsInOrder_run regs fun Ps => readsInOrder_nil (s := s) (f Ps)

theorem elemBinary_readsInOrder {l : Level} {rs1 rs2 : Reg}
    {f : FieldOps (Elem l) → Elem l → Elem l → Except FaultCode (Elem l)}
    (hu : s.usable l = true) :
    ReadsInOrder s [(rs1, isElem l), (rs2, isElem l)] (s.elemBinary l rs1 rs2 f) := by
  rw [State.elemBinary, needField_of_usable hu, bind_ok]
  exact readsInOrder_srcElem fun _ => readsInOrder_srcElem fun _ => readsInOrder_nil _

theorem elemUnary_readsInOrder {l : Level} {rs1 : Reg}
    {f : FieldOps (Elem l) → Elem l → Except FaultCode (Elem l)} (hu : s.usable l = true) :
    ReadsInOrder s [(rs1, isElem l)] (s.elemUnary l rs1 f) := by
  rw [State.elemUnary, needField_of_usable hu, bind_ok]
  exact readsInOrder_srcElem fun _ => readsInOrder_nil _

theorem elemPower_readsInOrder {l : Level} {rs1 rs2 : Reg} (hu : s.usable l = true) :
    ReadsInOrder s [(rs1, isElem l), (rs2, isInt)] (s.elemPower l rs1 rs2) := by
  rw [State.elemPower, needField_of_usable hu, bind_ok]
  exact readsInOrder_srcElem fun _ => readsInOrder_srcInt fun _ => readsInOrder_nil _

theorem elemEqual_readsInOrder {l : Level} {rs1 rs2 : Reg} (hu : s.usable l = true) :
    ReadsInOrder s [(rs1, isElem l), (rs2, isElem l)] (s.elemEqual l rs1 rs2) := by
  rw [State.elemEqual, needField_of_usable hu, bind_ok]
  exact readsInOrder_srcElem fun _ => readsInOrder_srcElem fun _ => readsInOrder_nil _

/-- A sequence that needs a valid context goes on behind it. -/
theorem readsInOrder_needContext {α : Type} {c : Option α} {srcs : List (Reg × (Value → Bool))}
    {f : α → Except FaultCode β} (hc : c.isSome = true) (hrest : ∀ a, ReadsInOrder s srcs (f a)) :
    ReadsInOrder s srcs (needContext c >>= f) := by
  obtain ⟨a, rfl⟩ := Option.isSome_iff_exists.1 hc
  exact hrest a

theorem readsInOrder_needPair {srcs : List (Reg × (Value → Bool))} {f : PairEnv → Except FaultCode β}
    (h : pairReady s) (hrest : ∀ e, ReadsInOrder s srcs (f e)) :
    ReadsInOrder s srcs (s.needPair >>= f) := by
  obtain ⟨e, he⟩ := needPair_of_pairReady h
  rw [he, bind_ok]
  exact hrest e

theorem pointUnary_readsInOrder {k : Slot} {rs1 : Reg}
    {f : FieldOps (Elem k.level) → CurveCtx (Elem k.level) → Point (Elem k.level) →
      Except FaultCode Value} (h : (s.curve k).isSome = true) :
    ReadsInOrder s [(rs1, isPoint k)] (s.pointUnary k rs1 f) :=
  readsInOrder_needContext h fun _ => readsInOrder_srcPoint fun _ => readsInOrder_nil _

/-- LIFT accepts an INT, and an element of a level not above its own (rule R193). -/
theorem liftValue_isSome (l : Level) (v : Value) :
    (isInt v || (elemLevel v).any (· ≤ l.toNat)) = (s.liftValue l v).isSome := by
  cases v <;> cases l <;> rfl

/-- ST reads one source and accepts every tag but EMPTY (rule R117). -/
theorem st_readsInOrder {rs1 : Reg} {f : List DataWord → Except FaultCode β} :
    ReadsInOrder s (sources (.st rs1)) (s.record (s.reg rs1) >>= f) := by
  intro before r accepts after hsplit _
  obtain ⟨-, rfl, rfl, -⟩ : before = [] ∧ r = rs1 ∧ (accepts = fun _ => true) ∧ after = [] := by
    simpa [sources, List.singleton_eq_append_iff, and_assoc] using hsplit
  exact ⟨fun he => by rw [he]; rfl, fun _ hreject => by cases hreject⟩

/-- A command whose contexts are ready reads its sources in order, before anything else can fault. -/
theorem exec_readsInOrder {i : Instr} (hwf : i.wellFormed = true) (h : contextsReady s i) :
    ∃ (β : Type) (x : Except FaultCode β), FaultsBy i s x ∧ ReadsInOrder s (sources i) x := by
  cases i with
  | setp =>
    refine ⟨_, _, faultsBy_of_conclude rfl, ?_⟩
    rw [notLocked_of_none h, bind_ok]
    exact readsInOrder_srcInt fun _ => readsInOrder_nil _
  | setmod =>
    refine ⟨_, _, faultsBy_of_conclude rfl, ?_⟩
    rw [h.1, Bool.not_false, require_true, bind_ok, needField_of_usable h.2, bind_ok]
    exact readsInOrder_srcPoly fun _ => readsInOrder_nil _
  | setcurve =>
    refine ⟨_, _, faultsBy_of_conclude rfl, ?_⟩
    rw [notLocked_of_none h.1, bind_ok, needField_of_usable h.2, bind_ok]
    exact readsInOrder_srcElem fun _ => readsInOrder_srcElem fun _ => readsInOrder_nil _
  | settwist =>
    refine ⟨_, _, faultsBy_of_conclude rfl, ?_⟩
    rw [notLocked_of_none h.1, bind_ok, needField_of_usable h.2, bind_ok]
    exact readsInOrder_srcElem (l := .l2) fun _ => readsInOrder_srcElem (l := .l2) fun _ =>
      readsInOrder_nil _
  | setpair =>
    obtain ⟨hfree, h0, h1, h2, htw⟩ := h
    refine ⟨_, _, faultsBy_of_conclude rfl, ?_⟩
    rw [notLocked_of_none hfree, bind_ok]
    refine readsInOrder_needContext h0 fun _ => readsInOrder_needContext h1 fun _ =>
      readsInOrder_needContext h2 fun _ => readsInOrder_needContext htw fun _ => ?_
    exact readsInOrder_srcInt fun _ => readsInOrder_srcInt fun _ => readsInOrder_srcInt fun _ =>
      readsInOrder_nil _
  | ld => exact ⟨Unit, .ok (), nofun, readsInOrder_nil _⟩
  | st => exact ⟨_, _, faultsBy_of_conclude rfl, st_readsInOrder⟩
  | fpAdd | fpSub | fpMul | fpDiv | xfAdd | xfSub | xfMul | xfDiv =>
    exact ⟨_, _, faultsBy_of_writeResult rfl, elemBinary_readsInOrder h⟩
  | fpNeg | fpInv | xfNeg | xfInv | frob | conj =>
    exact ⟨_, _, faultsBy_of_writeResult rfl, elemUnary_readsInOrder h⟩
  | fpExp | xfExp => exact ⟨_, _, faultsBy_of_writeResult rfl, elemPower_readsInOrder h⟩
  | fpEq | xfEq => exact ⟨_, _, faultsBy_of_writeResult rfl, elemEqual_readsInOrder h⟩
  | xfMod =>
    refine ⟨_, _, faultsBy_of_writeResult rfl, ?_⟩
    rw [needField_of_usable h, bind_ok]
    exact readsInOrder_srcPoly fun _ => readsInOrder_nil _
  | lift l =>
    refine ⟨_, _, faultsBy_of_writeResult rfl, ?_⟩
    rw [needField_of_usable h, bind_ok]
    exact readsInOrder_src (liftValue_isSome l) rfl fun _ => readsInOrder_nil _
  | ecIsZero | ecIsOnCurve | ecDbl | ecNeg | ecFrob =>
    exact ⟨_, _, faultsBy_of_writeResult rfl, pointUnary_readsInOrder h⟩
  | ecAdd =>
    exact ⟨_, _, faultsBy_of_writeResult rfl, readsInOrder_needContext h fun _ =>
      readsInOrder_srcPoint fun _ => readsInOrder_srcPoint fun _ => readsInOrder_nil _⟩
  | ecSmul =>
    exact ⟨_, _, faultsBy_of_writeResult rfl, readsInOrder_needContext h fun _ =>
      readsInOrder_srcPoint fun _ => readsInOrder_srcInt fun _ => readsInOrder_nil _⟩
  | line =>
    exact ⟨_, _, faultsBy_of_writeResult rfl, readsInOrder_needContext h fun _ =>
      readsInOrder_srcPoint fun _ => readsInOrder_srcPoint fun _ => readsInOrder_srcPoint fun _ =>
        readsInOrder_nil _⟩
  | untwist | twist =>
    exact ⟨_, _, faultsBy_of_writeResult rfl, readsInOrder_needContext h fun _ =>
      readsInOrder_srcPoint fun _ => readsInOrder_nil _⟩
  | finalexp =>
    exact ⟨_, _, faultsBy_of_writeResult rfl, readsInOrder_needPair h fun _ =>
      readsInOrder_srcElem fun _ => readsInOrder_nil _⟩
  | subgrpG1 | subgrpG2 =>
    exact ⟨_, _, faultsBy_of_writeResult rfl, readsInOrder_needPair h fun _ =>
      readsInOrder_srcPoint fun _ => readsInOrder_nil _⟩
  | miller | pair =>
    exact ⟨_, _, faultsBy_of_writeResult rfl, readsInOrder_needPair h fun _ =>
      readsInOrder_srcPoint fun _ => readsInOrder_srcPoint fun _ => readsInOrder_nil _⟩
  | pairchk _ rs1 rs2 n =>
    have hfit : decide (RunsFit rs1 rs2 n) = true := hwf
    refine ⟨_, _, faultsBy_of_writeResult rfl, ?_⟩
    rw [hfit, require_true, bind_ok]
    exact readsInOrder_needPair h fun _ => readsInOrder_run (regRun rs1 n) fun _ =>
      readsInOrder_lastRun (regRun rs2 n) _

end Sys2Proof.Machine

namespace Sys2Proof.Claims

open Sys2Proof.Machine

/-- Settles O18: the first failing source names the fault of the sequence, and so of the command. -/
theorem firstSourceChecked : Obligations.FirstSourceChecked := by
  unfold Obligations.FirstSourceChecked
  intro i s before after r accepts hwf hready hsplit hbefore
  obtain ⟨β, x, hfaults, hreads⟩ := exec_readsInOrder hwf hready
  obtain ⟨hempty, hmismatch⟩ := hreads before r accepts after hsplit hbefore
  exact ⟨fun he => hfaults _ (hempty he), fun hne hreject => hfaults _ (hmismatch hne hreject)⟩

end Sys2Proof.Claims

/-! PROOFS. What the configuration commands store, once their contexts are ready and their sources read
(40_config_transfer.md). -/

namespace Sys2Proof.Machine

open Sys2Proof.Claims

variable {s : State}

theorem srcInt_of_reg {r : Reg} {n : Int} (h : s.reg r = .int n) : s.srcInt r = .ok n :=
  srcInt_eq_ok.2 h

theorem srcElem_of_reg {l : Level} {r : Reg} {a : Elem l} (h : s.reg r = .ofElem l a) :
    s.srcElem l r = .ok a := srcElem_eq_ok.2 h

theorem srcPoly_of_reg {l : ExtLevel} {r : Reg} {c : List (Elem l.base)}
    (h : s.reg r = .ofPoly l c) : s.srcPoly l r = .ok c := srcPoly_eq_ok.2 h

/-- The configuration command `i` completes with `u` stored when `legal` and takes the fault `c` otherwise. -/
def StoresOrFaults (s : State) (i : Instr) (legal : Prop) (c : FaultCode) (u : State) : Prop :=
  (legal → exec i s = .next (Completes u)) ∧
    (¬ legal → exec i s = .next (Faults s (encode i) c))

/-- A command with one test left stores or faults by that test. -/
theorem storesOrFaults_of_require {i : Instr} {b : Bool} {c : FaultCode} {u : State}
    (hexec : exec i s = s.conclude (encode i) (do require b c; .ok u)) :
    StoresOrFaults s i (b = true) c u := by
  cases b with
  | true => exact ⟨fun _ => hexec, fun h => absurd rfl h⟩
  | false => exact ⟨fun h => absurd h Bool.false_ne_true, fun _ => hexec⟩

/-- Two tests in sequence that raise the same fault are one test. -/
theorem require_require {β : Type} (b b' : Bool) (c : FaultCode) (x : Except FaultCode β) :
    (do require b c; require b' c; x) = (do require (b && b') c; x) := by
  cases b <;> rfl

/-! ### SETP -/

theorem setp_storesOrFaults {r : Reg} {n : Int} (hfree : s.prime = none) (hr : s.reg r = .int n) :
    StoresOrFaults s (.setp r) (2 < n ∧ n < 2 ^ (64 * s.build.flimbs)) .badParameter
      { s with prime := some n.toNat } := by
  rw [← decide_eq_true_iff (p := 2 < n ∧ _)]
  refine storesOrFaults_of_require ?_
  show State.conclude s _ _ = _
  rw [notLocked_of_none hfree, bind_ok, srcInt_of_reg hr, bind_ok]

/-! ### SETMOD -/

/-- The zero test of a level finds its zero (rule R174). -/
theorem isZero_eq_false_iff {l : Level} {a : Elem l} (ha : s.ElemOk l a) :
    (s.field l).isZero a = false ↔ a ≠ (s.field l).zero := by
  rw [← Bool.not_eq_true, (field_exactEq s l).isZero a ha]

theorem setmod_storesOrFaults {l : ExtLevel} {r : Reg} {m : List (Elem l.base)}
    (hfree : s.extValid l = false) (hu : s.usable l.base = true) (hr : s.reg r = .ofPoly l m) :
    StoresOrFaults s (.setmod l r) ((1 ≤ m.length - 1 ∧ m.length - 1 ≤ s.build.dmax) ∧
        (s.field l.base).isZero (m.getD (m.length - 1) (s.field l.base).zero) = false)
      .badParameter (withModulus s l m) := by
  have hset : s.setExt l m = withModulus s l m := by cases l <;> rfl
  rw [← decide_eq_true_iff (p := 1 ≤ m.length - 1 ∧ _), ← Bool.not_eq_true', ← Bool.and_eq_true]
  refine storesOrFaults_of_require ?_
  show State.conclude s _ _ = _
  rw [hfree, Bool.not_false, require_true, bind_ok, needField_of_usable hu, bind_ok,
    srcPoly_of_reg hr, bind_ok, require_require, hset]

/-! ### SETCURVE -/

/-- What follows in every ring follows in the level's ring. -/
theorem inRing_mono {l : Level} {P Q : (R : Type) → [CommRing R] → (Elem l → R) → Prop}
    (hPQ : ∀ (R : Type) [CommRing R] (φ : Elem l → R), P R φ → Q R φ) (h : s.InRing l P) :
    s.InRing l Q := by
  cases l with
  | l0 => exact hPQ _ _ h
  | l1 => exact hPQ _ _ h
  | l2 => exact hPQ _ _ h
  | l3 => exact hPQ _ _ h

/-- What the reading in the level's ring implies of anything outside of it. -/
theorem inRing_mp {l : Level} {P : (R : Type) → [CommRing R] → (Elem l → R) → Prop} {C : Prop}
    (hC : s.InRing l fun R _ φ => P R φ → C) (h : s.InRing l P) : C := by
  cases l with
  | l0 => exact hC h
  | l1 => exact hC h
  | l2 => exact hC h
  | l3 => exact hC h

/-- The discriminant the engine computes is zero exactly where `4*a^3 + 27*b^2` is zero in the ring (rules
R113, R303). -/
theorem isZero_discriminant (h : s.Inv) {l : Level} (hu : s.usable l = true)
    (hlead : s.ModuliInvertible l) {a b : Elem l} (ha : s.ElemOk l a) (hb : s.ElemOk l b) :
    ∃ d, discriminant (s.field l) a b = .ok d ∧
      s.InRing l fun _ _ φ => (s.field l).isZero d = false ↔ 4 * φ a ^ 3 + 27 * φ b ^ 2 ≠ 0 := by
  have hF := field_closed h hu
  obtain ⟨d, hd⟩ := discriminant_total hF (field_mulTotal h hu hlead) ha hb
  refine ⟨d, hd, inRing_sep h hu hlead fun R _ φ hR hS => ?_⟩
  have hdok := discriminant_closed hF ha hb hd
  calc (s.field l).isZero d = false ↔ d ≠ (s.field l).zero := isZero_eq_false_iff hdok
    _ ↔ φ d ≠ φ (s.field l).zero := not_congr ⟨congrArg φ, hS d _ hdok hF.zero⟩
    _ ↔ 4 * φ a ^ 3 + 27 * φ b ^ 2 ≠ 0 := by
      rw [hR.zero, discriminant_represents hF hR ha hb hd]

theorem setcurve_storesOrFaults {k : Slot} {r1 r2 : Reg} {a b d : Elem k.level}
    (hfree : s.curve k = none) (hu : s.usable k.level = true) (h1 : s.reg r1 = .ofElem k.level a)
    (h2 : s.reg r2 = .ofElem k.level b) (hd : discriminant (s.field k.level) a b = .ok d) :
    StoresOrFaults s (.setcurve k r1 r2) ((s.field k.level).isZero d = false) .singularCurve
      (withCurve s k { a := a, b := b }) := by
  have hset : ∀ E, s.setCurve k E = withCurve s k E := by cases k <;> exact fun _ => rfl
  rw [← Bool.not_eq_true']
  refine storesOrFaults_of_require ?_
  show State.conclude s _ _ = _
  rw [notLocked_of_none hfree, bind_ok, needField_of_usable hu, bind_ok, srcElem_of_reg h1, bind_ok,
    srcElem_of_reg h2, bind_ok, hd, bind_ok, hset]

/-! ### SETTWIST -/

theorem settwist_storesOrFaults {r1 r2 : Reg} {ux uy : Elem .l2} (hfree : s.twist = none)
    (hu : s.usable .l2 = true) (h1 : s.reg r1 = .ofElem .l2 ux) (h2 : s.reg r2 = .ofElem .l2 uy) :
    StoresOrFaults s (.settwist r1 r2)
      ((s.field .l2).isZero ux = false ∧ (s.field .l2).isZero uy = false) .badParameter
      { s with twist := some { ux := ux, uy := uy } } := by
  rw [← Bool.not_eq_true', ← Bool.not_eq_true', ← Bool.and_eq_true]
  refine storesOrFaults_of_require ?_
  show State.conclude s _ _ = _
  rw [notLocked_of_none hfree, bind_ok, needField_of_usable hu, bind_ok, srcElem_of_reg h1, bind_ok,
    srcElem_of_reg h2, bind_ok]

/-! ### SETPAIR -/

theorem bind_needContext {α β : Type} {c : Option α} (hc : c.isSome = true)
    (x : Except FaultCode β) : (needContext c >>= fun _ => x) = x := by
  obtain ⟨a, rfl⟩ := Option.isSome_iff_exists.1 hc
  rfl

theorem setpair_storesOrFaults {post : Post} {r1 r2 r3 : Reg} {r pos neg : Int}
    (hfree : s.pair = none) (h0 : s.curve0.isSome = true) (h1 : s.curve1.isSome = true)
    (h2 : s.curve2.isSome = true) (htw : s.twist.isSome = true) (hr : s.reg r1 = .int r)
    (hpos : s.reg r2 = .int pos) (hneg : s.reg r3 = .int neg) :
    StoresOrFaults s (.setpair post r1 r2 r3) (s.pairParametersLegal post r pos neg = true)
      .badParameter { s with
        pair := some { r := r.toNat, loopPos := pos.toNat, loopNeg := neg.toNat, post := post } } := by
  refine storesOrFaults_of_require ?_
  show State.conclude s _ _ = _
  rw [notLocked_of_none hfree, bind_ok, bind_needContext h0, bind_needContext h1,
    bind_needContext h2, bind_needContext htw, srcInt_of_reg hr, bind_ok, srcInt_of_reg hpos, bind_ok,
    srcInt_of_reg hneg, bind_ok]

end Sys2Proof.Machine

namespace Sys2Proof.Claims

open Sys2Proof.Machine

/-- Settles O21: the bounds are the one test left once PRIME is free and the source an INT. -/
theorem setpOutcome : Obligations.SetpOutcome := by
  unfold Obligations.SetpOutcome
  intro s r n hfree hr
  exact setp_storesOrFaults hfree hr

/-- Settles O22: the last coefficient is the one SETMOD tests, and zero is the one element it refuses. -/
theorem setmodOutcome : Obligations.SetmodOutcome := by
  unfold Obligations.SetmodOutcome
  intro s l r low lead h hfree hu hr
  obtain ⟨-, -, -, helems⟩ := reg_poly h hr
  have hdegree : (low ++ [lead]).length - 1 = low.length := by simp
  have hlast : (low ++ [lead]).getD low.length (s.field l.base).zero = lead := by simp
  have hnonzero : (s.field l.base).isZero lead = false ↔ lead ≠ zeroOf s l.base :=
    isZero_eq_false_iff (helems lead (by simp))
  have hstore := setmod_storesOrFaults hfree hu hr
  rwa [hdegree, hlast, hnonzero, and_assoc] at hstore

/-- Settles O23: over moduli with invertible leading coefficients the discriminant is computed exactly. -/
theorem setcurveOutcome : Obligations.SetcurveOutcome := by
  unfold Obligations.SetcurveOutcome
  intro s k r1 r2 a b h hfree hu hlead h1 h2
  obtain ⟨d, hd, hzero⟩ := isZero_discriminant h hu hlead (reg_elem h h1).2 (reg_elem h h2).2
  obtain ⟨hstore, hfault⟩ := setcurve_storesOrFaults hfree hu h1 h2 hd
  constructor
  · intro hne
    exact hstore (inRing_mp (inRing_mono (fun _ _ _ hiff => hiff.2) hzero) hne)
  · intro heq
    exact hfault (inRing_mp (inRing_mono (fun _ _ _ hiff heq h => hiff.1 h heq) hzero) heq)

/-- Settles O24: the zero test of level 2 finds the list of zeros alone. -/
theorem settwistOutcome : Obligations.SettwistOutcome := by
  unfold Obligations.SettwistOutcome
  intro s r1 r2 ux uy h hfree hu h1 h2
  have hx : (s.field .l2).isZero ux = false ↔ ux ≠ zeros2 s :=
    isZero_eq_false_iff (reg_elem (l := .l2) h h1).2
  have hy : (s.field .l2).isZero uy = false ↔ uy ≠ zeros2 s :=
    isZero_eq_false_iff (reg_elem (l := .l2) h h2).2
  obtain ⟨hstore, hfault⟩ := settwist_storesOrFaults hfree hu h1 h2
  rw [hx, hy] at hstore hfault
  exact ⟨hstore, fun hzero => hfault fun ⟨hux, huy⟩ => hzero.elim hux huy⟩

/-- Settles O25: the tests of `State.pairParametersLegal` are those of rule R115. -/
theorem setpairOutcome : Obligations.SetpairOutcome := by
  unfold Obligations.SetpairOutcome
  intro s post r1 r2 r3 r pos neg hfree h0 h1 h2 htw hr hpos hneg
  have hstore := setpair_storesOrFaults (post := post) hfree h0 h1 h2 htw hr hpos hneg
  rwa [pairParametersLegal_iff] at hstore

end Sys2Proof.Claims

/-! PROOFS. Reset and the status registers (rules R42 to R46, R49). -/

namespace Sys2Proof.Machine

/-- Reset leaves no value to check and no valid context (rules R22, R49). -/
theorem resetWith_inv {b : Config.Build} (hb : b.Legal) : (State.resetWith b).Inv where
  build := hb
  regs r := by
    rw [resetWith_reg]
    trivial
  prime := nofun
  ext1 := nofun
  ext2 := nofun
  ext3 := nofun
  curve0 := nofun
  curve1 := nofun
  curve2 := nofun
  twist := nofun
  pair := nofun
  faultCmd _ := rfl

theorem statusWord_of_ready {s : State} (h : s.mode = .ready) : s.statusWord = 0 := by
  simp only [State.statusWord, h, Mode.errField, Mode.stateField]
  decide

/-- STATUS holds STATE in bits 1:0 and ERR in bits 15:8 (rule R42). -/
theorem readStatus_of_fault {s : State} {c : FaultCode} (h : s.mode = .fault c) :
    s.readStatus 0 = BitVec.ofNat 64 (2 + 256 * c.code.toNat) := by
  simp only [State.readStatus, if_true, State.statusWord, h, Mode.stateField, Mode.errField]
  cases c <;> rfl

/-- One bit more at the low end of a word whose bits are `bits`, from bit 0 on. -/
theorem getLsbD_append_ofBool {w : Nat} {x : BitVec w} {bits : List Bool}
    (hx : ∀ n, x.getLsbD n = bits.getD n false) (b : Bool) (n : Nat) :
    (x ++ BitVec.ofBool b).getLsbD n = (b :: bits).getD n false := by
  rw [BitVec.getLsbD_append]
  cases n with
  | zero => simp
  | succ n => simpa using hx n

/-- Bit `n` of CFGVALID is the VALID bit of the context number `n`; bits 31:9 are zero (rule R45). -/
theorem getLsbD_cfgValidWord (s : State) (n : Nat) :
    s.cfgValidWord.getLsbD n = [s.prime.isSome, s.ext1.isSome, s.ext2.isSome, s.ext3.isSome,
      s.curve0.isSome, s.curve1.isSome, s.curve2.isSome, s.twist.isSome,
      s.pair.isSome].getD n false := by
  have hzero : ∀ n, (0 : BitVec 23).getLsbD n = [].getD n false := by simp
  have hpair := getLsbD_append_ofBool hzero s.pair.isSome
  have htwist := getLsbD_append_ofBool hpair s.twist.isSome
  have hcurve2 := getLsbD_append_ofBool htwist s.curve2.isSome
  have hcurve1 := getLsbD_append_ofBool hcurve2 s.curve1.isSome
  have hcurve0 := getLsbD_append_ofBool hcurve1 s.curve0.isSome
  have hext3 := getLsbD_append_ofBool hcurve0 s.ext3.isSome
  have hext2 := getLsbD_append_ofBool hext3 s.ext2.isSome
  have hext1 := getLsbD_append_ofBool hext2 s.ext1.isSome
  exact getLsbD_append_ofBool hext1 s.prime.isSome n

/-- The four status registers read as zero right after reset (rule R49). -/
theorem readStatus_resetWith (b : Config.Build) (n : BitVec 2) :
    (State.resetWith b).readStatus n = 0 := by
  have hcfg : (State.resetWith b).cfgValidWord = 0 := by
    simp only [State.cfgValidWord, State.resetWith, Option.isSome_none]
    decide
  have hstatus : (State.resetWith b).statusWord = 0 := statusWord_of_ready rfl
  have hfaultCmd : (State.resetWith b).faultCmd = 0 := rfl
  have hcmdCnt : (State.resetWith b).cmdCnt = 0 := rfl
  simp [State.readStatus, hcfg, hstatus, hfaultCmd, hcmdCnt]

end Sys2Proof.Machine

namespace Sys2Proof.Claims

open Sys2Proof.Machine

/-- Settles O10: the build parameters of rule R9's table are legal ones. -/
theorem resetMeetsInv : Obligations.ResetMeetsInv := by
  unfold Obligations.ResetMeetsInv
  exact ⟨resetWith_inv (by decide), fun b hb => resetWith_inv hb⟩

/-- Settles O16: each register by its fields, CFGVALID bit by bit. -/
theorem statusRegisters : Obligations.StatusRegisters := by
  unfold Obligations.StatusRegisters
  refine ⟨fun s h => ?_, fun s c h => readStatus_of_fault h, fun s => ?_, fun s => rfl,
    fun s n => ?_, rfl⟩
  · simp [State.readStatus, statusWord_of_ready h]
  · have hlt := s.faultCmd.isLt
    show (s.faultCmd.setWidth 64).toNat = s.faultCmd.toNat
    rw [BitVec.toNat_setWidth]
    exact Nat.mod_eq_of_lt (by omega)
  · rw [← getLsbD_cfgValidWord]
    have hlt : s.cfgValidWord.getLsbD n = true → n < 64 := fun h =>
      (BitVec.lt_of_getLsbD h).trans (by omega)
    simpa [State.readStatus] using hlt

/-- Settles O17: reset leaves the state `State.resetWith`, whatever the state before. -/
theorem resetState : Obligations.ResetState := by
  unfold Obligations.ResetState
  intro s
  rw [assertReset_eq]
  exact ⟨resetWith_reg s.build, rfl, readStatus_resetWith s.build 0, readStatus_resetWith s.build 1,
    readStatus_resetWith s.build 2, readStatus_resetWith s.build 3, rfl, rfl, rfl⟩

end Sys2Proof.Claims

/-! PROOFS. LD and ST (20_memory.md, rules R116, R117): the words of a record, its header and its payload,
what LD does with what it finds on `din`, and the two data ports. -/

namespace Sys2Proof.Machine

open Sys2Proof.Claims

variable {s : State}

/-! ### Words and coefficients -/

/-- The words of an integer, taken one by one or one after the other (rule R65). -/
theorem wordsOf_eq_limbs (w n : Nat) : wordsOf w n = limbs w n := by
  induction w generalizing n with
  | zero => rfl
  | succ w ih =>
    rw [limbs, ← ih (n / 2 ^ 64), wordsOf, List.range_succ_eq_map, List.map_cons, List.map_map, wordsOf]
    congr 1
    · simp
    · refine List.map_congr_left fun i _ => ?_
      simp only [Function.comp]
      rw [Nat.div_div_eq_div_mul, ← pow_add, Nat.mul_succ, Nat.add_comm]

theorem sumOf_eq_limbsValue (ws : List DataWord) : sumOf ws = limbsValue ws := by
  induction ws with
  | nil => rfl
  | cons w ws ih => rw [sumOf, limbsValue, ih]

theorem limbs_zero (w : Nat) : limbs w 0 = List.replicate w 0 := by
  induction w with
  | zero => rfl
  | succ w ih => rw [limbs, Nat.zero_div, ih, List.replicate_succ]; rfl

theorem limbsValue_take_le (k : Nat) (ws : List DataWord) : limbsValue (ws.take k) ≤ limbsValue ws := by
  induction ws generalizing k with
  | nil => simp
  | cons w ws ih =>
    cases k with
    | zero => exact Nat.zero_le _
    | succ k =>
      have := ih k
      simp only [List.take_succ_cons, limbsValue]
      omega

theorem coefficientWords_eq (s : State) (cs : List Nat) :
    coefficientWords s cs = cs.flatMap (limbs s.build.flimbs) := by
  rw [coefficientWords, funext (wordsOf_eq_limbs s.build.flimbs)]

theorem flatMap_replicate_zeros {α : Type} {f : α → List DataWord} {a : α} {w : Nat} (n : Nat)
    (h : f a = List.replicate w 0) :
    (List.replicate n a).flatMap f = List.replicate (n * w) 0 := by
  rw [List.flatMap_replicate, h, List.flatten_replicate_replicate]

/-- The zero of a level is written as zero words (rules R66, R160). -/
theorem ser_zero (s : State) (l : Level) :
    s.ser l (s.field l).zero = List.replicate (s.elemWords l) 0 := by
  have h0 : s.ser .l0 (s.field .l0).zero = List.replicate s.build.flimbs 0 := limbs_zero _
  have h1 : s.ser .l1 (s.field .l1).zero = List.replicate (s.elemWords .l1) 0 :=
    flatMap_replicate_zeros (s.degree .l1) h0
  have h2 : s.ser .l2 (s.field .l2).zero = List.replicate (s.elemWords .l2) 0 :=
    (flatMap_replicate_zeros (f := s.ser .l1) (s.degree .l2) h1).trans
      (by rw [State.elemWords, State.elemWords, ← Nat.mul_assoc]; rfl)
  cases l with
  | l0 => rw [State.elemWords, State.coeffCount, Nat.one_mul, h0]
  | l1 => exact h1
  | l2 => exact h2
  | l3 =>
    exact (flatMap_replicate_zeros (f := s.ser .l2) (s.degree .l3) h2).trans
      (by rw [State.elemWords, State.elemWords, ← Nat.mul_assoc]; rfl)

/-! ### Records (rule R67) -/

theorem record_ofElem (s : State) (l : Level) (a : Elem l) :
    s.record (.ofElem l a) = .ok (header 2 l.toNat 0 :: s.ser l a) := by cases l <;> rfl

theorem record_ofPoly (s : State) (l : ExtLevel) (c : List (Elem l.base)) :
    s.record (.ofPoly l c) = .ok (header 3 l.base.toNat c.length :: s.serPoly l.base c) := by
  cases l <;> rfl

theorem record_ofPoint (s : State) (k : Slot) (P : Point (Elem k.level)) :
    s.record (.ofPoint k P) = .ok (header 4 k.level.toNat 0 :: s.serPoint k P) := by cases k <;> rfl

/-- The identity is written as INF word 1 and zero words (rules R66, R117). -/
theorem serPoint_identity (s : State) (k : Slot) :
    s.serPoint k .identity = identityWords s k.level := by
  rw [State.serPoint, ser_zero, List.replicate_append_replicate, ← Nat.two_mul]
  rfl

theorem flatMap_flatten {α β : Type} (L : List (List α)) (f : α → List β) :
    L.flatten.flatMap f = L.flatMap fun l => l.flatMap f := by
  rw [← List.flatMap_id, List.flatMap_assoc]
  rfl

/-- The model's record of a value is the one of rules R66 and R67: an EMPTY register alone has none. -/
theorem record_eq_recordOf {v : Value} (hv : v ≠ .empty) : s.record v = .ok (recordOf s v) := by
  cases v with
  | empty => exact absurd rfl hv
  | int n =>
    rw [recordOf, wordsOf_eq_limbs]
    rfl
  | bool b => rfl
  | point0 P | point1 P | point2 P =>
    cases P with
    | identity =>
      rw [State.record, serPoint_identity]
      rfl
    | affine x y =>
      simp only [recordOf, coefficientWords_eq, List.flatMap_append, flatMap_flatten,
        List.flatMap_cons, List.flatMap_nil, List.append_nil]
      rfl
  | elem0 | elem1 | elem2 | elem3 | poly0 | poly1 | poly2 =>
    simp only [recordOf, coefficientWords_eq, flatMap_flatten, List.flatMap_cons, List.flatMap_nil,
      List.append_nil]
    rfl

/-! ### Headers (rules R67, R116) -/

theorem header_tag (h : DataWord) : (h.extractLsb' 0 4).toNat = h.toNat % 16 := by
  rw [BitVec.extractLsb'_toNat, Nat.shiftRight_zero]

theorem header_sel (h : DataWord) : (h.extractLsb' 4 2).toNat = h.toNat / 16 % 4 := by
  rw [BitVec.extractLsb'_toNat, Nat.shiftRight_eq_div_pow]

theorem header_count (h : DataWord) : (h.extractLsb' 8 8).toNat = h.toNat / 256 % 256 := by
  rw [BitVec.extractLsb'_toNat, Nat.shiftRight_eq_div_pow]

/-- Bits 7:6 and 63:16 of a header are reserved (rule R67). -/
theorem header_reserved (h : DataWord) :
    (h.extractLsb' 16 48 ≠ 0 ∨ h.extractLsb' 6 2 ≠ 0) ↔
      h.toNat / 2 ^ 16 ≠ 0 ∨ h.toNat / 64 % 4 ≠ 0 := by
  have hlt := h.isLt
  rw [← BitVec.toNat_ne_iff_ne, ← BitVec.toNat_ne_iff_ne, BitVec.extractLsb'_toNat,
    BitVec.extractLsb'_toNat, Nat.shiftRight_eq_div_pow, Nat.shiftRight_eq_div_pow,
    Nat.mod_eq_of_lt (by omega)]
  rfl

/-- The header `h` has this TAG, SEL and COUNT, and zeros in its reserved bits (rule R67). -/
structure HeaderFields (h : DataWord) (tag : Nat) (sel : BitVec 2) (n : Nat) : Prop where
  reserved : ¬ (h.extractLsb' 16 48 ≠ 0 ∨ h.extractLsb' 6 2 ≠ 0)
  tag : (h.extractLsb' 0 4).toNat = tag
  sel : h.extractLsb' 4 2 = sel
  count : (h.extractLsb' 8 8).toNat = n

theorem headerFields_header {tag sel n : Nat} (ht : tag < 16) (hs : sel < 4) (hn : n < 256) :
    HeaderFields (header tag sel n) tag (BitVec.ofNat 2 sel) n := by
  have hval : (header tag sel n).toNat = tag + 16 * sel + 256 * n := by
    rw [header, BitVec.toNat_ofNat, Nat.mod_eq_of_lt (by omega)]
  refine ⟨?_, ?_, BitVec.eq_of_toNat_eq ?_, ?_⟩
  · rw [header_reserved, hval]
    omega
  · rw [header_tag, hval]
    omega
  · rw [header_sel, hval, BitVec.toNat_ofNat]
    omega
  · rw [header_count, hval]
    omega

theorem readHeader_int (s : State) : s.readHeader (header 1 0 0) = .ok .int := by
  have hf := headerFields_header (tag := 1) (sel := 0) (n := 0) (by omega) (by omega) (by omega)
  rw [State.readHeader, if_neg hf.reserved, hf.tag, hf.sel, hf.count]
  rfl

/-- A record of a level is announced while the level is usable, and is ContextInvalid otherwise. -/
theorem readHeader_elem (s : State) (l : Level) : s.readHeader (header 2 l.toNat 0) =
    if s.usable l then .ok (.elem l) else .error .contextInvalid := by
  have hf := headerFields_header (tag := 2) (sel := l.toNat) (n := 0) (by omega)
    (by cases l <;> decide) (by omega)
  rw [State.readHeader, if_neg hf.reserved, hf.tag, hf.sel, hf.count]
  cases l <;> rfl

theorem readHeader_poly (s : State) (l : ExtLevel) {n : Nat} (hn : 1 ≤ n)
    (hmax : n ≤ s.build.polymax) (hfield : n ≤ 255) : s.readHeader (header 3 l.base.toNat n) =
      if s.usable l.base then .ok (.poly l n) else .error .contextInvalid := by
  have hf := headerFields_header (tag := 3) (sel := l.base.toNat) (n := n) (by omega)
    (by cases l <;> decide) (by omega)
  have hcount : ¬ (n < 1 ∨ s.build.polymax < n) := by omega
  rw [State.readHeader, if_neg hf.reserved, hf.tag, hf.sel, hf.count]
  cases l <;> exact if_neg hcount

theorem readHeader_point (s : State) (k : Slot) : s.readHeader (header 4 k.level.toNat 0) =
    if s.usable k.level then .ok (.point k) else .error .contextInvalid := by
  have hf := headerFields_header (tag := 4) (sel := k.level.toNat) (n := 0) (by omega)
    (by cases k <;> decide) (by omega)
  rw [State.readHeader, if_neg hf.reserved, hf.tag, hf.sel, hf.count]
  cases k <;> rfl

/-- The selector 3 names no curve slot and no base level of a POLY (rules R67, R84). -/
theorem slot_polyLevel_of_sel_three {sel : BitVec 2} (h : sel.toNat = 3) :
    Slot.ofBits sel = none ∧ polyLevel sel = none := by
  obtain rfl : sel = 3 := BitVec.eq_of_toNat_eq h
  exact ⟨rfl, rfl⟩

/-- The malformed headers of rule R116, by their fields (rule R67). -/
theorem readHeader_malformed {h : DataWord} {tag n : Nat} {sel : BitVec 2}
    (htag : (h.extractLsb' 0 4).toNat = tag) (hsel : h.extractLsb' 4 2 = sel)
    (hcount : (h.extractLsb' 8 8).toNat = n)
    (hbad : (h.extractLsb' 16 48 ≠ 0 ∨ h.extractLsb' 6 2 ≠ 0) ∨ (tag = 0 ∨ 5 ≤ tag) ∨
      (tag ≠ 3 ∧ n ≠ 0) ∨ (tag = 1 ∧ sel ≠ 0) ∨ (tag = 4 ∧ sel.toNat = 3) ∨
      (tag = 3 ∧ (sel.toNat = 3 ∨ n = 0 ∨ s.build.polymax < n))) :
    s.readHeader h = .error .badData := by
  rw [State.readHeader, htag, hsel, hcount]
  split
  · rfl
  next hreserved =>
  split
  · rfl
  next hknown =>
  split
  · rfl
  next hnopoly =>
  split
  · rfl
  next hint =>
  have hbad : (tag = 4 ∧ sel.toNat = 3) ∨
      (tag = 3 ∧ (sel.toNat = 3 ∨ n = 0 ∨ s.build.polymax < n)) := by
    rcases hbad with hbad | hbad | hbad | hbad | hbad
    · exact absurd hbad hreserved
    · omega
    · exact absurd hbad hnopoly
    · exact absurd hbad hint
    · exact hbad
  rcases hbad with ⟨rfl, hsel3⟩ | ⟨rfl, hpoly⟩
  · rw [(slot_polyLevel_of_sel_three hsel3).1]
    rfl
  · by_cases hsel3 : sel.toNat = 3
    · rw [(slot_polyLevel_of_sel_three hsel3).2]
      rfl
    · have hn : n < 1 ∨ s.build.polymax < n := by omega
      rw [if_neg (by decide), if_neg (by decide), if_pos rfl]
      split
      · rfl
      · exact if_pos hn

/-! ### LD by what stands on `din` (rules R62, R64, R116) -/

section LdOnDin

variable {rd : Reg} {h : DataWord} {ws rest : List DataWord} {a : Announced}

theorem execLd_of_arrived {n : Nat} {r : Except FaultCode Value}
    (hin : s.incoming = .arrived n r) (hdrop : s.din.drop n = rest) : exec (.ld rd) s =
      State.writeResult { s with din := rest } (encode (.ld rd)) rd r := by
  show execLd rd s = _
  rw [execLd, hin, ← hdrop]

/-- A header that faults is popped alone. -/
theorem execLd_of_header_error {c : FaultCode} (hdin : s.din = h :: rest)
    (hh : s.readHeader h = .error c) : exec (.ld rd) s =
      .next (Faults { s with din := rest } (encode (.ld rd)) c) := by
  have hin : s.incoming = .arrived 1 (.error c) := by simp only [State.incoming, hdin, hh]
  exact execLd_of_arrived hin (by rw [hdin]; rfl)

theorem execLd_of_incoming_short (hin : s.incoming = .short) : exec (.ld rd) s = .next s := by
  show execLd rd s = _
  rw [execLd, hin]
  rfl

/-- LD holds while the record its header announces is not complete. -/
theorem execLd_of_short (hdin : s.din = h :: rest) (hh : s.readHeader h = .ok a)
    (hshort : rest.length < s.payloadWords a) : exec (.ld rd) s = .next s :=
  execLd_of_incoming_short (by simp only [State.incoming, hdin, hh, if_pos hshort])

/-- A complete record is popped whole, and its payload says how LD ends. -/
theorem execLd_of_record (hdin : s.din = h :: ws ++ rest) (hh : s.readHeader h = .ok a)
    (hlen : ws.length = s.payloadWords a) : exec (.ld rd) s =
      State.writeResult { s with din := rest } (encode (.ld rd)) rd (s.readPayload ws a) := by
  have hin : s.incoming = .arrived (1 + s.payloadWords a) (s.readPayload ws a) := by
    have hnot : ¬ (ws ++ rest).length < s.payloadWords a := by
      rw [List.length_append]
      omega
    simp only [State.incoming, hdin, List.cons_append, hh, if_neg hnot, List.take_left' hlen]
  refine execLd_of_arrived hin ?_
  rw [hdin, Nat.add_comm, List.cons_append, List.drop_succ_cons, List.drop_left' hlen]

theorem execLd_writes {v : Value} (hdin : s.din = h :: ws ++ rest) (hh : s.readHeader h = .ok a)
    (hlen : ws.length = s.payloadWords a) (hv : s.readPayload ws a = .ok v) :
    exec (.ld rd) s = .next (Writes { s with din := rest } rd v) := by
  rw [execLd_of_record hdin hh hlen, hv]
  rfl

theorem execLd_faults {c : FaultCode} (hdin : s.din = h :: ws ++ rest)
    (hh : s.readHeader h = .ok a) (hlen : ws.length = s.payloadWords a)
    (hc : s.readPayload ws a = .error c) :
    exec (.ld rd) s = .next (Faults { s with din := rest } (encode (.ld rd)) c) := by
  rw [execLd_of_record hdin hh hlen, hc]
  rfl

end LdOnDin

/-! ### Payloads (rule R116) -/

theorem intPayload_pos (mag : List DataWord) : intPayload (0 :: mag) = .ok (.int (limbsValue mag)) :=
  rfl

theorem intPayload_neg (mag : List DataWord) :
    intPayload (1 :: mag) = .ok (.int (-(limbsValue mag : Int))) := rfl

theorem ne_zero_one_of_one_lt {w : DataWord} (h : 1 < w.toNat) : w ≠ 0 ∧ w ≠ 1 := by
  constructor <;> rintro rfl <;> exact absurd h (by decide)

theorem intPayload_badSign {sign : DataWord} (h : 1 < sign.toNat) (mag : List DataWord) :
    intPayload (sign :: mag) = .error .badData := by
  obtain ⟨h0, h1⟩ := ne_zero_one_of_one_lt h
  rw [intPayload, if_neg h0, if_neg h1]

theorem pointPayload_identity (s : State) (k : Slot) (coords : List DataWord) :
    s.pointPayload k (1 :: coords) = .ok .identity := rfl

theorem pointPayload_badInf {inf : DataWord} (h : 1 < inf.toNat) (k : Slot) (coords : List DataWord) :
    s.pointPayload k (inf :: coords) = .error .badData := by
  obtain ⟨h0, h1⟩ := ne_zero_one_of_one_lt h
  rw [State.pointPayload, if_neg h1, if_pos h0]

/-- INF word 0: both coordinates are read, `x` first. -/
theorem pointPayload_affine (s : State) (k : Slot) (coords : List DataWord) :
    s.pointPayload k (0 :: coords) = (do
      let x ← s.deser k.level (coords.take (s.elemWords k.level))
      let y ← s.deser k.level ((coords.drop (s.elemWords k.level)).take (s.elemWords k.level))
      .ok (.affine x y)) := rfl

/-! ### The record of a value read back -/

/-- The record of `v` is one LD reads as `v`: a header that announces its payload, and the payload. -/
def State.ReadsBack (s : State) (v : Value) : Prop :=
  ∃ h ws a, s.record v = .ok (h :: ws) ∧ s.readHeader h = .ok a ∧ ws.length = s.payloadWords a ∧
    s.readPayload ws a = .ok v

theorem readsBack_int {n : Int} (hn : s.ValueOk (.int n)) : s.ReadsBack (.int n) := by
  have hmag : limbsValue (limbs s.build.slimbs n.natAbs) = n.natAbs := by
    rw [limbsValue_limbs, Nat.mod_eq_of_lt hn]
  refine ⟨_, _, .int, rfl, readHeader_int s, ?_, ?_⟩
  · rw [State.serInt, List.length_cons, limbs_length, Nat.add_comm]
    rfl
  · rw [State.readPayload, State.serInt]
    split
    · rw [intPayload_neg, hmag]
      congr
      omega
    · rw [intPayload_pos, hmag]
      congr
      omega

theorem readsBack_elem (h : s.Inv) {l : Level} {a : Elem l} (hu : s.usable l = true)
    (ha : s.ElemOk l a) : s.ReadsBack (.ofElem l a) := by
  refine ⟨_, _, .elem l, record_ofElem s l a, (readHeader_elem s l).trans (if_pos hu), ser_length ha, ?_⟩
  rw [State.readPayload, deser_ser h hu ha]
  rfl

theorem readsBack_poly (h : s.Inv) {l : ExtLevel} {c : List (Elem l.base)}
    (hu : s.usable l.base = true) (hc : s.PolyOk l.base c) : s.ReadsBack (.ofPoly l c) := by
  obtain ⟨hlow, hhigh, helems⟩ := hc
  obtain ⟨-, -, -, -, hmax⟩ := h.build
  have hsize : ∀ a ∈ c, (s.ser l.base a).length = s.elemWords l.base := fun a ha =>
    ser_length (helems a ha)
  refine ⟨_, _, .poly l c.length, record_ofPoly s l c,
    (readHeader_poly s l hlow hhigh (hhigh.trans hmax)).trans (if_pos hu), ?_, ?_⟩
  · rw [State.serPoly, List.length_flatMap, List.map_congr_left hsize]
    simp [State.payloadWords]
  · rw [State.readPayload, State.polyPayload, State.serPoly, chunks_flatMap c hsize,
      mapM_ok_of c fun a ha => deser_ser h hu (helems a ha)]
    rfl

theorem readsBack_point (h : s.Inv) {k : Slot} {P : Point (Elem k.level)}
    (hu : s.usable k.level = true) (hP : PointOk (s.ElemOk k.level) P) :
    s.ReadsBack (.ofPoint k P) := by
  refine ⟨_, _, .point k, record_ofPoint s k P, (readHeader_point s k).trans (if_pos hu), ?_⟩
  cases P with
  | identity =>
    refine ⟨?_, ?_⟩
    · rw [serPoint_identity, identityWords, List.length_cons, List.length_replicate, Nat.add_comm]
      rfl
    · rw [State.readPayload, State.serPoint, pointPayload_identity]
      rfl
  | affine x y =>
    obtain ⟨hx, hy⟩ := hP
    refine ⟨?_, ?_⟩
    · rw [State.serPoint, List.length_cons, List.length_append, ser_length hx, ser_length hy,
        State.payloadWords]
      omega
    · rw [State.readPayload, State.serPoint, pointPayload_affine, List.take_left' (ser_length hx),
        List.drop_left' (ser_length hx), List.take_of_length_le (ser_length hy).le,
        deser_ser h hu hx, bind_ok, deser_ser h hu hy]
      rfl

/-- Every INT, ELEM, POLY or POINT value reads back (rules R66, R67, R116). -/
theorem readsBack_of_valueOk (h : s.Inv) {v : Value} (hv : s.ValueOk v) (hempty : v ≠ .empty)
    (hbool : ∀ b, v ≠ .bool b) : s.ReadsBack v := by
  cases v with
  | empty => exact absurd rfl hempty
  | bool b => exact absurd rfl (hbool b)
  | int n => exact readsBack_int hv
  | elem0 a => exact readsBack_elem (l := .l0) h hv.1 hv.2
  | elem1 a => exact readsBack_elem (l := .l1) h hv.1 hv.2
  | elem2 a => exact readsBack_elem (l := .l2) h hv.1 hv.2
  | elem3 a => exact readsBack_elem (l := .l3) h hv.1 hv.2
  | poly0 c => exact readsBack_poly (l := .l1) h hv.1 hv.2
  | poly1 c => exact readsBack_poly (l := .l2) h hv.1 hv.2
  | poly2 c => exact readsBack_poly (l := .l3) h hv.1 hv.2
  | point0 P => exact readsBack_point (k := .c0) h hv.1 hv.2
  | point1 P => exact readsBack_point (k := .c1) h hv.1 hv.2
  | point2 P => exact readsBack_point (k := .c2) h hv.1 hv.2

/-! ### Coefficients that are not below `p` (rules R31, R116) -/

/-- A list of calls that can only fault with `e` faults with `e` where one of them does. -/
theorem mapM_error_of_mem {β γ : Type} {f : β → Except FaultCode γ} {l : List β} {e : FaultCode}
    {b : β} (hf : ∀ b c, f b = .error c → c = e) (hb : b ∈ l) (he : f b = .error e) :
    l.mapM f = .error e := by
  induction l with
  | nil => cases hb
  | cons a l ih =>
    rw [List.mapM_cons]
    cases ha : f a with
    | error c => rw [hf a c ha, bind_error]
    | ok r =>
      have htail : b ∈ l := by
        rcases List.mem_cons.1 hb with rfl | htail
        · rw [he] at ha
          cases ha
        · exact htail
      rw [bind_ok, ih htail, bind_error]

/-- A fault of a list of calls is a fault of one of them. -/
theorem mapM_fault {β γ : Type} {f : β → Except FaultCode γ} {l : List β} {c e : FaultCode}
    (hf : ∀ b c, f b = .error c → c = e) (h : l.mapM f = .error c) : c = e := by
  induction l with
  | nil => cases h
  | cons b l ih =>
    rw [List.mapM_cons] at h
    rcases bind_eq_error.1 h with h | ⟨r, -, h⟩
    · exact hf b c h
    · rcases bind_eq_error.1 h with h | ⟨rs, -, h⟩
      · exact ih h
      · cases h

/-- Reading an element has one fault, OperandRange. -/
theorem deser_fault {l : Level} {ws : List DataWord} {c : FaultCode}
    (h : s.deser l ws = .error c) : c = .operandRange := by
  have d0 : ∀ ws c, s.deser0 ws = .error c → c = .operandRange := by
    intro ws c h
    unfold State.deser0 at h
    split at h <;> cases h
    rfl
  have d1 : ∀ ws c, s.deser1 ws = .error c → c = .operandRange := fun _ _ h => mapM_fault d0 h
  have d2 : ∀ ws c, s.deser2 ws = .error c → c = .operandRange := fun _ _ h => mapM_fault d1 h
  cases l with
  | l0 => exact d0 ws c h
  | l1 => exact d1 ws c h
  | l2 => exact d2 ws c h
  | l3 => exact mapM_fault d2 h

/-- A coefficient among `n` groups of `m` lies in one of the groups. -/
theorem coefficientTooLarge_chunk {n m : Nat} {ws : List DataWord}
    (h : coefficientTooLarge s (n * m) ws) :
    ∃ c ∈ chunks n (m * s.build.flimbs) ws, coefficientTooLarge s m c := by
  obtain ⟨j, hj, hlarge⟩ := h
  have hm : 0 < m := Nat.pos_of_ne_zero fun hzero => by simp [hzero] at hj
  have hgroup : j / m < n := Nat.div_lt_of_lt_mul (by rwa [Nat.mul_comm])
  refine ⟨_, List.mem_map.2 ⟨j / m, List.mem_range.2 hgroup, rfl⟩, j % m, Nat.mod_lt j hm, ?_⟩
  have hfits : j % m * s.build.flimbs + s.build.flimbs ≤ m * s.build.flimbs := by
    rw [← Nat.succ_mul]
    exact Nat.mul_le_mul_right _ (Nat.mod_lt j hm)
  have hplace : j / m * (m * s.build.flimbs) + j % m * s.build.flimbs = j * s.build.flimbs := by
    rw [← Nat.mul_assoc, ← Nat.add_mul, Nat.div_add_mod']
  rwa [List.drop_take, List.take_take, List.drop_drop, hplace, Nat.min_eq_left (by omega)]

/-- Groups of coefficients read one after the other fault where one coefficient is too large. -/
theorem chunks_operandRange {γ : Type} {f : List DataWord → Except FaultCode γ} {n m : Nat}
    {ws : List DataWord} (honly : ∀ c e, f c = .error e → e = .operandRange)
    (hf : ∀ c, coefficientTooLarge s m c → f c = .error .operandRange)
    (h : coefficientTooLarge s (n * m) ws) :
    (chunks n (m * s.build.flimbs) ws).mapM f = .error .operandRange := by
  obtain ⟨c, hc, hlarge⟩ := coefficientTooLarge_chunk h
  exact mapM_error_of_mem honly hc (hf c hlarge)

/-- An element with a coefficient that is not below `p` is OperandRange. -/
theorem deser_operandRange {l : Level} {ws : List DataWord}
    (h : coefficientTooLarge s (s.coeffCount l) ws) : s.deser l ws = .error .operandRange := by
  have d0 : ∀ ws, coefficientTooLarge s 1 ws → s.deser .l0 ws = .error .operandRange := by
    rintro ws ⟨j, hj, hlarge⟩
    rw [Nat.lt_one_iff.1 hj, Nat.zero_mul, List.drop_zero, sumOf_eq_limbsValue] at hlarge
    exact if_pos (hlarge.trans (limbsValue_take_le _ _))
  have d1 : ∀ ws, coefficientTooLarge s (s.coeffCount .l1) ws →
      s.deser .l1 ws = .error .operandRange := by
    intro ws h
    have := chunks_operandRange (n := s.degree .l1) (m := 1) (fun _ _ => deser_fault (l := .l0)) d0
      (by rwa [Nat.mul_one])
    rwa [Nat.one_mul] at this
  have d2 : ∀ ws, coefficientTooLarge s (s.coeffCount .l2) ws →
      s.deser .l2 ws = .error .operandRange := fun ws =>
    chunks_operandRange (fun _ _ => deser_fault (l := .l1)) d1
  cases l with
  | l0 => exact d0 ws h
  | l1 => exact d1 ws h
  | l2 => exact d2 ws h
  | l3 => exact chunks_operandRange (fun _ _ => deser_fault (l := .l2)) d2 h

theorem polyPayload_operandRange {b : Level} {n : Nat} {ws : List DataWord}
    (h : coefficientTooLarge s (n * s.coeffCount b) ws) :
    s.polyPayload b n ws = .error .operandRange :=
  chunks_operandRange (fun _ _ => deser_fault) (fun _ => deser_operandRange) h

theorem pointPayload_operandRange {k : Slot} {ws : List DataWord}
    (h : coefficientTooLarge s (2 * s.coeffCount k.level) ws) :
    s.pointPayload k (0 :: ws) = .error .operandRange := by
  obtain ⟨c, hc, hlarge⟩ := coefficientTooLarge_chunk h
  have hfault := deser_operandRange hlarge
  have hcoords : c = ws.take (s.elemWords k.level) ∨
      c = (ws.drop (s.elemWords k.level)).take (s.elemWords k.level) := by
    simpa [chunks, List.range_succ, State.elemWords] using hc
  rw [pointPayload_affine]
  rcases hcoords with rfl | rfl
  · rw [hfault, bind_error]
  · cases hx : s.deser k.level (ws.take (s.elemWords k.level)) with
    | error e => rw [deser_fault hx, bind_error]
    | ok x => rw [bind_ok, hfault, bind_error]

/-! ### The data ports (rules R62, R63, R69) -/

theorem PlainEffect.din {i : Instr} {s u : State} (h : PlainEffect s i u) : u.din = s.din := by
  cases h with
  | setmod l rs1 m _ => exact setExt_din s l m
  | setcurve k rs1 rs2 E _ => exact setCurve_din s k E
  | _ => rfl

/-- No command without a destination but ST gives a word to `dout`. -/
theorem PlainEffect.dout {i : Instr} {s u : State} (h : PlainEffect s i u) :
    u.dout = s.dout ∨ ∃ rs1 ws, i = .st rs1 ∧ u.dout = s.dout ++ ws := by
  cases h with
  | setmod l rs1 m _ => exact .inl (setExt_dout s l m)
  | setcurve k rs1 rs2 E _ => exact .inl (setCurve_dout s k E)
  | st rs1 ws => exact .inr ⟨rs1, ws, rfl, rfl⟩
  | _ => exact .inl rfl

theorem din_of_not_ld {i : Instr} {s t : State} (hld : ∀ rd, i ≠ .ld rd)
    (ht : exec i s = .next t) : t.din = s.din := by
  rcases exec_cases i s with ⟨rd, h⟩ | ⟨-, r, hexec, heffect⟩ | ⟨rd, r, -, hexec⟩
  · exact absurd h (hld rd)
  · rcases conclude_cases (hexec.symm.trans ht) with ⟨u, hr, e⟩ | ⟨c, -, e⟩
    · cases e
      exact (heffect u hr).din
    · cases e
      rfl
  · rcases writeResult_cases (hexec.symm.trans ht) with ⟨v, -, e⟩ | ⟨c, -, e⟩ <;> cases e <;> rfl

theorem Effect.din {i : Instr} {t : State} (h : Effect i s t) : ∃ n, t.din = s.din.drop n := by
  cases h with
  | hold => exact ⟨0, rfl⟩
  | fault n c => exact ⟨n, rfl⟩
  | write n rd v _ _ => exact ⟨n, rfl⟩
  | plain u _ heffect => exact ⟨0, heffect.din⟩

theorem Effect.dout {i : Instr} {t : State} (h : Effect i s t) :
    t.dout = s.dout ∨ ∃ rs1 ws, i = .st rs1 ∧ t.dout = s.dout ++ ws := by
  cases h with
  | hold => exact .inl rfl
  | fault n c => exact .inl rfl
  | write n rd v _ _ => exact .inl rfl
  | plain u _ heffect => exact heffect.dout

end Sys2Proof.Machine

namespace Sys2Proof.Claims

open Sys2Proof.Machine

/-- Settles O31: the record of rule R66 is the model's, and the model's reads back. -/
theorem ldReloadsRecord : Obligations.LdReloadsRecord := by
  unfold Obligations.LdReloadsRecord
  intro s rd r rest h hempty hbool hdin
  obtain ⟨hd, ws, a, hrec, hh, hlen, hv⟩ := readsBack_of_valueOk h (h.regs r) hempty hbool
  have hwords : recordOf s (s.reg r) = hd :: ws :=
    Except.ok.inj ((record_eq_recordOf hempty).symm.trans hrec)
  exact execLd_writes (hdin.trans (by rw [hwords])) hh hlen hv

/-- Settles O32: ST pushes the model's record, which is the one of rule R66. -/
theorem stPushesRecord : Obligations.StPushesRecord := by
  unfold Obligations.StPushesRecord
  refine fun s r => ⟨fun hne => ?_, fun hempty => ?_⟩
  · show execSt r s = _
    rw [execSt, record_eq_recordOf hne]
    rfl
  · show execSt r s = _
    rw [execSt, hempty]
    rfl

/-- Settles O14: of all effects only LD's pops `din`, and only ST's pushes `dout`. -/
theorem portDiscipline : Obligations.PortDiscipline := by
  unfold Obligations.PortDiscipline
  intro i s t ht
  have heffect := effect_of_exec ht
  refine ⟨fun hld => din_of_not_ld hld ht, ?_⟩
  rcases heffect.dout with hdout | ⟨rs1, ws, rfl, hdout⟩
  · exact ⟨fun _ => hdout, heffect.din, [], by rw [hdout, List.append_nil]⟩
  · exact ⟨fun hst => absurd rfl (hst rs1), heffect.din, ws, hdout⟩

/-- Settles O26: the sign word decides. -/
theorem ldInt : Obligations.LdInt := by
  unfold Obligations.LdInt
  intro s rd sign mag rest hdin hlen
  have hwords : (sign :: mag).length = s.payloadWords .int := by
    rw [List.length_cons, hlen, Nat.add_comm]
    rfl
  rw [sumOf_eq_limbsValue]
  refine ⟨?_, ?_, fun hsign => ?_⟩
  · rintro rfl
    exact execLd_writes hdin (readHeader_int s) hwords (intPayload_pos mag)
  · rintro rfl
    exact execLd_writes hdin (readHeader_int s) hwords (intPayload_neg mag)
  · exact execLd_faults hdin (readHeader_int s) hwords (intPayload_badSign hsign mag)

theorem execLd_elem0 {s : State} {rd : Reg} {ws rest : List DataWord} {p : Nat}
    (hdin : s.din = 0x02 :: ws ++ rest) (hlen : ws.length = s.build.flimbs) (hp : s.prime = some p) :
    (sumOf ws < p →
      exec (.ld rd) s = .next (Writes { s with din := rest } rd (.elem0 (sumOf ws)))) ∧
    (p ≤ sumOf ws →
      exec (.ld rd) s = .next (Faults { s with din := rest } (encode (.ld rd)) .operandRange)) := by
  have hu : s.usable .l0 = true := by rw [State.usable, hp]; rfl
  have hh := (readHeader_elem s .l0).trans (if_pos hu)
  have hwords : ws.length = s.payloadWords (.elem .l0) := by
    rw [hlen, State.payloadWords, State.elemWords, State.coeffCount, Nat.one_mul]
  have hsp : s.p = p := by rw [State.p, hp]; rfl
  rw [sumOf_eq_limbsValue, ← hsp]
  constructor
  · intro hlt
    refine execLd_writes hdin hh hwords ?_
    rw [State.readPayload, State.deser, State.deser0, if_neg (by omega)]
    rfl
  · intro hge
    refine execLd_faults hdin hh hwords ?_
    rw [State.readPayload, State.deser, State.deser0, if_pos hge]
    rfl

/-- Settles O27: the header announces the record while its level is usable, and a coefficient that is not
below `p` is the one fault reading it can raise. -/
theorem ldPrimeField : Obligations.LdPrimeField := by
  unfold Obligations.LdPrimeField
  refine ⟨fun s rd ws rest p hdin hlen hp => execLd_elem0 hdin hlen hp,
    fun s rd l ws rest hu hdin hlen hlarge => ?_,
    fun s rd l n ws rest hu hlow hhigh hfield hdin hlen hlarge => ?_,
    fun s rd k ws rest hu hdin hlen hlarge => ?_, fun s rd rest => ⟨fun l hu hdin => ?_,
      fun l n hu hlow hhigh hfield hdin => ?_, fun k hu hdin => ?_⟩⟩
  · refine execLd_faults hdin ((readHeader_elem s l).trans (if_pos hu)) hlen ?_
    rw [State.readPayload, deser_operandRange hlarge]
    rfl
  · refine execLd_faults hdin ((readHeader_poly s l hlow hhigh hfield).trans (if_pos hu)) hlen ?_
    rw [State.readPayload, polyPayload_operandRange hlarge]
    rfl
  · refine execLd_faults (ws := 0 :: ws) hdin ((readHeader_point s k).trans (if_pos hu)) ?_ ?_
    · rw [List.length_cons, hlen, Nat.add_comm]
      rfl
    · rw [State.readPayload, pointPayload_operandRange hlarge]
      rfl
  · exact execLd_of_header_error hdin ((readHeader_elem s l).trans (if_neg (by simp [hu])))
  · exact execLd_of_header_error hdin
      ((readHeader_poly s l hlow hhigh hfield).trans (if_neg (by simp [hu])))
  · exact execLd_of_header_error hdin ((readHeader_point s k).trans (if_neg (by simp [hu])))

/-- Settles O28: the INF word is tested before the coordinates. -/
theorem ldPointInf : Obligations.LdPointInf := by
  unfold Obligations.LdPointInf
  intro s rd k inf ws rest hdin hu hlen
  have hh := (readHeader_point s k).trans (if_pos hu)
  have hwords : (inf :: ws).length = s.payloadWords (.point k) := by
    rw [List.length_cons, hlen, Nat.add_comm]
    rfl
  constructor
  · rintro rfl
    refine execLd_writes hdin hh hwords ?_
    rw [State.readPayload, pointPayload_identity]
    rfl
  · intro hinf
    refine execLd_faults hdin hh hwords ?_
    rw [State.readPayload, pointPayload_badInf hinf]
    rfl

/-- Settles O29: each clause is one of the header tests, which come before anything else of LD. -/
theorem ldBadHeader : Obligations.LdBadHeader := by
  unfold Obligations.LdBadHeader
  intro s rd h rest hdin tag sel n hbad
  refine execLd_of_header_error hdin (readHeader_malformed (header_tag h) rfl (header_count h) ?_)
  have hsel : h.extractLsb' 4 2 ≠ 0 ↔ sel ≠ 0 := by
    rw [← BitVec.toNat_ne_iff_ne, header_sel]
    rfl
  rw [header_reserved, header_sel, hsel]
  tauto

/-- Settles O30: the header tells how many words LD waits for. -/
theorem ldHolds : Obligations.LdHolds := by
  unfold Obligations.LdHolds
  refine fun s rd => ⟨fun hdin => ?_, fun rest hdin hshort => ?_, fun l rest hu hdin hshort => ?_,
    fun l n rest hu hlow hhigh hfield hdin hshort => ?_, fun k rest hu hdin hshort => ?_⟩
  · exact execLd_of_incoming_short (by simp only [State.incoming, hdin])
  · exact execLd_of_short hdin (readHeader_int s) hshort
  · exact execLd_of_short hdin ((readHeader_elem s l).trans (if_pos hu)) hshort
  · exact execLd_of_short hdin ((readHeader_poly s l hlow hhigh hfield).trans (if_pos hu)) hshort
  · exact execLd_of_short hdin ((readHeader_point s k).trans (if_pos hu)) hshort

end Sys2Proof.Claims

/-! PROOFS. Command words (30_encoding.md): the decoder and the encoder are inverse to each other
between the well-formed commands and the accepted words, and the tests of rule R88 reject the
words that rules R83 to R85 name. -/

namespace Sys2Proof

open Sys2Proof.Claims

/-! ### Fields and rows of the opcode map -/

/-- The word with fields `f` (rule R81). -/
def wordOf (f : Fields) : CmdWord := mkWord f.op f.sel f.fn f.rs3 f.rs2 f.rs1 f.rd

theorem wordOf_fieldsOf (w : CmdWord) : wordOf (fieldsOf w) = w := mkWord_fieldsOf w

/-- `f` with zeros in the register fields that the format does not use (rule R83). -/
def zeroUnused (f : Fields) : Format → Fields
  | .S1 | .S1L => { f with rd := 0, rs2 := 0, rs3 := 0 }
  | .S2 | .S2L => { f with rd := 0, rs3 := 0 }
  | .S3F => { f with rd := 0 }
  | .D => { f with rs1 := 0, rs2 := 0, rs3 := 0 }
  | .R1 | .R1L | .R1LF => { f with rs2 := 0, rs3 := 0 }
  | .R2 | .R2L => { f with rs3 := 0 }
  | .R3L | .R2N => f

theorem zeroUnused_of_unusedRegs {f : Fields} {fmt : Format} (h : ∀ r ∈ unusedRegs f fmt, r = 0) :
    zeroUnused f fmt = f := by
  obtain ⟨op, sel, fn, rs3, rs2, rs1, rd⟩ := f
  cases fmt <;> simp_all [unusedRegs, zeroUnused]

/-- `parse` reads from a two-bit field what `bits` writes there, and nothing else. -/
def Reads {α : Type} (parse : BitVec 2 → Option α) (bits : α → BitVec 2) : Prop :=
  ∀ b a, parse b = some a ↔ bits a = b

theorem reads_noSel : Reads noSel fun _ => 0 := fun _ _ => noSel_eq_some.trans eq_comm

theorem reads_noFn : Reads noFn fun _ => 0 := fun _ _ => noFn_eq_some.trans eq_comm

theorem reads_level : Reads Level.ofBits Level.bits := fun _ _ => level_ofBits

theorem reads_extLevel : Reads ExtLevel.ofBits ExtLevel.bits := fun _ _ => extLevel_ofBits

theorem reads_slot : Reads Slot.ofBits Slot.bits := fun _ _ => slot_ofBits

theorem reads_frobPow : Reads FrobPow.ofBits FrobPow.bits := fun _ _ => frobPow_ofBits

theorem reads_post : Reads Post.ofBits Post.bits := fun _ _ => post_ofBits

/-- The answer `r` is no command but a well-formed one whose word has the fields `f`. -/
def OnlyOwnCommand (f : Fields) (r : Except DecodeError Instr) : Prop :=
  ∀ i, r = .ok i → i.wellFormed = true ∧ encode i = wordOf f

/-- A row whose commands are well formed and written in its format accepts its own words only. -/
theorem onlyOwnCommand_accept {α β : Type} {f : Fields} {n : Nat} {fmt : Format}
    {sel : BitVec 2 → Option α} {fn : BitVec 2 → Option β} {mk : α → β → Instr}
    {selBits : α → BitVec 2} {fnBits : β → BitVec 2} (hop : f.op.toNat = n)
    (hsel : Reads sel selBits) (hfn : Reads fn fnBits)
    (hmk : ∀ a b, (mk a b).wellFormed = true ∧ encode (mk a b) =
      wordOf { zeroUnused f fmt with op := BitVec.ofNat 8 n, sel := selBits a, fn := fnBits b }) :
    OnlyOwnCommand f (accept f fmt sel fn mk) := by
  intro i hi
  obtain ⟨a, b, ha, hb, hunused, rfl⟩ := accept_eq_ok.1 hi
  obtain ⟨hwf, henc⟩ := hmk a b
  refine ⟨hwf, henc.trans ?_⟩
  rw [zeroUnused_of_unusedRegs hunused, (hsel _ _).1 ha, (hfn _ _).1 hb, ← hop, BitVec.ofNat_toNat,
    BitVec.setWidth_eq]

/-- PAIRCHK's row makes one test more, of the register runs (rule R85 c). -/
theorem onlyOwnCommand_pairchk {f : Fields} (hop : f.op.toNat = 0x59) :
    OnlyOwnCommand f ((accept f .R2N noSel noFn fun _ _ => .pairchk f.rd f.rs1 f.rs2 f.rs3).bind
      fun i => if RunsFit f.rs1 f.rs2 f.rs3 then .ok i else .error .runPastV31) := by
  intro i hi
  obtain ⟨j, hj, hif⟩ := Machine.bind_eq_ok.1 hi
  split at hif
  · next hfit =>
    obtain rfl := Except.ok.inj hif
    refine onlyOwnCommand_accept hop reads_noSel reads_noFn ?_ j hj
    exact fun _ _ => ⟨decide_eq_true hfit, rfl⟩
  · cases hif

/-- What the opcode map answers: nothing outside rule R87's opcodes, and for each of them a row that
accepts its own words only. -/
theorem decodeFields_cases (f : Fields) :
    (f.op.toNat ∉ assigned ∧ decodeFields f = .error .unassignedOpcode) ∨
      (f.op.toNat ∈ assigned ∧ OnlyOwnCommand f (decodeFields f)) := by
  unfold decodeFields
  split
  -- The last two arms are the unassigned opcodes and PAIRCHK; every other arm is a row of `accept`.
  case h_44 => exact .inl ⟨by simp_all [assigned], rfl⟩
  case h_43 hop => exact .inr ⟨by simp [hop, assigned], onlyOwnCommand_pairchk hop⟩
  all_goals
    next hop =>
    refine .inr ⟨by simp [hop, assigned], ?_⟩
    apply onlyOwnCommand_accept hop
    case hmk => exact fun _ _ => ⟨rfl, rfl⟩
    all_goals apply_rules [reads_noSel, reads_noFn, reads_level, reads_extLevel, reads_slot,
      reads_frobPow, reads_post]

/-! ### The tests of rule R88 -/

section Rejections

variable {α β : Type} {f : Fields} {fmt : Format} {sel : BitVec 2 → Option α}
  {fn : BitVec 2 → Option β} {mk : α → β → Instr}

theorem accept_illegalSel (h : sel f.sel = none) :
    accept f fmt sel fn mk = .error .illegalSel := by
  rw [accept, h]

theorem accept_illegalFn (hsel : sel f.sel ≠ none) (hfn : fn f.fn = none) :
    accept f fmt sel fn mk = .error .illegalFn := by
  obtain ⟨a, ha⟩ := Option.ne_none_iff_exists'.1 hsel
  rw [accept, ha, hfn]

theorem accept_nonzeroUnused (hsel : sel f.sel ≠ none) (hfn : fn f.fn ≠ none) {r : Reg}
    (hr : r ∈ unusedRegs f fmt) (hne : r ≠ 0) :
    accept f fmt sel fn mk = .error .nonzeroUnused := by
  obtain ⟨a, ha⟩ := Option.ne_none_iff_exists'.1 hsel
  obtain ⟨b, hb⟩ := Option.ne_none_iff_exists'.1 hfn
  rw [accept, ha, hb]
  refine if_neg fun hall => hne ?_
  simpa using List.all_eq_true.1 hall r hr

end Rejections

theorem level_ofBits_ne_none (b : BitVec 2) : Level.ofBits b ≠ none := by
  revert b
  decide

theorem slot_ofBits_ne_none {b : BitVec 2} (h : b ≠ 3) : Slot.ofBits b ≠ none := by
  revert b
  decide

/-! ### Rows of the opcode map by their opcodes (rules R84, R87) -/

/-- SETMOD and the XF commands: `sel` is an extension level (rule R84). -/
theorem decodeFields_extLevel {f : Fields}
    (h : f.op.toNat = 0x02 ∨ 0x20 ≤ f.op.toNat ∧ f.op.toNat ≤ 0x28) :
    ∃ fmt mk, decodeFields f = accept f fmt ExtLevel.ofBits noFn mk := by
  unfold decodeFields
  rcases h with h | ⟨hlow, hhigh⟩
  · rw [h]
    exact ⟨_, _, rfl⟩
  · interval_cases f.op.toNat
    all_goals exact ⟨_, _, rfl⟩

/-- The commands on a curve slot (rule R84). -/
theorem decodeFields_slot {f : Fields} (h : f.op.toNat = 0x03 ∨
      0x30 ≤ f.op.toNat ∧ f.op.toNat ≤ 0x35 ∨ f.op.toNat = 0x40 ∨ f.op.toNat = 0x53) :
    ∃ (β : Type) (fmt : Format) (fn : BitVec 2 → Option β) (mk : Slot → β → Instr),
      decodeFields f = accept f fmt Slot.ofBits fn mk := by
  unfold decodeFields
  rcases h with h | ⟨hlow, hhigh⟩ | h | h
  · rw [h]
    exact ⟨_, _, _, _, rfl⟩
  · interval_cases f.op.toNat
    all_goals exact ⟨_, _, _, _, rfl⟩
  all_goals
    rw [h]
    exact ⟨_, _, _, _, rfl⟩

theorem decodeFields_setpair {f : Fields} (h : f.op.toNat = 0x05) : decodeFields f =
    accept f .S3F noSel Post.ofBits fun _ post => .setpair post f.rs1 f.rs2 f.rs3 := by
  simp only [decodeFields, h]

theorem decodeFields_st {f : Fields} (h : f.op.toNat = 0x09) : decodeFields f =
    accept f .S1 noSel noFn fun _ _ => .st f.rs1 := by
  simp only [decodeFields, h]

theorem decodeFields_frob {f : Fields} (h : f.op.toNat = 0x50) : decodeFields f =
    accept f .R1LF Level.ofBits FrobPow.ofBits fun l n => .frob l n f.rd f.rs1 := by
  simp only [decodeFields, h]

theorem decodeFields_ecFrob {f : Fields} (h : f.op.toNat = 0x53) : decodeFields f =
    accept f .R1LF Slot.ofBits FrobPow.ofBits fun k n => .ecFrob k n f.rd f.rs1 := by
  simp only [decodeFields, h]

theorem decodeFields_pairchk {f : Fields} (h : f.op.toNat = 0x59) : decodeFields f =
    (accept f .R2N noSel noFn fun _ _ => .pairchk f.rd f.rs1 f.rs2 f.rs3).bind fun i =>
      if RunsFit f.rs1 f.rs2 f.rs3 then .ok i else .error .runPastV31 := by
  simp only [decodeFields, h]

end Sys2Proof

namespace Sys2Proof.Claims

/-- Settles O1: a command's word has its row's opcode, the fields its selectors are read from, and
zeros elsewhere. -/
theorem decodeEncode : Obligations.DecodeEncode := by
  unfold Obligations.DecodeEncode
  intro i hwf
  cases i
  all_goals
    unfold encode decode
    rw [fieldsOf_mkWord]
    unfold decodeFields
  case setmod | xfAdd | xfSub | xfNeg | xfMul | xfInv | xfDiv | xfExp | xfEq | xfMod =>
    exact accept_eq_ok.2 ⟨_, _, extLevel_ofBits.2 rfl, rfl, by simp [unusedRegs], rfl⟩
  case setcurve | ecIsZero | ecIsOnCurve | ecAdd | ecDbl | ecNeg | ecSmul | line =>
    exact accept_eq_ok.2 ⟨_, _, slot_ofBits.2 rfl, rfl, by simp [unusedRegs], rfl⟩
  case lift => exact accept_eq_ok.2 ⟨_, _, level_ofBits.2 rfl, rfl, by simp [unusedRegs], rfl⟩
  case frob =>
    exact accept_eq_ok.2
      ⟨_, _, level_ofBits.2 rfl, frobPow_ofBits.2 rfl, by simp [unusedRegs], rfl⟩
  case ecFrob =>
    exact accept_eq_ok.2
      ⟨_, _, slot_ofBits.2 rfl, frobPow_ofBits.2 rfl, by simp [unusedRegs], rfl⟩
  case setpair =>
    exact accept_eq_ok.2 ⟨_, _, rfl, post_ofBits.2 rfl, by simp [unusedRegs], rfl⟩
  case pairchk => exact if_pos (of_decide_eq_true hwf)
  -- The other commands have zeros for `sel` and `fn`.
  all_goals exact accept_eq_ok.2 ⟨_, _, rfl, rfl, by simp [unusedRegs], rfl⟩

/-- Settles O2: the word of the fields read is the word itself, and each row of the opcode map
accepts its own words only. -/
theorem decodeSound : Obligations.DecodeSound := by
  unfold Obligations.DecodeSound
  intro w i h
  rcases decodeFields_cases (fieldsOf w) with ⟨-, herror⟩ | ⟨-, hown⟩
  · cases h.symm.trans herror
  · obtain ⟨hwf, henc⟩ := hown i h
    exact ⟨hwf, henc.trans (wordOf_fieldsOf w)⟩

/-! ### Fields as numbers (rule R81) -/

theorem opcode_eq (w : CmdWord) : opcode w = (fieldsOf w).op.toNat := by
  have := w.isLt
  simp only [opcode, fieldsOf, BitVec.extractLsb'_toNat, Nat.shiftRight_eq_div_pow]
  omega

theorem selField_eq (w : CmdWord) : selField w = (fieldsOf w).sel.toNat := by
  simp only [selField, fieldsOf, BitVec.extractLsb'_toNat, Nat.shiftRight_eq_div_pow]

theorem fnField_eq (w : CmdWord) : fnField w = (fieldsOf w).fn.toNat := by
  simp only [fnField, fieldsOf, BitVec.extractLsb'_toNat, Nat.shiftRight_eq_div_pow]

theorem regField_eq (w : CmdWord) (k : Nat) : regField w k = (w.extractLsb' k 5).toNat := by
  simp only [regField, BitVec.extractLsb'_toNat, Nat.shiftRight_eq_div_pow]

theorem sel_eq {w : CmdWord} {n : Nat} (h : selField w = n) :
    (fieldsOf w).sel = BitVec.ofNat 2 n := by
  rw [← h, selField_eq, BitVec.ofNat_toNat, BitVec.setWidth_eq]

theorem fn_eq {w : CmdWord} {n : Nat} (h : fnField w = n) :
    (fieldsOf w).fn = BitVec.ofNat 2 n := by
  rw [← h, fnField_eq, BitVec.ofNat_toNat, BitVec.setWidth_eq]

/-! ### The opcode map (rule R87) -/

/-- A command of each opcode, in the order of `assigned`. -/
def onePerOpcode : List Instr :=
  [.setp 0, .setmod .l1 0, .setcurve .c0 0 0, .settwist 0 0, .setpair .plain 0 0 0, .ld 0, .st 0,
    .fpAdd 0 0 0, .fpSub 0 0 0, .fpNeg 0 0, .fpMul 0 0 0, .fpInv 0 0, .fpDiv 0 0 0, .fpExp 0 0 0,
    .fpEq 0 0 0, .xfAdd .l1 0 0 0, .xfSub .l1 0 0 0, .xfNeg .l1 0 0, .xfMul .l1 0 0 0,
    .xfInv .l1 0 0, .xfDiv .l1 0 0 0, .xfExp .l1 0 0 0, .xfEq .l1 0 0 0, .xfMod .l1 0 0,
    .lift .l0 0 0, .ecIsZero .c0 0 0, .ecIsOnCurve .c0 0 0, .ecAdd .c0 0 0 0, .ecDbl .c0 0 0,
    .ecNeg .c0 0 0, .ecSmul .c0 0 0 0, .line .c0 0 0 0 0, .miller 0 0 0, .frob .l0 .one 0 0,
    .conj 0 0, .finalexp 0 0, .ecFrob .c0 .one 0 0, .untwist 0 0, .twist 0 0, .subgrpG1 0 0,
    .subgrpG2 0 0, .pair 0 0 0, .pairchk 0 0 0 0]

theorem opcodes_onePerOpcode : onePerOpcode.map (fun i => opcode (encode i)) = assigned := by decide

theorem wellFormed_onePerOpcode : ∀ i ∈ onePerOpcode, i.wellFormed = true := by decide

theorem decode_unassigned {w : CmdWord} (h : opcode w ∉ assigned) :
    decode w = .error .unassignedOpcode := by
  rcases decodeFields_cases (fieldsOf w) with ⟨-, herror⟩ | ⟨hmem, -⟩
  · exact herror
  · exact absurd (opcode_eq w ▸ hmem) h

/-- Settles O3: no row has another opcode, and there is a command for each. -/
theorem assignedOpcodes : Obligations.AssignedOpcodes := by
  unfold Obligations.AssignedOpcodes
  refine ⟨fun w i h => ?_, fun n hn => ?_⟩
  · by_contra hmem
    cases h.symm.trans (decode_unassigned hmem)
  · rw [← opcodes_onePerOpcode, List.mem_map] at hn
    obtain ⟨i, hi, hn⟩ := hn
    exact ⟨i, wellFormed_onePerOpcode i hi, hn⟩

/-! ### Words that are no command (rules R83 to R85, R88) -/

theorem decode_extLevel_zero {w : CmdWord}
    (hop : opcode w = 0x02 ∨ 0x20 ≤ opcode w ∧ opcode w ≤ 0x28) (hsel : selField w = 0) :
    decode w = .error .illegalSel := by
  rw [opcode_eq] at hop
  obtain ⟨fmt, mk, hrow⟩ := decodeFields_extLevel hop
  rw [decode, hrow]
  exact accept_illegalSel (by rw [sel_eq hsel]; rfl)

theorem decode_slot_three {w : CmdWord} (hop : opcode w = 0x03 ∨
      0x30 ≤ opcode w ∧ opcode w ≤ 0x35 ∨ opcode w = 0x40 ∨ opcode w = 0x53)
    (hsel : selField w = 3) : decode w = .error .illegalSel := by
  rw [opcode_eq] at hop
  obtain ⟨β, fmt, fn, mk, hrow⟩ := decodeFields_slot hop
  rw [decode, hrow]
  exact accept_illegalSel (by rw [sel_eq hsel]; rfl)

theorem decode_frobPow_zero {w : CmdWord}
    (hop : opcode w = 0x50 ∨ opcode w = 0x53 ∧ selField w ≠ 3) (hfn : fnField w = 0) :
    decode w = .error .illegalFn := by
  have hnone : FrobPow.ofBits (fieldsOf w).fn = none := by rw [fn_eq hfn]; rfl
  rw [opcode_eq] at hop
  rcases hop with hop | ⟨hop, hsel⟩
  · rw [decode, decodeFields_frob hop]
    exact accept_illegalFn (level_ofBits_ne_none _) hnone
  · rw [decode, decodeFields_ecFrob hop]
    exact accept_illegalFn
      (slot_ofBits_ne_none fun h3 => hsel ((selField_eq w).trans (congrArg _ h3))) hnone

theorem decode_post_three {w : CmdWord} (hop : opcode w = 0x05) (hsel : selField w = 0)
    (hfn : fnField w = 3) : decode w = .error .illegalFn := by
  rw [decode, decodeFields_setpair (opcode_eq w ▸ hop)]
  exact accept_illegalFn (by rw [sel_eq hsel]; decide) (by rw [fn_eq hfn]; rfl)

theorem decode_st_nonzero_rd {w : CmdWord} (hop : opcode w = 0x09) (hsel : selField w = 0)
    (hfn : fnField w = 0) (hrd : regField w 0 ≠ 0) : decode w = .error .nonzeroUnused := by
  have hne : (fieldsOf w).rd ≠ 0 := fun h0 => hrd ((regField_eq w 0).trans (congrArg _ h0))
  rw [decode, decodeFields_st (opcode_eq w ▸ hop)]
  exact accept_nonzeroUnused (by rw [sel_eq hsel]; decide) (by rw [fn_eq hfn]; decide)
    (by simp [unusedRegs]) hne

theorem decode_pairchk_past_v31 {w : CmdWord} (hop : opcode w = 0x59) (hsel : selField w = 0)
    (hfn : fnField w = 0)
    (hrun : 32 < regField w 5 + regField w 15 ∨ 32 < regField w 10 + regField w 15) :
    decode w = .error .runPastV31 := by
  rw [regField_eq, regField_eq, regField_eq] at hrun
  have hfit : ¬ RunsFit (fieldsOf w).rs1 (fieldsOf w).rs2 (fieldsOf w).rs3 :=
    fun ⟨h1, h2⟩ => hrun.elim h1.not_gt h2.not_gt
  rw [decode, decodeFields_pairchk (opcode_eq w ▸ hop), accept_eq_ok.2
    ⟨(), (), noSel_eq_some.2 (sel_eq hsel), noFn_eq_some.2 (fn_eq hfn), by simp [unusedRegs], rfl⟩]
  exact if_neg hfit

/-- Settles O5, clause by clause: the words of zeros and of ones have opcodes that rule R87 does not
assign. -/
theorem illegalWords : Obligations.IllegalWords := by
  unfold Obligations.IllegalWords
  exact ⟨fun _ => decode_unassigned, fun _ => decode_extLevel_zero, fun _ => decode_slot_three,
    fun _ => decode_frobPow_zero, fun _ => decode_post_three, fun _ => decode_st_nonzero_rd,
    fun _ => decode_pairchk_past_v31, decode_unassigned (by decide), decode_unassigned (by decide)⟩

/-- Settles O4: each word is the one `encode` writes for the command beside it. -/
theorem knownWords : Obligations.KnownWords := by
  unfold Obligations.KnownWords
  exact ⟨decodeEncode (.fpAdd 4 1 2) rfl, decodeEncode (.xfMul .l1 4 2 3) rfl,
    decodeEncode (.ecAdd .c0 14 12 13) rfl, decodeEncode (.line .c0 19 12 13 14) rfl,
    decodeEncode (.frob .l2 .one 3 1) rfl, decodeEncode (.setpair .plain 0 1 2) rfl,
    decodeEncode (.pairchk 14 1 3 2) rfl, decodeEncode (.ld 1) rfl, decodeEncode (.st 4) rfl⟩

end Sys2Proof.Claims

namespace Sys2Proof.Machine

/-- A READY engine accepts the first word on the command port (rule R110 step 1). -/
theorem fetch_of_ready {s : State} {w : CmdWord} {rest : List CmdWord} (hmode : s.mode = .ready)
    (hcmd : s.cmd = w :: rest) : s.fetch = some w := by
  rw [State.fetch, hmode, hcmd]
  rfl

theorem step_of_decode_error {s : State} {w : CmdWord} {x : DecodeError} (hfetch : s.fetch = some w)
    (hdecode : decode w = .error x) : step s = .next (s.rejectWord w) := by
  rw [step, hfetch]
  dsimp only
  rw [hdecode]

end Sys2Proof.Machine

namespace Sys2Proof.Claims

open Sys2Proof.Machine

/-- Settles O7: the word is fetched, is no command, and is rejected by a fault entry. -/
theorem stepRejectsIllegal : Obligations.StepRejectsIllegal := by
  unfold Obligations.StepRejectsIllegal
  intro s w rest x hmode hcmd hdecode
  exact (step_of_decode_error (fetch_of_ready hmode hcmd) hdecode).trans
    (congrArg _ (takeFault_eq_faults s w .illegalCommand))

end Sys2Proof.Claims

namespace Sys2Proof.Machine

theorem step_of_decode_ok {s : State} {w : CmdWord} {i : Instr} (hfetch : s.fetch = some w)
    (hdecode : decode w = .ok i) : step s = exec i s := by
  rw [step, hfetch]
  dsimp only
  rw [hdecode]

end Sys2Proof.Machine

namespace Sys2Proof.Claims

open Sys2Proof.Machine

/-- Settles O6: the word is fetched, and decodes to the command that is run. -/
theorem stepRunsCommand : Obligations.StepRunsCommand := by
  unfold Obligations.StepRunsCommand
  intro s w rest i hmode hcmd hdecode
  exact step_of_decode_ok (fetch_of_ready hmode hcmd) hdecode

end Sys2Proof.Claims

/-! PROOFS. The commands on elements once their sources are read (41_primefield.md): sums, products, inverses,
quotients and powers, and the towers in which every nonzero element has an inverse (rule R160). -/

namespace Sys2Proof.Machine

open Sys2Proof.Claims

variable {s : State}

/-! ### Commands on elements whose sources are read -/

/-- The command `i` ends in `s` as the computation `x` of an element of level `l` does: its answer is written
to `rd`, and its fault is the command's. -/
structure EndsBy (i : Instr) (s : State) (rd : Reg) (l : Level) (x : Except FaultCode (Elem l)) :
    Prop where
  writes : ∀ c, x = .ok c → exec i s = .next (Writes s rd (.ofElem l c))
  faults : FaultsBy i s x

section Shapes

variable {i : Instr} {rd r1 r2 : Reg} {l : Level} {a b : Elem l}

theorem endsBy_of_writeResult {x : Except FaultCode (Elem l)}
    (hexec : exec i s = s.writeResult (encode i) rd (do let c ← x; .ok (.ofElem l c))) :
    EndsBy i s rd l x where
  writes := by
    rintro c rfl
    exact hexec
  faults := by
    rintro e rfl
    exact hexec

theorem endsBy_elemBinary {f : FieldOps (Elem l) → Elem l → Elem l → Except FaultCode (Elem l)}
    (hexec : exec i s = s.writeResult (encode i) rd (s.elemBinary l r1 r2 f))
    (hu : s.usable l = true) (h1 : s.reg r1 = .ofElem l a) (h2 : s.reg r2 = .ofElem l b) :
    EndsBy i s rd l (f (s.field l) a b) := by
  refine endsBy_of_writeResult (hexec.trans ?_)
  rw [State.elemBinary, needField_of_usable hu, bind_ok, srcElem_of_reg h1, bind_ok,
    srcElem_of_reg h2, bind_ok]

theorem endsBy_elemUnary {f : FieldOps (Elem l) → Elem l → Except FaultCode (Elem l)}
    (hexec : exec i s = s.writeResult (encode i) rd (s.elemUnary l r1 f))
    (hu : s.usable l = true) (h1 : s.reg r1 = .ofElem l a) :
    EndsBy i s rd l (f (s.field l) a) := by
  refine endsBy_of_writeResult (hexec.trans ?_)
  rw [State.elemUnary, needField_of_usable hu, bind_ok, srcElem_of_reg h1, bind_ok]

theorem endsBy_elemPower {e : Int}
    (hexec : exec i s = s.writeResult (encode i) rd (s.elemPower l r1 r2))
    (hu : s.usable l = true) (h1 : s.reg r1 = .ofElem l a) (h2 : s.reg r2 = .int e) :
    EndsBy i s rd l ((s.field l).exp a e) := by
  refine endsBy_of_writeResult (hexec.trans ?_)
  rw [State.elemPower, needField_of_usable hu, bind_ok, srcElem_of_reg h1, bind_ok,
    srcInt_of_reg h2, bind_ok]

theorem writes_of_elemEqual (hexec : exec i s = s.writeResult (encode i) rd (s.elemEqual l r1 r2))
    (hu : s.usable l = true) (h1 : s.reg r1 = .ofElem l a) (h2 : s.reg r2 = .ofElem l b) :
    exec i s = .next (Writes s rd (.bool ((s.field l).eq a b))) := by
  rw [hexec, elemEqual_eq_ok.2 ⟨hu, a, b, h1, h2, rfl⟩]
  rfl

end Shapes

theorem usable_l0_of_prime {p : Nat} (h : s.prime = some p) : s.usable .l0 = true := by
  simp [State.usable, h]

theorem p_of_prime {p : Nat} (h : s.prime = some p) : s.p = p := by simp [State.p, h]

/-! ### Division and powers at any level -/

section FieldFunctions

variable {α : Type} {F : FieldOps α} {ok : α → Prop} {b c : α} {e : Int} {x : FaultCode}

theorem div_of_inv_ok (a : α) (h : F.inv b = .ok c) : F.div a b = F.mul a c := by
  rw [FieldOps.div, h, bind_ok]

theorem div_of_inv_error (a : α) (h : F.inv b = .error x) : F.div a b = .error x := by
  rw [FieldOps.div, h, bind_error]

/-- `0^0` is tested before anything else (rules R145, R315). -/
theorem exp_zero_of_isZero (hz : F.isZero b = true) : F.exp b 0 = .error .undefinedResult :=
  if_pos ⟨hz, rfl⟩

theorem exp_of_nonneg (hne : ¬ (F.isZero b = true ∧ e = 0)) (he : 0 ≤ e) :
    F.exp b e = expLoop F b e.natAbs (bitLen e.natAbs) F.one := by
  rw [FieldOps.exp, if_neg hne, if_neg (not_lt.2 he)]
  rfl

/-- A negative exponent inverts the base first (rule R145). -/
theorem exp_of_neg (he : e < 0) : F.exp b e =
    (F.inv b >>= fun c => expLoop F c e.natAbs (bitLen e.natAbs) F.one) := by
  rw [FieldOps.exp, if_neg fun h => he.ne h.2, if_pos he]

theorem exp_neg_of_inv_error (he : e < 0) (h : F.inv b = .error x) : F.exp b e = .error x := by
  rw [exp_of_neg he, h, bind_error]

theorem exp_nonneg_total (hF : F.Closed ok) (hM : F.MulTotal ok) (hb : ok b)
    (hne : ¬ (F.isZero b = true ∧ e = 0)) (he : 0 ≤ e) : ∃ c, F.exp b e = .ok c := by
  rw [exp_of_nonneg hne he]
  exact expLoop_total hF hM hb _ _ hF.one

theorem exp_neg_total (hF : F.Closed ok) (hM : F.MulTotal ok) (hb : ok b) (he : e < 0)
    (hinv : F.inv b = .ok c) : ∃ d, F.exp b e = .ok d := by
  rw [exp_of_neg he, hinv, bind_ok]
  exact expLoop_total hF hM (hF.inv _ _ hb hinv) _ _ hF.one

variable {R : Type} [CommRing R] {φ : α → R}

theorem exp_nonneg_represents (hF : F.Closed ok) (hR : Represents F ok φ) (hb : ok b) (he : 0 ≤ e)
    (h : F.exp b e = .ok c) : φ c = φ b ^ e.toNat := by
  rw [(exp_represents hF hR hb h).1 he, show e.natAbs = e.toNat by omega]

theorem exp_neg_represents (hF : F.Closed ok) (hR : Represents F ok φ) (hb : ok b) (he : e < 0)
    (h : F.exp b e = .ok c) : φ c * φ b ^ (-e).toNat = 1 := by
  rw [show (-e).toNat = e.natAbs by omega, (exp_represents hF hR hb h).2 he]

end FieldFunctions

/-! ### Level 0 (rules R141 to R145) -/

section PrimeField

variable {p a b : Nat}

theorem residue_eq_of_eq_add {x k : Int} {r : Nat} (hr : r < p) (hx : x = r + k * p) :
    residue p x = r := by
  rw [residue, hx, Int.add_mul_emod_self_right, Int.emod_eq_of_lt (by omega) (by omega),
    Int.toNat_natCast]

theorem fpSub_eq (ha : a < p) (hb : b < p) : fpSub p a b = if b ≤ a then a - b else a + p - b := by
  split
  · exact residue_eq_of_eq_add (k := 0) (by omega) (by omega)
  · exact residue_eq_of_eq_add (k := -1) (by omega) (by omega)

theorem fpNeg_eq (ha : a < p) : fpNeg p a = if a = 0 then 0 else p - a := by
  split
  · exact residue_eq_of_eq_add (k := 0) (by omega) (by omega)
  · exact residue_eq_of_eq_add (k := -1) (by omega) (by omega)

/-- Numbers that read as the same residue are congruent. -/
theorem mod_eq_of_cast_eq {x r : Nat} (hr : r < p) (h : (x : ZMod p) = r) : x % p = r := by
  rw [(ZMod.natCast_eq_natCast_iff' x r p).1 h, Nat.mod_eq_of_lt hr]

theorem fpOps_reads (hp : 2 < p) : Represents (fpOps p) (· < p) (fun a => (a : ZMod p)) :=
  fpOps_represents _ (by omega)

theorem fpOps_elems (hp : 2 < p) : (fpOps p).Closed (· < p) := fpOps_closed (by omega)

theorem fpInv_of_coprime (hp : 2 < p) (hb : Nat.Coprime b p) : ∃ c, (fpOps p).inv b = .ok c := by
  rcases fpInv_cases p b with ⟨-, -, hc⟩ | ⟨rfl | hnot, -⟩
  · exact hc
  · have : p = 1 := by simpa using hb
    omega
  · exact absurd hb.symm hnot

theorem fpInv_of_not_coprime (hb : ¬ Nat.Coprime b p) :
    (fpOps p).inv b = .error .divisionByZero := by
  rcases fpInv_cases p b with ⟨-, hcop, -⟩ | ⟨-, herr⟩
  · exact absurd hcop.symm hb
  · exact herr

/-- What `inv_0` answers is the inverse (rule R143). -/
theorem fpInv_lt_and_mul_mod {c : Nat} (hp : 2 < p) (hb : b < p) (h : (fpOps p).inv b = .ok c) :
    c < p ∧ b * c % p = 1 := by
  refine ⟨(fpOps_elems hp).inv _ _ hb h, mod_eq_of_cast_eq (by omega) ?_⟩
  rw [Nat.cast_mul, (fpOps_reads hp).inv _ _ hb h, Nat.cast_one]

/-- What `div_0` answers is the quotient (rule R144). -/
theorem fpDiv_lt_and_mul_mod {c : Nat} (hp : 2 < p) (ha : a < p) (hb : b < p)
    (h : (fpOps p).div a b = .ok c) : c < p ∧ b * c % p = a := by
  refine ⟨div_closed (fpOps_elems hp) ha hb h, mod_eq_of_cast_eq ha ?_⟩
  rw [Nat.cast_mul, mul_comm, div_represents (fpOps_elems hp) (fpOps_reads hp) ha hb h]

/-- What `exp_0` answers for a non-negative exponent is the power (rule R145). -/
theorem fpExp_eq_pow_mod {c : Nat} {e : Int} (hp : 2 < p) (ha : a < p) (he : 0 ≤ e)
    (h : (fpOps p).exp a e = .ok c) : c = a ^ e.toNat % p := by
  refine (mod_eq_of_cast_eq (exp_closed (fpOps_elems hp) ha h) ?_).symm
  rw [Nat.cast_pow, exp_nonneg_represents (fpOps_elems hp) (fpOps_reads hp) ha he h]

/-- What `exp_0` answers for a negative exponent is the inverse of the power (rule R145). -/
theorem fpExp_neg_lt_and_mul_mod {c : Nat} {e : Int} (hp : 2 < p) (ha : a < p) (he : e < 0)
    (h : (fpOps p).exp a e = .ok c) : c < p ∧ c * a ^ (-e).toNat % p = 1 := by
  refine ⟨exp_closed (fpOps_elems hp) ha h, mod_eq_of_cast_eq (by omega) ?_⟩
  rw [Nat.cast_mul, Nat.cast_pow,
    exp_neg_represents (fpOps_elems hp) (fpOps_reads hp) ha he h, Nat.cast_one]

end PrimeField

/-! ### Inverses in the rings of the levels (rules R160, R171) -/

/-- What inversion answers is an inverse, whatever the configuration (rule R171). -/
theorem inv_elemOk_and_inverse (h : s.Inv) {l : Level} (hu : s.usable l = true) {a c : Elem l}
    (ha : s.ElemOk l a) (hc : (s.field l).inv a = .ok c) :
    s.ElemOk l c ∧ s.InRing l fun _ _ φ => φ a * φ c = 1 :=
  ⟨(field_closed h hu).inv _ _ ha hc, inRing h hu fun _ _ _ hR => hR.inv _ _ ha hc⟩

theorem invertsAll_of_fieldTower (h : s.Inv) {l : Level} (hu : s.usable l = true)
    (ht : s.FieldTower l) : s.InvertsAll l := by
  obtain ⟨-, R, _, φ, hfield⟩ := fieldLevel h hu ht
  exact hfield.inverts

theorem fieldsTo_of_fieldTower (h : s.Inv) {l : Level} (hu : s.usable l = true)
    (ht : s.FieldTower l) : s.FieldsTo l := by
  have h0 (hp : s.p.Prime) : s.InvertsAll .l0 := invertsAll_of_fieldTower h (usable_l0 hu) hp
  have htop := invertsAll_of_fieldTower h hu ht
  cases l with
  | l0 => exact htop
  | l1 => exact ⟨h0 ht.1, htop⟩
  | l2 =>
    obtain ⟨hp, hm1, -⟩ := ht
    exact ⟨h0 hp, invertsAll_of_fieldTower h (usable_l1 hu) ⟨hp, hm1⟩, htop⟩
  | l3 =>
    obtain ⟨hp, hm1, hm2, -⟩ := ht
    exact ⟨h0 hp, invertsAll_of_fieldTower h (usable_l1 (usable_l2 hu)) ⟨hp, hm1⟩,
      invertsAll_of_fieldTower h (usable_l2 hu) ⟨hp, hm1, hm2⟩, htop⟩

theorem inv_ok_of_ne_zero (h : s.Inv) {l : Level} (hu : s.usable l = true) (ht : s.FieldTower l)
    {a : Elem l} (ha : s.ElemOk l a) (hz : a ≠ zeroOf s l) : ∃ c, (s.field l).inv a = .ok c :=
  invertsAll_of_fieldTower h hu ht a ha ((isZero_eq_false_iff ha).2 hz)

end Sys2Proof.Machine

namespace Sys2Proof.Claims

open Sys2Proof.Machine

/-- Settles O34: `inv_0` answers exactly the operands prime to `p`, and a quotient is a product with what it
answers. -/
theorem fpInverse : Obligations.FpInverse := by
  unfold Obligations.FpInverse
  intro s rd r1 r2 p a b hprime hp h1 h2 ha hb
  have hu := usable_l0_of_prime hprime
  obtain rfl := p_of_prime hprime
  have hinv : EndsBy (.fpInv rd r2) s rd .l0 ((fpOps s.p).inv b) := endsBy_elemUnary rfl hu h2
  have hdiv : EndsBy (.fpDiv rd r1 r2) s rd .l0 ((fpOps s.p).div a b) :=
    endsBy_elemBinary rfl hu h1 h2
  constructor
  · intro hcop
    obtain ⟨c, hc⟩ := fpInv_of_coprime hp hcop
    have hq := div_of_inv_ok a hc
    obtain ⟨hclt, hcmul⟩ := fpInv_lt_and_mul_mod hp hb hc
    obtain ⟨hqlt, hqmul⟩ := fpDiv_lt_and_mul_mod hp ha hb hq
    exact ⟨⟨c, hclt, hcmul, hinv.writes c hc⟩, _, hqlt, hqmul, hdiv.writes _ hq⟩
  · intro hnot
    have herr := fpInv_of_not_coprime hnot
    exact ⟨hinv.faults _ herr, hdiv.faults _ (div_of_inv_error a herr)⟩

/-- Settles O39: what inversion answers is an inverse in the ring of the level, and its one fault is
DivisionByZero. -/
theorem xfInverseOrFault : Obligations.XfInverseOrFault := by
  unfold Obligations.XfInverseOrFault
  intro s l rd r a h hu hr
  have hend : EndsBy (.xfInv l rd r) s rd l.level ((s.field l.level).inv a) :=
    endsBy_elemUnary rfl hu hr
  cases hinv : (s.field l.level).inv a with
  | ok c =>
    obtain ⟨hok, hunit⟩ := inv_elemOk_and_inverse h hu (reg_elem h hr).2 hinv
    exact .inl ⟨c, hok, hunit, hend.writes c hinv⟩
  | error e =>
    obtain rfl := (field_onlyDivision s l.level).inv a e hinv
    exact .inr (hend.faults _ hinv)

/-- Settles O43: an irreducible modulus over a field gives a field, level by level, and what inversion answers
there is an inverse. -/
theorem irreducibleModuliMakeFields : Obligations.IrreducibleModuliMakeFields := by
  unfold Obligations.IrreducibleModuliMakeFields
  intro s l h hu ht
  refine ⟨fieldsTo_of_fieldTower h hu ht, fun a ha hz => ?_⟩
  obtain ⟨c, hc⟩ := inv_ok_of_ne_zero h hu ht ha hz
  exact ⟨c, hc, inv_elemOk_and_inverse h hu ha hc⟩

/-- Settles O33: each of the five is one function of level 0, which raises no fault. -/
theorem fpArithmetic : Obligations.FpArithmetic := by
  unfold Obligations.FpArithmetic
  intro s rd r1 r2 p a b hprime h1 h2 ha hb
  have hu := usable_l0_of_prime hprime
  obtain rfl := p_of_prime hprime
  refine ⟨?_, ?_, ?_, ?_, ?_⟩
  · exact (endsBy_elemBinary rfl hu h1 h2).writes _ rfl
  · rw [← fpSub_eq ha hb]
    exact (endsBy_elemBinary rfl hu h1 h2).writes _ rfl
  · rw [← fpNeg_eq ha]
    exact (endsBy_elemUnary rfl hu h1).writes _ rfl
  · exact (endsBy_elemBinary rfl hu h1 h2).writes _ rfl
  · exact writes_of_elemEqual (l := .l0) rfl hu h1 h2

/-- Settles O35: the power loop multiplies modulo `p`, and a negative exponent stands or falls with the
inverse of the base. -/
theorem fpPower : Obligations.FpPower := by
  unfold Obligations.FpPower
  intro s rd r1 r2 p a e hprime hp h1 h2 ha
  have hu := usable_l0_of_prime hprime
  obtain rfl := p_of_prime hprime
  have hend : EndsBy (.fpExp rd r1 r2) s rd .l0 ((fpOps s.p).exp a e) :=
    endsBy_elemPower rfl hu h1 h2
  have hmul := fpOps_mulTotal s.p (· < s.p)
  refine ⟨?_, fun hne he => ?_, fun he hcop => ?_, fun he hnot => ?_⟩
  · rintro rfl rfl
    exact hend.faults _ (exp_zero_of_isZero rfl)
  · have hne : ¬ ((fpOps s.p).isZero a = true ∧ e = 0) := by simpa [fpOps] using hne
    obtain ⟨c, hc⟩ := exp_nonneg_total (fpOps_elems hp) hmul ha hne he
    rw [← fpExp_eq_pow_mod hp ha he hc]
    exact hend.writes c hc
  · obtain ⟨i, hi⟩ := fpInv_of_coprime hp hcop
    obtain ⟨c, hc⟩ := exp_neg_total (fpOps_elems hp) hmul ha he hi
    obtain ⟨hlt, hpow⟩ := fpExp_neg_lt_and_mul_mod hp ha he hc
    exact ⟨c, hlt, hpow, hend.writes c hc⟩
  · exact hend.faults _ (exp_neg_of_inv_error he (fpInv_of_not_coprime hnot))

/-- Settles O40: in a tower of fields multiplication is total, and zero is the one element without an
inverse. -/
theorem xfPower : Obligations.XfPower := by
  unfold Obligations.XfPower
  intro s l rd r1 r2 a e h hu ht h1 h2
  have hend : EndsBy (.xfExp l rd r1 r2) s rd l.level ((s.field l.level).exp a e) :=
    endsBy_elemPower rfl hu h1 h2
  have ha := (reg_elem h h1).2
  have hF := field_closed h hu
  have hmul := field_mulTotal h hu (fieldLevel h hu ht).1
  have hzero : (s.field l.level).isZero a = true ↔ a = zeroOf s l.level :=
    (field_exactEq s l.level).isZero a ha
  refine ⟨?_, fun hne he => ?_, fun hz he => ?_, fun hz he => ?_⟩
  · rintro hz rfl
    exact hend.faults _ (exp_zero_of_isZero (hzero.2 hz))
  · obtain ⟨c, hc⟩ := exp_nonneg_total hF hmul ha (by rwa [hzero]) he
    exact ⟨c, exp_closed hF ha hc,
      inRing h hu fun _ _ _ hR => exp_nonneg_represents hF hR ha he hc, hend.writes c hc⟩
  · obtain ⟨i, hi⟩ := inv_ok_of_ne_zero h hu ht ha hz
    obtain ⟨c, hc⟩ := exp_neg_total hF hmul ha he hi
    exact ⟨c, exp_closed hF ha hc,
      inRing h hu fun _ _ _ hR => exp_neg_represents hF hR ha he hc, hend.writes c hc⟩
  · exact hend.faults _ (exp_neg_of_inv_error he (inv_isZero s l.level (hzero.2 hz)))

end Sys2Proof.Claims

/-! PROOFS. The commands on elements of an extension (42_extensionfield.md): the residue of a polynomial
(rule R162), the product, the inverse and the quotient, and the functions that work coefficient by coefficient
(rule R163). -/

namespace Sys2Proof.Machine

open Sys2Proof.Claims

variable {s : State}

/-! ### Reduction (rule R162) -/

/-- A residue reads as the polynomial it was reduced from, in the ring modulo `m`. -/
theorem mk_polyMod {α R : Type} [CommRing R] {F : FieldOps α} {ok : α → Prop} {φ : α → R}
    (hF : F.Closed ok) (hR : Represents F ok φ) {c m e : List α} (hc : ∀ x ∈ c, ok x)
    (hm : ∀ x ∈ m, ok x) (he : polyMod F m c = .ok e) :
    AdjoinRoot.mk (listPoly φ m) (listPoly φ e) = AdjoinRoot.mk (listPoly φ m) (listPoly φ c) :=
  (AdjoinRoot.mk_eq_mk.2 (listPoly_polyMod hF hR hc hm he)).symm

theorem reduce_isResidue (h : s.Inv) {l : ExtLevel} (hu : s.usable l.level = true)
    {c : List (Elem l.base)} {e : Elem l.level} (hc : ∀ x ∈ c, s.ElemOk l.base x)
    (he : s.reduce l c = .ok e) : s.IsResidue l c e := by
  cases l with
  | l1 =>
    obtain ⟨hbase, -, -, helems, -⟩ := modulus1 h hu
    exact mk_polyMod (field_closed h hbase) (val0_represents h hbase) hc helems he
  | l2 =>
    obtain ⟨hbase, -, -, helems, -⟩ := modulus2 h hu
    exact mk_polyMod (field_closed h hbase) (val1_represents h hbase) hc helems he
  | l3 =>
    obtain ⟨hbase, -, -, helems, -⟩ := modulus3 h hu
    exact mk_polyMod (field_closed h hbase) (val2_represents h hbase) hc helems he

/-- Reduction by a modulus over level `b` needs the inverse of its leading coefficient, and multiplication in
`b` (rule R161). -/
theorem polyMod_ok_of_lead (h : s.Inv) {b : Level} {m c : List (Elem b)} (hmodulus : s.ModulusOk b m)
    (hbelow : s.ModuliInvertible b)
    (hlead : ∃ u, (s.field b).inv (m.getD (m.length - 1) (s.field b).zero) = .ok u)
    (hc : ∀ x ∈ c, s.ElemOk b x) : ∃ e, polyMod (s.field b) m c = .ok e := by
  have hne := modulus_ne_nil hmodulus
  obtain ⟨hbase, -, -, helems, hnonzero⟩ := hmodulus
  obtain ⟨u, hu⟩ := hlead
  exact polyMod_total (field_closed h hbase) (field_mulTotal h hbase hbelow) hc helems hne hnonzero hu

theorem reduce_total (h : s.Inv) {l : ExtLevel} (hu : s.usable l.level = true)
    (hinv : s.ModuliInvertible l.level) {c : List (Elem l.base)}
    (hc : ∀ x ∈ c, s.ElemOk l.base x) : ∃ e, s.reduce l c = .ok e := by
  cases l with
  | l1 => exact polyMod_ok_of_lead h (modulus1 h hu) trivial hinv hc
  | l2 =>
    obtain ⟨hinv1, hinv2⟩ := hinv
    exact polyMod_ok_of_lead h (modulus2 h hu) hinv1 hinv2 hc
  | l3 =>
    obtain ⟨hinv1, hinv2, hinv3⟩ := hinv
    exact polyMod_ok_of_lead h (modulus3 h hu) ⟨hinv1, hinv2⟩ hinv3 hc

theorem endsBy_xfMod {l : ExtLevel} {rd r : Reg} {c : List (Elem l.base)}
    (hu : s.usable l.level = true) (hr : s.reg r = .ofPoly l c) :
    EndsBy (.xfMod l rd r) s rd l.level (s.reduce l c) := by
  refine endsBy_of_writeResult (show execXfMod l rd r s = _ from ?_)
  rw [execXfMod, needField_of_usable hu, bind_ok, srcPoly_of_reg hr, bind_ok]

/-! ### Products and quotients in the rings of the levels (rules R170, R172) -/

theorem mul_elemOk_and_product (h : s.Inv) {l : Level} (hu : s.usable l = true) {a b c : Elem l}
    (ha : s.ElemOk l a) (hb : s.ElemOk l b) (hc : (s.field l).mul a b = .ok c) :
    s.ElemOk l c ∧ s.InRing l fun _ _ φ => φ c = φ a * φ b :=
  ⟨(field_closed h hu).mul _ _ _ ha hb hc, inRing h hu fun _ _ _ hR => hR.mul _ _ _ ha hb hc⟩

theorem div_elemOk_and_quotient (h : s.Inv) {l : Level} (hu : s.usable l = true) {a b c : Elem l}
    (ha : s.ElemOk l a) (hb : s.ElemOk l b) (hc : (s.field l).div a b = .ok c) :
    s.ElemOk l c ∧ s.InRing l fun _ _ φ => φ c * φ b = φ a :=
  have hF := field_closed h hu
  ⟨div_closed hF ha hb hc, inRing h hu fun _ _ _ hR => div_represents hF hR ha hb hc⟩

/-- Division answers wherever the divisor has an inverse and multiplication is total. -/
theorem div_ok_of_inv_ok (h : s.Inv) {l : Level} (hu : s.usable l = true)
    (hinv : s.ModuliInvertible l) {a b i : Elem l} (ha : s.ElemOk l a) (hb : s.ElemOk l b)
    (hi : (s.field l).inv b = .ok i) : ∃ c, (s.field l).div a b = .ok c := by
  rw [div_of_inv_ok a hi]
  exact field_mulTotal h hu hinv a i ha ((field_closed h hu).inv _ _ hb hi)

/-! ### Level 1 coefficient by coefficient (rule R163) -/

/-- Two functions that agree on the elements of a level agree coefficient by coefficient. -/
theorem zipWith_congr_of_extOk {α : Type} {ok : α → Prop} {d : Nat} {f g : α → α → α} {a b : List α}
    (hfg : ∀ x y, ok x → ok y → f x y = g x y) (ha : ExtOk ok d a) (hb : ExtOk ok d b) :
    List.zipWith f a b = List.zipWith g a b := by
  refine List.zipWith_congr f g a b (List.forall₂_iff_zip.2 ⟨ha.1.trans hb.1.symm, fun hxy => ?_⟩)
  obtain ⟨hx, hy⟩ := List.of_mem_zip hxy
  exact hfg _ _ (ha.2 _ hx) (hb.2 _ hy)

theorem field_l1_add (a b : List Nat) :
    (s.field .l1).add a b = List.zipWith (fun x y => (x + y) % s.p) a b := rfl

theorem field_l1_sub {a b : List Nat} (ha : s.ElemOk .l1 a) (hb : s.ElemOk .l1 b) :
    (s.field .l1).sub a b =
      List.zipWith (fun x y => if y ≤ x then x - y else x + s.p - y) a b :=
  zipWith_congr_of_extOk (fun _ _ hx hy => fpSub_eq hx hy) ha hb

theorem field_l1_neg {a : List Nat} (ha : s.ElemOk .l1 a) :
    (s.field .l1).neg a = a.map fun x => if x = 0 then 0 else s.p - x :=
  List.map_congr_left fun x hx => fpNeg_eq (ha.2 x hx)

end Sys2Proof.Machine

namespace Sys2Proof.Claims

open Sys2Proof.Machine

/-- Settles O41: reduction answers when the leading coefficients are invertible, and what it answers differs
from the polynomial by a multiple of the modulus. -/
theorem xfReduces : Obligations.XfReduces := by
  unfold Obligations.XfReduces
  intro s l rd r c h hu hinv hr
  obtain ⟨-, -, -, hc⟩ := reg_poly h hr
  obtain ⟨e, he⟩ := reduce_total h hu hinv hc
  exact ⟨e, reduce_closed h hu hc he, reduce_isResidue h hu hc he, (endsBy_xfMod hu hr).writes e he⟩

/-- Settles O37: multiplication answers when the leading coefficients are invertible, and what it answers is
the product in the ring of the level. -/
theorem xfProduct : Obligations.XfProduct := by
  unfold Obligations.XfProduct
  intro s l rd r1 r2 a b h hu hinv h1 h2
  have hend : EndsBy (.xfMul l rd r1 r2) s rd l.level ((s.field l.level).mul a b) :=
    endsBy_elemBinary rfl hu h1 h2
  have ha := (reg_elem h h1).2
  have hb := (reg_elem h h2).2
  obtain ⟨c, hc⟩ := field_mulTotal h hu hinv a b ha hb
  obtain ⟨hok, hprod⟩ := mul_elemOk_and_product h hu ha hb hc
  exact ⟨c, hok, hprod, hend.writes c hc⟩

/-- Settles O38: in a tower of fields zero is the one element without an inverse, and a quotient is a product
with the inverse. -/
theorem xfInverse : Obligations.XfInverse := by
  unfold Obligations.XfInverse
  intro s l rd r1 r2 a b h hu ht h1 h2
  have hinv : EndsBy (.xfInv l rd r2) s rd l.level ((s.field l.level).inv b) :=
    endsBy_elemUnary rfl hu h2
  have hdiv : EndsBy (.xfDiv l rd r1 r2) s rd l.level ((s.field l.level).div a b) :=
    endsBy_elemBinary rfl hu h1 h2
  have ha := (reg_elem h h1).2
  have hb := (reg_elem h h2).2
  constructor
  · intro hz
    obtain ⟨i, hi⟩ := inv_ok_of_ne_zero h hu ht hb hz
    obtain ⟨q, hq⟩ := div_ok_of_inv_ok h hu (fieldLevel h hu ht).1 ha hb hi
    obtain ⟨hiok, hione⟩ := inv_elemOk_and_inverse h hu hb hi
    obtain ⟨hqok, hqmul⟩ := div_elemOk_and_quotient h hu ha hb hq
    exact ⟨⟨i, hiok, hione, hinv.writes i hi⟩, q, hqok, hqmul, hdiv.writes q hq⟩
  · intro hz
    have herr := inv_isZero s l.level (((field_exactEq s l.level).isZero b hb).2 hz)
    exact ⟨hinv.faults _ herr, hdiv.faults _ (div_of_inv_error a herr)⟩

/-- Settles O36: the four functions raise no fault and compute in the ring of the level; at level 1 each
coefficient is that of level 0. -/
theorem xfLinear : Obligations.XfLinear := by
  unfold Obligations.XfLinear
  constructor
  · intro s l rd r1 r2 a b h hu h1 h2
    have hF := field_closed h hu
    have ha := (reg_elem h h1).2
    have hb := (reg_elem h h2).2
    have heq : (s.field l.level).eq a b = true ↔ a = b := (field_exactEq s l.level).eq a b ha hb
    have hxfEq : exec (.xfEq l rd r1 r2) s = .next (Writes s rd (.bool ((s.field l.level).eq a b))) :=
      writes_of_elemEqual rfl hu h1 h2
    refine ⟨?_, ?_, ?_, fun hab => ?_, fun hab => ?_⟩
    · exact ⟨_, hF.add a b ha hb, inRing h hu fun _ _ _ hR => hR.add a b ha hb,
        (endsBy_elemBinary rfl hu h1 h2).writes _ rfl⟩
    · exact ⟨_, hF.sub a b ha hb, inRing h hu fun _ _ _ hR => hR.sub a b ha hb,
        (endsBy_elemBinary rfl hu h1 h2).writes _ rfl⟩
    · exact ⟨_, hF.neg a ha, inRing h hu fun _ _ _ hR => hR.neg a ha,
        (endsBy_elemUnary rfl hu h1).writes _ rfl⟩
    · rw [hxfEq, heq.2 hab]
    · rw [hxfEq, Bool.eq_false_iff.2 (mt heq.1 hab)]
  · intro s rd r1 r2 a b h hu h1 h2
    have ha := (reg_elem (l := .l1) h h1).2
    have hb := (reg_elem (l := .l1) h h2).2
    rw [← field_l1_add, ← field_l1_sub ha hb, ← field_l1_neg ha]
    exact ⟨(endsBy_elemBinary rfl hu h1 h2).writes _ rfl,
      (endsBy_elemBinary rfl hu h1 h2).writes _ rfl, (endsBy_elemUnary rfl hu h1).writes _ rfl⟩

end Sys2Proof.Claims

/-! PROOFS. LIFT (43_tower.md): each step up the tower puts its operand at index 0 with zeros of the level
below above it (rule R192), and LIFT takes the steps from the operand's level to the target (rule R193). -/

namespace Sys2Proof.Machine

open Sys2Proof.Claims

variable {s : State}

/-! ### The steps up the tower (rule R192) -/

theorem up1_eq_padded (s : State) (a : Nat) : s.up1 a = padded 0 (s.degree .l1) a := rfl

theorem up2_eq_padded (s : State) (e : List Nat) :
    s.up2 e = padded (zeros1 s) (s.degree .l2) e := rfl

theorem up3_eq_padded (s : State) (e : List (List Nat)) :
    s.up3 e = padded (zeros2 s) (s.degree .l3) e := rfl

theorem lift_l0_eq_atLevel (s : State) (l : Level) (a : Nat) :
    s.lift .l0 l a = some (atLevel s a l) := by
  cases l with
  | l0 => rfl
  | l1 => rw [State.lift, up1_eq_padded, atLevel]
  | l2 => rw [State.lift, up2_eq_padded, up1_eq_padded, atLevel]
  | l3 => rw [State.lift, up3_eq_padded, up2_eq_padded, up1_eq_padded, atLevel]

theorem lift_self (s : State) (l : Level) (e : Elem l) : s.lift l l e = some e := by
  cases l <;> rfl

/-- The integers of a level are the lifted residues modulo `p`. -/
theorem ofInt_eq_atLevel (s : State) (l : Level) (n : Int) :
    (s.field l).ofInt n = atLevel s (n % s.p).toNat l := by
  cases l with
  | l0 => rfl
  | l1 => exact up1_eq_padded s (residue s.p n)
  | l2 => exact up2_eq_padded s (s.up1 (residue s.p n))
  | l3 => exact up3_eq_padded s (s.up2 (s.up1 (residue s.p n)))

/-! ### The value of LIFT (rule R193) -/

theorem liftValue_int (s : State) (l : Level) (n : Int) :
    s.liftValue l (.int n) = some (atLevel s (n % s.p).toNat l) := by
  rw [State.liftValue, ofInt_eq_atLevel]

theorem liftValue_ofElem (s : State) (m l : Level) (e : Elem m) :
    s.liftValue l (.ofElem m e) = s.lift m l e := by
  cases m <;> rfl

section Lift

variable {l m : Level} {rd r : Reg} {n : Int}

/-- LIFT of a value it accepts completes with what the value lifts to. -/
theorem writes_of_liftValue {e : Elem l} (hu : s.usable l = true) (hr : s.reg r ≠ .empty)
    (he : s.liftValue l (s.reg r) = some e) :
    exec (.lift l rd r) s = .next (Writes s rd (.ofElem l e)) := by
  have hend : EndsBy (.lift l rd r) s rd l (s.src r (s.liftValue l)) := by
    refine endsBy_of_writeResult (show execLift l rd r s = _ from ?_)
    rw [execLift, needField_of_usable hu, bind_ok]
  exact hend.writes e (src_eq_ok.2 ⟨hr, he⟩)

theorem lift_int_writes (hu : s.usable l = true) (hr : s.reg r = .int n) :
    exec (.lift l rd r) s = .next (Writes s rd (.ofElem l (atLevel s (n % s.p).toNat l))) :=
  writes_of_liftValue hu (by simp [hr]) (by rw [hr, liftValue_int])

theorem lift_elem_writes {a : Elem m} {e : Elem l} (hu : s.usable l = true)
    (hr : s.reg r = .ofElem m a) (he : s.lift m l a = some e) :
    exec (.lift l rd r) s = .next (Writes s rd (.ofElem l e)) :=
  writes_of_liftValue hu (by simp [hr]) (by rw [hr, liftValue_ofElem, he])

end Lift

end Sys2Proof.Machine

namespace Sys2Proof.Claims

open Sys2Proof.Machine

/-- Settles O42: the integers of a level are the lifted residues, and a lift from one level to another is the
steps between the two. -/
theorem liftResult : Obligations.LiftResult := by
  unfold Obligations.LiftResult
  intro s l rd r hu
  refine ⟨fun n hr => lift_int_writes hu hr, fun a hr => ?_, fun e hr => ?_, ?_, ?_, ?_⟩
  · exact lift_elem_writes (m := .l0) hu hr (lift_l0_eq_atLevel s l a)
  · exact lift_elem_writes hu hr (lift_self s l e)
  · rintro e hr rfl
    rw [← up2_eq_padded]
    exact lift_elem_writes (m := .l1) hu hr rfl
  · rintro e hr rfl
    rw [← up2_eq_padded, ← up3_eq_padded]
    exact lift_elem_writes (m := .l1) hu hr rfl
  · rintro e hr rfl
    rw [← up3_eq_padded]
    exact lift_elem_writes (m := .l2) hu hr rfl

end Sys2Proof.Claims

/-! PROOFS. The curve commands (44_curve.md): what each computes once its sources are read, the cases of the
group law in the ring of the slot's level (rules R203, R204), the closure of the curve (rule R200), the
double-and-add loop (rule R206) and the subgroup checks (rule R262). -/

namespace Sys2Proof.Machine

open Sys2Proof.Claims

variable {s : State}

/-! ### Commands with a destination end as their computation does -/

/-- The command `i` ends in `s` as the computation `x` of the value for `rd` does (rules R29, R110). -/
def AnswersBy (i : Instr) (s : State) (rd : Reg) (x : Except FaultCode Value) : Prop :=
  exec i s = s.writeResult (encode i) rd x

theorem bind_ok_eq_map {ε β γ : Type} (x : Except ε β) (f : β → γ) :
    (x >>= fun b => .ok (f b)) = x.map f := by
  cases x <;> rfl

/-- A completion has counted the command, so it is no fault entry, even of a state in FAULT. -/
theorem writes_ne_faults (rd : Reg) (v : Value) (w : CmdWord) (c : FaultCode) :
    Writes s rd v ≠ Faults s w c := fun h => by
  have hcount : s.cmdCnt + 1 = s.cmdCnt := congrArg State.cmdCnt h
  simp at hcount

theorem writes_injective {rd : Reg} {v v' : Value} (h : Writes s rd v = Writes s rd v') : v = v' := by
  have hreg : (s.setReg rd v).complete.reg rd = (s.setReg rd v').complete.reg rd :=
    congrArg (State.reg · rd) h
  rwa [complete_reg, complete_reg, reg_setReg_self, reg_setReg_self] at hreg

theorem writeResult_eq_writes_iff {w : CmdWord} {rd : Reg} {x : Except FaultCode Value} {v : Value} :
    s.writeResult w rd x = .next (Writes s rd v) ↔ x = .ok v := by
  cases x with
  | ok v' =>
    constructor
    · intro h
      exact congrArg _ (writes_injective (s := s) (rd := rd) (Host.Outcome.next.inj h))
    · rintro ⟨⟩
      rfl
  | error c =>
    constructor
    · intro h
      exact absurd (Host.Outcome.next.inj h).symm (writes_ne_faults rd v w c)
    · rintro ⟨⟩

theorem writeResult_eq_faults_iff {w : CmdWord} {rd : Reg} {x : Except FaultCode Value}
    {c : FaultCode} : s.writeResult w rd x = .next (Faults s w c) ↔ x = .error c := by
  cases x with
  | ok v =>
    constructor
    · intro h
      exact absurd (Host.Outcome.next.inj h) (writes_ne_faults (s := s) rd v w c)
    · rintro ⟨⟩
  | error c' =>
    constructor
    · intro h
      have hmode : Mode.fault c' = .fault c := congrArg State.mode (Host.Outcome.next.inj h)
      rw [Mode.fault.inj hmode]
    · rintro ⟨⟩
      rfl

namespace AnswersBy

variable {i j : Instr} {rd : Reg} {x : Except FaultCode Value}

theorem writes_iff (h : AnswersBy i s rd x) {v : Value} :
    exec i s = .next (Writes s rd v) ↔ x = .ok v := by
  rw [h, writeResult_eq_writes_iff]

theorem faults_iff (h : AnswersBy i s rd x) {c : FaultCode} :
    exec i s = .next (Faults s (encode i) c) ↔ x = .error c := by
  rw [h, writeResult_eq_faults_iff]

/-- Two commands with one computation agree in every result and fault. -/
theorem agree (hi : AnswersBy i s rd x) (hj : AnswersBy j s rd x) :
    (∀ v, exec i s = .next (Writes s rd v) ↔ exec j s = .next (Writes s rd v)) ∧
      ∀ c, exec i s = .next (Faults s (encode i) c) ↔ exec j s = .next (Faults s (encode j) c) :=
  ⟨fun _ => hi.writes_iff.trans hj.writes_iff.symm, fun _ => hi.faults_iff.trans hj.faults_iff.symm⟩

theorem writes_point_iff {k : Slot} {y : Except FaultCode (Point (Elem k.level))}
    (h : AnswersBy i s rd (y.map (Value.ofPoint k))) {R : Point (Elem k.level)} :
    exec i s = .next (Writes s rd (.ofPoint k R)) ↔ y = .ok R := by
  rw [h.writes_iff, map_eq_ok]
  constructor
  · rintro ⟨R', hy, hR⟩
    have hpick := congrArg (Value.point? k) hR
    rw [point?_ofPoint, point?_ofPoint] at hpick
    rw [hy, Option.some.inj hpick]
  · intro hy
    exact ⟨R, hy, rfl⟩

theorem faults_of_map {β : Type} {y : Except FaultCode β} {f : β → Value} {c : FaultCode}
    (h : AnswersBy i s rd (y.map f)) (hy : y = .error c) :
    exec i s = .next (Faults s (encode i) c) := by
  rw [h.faults_iff, hy]
  rfl

end AnswersBy

/-! ### What the curve commands compute -/

section Commands

variable {k : Slot} {rd r r1 r2 : Reg} {E : CurveCtx (Elem k.level)} {P Q : Point (Elem k.level)}

theorem srcPoint_of_reg (h : s.reg r = .ofPoint k P) : s.srcPoint k r = .ok P := srcPoint_eq_ok.2 h

theorem needCurve_of_curve (h : s.curve k = some E) : s.needCurve k = .ok E := needCurve_eq_ok.2 h

theorem pointUnary_of_reg {f : FieldOps (Elem k.level) → CurveCtx (Elem k.level) →
      Point (Elem k.level) → Except FaultCode Value} (hE : s.curve k = some E)
    (hr : s.reg r = .ofPoint k P) : s.pointUnary k r f = f (s.field k.level) E P := by
  rw [State.pointUnary, needCurve_of_curve hE, bind_ok, srcPoint_of_reg hr, bind_ok]

theorem ecAdd_answers (hE : s.curve k = some E) (h1 : s.reg r1 = .ofPoint k P)
    (h2 : s.reg r2 = .ofPoint k Q) : AnswersBy (.ecAdd k rd r1 r2) s rd
      ((pointAdd (s.field k.level) E P Q).map (Value.ofPoint k)) := by
  show execEcAdd k rd r1 r2 s = _
  rw [execEcAdd, needCurve_of_curve hE, bind_ok, srcPoint_of_reg h1, bind_ok, srcPoint_of_reg h2,
    bind_ok, bind_ok_eq_map]

theorem ecSmul_answers {n : Int} (hE : s.curve k = some E) (h1 : s.reg r1 = .ofPoint k P)
    (h2 : s.reg r2 = .int n) : AnswersBy (.ecSmul k rd r1 r2) s rd
      ((pointMul (s.field k.level) E P n).map (Value.ofPoint k)) := by
  show execEcSmul k rd r1 r2 s = _
  rw [execEcSmul, needCurve_of_curve hE, bind_ok, srcPoint_of_reg h1, bind_ok, srcInt_of_reg h2,
    bind_ok, bind_ok_eq_map]

theorem ecIsZero_answers (hE : s.curve k = some E) (hr : s.reg r = .ofPoint k P) :
    AnswersBy (.ecIsZero k rd r) s rd (.ok (.bool P.isIdentity)) := by
  show execEcIsZero k rd r s = _
  rw [execEcIsZero, pointUnary_of_reg hE hr]

theorem ecIsOnCurve_answers (hE : s.curve k = some E) (hr : s.reg r = .ofPoint k P) :
    AnswersBy (.ecIsOnCurve k rd r) s rd ((onCurve (s.field k.level) E P).map Value.bool) := by
  show execEcIsOnCurve k rd r s = _
  rw [execEcIsOnCurve, pointUnary_of_reg hE hr]

theorem ecNeg_answers (hE : s.curve k = some E) (hr : s.reg r = .ofPoint k P) :
    AnswersBy (.ecNeg k rd r) s rd (.ok (.ofPoint k (pointNeg (s.field k.level) P))) := by
  show execEcNeg k rd r s = _
  rw [execEcNeg, pointUnary_of_reg hE hr]

/-- EC.DBL and EC.ADD of a source with itself are one computation, whatever the source holds. -/
theorem ecAdd_self_answers (k : Slot) (rd r : Reg) :
    AnswersBy (.ecAdd k rd r r) s rd
      (s.pointUnary k r fun F E P => (pointAdd F E P P).map (Value.ofPoint k)) := by
  show execEcAdd k rd r r s = _
  rw [execEcAdd, State.pointUnary]
  cases s.needCurve k with
  | error c => rfl
  | ok E =>
    cases s.srcPoint k r with
    | error c => rfl
    | ok P => simp only [bind_ok, bind_ok_eq_map]

theorem ecDbl_answers (k : Slot) (rd r : Reg) :
    AnswersBy (.ecDbl k rd r) s rd
      (s.pointUnary k r fun F E P => (pointAdd F E P P).map (Value.ofPoint k)) := rfl

end Commands

/-! ### The group law in the ring of a level (rules R203, R204) -/

@[simp] theorem identity_pointAdd {α : Type} (F : FieldOps α) (E : CurveCtx α) (Q : Point α) :
    pointAdd F E .identity Q = .ok Q := rfl

@[simp] theorem pointAdd_identity {α : Type} (F : FieldOps α) (E : CurveCtx α) (P : Point α) :
    pointAdd F E P .identity = .ok P := by
  cases P <;> rfl

section GroupLaw

variable {l : Level} {E : CurveCtx (Elem l)} {x1 y1 x2 y2 : Elem l}

theorem pointAdd_opposite (h1 : s.ElemOk l x1) (h2 : s.ElemOk l y1) (h3 : s.ElemOk l x2)
    (h4 : s.ElemOk l y2) (hopp : x1 = x2 ∧ y1 ≠ y2) :
    pointAdd (s.field l) E (.affine x1 y1) (.affine x2 y2) = .ok .identity := by
  rw [pointAdd, if_pos ((opposite_iff (field_exactEq s l) h1 h2 h3 h4).2 hopp)]

variable (h : s.Inv) (hu : s.usable l = true) (ht : s.FieldTower l)

include h hu ht

/-- The tangent at `y = 0` divides by twice zero. -/
theorem pointAdd_tangent_zero (h1 : s.ElemOk l x1) :
    pointAdd (s.field l) E (.affine x1 (s.field l).zero) (.affine x1 (s.field l).zero) =
      .error .divisionByZero := by
  obtain ⟨R, _, φ, FL, -⟩ := fieldLevel_reads h hu ht
  have hzero := FL.closed.zero
  obtain ⟨xx, hxx⟩ := FL.total _ _ h1 h1
  obtain ⟨xx3, hxx3⟩ := FL.total _ _ (FL.closed.ofInt 3) (FL.closed.mul _ _ _ h1 h1 hxx)
  obtain ⟨den, hden⟩ := FL.total _ _ (FL.closed.ofInt 2) hzero
  have hden0 : (s.field l).isZero den = true := by
    rw [FL.isZero_iff (FL.closed.mul _ _ _ (FL.closed.ofInt 2) hzero hden),
      FL.represents.mul _ _ _ (FL.closed.ofInt 2) hzero hden, FL.represents.zero, mul_zero]
  have hslope : slope (s.field l) E x1 (s.field l).zero x1 (s.field l).zero =
      .error .divisionByZero := by
    rw [slope, if_pos ((samePoint_iff FL.exact h1 hzero h1 hzero).2 ⟨rfl, rfl⟩), hxx, bind_ok, hxx3,
      bind_ok, hden, bind_ok, div_of_inv_error _ (inv_isZero s l hden0)]
  rw [pointAdd, if_neg (mt (opposite_iff FL.exact h1 hzero h1 hzero).1 fun hopp => hopp.2 rfl), hslope,
    bind_error]

variable (hE : CurveElems (s.ElemOk l) E)

include hE

/-- What addition answers for two affine points that are not each other's opposite lies on the chord or
tangent through them, reflected. -/
theorem pointAdd_formulas {S : Point (Elem l)} (h1 : s.ElemOk l x1) (h2 : s.ElemOk l y1)
    (h3 : s.ElemOk l x2) (h4 : s.ElemOk l y2) (hne : ¬ (x1 = x2 ∧ y1 ≠ y2))
    (hS : pointAdd (s.field l) E (.affine x1 y1) (.affine x2 y2) = .ok S) :
    ∃ m x3 y3, S = .affine x3 y3 ∧ s.ElemOk l x3 ∧ s.ElemOk l y3 ∧ s.InRing l fun _ _ φ =>
      (x1 = x2 → TangentSlope (φ E.a) (φ m) (φ x1) (φ y1)) ∧
        (x1 ≠ x2 → ChordSlope (φ m) (φ x1) (φ y1) (φ x2) (φ y2)) ∧
        SumFormula (φ m) (φ x1) (φ y1) (φ x2) (φ x3) (φ y3) := by
  obtain ⟨R, _, φ, -, rd⟩ := fieldLevel_reads h hu ht
  obtain ⟨-, hsum⟩ := (pointAdd_iff_sumIs h hu ht hE (P := .affine x1 y1) (Q := .affine x2 y2)
    ⟨h1, h2⟩ ⟨h3, h4⟩).1 hS
  obtain ⟨m, x3, y3, rfl, hx3, hy3, ⟨-, -, hslope⟩, hf⟩ := hsum hne
  obtain ⟨htan, hchord⟩ := (rd _).1 hslope
  exact ⟨m, x3, y3, rfl, hx3, hy3, (rd _).2 ⟨htan, hchord, (rd _).1 hf⟩⟩

/-- Addition answers for two affine points unless it is the tangent at `y = 0`. -/
theorem pointAdd_ok (h1 : s.ElemOk l x1) (h2 : s.ElemOk l y1) (h3 : s.ElemOk l x2)
    (h4 : s.ElemOk l y2) (hy : x1 = x2 → y1 = y2 → y1 ≠ (s.field l).zero) :
    ∃ S, pointAdd (s.field l) E (.affine x1 y1) (.affine x2 y2) = .ok S := by
  obtain ⟨R, _, φ, FL, -⟩ := fieldLevel_reads h hu ht
  exact FL.pointAdd_total hE h1 h2 h3 h4 hy

end GroupLaw

end Sys2Proof.Machine

namespace Sys2Proof.Claims

open Sys2Proof.Machine

/-- Settles O45: EC.ADD is `add_E`, which over a field answers in every case but the tangent at `y = 0`. -/
theorem ecAddition : Obligations.EcAddition := by
  unfold Obligations.EcAddition
  intro s k rd r1 r2 E P Q h hE ht h1 h2
  have hend := ecAdd_answers (rd := rd) hE h1 h2
  obtain ⟨hu, hP⟩ := reg_point h h1
  obtain ⟨-, hQ⟩ := reg_point h h2
  have hEok := curve_elems h hE
  refine ⟨?_, ?_, ?_⟩
  · rintro rfl
    exact hend.writes_point_iff.2 (identity_pointAdd _ E Q)
  · rintro rfl
    exact hend.writes_point_iff.2 (pointAdd_identity _ E P)
  rintro x1 y1 x2 y2 rfl rfl
  obtain ⟨hx1, hy1⟩ := hP
  obtain ⟨hx2, hy2⟩ := hQ
  refine ⟨fun hx hy => ?_, fun hx => ?_, fun hx hy hz => ?_, ?_⟩
  · exact hend.writes_point_iff.2 (pointAdd_opposite hx1 hy1 hx2 hy2 ⟨hx, hy⟩)
  · obtain ⟨S, hS⟩ := pointAdd_ok h hu ht hEok hx1 hy1 hx2 hy2 fun hxx => absurd hxx hx
    obtain ⟨m, x3, y3, rfl, hx3, hy3, hf⟩ := pointAdd_formulas h hu ht hEok hx1 hy1 hx2 hy2
      (fun hopp => hx hopp.1) hS
    exact ⟨m, x3, y3, hx3, hy3, inRing_mono (fun _ _ _ ⟨_, hchord, hsum⟩ => ⟨hchord hx, hsum⟩) hf,
      hend.writes_point_iff.2 hS⟩
  · obtain ⟨S, hS⟩ := pointAdd_ok h hu ht hEok hx1 hy1 hx2 hy2 fun _ _ => hz
    obtain ⟨m, x3, y3, rfl, hx3, hy3, hf⟩ := pointAdd_formulas h hu ht hEok hx1 hy1 hx2 hy2
      (fun hopp => hopp.2 hy) hS
    exact ⟨m, x3, y3, hx3, hy3, inRing_mono (fun _ _ _ ⟨htan, _, hsum⟩ => ⟨htan hx, hsum⟩) hf,
      hend.writes_point_iff.2 hS⟩
  · rintro rfl rfl rfl
    exact hend.faults_of_map (pointAdd_tangent_zero h hu ht hx1)

end Sys2Proof.Claims

namespace Sys2Proof.Machine

open Sys2Proof.Claims

/-! ### The curve is closed under the group law (rule R200) -/

/-- `P` is a point of slot `k`, its coordinates elements of the slot's level, and on the curve `E`. -/
def State.CurvePoint (s : State) (k : Slot) (E : CurveCtx (Elem k.level)) (P : Point (Elem k.level)) :
    Prop := PointOk (s.ElemOk k.level) P ∧ OnCurve s k E P

section Closure

variable {s : State} {k : Slot} {E : CurveCtx (Elem k.level)} {P Q S : Point (Elem k.level)}
  (h : s.Inv) (hu : s.usable k.level = true) (ht : s.FieldTower k.level)

include h hu ht

theorem pointNeg_onCurve (hP : PointOk (s.ElemOk k.level) P) (hon : OnCurve s k E P) :
    OnCurve s k E (pointNeg (s.field k.level) P) := by
  obtain ⟨R, _, φ, FL, rd⟩ := fieldLevel_reads h hu ht
  cases P with
  | identity => trivial
  | affine x y =>
    have hxy := (rd _).1 hon
    refine (rd _).2 ?_
    rw [OnCurveEq, FL.represents.neg _ hP.2, neg_sq]
    exact hxy

variable (hE : CurveElems (s.ElemOk k.level) E) (hP : PointOk (s.ElemOk k.level) P)
  (hQ : PointOk (s.ElemOk k.level) Q)

include hE hP hQ

theorem pointAdd_onCurve (honP : OnCurve s k E P) (honQ : OnCurve s k E Q)
    (hS : pointAdd (s.field k.level) E P Q = .ok S) : OnCurve s k E S := by
  match P, Q with
  | .identity, Q =>
    cases hS
    exact honQ
  | .affine x1 y1, .identity =>
    cases hS
    exact honP
  | .affine x1 y1, .affine x2 y2 =>
    obtain ⟨hx1, hy1⟩ := hP
    obtain ⟨hx2, hy2⟩ := hQ
    by_cases hopp : x1 = x2 ∧ y1 ≠ y2
    · rw [pointAdd_opposite hx1 hy1 hx2 hy2 hopp] at hS
      cases hS
      trivial
    · obtain ⟨R, _, φ, FL, rd⟩ := fieldLevel_reads h hu ht
      obtain ⟨m, x3, y3, rfl, -, -, hf⟩ := pointAdd_formulas h hu ht hE hx1 hy1 hx2 hy2 hopp hS
      obtain ⟨htan, hchord, hsum⟩ := (rd _).1 hf
      have := FL.domain
      refine (rd _).2 (sum_on_curve ((rd _).1 honP) ((rd _).1 honQ) hsum ?_)
      by_cases hx : x1 = x2
      · exact .inr ⟨congrArg φ hx, htan hx⟩
      · exact .inl ⟨fun hφ => hx (FL.separates _ _ hx1 hx2 hφ), hchord hx⟩

omit hP hQ

variable (hnone : ∀ x, s.ElemOk k.level x → ¬ OnCurve s k E (.affine x (zeroOf s k.level)))

include hnone

/-- Where no point of the curve has `y = 0`, any two points of the curve have a sum, a point of the curve. -/
theorem pointAdd_ok_of_no_zero_y (hP : s.CurvePoint k E P) (hQ : s.CurvePoint k E Q) :
    ∃ T, pointAdd (s.field k.level) E P Q = .ok T ∧ s.CurvePoint k E T := by
  obtain ⟨hPok, honP⟩ := hP
  obtain ⟨hQok, honQ⟩ := hQ
  have hsum : ∃ T, pointAdd (s.field k.level) E P Q = .ok T := by
    match P, Q with
    | .identity, Q => exact ⟨Q, rfl⟩
    | .affine x1 y1, .identity => exact ⟨_, rfl⟩
    | .affine x1 y1, .affine x2 y2 =>
      refine pointAdd_ok h hu ht hE hPok.1 hPok.2 hQok.1 hQok.2 fun _ _ hy => ?_
      subst hy
      exact hnone x1 hPok.1 honP
  obtain ⟨T, hT⟩ := hsum
  exact ⟨T, hT, pointAdd_closed (field_closed h hu) hE hPok hQok hT,
    pointAdd_onCurve h hu ht hE hPok hQok honP honQ hT⟩

/-- There, every multiple of a point of the curve exists, and is one. -/
theorem pointMul_ok_of_no_zero_y (hP : s.CurvePoint k E P) (n : Int) :
    ∃ T, pointMul (s.field k.level) E P n = .ok T ∧ s.CurvePoint k E T := by
  have hbase : s.CurvePoint k E (if n < 0 then pointNeg (s.field k.level) P else P) := by
    split
    · exact ⟨pointNeg_closed (field_closed h hu) hP.1, pointNeg_onCurve h hu ht hP.1 hP.2⟩
    · exact hP
  exact scalarLoop_total (fun _ _ => pointAdd_ok_of_no_zero_y h hu ht hE hnone) hbase _
    (A := .identity) ⟨trivial, trivial⟩

end Closure

end Sys2Proof.Machine

namespace Sys2Proof.Claims

open Sys2Proof.Machine

/-- Settles O47: the third point of a chord or tangent, reflected, satisfies the equation. -/
theorem ecSumOnCurve : Obligations.EcSumOnCurve := by
  unfold Obligations.EcSumOnCurve
  intro s k rd r1 r2 E P Q R h hE ht h1 h2 honP honQ hexec
  obtain ⟨hu, hP⟩ := reg_point h h1
  obtain ⟨-, hQ⟩ := reg_point h h2
  exact pointAdd_onCurve h hu ht (curve_elems h hE) hP hQ honP honQ
    ((ecAdd_answers hE h1 h2).writes_point_iff.1 hexec)

/-- Settles O50: each addition of the loop answers, on the curve, as the one addition that would not is the
tangent at `y = 0`. -/
theorem ecMultipleCompletes : Obligations.EcMultipleCompletes := by
  unfold Obligations.EcMultipleCompletes
  intro s k rd r1 r2 E P n h hE ht hnone h1 h2 honP
  obtain ⟨hu, hP⟩ := reg_point h h1
  obtain ⟨R, hR, -, honR⟩ := pointMul_ok_of_no_zero_y h hu ht (curve_elems h hE) hnone ⟨hP, honP⟩ n
  exact ⟨R, honR, (ecSmul_answers hE h1 h2).writes_point_iff.2 hR⟩

end Sys2Proof.Claims

namespace Sys2Proof.Machine

open Sys2Proof.Claims

variable {s : State}

/-! ### The predicates and the negative (rules R201, R202, R205) -/

section Predicates

variable {k : Slot} {E : CurveCtx (Elem k.level)} {P : Point (Elem k.level)}

theorem isIdentity_eq_true_iff {α : Type} {P : Point α} : P.isIdentity = true ↔ P = .identity := by
  cases P <;> simp [Point.isIdentity]

/-- A level's negative is an element that reads as the negative (rules R141, R163). -/
theorem neg_elemOk_and_negative (h : s.Inv) {l : Level} (hu : s.usable l = true) {y : Elem l}
    (hy : s.ElemOk l y) :
    s.ElemOk l ((s.field l).neg y) ∧ s.InRing l fun _ _ φ => φ ((s.field l).neg y) = -φ y :=
  ⟨(field_closed h hu).neg y hy, inRing h hu fun _ _ _ hR => hR.neg y hy⟩

/-- `on_curve` answers whether the point is on the curve wherever multiplication is total. -/
theorem onCurve_answers (h : s.Inv) (hu : s.usable k.level = true)
    (hinv : s.ModuliInvertible k.level) (hE : CurveElems (s.ElemOk k.level) E)
    (hP : PointOk (s.ElemOk k.level) P) :
    ∃ b, onCurve (s.field k.level) E P = .ok b ∧ (b = true ↔ OnCurve s k E P) := by
  have hF := field_closed h hu
  obtain ⟨b, hb⟩ := onCurve_total hF (field_mulTotal h hu hinv) hE hP
  refine ⟨b, hb, ?_⟩
  cases P with
  | identity =>
    cases hb
    exact iff_of_true rfl trivial
  | affine x y =>
    have hdecides : s.InRing k.level fun _ _ φ => b = true ↔ OnCurveEq (φ E.a) (φ E.b) (φ x) (φ y) :=
      inRing_sep h hu hinv fun _ _ _ hR hS =>
        onCurve_represents hF hR (field_exactEq s k.level) hS hE hP.1 hP.2 hb
    exact ⟨fun hbt => inRing_mono (fun _ _ _ hiff => hiff.1 hbt) hdecides,
      inRing_mp (inRing_mono (fun _ _ _ hiff => hiff.2) hdecides)⟩

end Predicates

/-! ### Multiples (rule R206) -/

section Multiples

variable {α : Type} {F : FieldOps α} {E : CurveCtx α} {P : Point α}

/-- The multiples of the identity, by any addition that has it as its neutral element. -/
theorem scalarLoop_identity {add : Point α → Point α → Except FaultCode (Point α)}
    (hadd : add .identity .identity = .ok .identity) (n i : Nat) :
    scalarLoop add .identity n i .identity = .ok .identity := by
  induction i with
  | zero => rfl
  | succ i ih => simp only [scalarLoop, hadd, bind_ok, ite_self, ih]

/-- One round of the loop of rule R206: a doubling, and an addition of `P` for a bit 1. -/
def doubleAndAdd (add : Point α → Point α → Except FaultCode (Point α)) (P : Point α) (bit : Bool)
    (R : Point α) : Except FaultCode (Point α) := do
  let D ← add R R
  if bit then add D P else .ok D

theorem scalarLoop_succ (add : Point α → Point α → Except FaultCode (Point α)) (P : Point α)
    (n i : Nat) (A : Point α) :
    scalarLoop add P n (i + 1) A = doubleAndAdd add P (n.testBit i) A >>= scalarLoop add P n i := by
  rw [scalarLoop, doubleAndAdd]
  cases add A A with
  | error c => rfl
  | ok D => cases n.testBit i <;> rfl

/-- The last round is the one for the lowest bit; the rounds before it are those for half the number. -/
theorem scalarLoop_succ_last (add : Point α → Point α → Except FaultCode (Point α)) (P : Point α)
    (n i : Nat) (A : Point α) :
    scalarLoop add P n (i + 1) A =
      scalarLoop add P (n / 2) i A >>= doubleAndAdd add P (n.testBit 0) := by
  induction i generalizing A with
  | zero => exact (scalarLoop_succ add P n 0 A).trans (bind_pure _)
  | succ i ih =>
    rw [scalarLoop_succ, funext ih, ← bind_assoc, scalarLoop_succ, Nat.testBit_div_two]

theorem bitLen_of_ne_zero {n : Nat} (hn : n ≠ 0) : bitLen n = bitLen (n / 2) + 1 := by
  rw [bitLen, if_neg hn, bitLen, Nat.log2_def]
  split
  · rw [if_neg (by omega)]
  · rw [if_pos (by omega)]

/-- The multiple by `n` is made from the multiple by `n / 2` by a doubling, and an addition of the point if
`n` is odd. -/
theorem pointMul_natCast (n : Nat) : pointMul F E P n =
    pointMul F E P (n / 2 : Nat) >>= doubleAndAdd (pointAdd F E) P (n.testBit 0) := by
  have hnat (m : Nat) : pointMul F E P m = scalarLoop (pointAdd F E) P m (bitLen m) .identity := by
    rw [pointMul, if_neg (by omega), Int.natAbs_natCast]
  rw [hnat, hnat]
  by_cases hn : n = 0
  · subst hn
    rfl
  · rw [bitLen_of_ne_zero hn, scalarLoop_succ_last]

/-- The multiple by `-n` is the multiple of the negated point by `n`. -/
theorem pointMul_neg (n : Nat) : pointMul F E P (-n) = pointMul F E (pointNeg F P) n := by
  rw [pointMul, pointMul, if_neg (by omega : ¬ (n : Int) < 0), Int.natAbs_neg, Int.natAbs_natCast]
  by_cases hn : n = 0
  · subst hn
    rfl
  · rw [if_pos (by omega)]

@[simp] theorem pointMul_zero : pointMul F E P 0 = .ok .identity := rfl

theorem pointMul_one : pointMul F E P 1 = .ok P := by
  rw [← Nat.cast_one, pointMul_natCast]
  rfl

theorem pointMul_neg_one : pointMul F E P (-1) = .ok (pointNeg F P) := by
  rw [← Nat.cast_one, pointMul_neg, Nat.cast_one, pointMul_one]

theorem pointMul_identity (n : Int) : pointMul F E .identity n = .ok .identity := by
  rw [pointMul, pointNeg, ite_self]
  exact scalarLoop_identity rfl _ _

theorem pointMul_double {n : Nat} {R D : Point α} (hR : pointMul F E P n = .ok R)
    (hD : pointAdd F E R R = .ok D) : pointMul F E P (2 * n) = .ok D := by
  have h := pointMul_natCast (F := F) (E := E) (P := P) (2 * n)
  rw [Nat.mul_div_cancel_left n two_pos, hR, bind_ok, doubleAndAdd, hD, bind_ok] at h
  simpa using h

theorem pointMul_double_add {n : Nat} {R D : Point α} (hR : pointMul F E P n = .ok R)
    (hD : pointAdd F E R R = .ok D) : pointMul F E P (2 * n + 1) = pointAdd F E D P := by
  have h := pointMul_natCast (F := F) (E := E) (P := P) (2 * n + 1)
  rw [show (2 * n + 1) / 2 = n by omega, hR, bind_ok, doubleAndAdd, hD, bind_ok] at h
  simpa using h

end Multiples

end Sys2Proof.Machine

namespace Sys2Proof.Claims

open Sys2Proof.Machine

/-- Settles O44: the three are functions of the point alone but for the curve equation, which needs no
inverse. -/
theorem ecPredicates : Obligations.EcPredicates := by
  unfold Obligations.EcPredicates
  intro s k rd r E P h hE hinv hr
  obtain ⟨hu, hP⟩ := reg_point h hr
  obtain ⟨b, hb, hbon⟩ := onCurve_answers h hu hinv (curve_elems h hE) hP
  have hzero := ecIsZero_answers (rd := rd) hE hr
  have hcurve := ecIsOnCurve_answers (rd := rd) hE hr
  have hneg := ecNeg_answers (rd := rd) hE hr
  rw [hb] at hcurve
  refine ⟨?_, fun hne => ?_, fun hon => ?_, fun hoff => ?_, ?_, ?_⟩
  · rintro rfl
    exact hzero.writes_iff.2 rfl
  · rw [Bool.eq_false_iff.2 (mt isIdentity_eq_true_iff.1 hne)] at hzero
    exact hzero.writes_iff.2 rfl
  · rw [hbon.2 hon] at hcurve
    exact hcurve.writes_iff.2 rfl
  · rw [Bool.eq_false_iff.2 (mt hbon.1 hoff)] at hcurve
    exact hcurve.writes_iff.2 rfl
  · rintro rfl
    exact hneg.writes_iff.2 rfl
  · rintro x y rfl
    obtain ⟨hok, hval⟩ := neg_elemOk_and_negative h hu hP.2
    exact ⟨_, hok, hval, hneg.writes_iff.2 rfl⟩

/-- Settles O46: EC.DBL is one computation with EC.ADD of its source with itself, so its cases over a field
are those of EC.ADD. -/
theorem ecDoubling : Obligations.EcDoubling := by
  unfold Obligations.EcDoubling
  have hagree (s : State) (k : Slot) (rd r : Reg) :=
    (ecAdd_self_answers (s := s) k rd r).agree (ecDbl_answers k rd r)
  refine ⟨fun s k rd r E P h hE ht hr => ?_, hagree⟩
  obtain ⟨hwrites, hfaults⟩ := hagree s k rd r
  obtain ⟨hid, -, hcases⟩ := ecAddition s k rd r r E P P h hE ht hr hr
  refine ⟨fun hP => ?_, fun x y hP => ?_⟩
  · subst hP
    exact (hwrites _).1 (hid rfl)
  · obtain ⟨-, -, htangent, hzero⟩ := hcases x y x y hP hP
    refine ⟨fun hy => ?_, fun hy => (hfaults _).1 (hzero rfl rfl hy)⟩
    obtain ⟨m, x3, y3, hx3, hy3, hf, hexec⟩ := htangent rfl rfl hy
    exact ⟨m, x3, y3, hx3, hy3, hf, (hwrites _).1 hexec⟩

/-- Settles O48: no round, one round, and rounds that add the identity to itself. -/
theorem ecSmallMultiples : Obligations.EcSmallMultiples := by
  unfold Obligations.EcSmallMultiples
  intro s k rd r1 r2 E P n h hE h1 h2
  have hend := ecSmul_answers (rd := rd) hE h1 h2
  refine ⟨?_, ?_, ?_⟩
  · rintro (rfl | rfl)
    · exact hend.writes_point_iff.2 (pointMul_identity n)
    · exact hend.writes_point_iff.2 pointMul_zero
  · rintro rfl
    exact hend.writes_point_iff.2 pointMul_one
  · rintro x y rfl rfl
    obtain ⟨hu, -, hy⟩ := reg_point h h1
    obtain ⟨hok, hval⟩ := neg_elemOk_and_negative h hu hy
    exact ⟨_, hok, hval, hend.writes_point_iff.2 pointMul_neg_one⟩

/-- Settles O49: the last round of the loop, and the negation before its first. -/
theorem ecDoubleAndAdd : Obligations.EcDoubleAndAdd := by
  unfold Obligations.EcDoubleAndAdd
  constructor
  · intro s k rd r1 r2 r3 r4 E P R D n hE h1 h2 h3 h4 hexec hD
    have hR := (ecSmul_answers hE h1 h2).writes_point_iff.1 hexec
    exact ⟨(ecSmul_answers hE h1 h3).writes_point_iff.2 (pointMul_double hR hD), fun S hS =>
      (ecSmul_answers hE h1 h4).writes_point_iff.2 ((pointMul_double_add hR hD).trans hS)⟩
  · intro s k rd r1 r2 r3 r4 n hneg h2 h4
    obtain ⟨E, P, hE, h1, h3⟩ := pointUnary_eq_ok.1
      ((show AnswersBy (.ecNeg k rd r1) s rd _ from rfl).writes_iff.1 hneg)
    have hleft := ecSmul_answers (rd := rd) hE h1 h2
    rw [pointMul_neg] at hleft
    exact hleft.agree (ecSmul_answers hE (Except.ok.inj h3).symm h4)

end Sys2Proof.Claims

namespace Sys2Proof.Machine

open Sys2Proof.Claims

variable {s : State}

/-! ### The subgroup checks (rules R262 to R264) -/

section Subgroup

variable {e : PairEnv} {rd r : Reg}

theorem subgrpG1_answers {P : Point Nat} (he : pairIs s e) (hr : s.reg r = .point0 P) :
    AnswersBy (.subgrpG1 rd r) s rd
      ((inSubgroup (s.field .l0) e.e0 e.pair.r P).map Value.bool) := by
  show execSubgrpG1 rd r s = _
  rw [execSubgrpG1, needPair_eq_ok.2 he, bind_ok, srcPoint_of_reg (k := .c0) hr, bind_ok,
    bind_ok_eq_map]

theorem subgrpG2_answers {Q : Point (List Nat)} (he : pairIs s e) (hr : s.reg r = .point1 Q) :
    AnswersBy (.subgrpG2 rd r) s rd
      ((inSubgroup (s.field .l1) e.e1 e.pair.r Q).map Value.bool) := by
  show execSubgrpG2 rd r s = _
  rw [execSubgrpG2, needPair_eq_ok.2 he, bind_ok, srcPoint_of_reg (k := .c1) hr, bind_ok,
    bind_ok_eq_map]

theorem AnswersBy.writes_bool {i : Instr} {b : Bool} {x : Except FaultCode Bool}
    (h : AnswersBy i s rd (x.map Value.bool)) (hx : x = .ok b) :
    exec i s = .next (Writes s rd (.bool b)) := by
  rw [h.writes_iff, hx]
  rfl

variable {k : Slot} {E : CurveCtx (Elem k.level)} {P R : Point (Elem k.level)} {n : Nat}
  (h : s.Inv) (hE : CurveElems (s.ElemOk k.level) E) (hu : s.usable k.level = true)
  (ht : s.FieldTower k.level) (hP : PointOk (s.ElemOk k.level) P)

include h hE hu ht hP

theorem completeMultiple_total : ∃ R, CompleteMultiple s k.level E.a P n R := by
  obtain ⟨R, hR⟩ := pointMulComplete_total h hE hu ht hP n
  exact ⟨R, (pointMulComplete_iff_completeMultiple h hu ht hE hP).1 hR⟩

theorem completeMultiple_of_identity (hid : P = .identity)
    (hR : CompleteMultiple s k.level E.a P n R) : R = .identity := by
  subst hid
  have hmul := (pointMulComplete_iff_completeMultiple h hu ht hE hP).2 hR
  rw [pointMulComplete, scalarLoop_identity rfl] at hmul
  exact (Except.ok.inj hmul).symm

/-- A point of the curve is a member where its multiple is the identity. -/
theorem member_iff_multiple (hon : OnCurve s k E P) (hR : CompleteMultiple s k.level E.a P n R) :
    Member s k E n P ↔ R = .identity := by
  constructor
  · rintro (hid | ⟨-, hkill⟩)
    · exact completeMultiple_of_identity h hE hu ht hP hid hR
    · exact completeMultiple_unique h hu ht hE hP hR hkill
  · rintro rfl
    exact .inr ⟨hon, hR⟩

theorem inSubgroup_off_curve (hoff : ¬ OnCurve s k E P) :
    inSubgroup (s.field k.level) E n P = .ok false := by
  obtain ⟨b, hb, hmem⟩ := inSubgroup_decides h hE hu ht hP n
  have hnot : ¬ Member s k E n P := by
    rintro (rfl | ⟨hon, -⟩)
    · exact hoff trivial
    · exact hoff hon
  rw [hb, Bool.eq_false_iff.2 (mt hmem.1 hnot)]

theorem inSubgroup_on_curve (hon : OnCurve s k E P) (hR : CompleteMultiple s k.level E.a P n R)
    [Decidable (R = .identity)] :
    inSubgroup (s.field k.level) E n P = .ok (decide (R = .identity)) := by
  obtain ⟨b, hb, hmem⟩ := inSubgroup_decides h hE hu ht hP n
  rw [hb, Bool.eq_iff_iff.2 (hmem.trans ((member_iff_multiple h hE hu ht hP hon hR).trans
    (decide_eq_true_iff (p := R = .identity)).symm))]

/-- A command that answers by `insub` completes for every point of its slot. -/
theorem subgroupCheck_outcome [DecidableEq (Point (Elem k.level))] {i : Instr}
    (hend : AnswersBy i s rd ((inSubgroup (s.field k.level) E n P).map Value.bool)) :
    (P = .identity → exec i s = .next (Writes s rd (.bool true))) ∧
      (¬ OnCurve s k E P → exec i s = .next (Writes s rd (.bool false))) ∧
      (OnCurve s k E P → (∃ R, CompleteMultiple s k.level E.a P n R) ∧
        ∀ R, CompleteMultiple s k.level E.a P n R →
          exec i s = .next (Writes s rd (.bool (decide (R = .identity))))) := by
  refine ⟨?_, fun hoff => ?_, fun hon => ⟨completeMultiple_total h hE hu ht hP, fun R hR => ?_⟩⟩
  · rintro rfl
    exact hend.writes_bool rfl
  · exact hend.writes_bool (inSubgroup_off_curve h hE hu ht hP hoff)
  · exact hend.writes_bool (inSubgroup_on_curve h hE hu ht hP hon hR)

end Subgroup

end Sys2Proof.Machine

namespace Sys2Proof.Claims

open Sys2Proof.Machine

/-- Settles O58: both checks are `insub` of rule R262 over the field of their slot. -/
theorem subgroupChecks : Obligations.SubgroupChecks := by
  unfold Obligations.SubgroupChecks
  constructor
  · intro s rd r e P h he ht hr
    have ⟨_, hcurve, _⟩ := he
    obtain ⟨hu, hP⟩ := reg_point (k := .c0) h hr
    exact subgroupCheck_outcome (k := .c0) h (curve_elems (k := .c0) h hcurve) hu ht hP
      (subgrpG1_answers he hr)
  · intro s rd r e Q h he ht hr
    have ⟨_, _, hcurve, _⟩ := he
    obtain ⟨hu, hQ⟩ := reg_point (k := .c1) h hr
    exact subgroupCheck_outcome (k := .c1) h (curve_elems (k := .c1) h hcurve) hu ht hQ
      (subgrpG2_answers he hr)

end Sys2Proof.Claims

/-! PROOFS. LINE and MILLER (45_line_miller.md): the cases of the line function (rule R230), and that the
Miller loop of a regular point has a value (rule R235): a line goes through two affine points wherever they
have a sum, so each round has one, and so have the final lines. -/

namespace Sys2Proof.Machine

open Sys2Proof.Claims

variable {s : State}

/-! ### The line function (rules R230, R231) -/

theorem inRing_and {l : Level} {P Q : (R : Type) → [CommRing R] → (Elem l → R) → Prop}
    (hP : s.InRing l P) (hQ : s.InRing l Q) : s.InRing l fun R _ φ => P R φ ∧ Q R φ := by
  cases l <;> exact ⟨hP, hQ⟩

theorem line_endsBy {k : Slot} {rd r1 r2 r3 : Reg} {E : CurveCtx (Elem k.level)}
    {P Q T : Point (Elem k.level)} (hE : s.curve k = some E) (h1 : s.reg r1 = .ofPoint k P)
    (h2 : s.reg r2 = .ofPoint k Q) (h3 : s.reg r3 = .ofPoint k T) :
    EndsBy (.line k rd r1 r2 r3) s rd k.level (lineValue (s.field k.level) E P Q T) := by
  refine endsBy_of_writeResult (show execLine k rd r1 r2 r3 s = _ from ?_)
  rw [execLine, needCurve_of_curve hE, bind_ok, srcPoint_of_reg h1, bind_ok, srcPoint_of_reg h2,
    bind_ok, srcPoint_of_reg h3, bind_ok]

theorem lineValue_of_identity {α : Type} {F : FieldOps α} {E : CurveCtx α} {P Q T : Point α}
    (hid : P = .identity ∨ Q = .identity ∨ T = .identity) :
    lineValue F E P Q T = .error .pointAtInfinity := by
  rcases hid with rfl | rfl | rfl
  · rfl
  · cases P <;> rfl
  · cases P <;> cases Q <;> rfl

section Lines

variable {l : Level} {E : CurveCtx (Elem l)} (h : s.Inv) (hu : s.usable l = true)
  (ht : s.FieldTower l) (hE : CurveElems (s.ElemOk l) E)

include h hu ht hE

/-- A slope is no tangent at `y = 0`, so the addition of rule R204 has failed at its slope there. -/
theorem slope_tangent_zero {x : Elem l} (hx : s.ElemOk l x) :
    slope (s.field l) E x (s.field l).zero x (s.field l).zero = .error .divisionByZero := by
  have hzero := (field_closed h hu).zero
  have hadd := pointAdd_tangent_zero h hu ht (E := E) hx
  cases hm : slope (s.field l) E x (s.field l).zero x (s.field l).zero with
  | error c =>
    rw [pointAdd, if_neg (mt (opposite_iff (field_exactEq s l) hx hzero hx hzero).1
      fun hopp => hopp.2 rfl), hm, bind_error] at hadd
    cases hadd
    rfl
  | ok m =>
    obtain ⟨-, hy, -⟩ :=
      (slope_iff_slopeIs h hu ht hE hx hzero hx hzero fun hopp => hopp.2 rfl).1 hm
    exact absurd rfl (hy rfl)

theorem lineValue_tangent_zero {x xT yT : Elem l} (hx : s.ElemOk l x) :
    lineValue (s.field l) E (.affine x (s.field l).zero) (.affine x (s.field l).zero)
      (.affine xT yT) = .error .divisionByZero := by
  have hzero := (field_closed h hu).zero
  rw [lineValue, if_neg (mt (opposite_iff (field_exactEq s l) hx hzero hx hzero).1
    fun hopp => hopp.2 rfl), slope_tangent_zero h hu ht hE hx, bind_error]

variable {x1 y1 x2 y2 xT yT : Elem l} (hP : PointOk (s.ElemOk l) (.affine x1 y1))
  (hQ : PointOk (s.ElemOk l) (.affine x2 y2)) (hT : PointOk (s.ElemOk l) (.affine xT yT))

include hP hQ hT

/-- Two affine points have a line, unless it is the tangent at `y = 0`. -/
theorem lineIs_total (hy : x1 = x2 → y1 = y2 → y1 ≠ zeroOf s l) :
    ∃ v, s.LineIs l E.a (.affine x1 y1) (.affine x2 y2) (.affine xT yT) v := by
  obtain ⟨R, _, φ, FL, -⟩ := fieldLevel_reads h hu ht
  obtain ⟨v, hv⟩ := FL.lineValue_total hE hP.1 hP.2 hQ.1 hQ.2 hT.1 (yT := yT) hy
  exact ⟨v, (lineValue_iff_lineIs h hu ht hE hP hQ hT).1 hv⟩

/-- Two affine points that have a sum have a line. -/
theorem lineIs_of_sumIs {S : Point (Elem l)}
    (hS : s.SumIs l E.a (.affine x1 y1) (.affine x2 y2) S) :
    ∃ v, s.LineIs l E.a (.affine x1 y1) (.affine x2 y2) (.affine xT yT) v := by
  refine lineIs_total h hu ht hE hP hQ hT fun hx hy => ?_
  obtain ⟨m, -, -, -, -, -, ⟨-, hne, -⟩, -⟩ := hS.2 fun hopp => hopp.2 hy
  exact hne hx

/-- The line through two points that are not each other's opposite: the tangent or the chord. -/
theorem lineValue_sloped (hne : ¬ (x1 = x2 ∧ y1 ≠ y2))
    (hy : x1 = x2 → y1 = y2 → y1 ≠ zeroOf s l) :
    ∃ m v, s.ElemOk l v ∧ (s.InRing l fun _ _ φ =>
      ((x1 = x2 → TangentSlope (φ E.a) (φ m) (φ x1) (φ y1)) ∧
        (x1 ≠ x2 → ChordSlope (φ m) (φ x1) (φ y1) (φ x2) (φ y2))) ∧
        φ v = φ yT - φ y1 - φ m * (φ xT - φ x1)) ∧
      lineValue (s.field l) E (.affine x1 y1) (.affine x2 y2) (.affine xT yT) = .ok v := by
  obtain ⟨v, hv⟩ := lineIs_total h hu ht hE hP hQ hT hy
  have ⟨hok, _, hslope⟩ := hv
  obtain ⟨m, ⟨-, -, hm⟩, hval⟩ := hslope hne
  exact ⟨m, v, hok, inRing_and hm hval, (lineValue_iff_lineIs h hu ht hE hP hQ hT).2 hv⟩

end Lines

/-! ### The Miller loop of a regular point (rules R234, R235) -/

section MillerLoop

variable {e : PairEnv}

theorem miller_endsBy {rd r1 r2 : Reg} {Q : Point (List Nat)} {P : Point Nat} (he : pairIs s e)
    (h1 : s.reg r1 = .point1 Q) (h2 : s.reg r2 = .point0 P) :
    EndsBy (.miller rd r1 r2) s rd .l2 (s.miller e Q P) := by
  refine endsBy_of_writeResult (show execMiller rd r1 r2 s = _ from ?_)
  rw [execMiller, needPair_eq_ok.2 he, bind_ok, srcPoint_of_reg (k := .c1) h1, bind_ok,
    srcPoint_of_reg (k := .c0) h2, bind_ok]

section Totality

variable {l : Level} (h : s.Inv) (hu : s.usable l = true) (ht : s.FieldTower l)

include h hu ht

theorem productIs_total {a b : Elem l} (ha : s.ElemOk l a) (hb : s.ElemOk l b) :
    ∃ c, s.ProductIs l a b c := by
  obtain ⟨R, _, φ, FL, -⟩ := fieldLevel_reads h hu ht
  obtain ⟨c, hc⟩ := FL.total a b ha hb
  exact ⟨c, (mul_iff_productIs h hu ht ha hb).1 hc⟩

theorem powerIs_total {b : Elem l} {n : Nat} (hb : s.ElemOk l b) (hn : 0 < n) :
    ∃ c, s.PowerIs l b n c := by
  obtain ⟨R, _, φ, FL, -⟩ := fieldLevel_reads h hu ht
  obtain ⟨c, hc⟩ := exp_pos_total (e := (n : Int)) FL.closed FL.total hb (by omega)
  exact ⟨c, (exp_iff_powerIs h hu ht hb hn).1 hc⟩

theorem frobeniusIs_total {x y : Elem l} (hP : PointOk (s.ElemOk l) (.affine x y)) (n : Nat) :
    ∃ x' y', s.FrobeniusIs l n (.affine x y) (.affine x' y') ∧
      PointOk (s.ElemOk l) (.affine x' y') := by
  have hp : 0 < s.p ^ n := Nat.pow_pos (by have := p_gt_two h (usable_l0 hu); omega)
  obtain ⟨x', hx⟩ := powerIs_total h hu ht hP.1 hp
  obtain ⟨y', hy⟩ := powerIs_total h hu ht hP.2 hp
  exact ⟨x', y', ⟨x', y', rfl, hx, hy⟩, hx.1, hy.1⟩

theorem sumIs_closed {E : CurveCtx (Elem l)} (hE : CurveElems (s.ElemOk l) E) {P Q S : Point (Elem l)}
    (hP : PointOk (s.ElemOk l) P) (hQ : PointOk (s.ElemOk l) Q) (hS : s.SumIs l E.a P Q S) :
    PointOk (s.ElemOk l) S :=
  pointAdd_closed (field_closed h hu) hE hP hQ ((pointAdd_iff_sumIs h hu ht hE hP hQ).2 hS)

end Totality

/-- Twice an affine point is affine: no point is its own opposite by the test of rule R204. -/
theorem double_affine {l : Level} {a x y : Elem l} {D : Point (Elem l)}
    (hD : s.SumIs l a (.affine x y) (.affine x y) D) : ∃ x' y', D = .affine x' y' := by
  obtain ⟨-, x', y', hD, -⟩ := hD.2 fun hopp => hopp.2 rfl
  exact ⟨x', y', hD⟩

section Regular

variable (h : s.Inv) (he : pairIs s e) (ht : s.FieldTower .l2) {xP yP Qx Qy Nx Ny : Elem .l2}
  (hPe : PointOk (s.ElemOk .l2) (.affine xP yP))

include h he ht

/-- The untwist map answers on every point (rule R258). -/
theorem untwist_total {Q : Point (List Nat)} (hQ : PointOk (s.ElemOk .l1) Q) :
    ∃ R, s.untwist e.tw Q = .ok R := by
  have hnp := needPair_eq_ok.2 he
  obtain ⟨hu, -, -, -, htw⟩ := pairEnv_ok h hnp
  cases Q with
  | identity => exact ⟨.identity, rfl⟩
  | affine x y =>
    obtain ⟨x', hx⟩ := productIs_total h hu ht (up2_closed h hu hQ.1) htw.2.1
    obtain ⟨y', hy⟩ := productIs_total h hu ht (up2_closed h hu hQ.2) htw.2.2.1
    exact ⟨.affine x' y', (untwist_iff_untwistIs h hnp ht hQ).2 ⟨x', y', rfl, hx, hy⟩⟩

/-- The loop is not entered when either point is the identity (rule R235). -/
theorem miller_of_identity {Q : Point (List Nat)} {P : Point Nat} (hQ : PointOk (s.ElemOk .l1) Q)
    (hid : Q = .identity ∨ P = .identity) : s.miller e Q P = .error .pointAtInfinity := by
  obtain ⟨R, hR⟩ := untwist_total h he ht hQ
  have htest : (R.isIdentity || (s.embed P).isIdentity) = true := by
    rcases hid with rfl | rfl
    · cases hR
      rfl
    · exact Bool.or_true _
  rw [State.miller, hR, bind_ok]
  exact if_pos htest

include hPe

/-- Where two affine points have a sum, the loop can multiply in their line and go on to the sum. -/
theorem timesLine_of_sumIs {x1 y1 x2 y2 : Elem .l2} {f : Elem .l2} {S : Point (Elem .l2)}
    (hf : s.ElemOk .l2 f) (hR : PointOk (s.ElemOk .l2) (.affine x1 y1))
    (hT : PointOk (s.ElemOk .l2) (.affine x2 y2))
    (hS : s.SumIs .l2 e.e2.a (.affine x1 y1) (.affine x2 y2) S) :
    ∃ g, TimesLine s e (.affine xP yP) (.affine x2 y2) f (.affine x1 y1) g S ∧ s.ElemOk .l2 g ∧
      PointOk (s.ElemOk .l2) S := by
  obtain ⟨hu, -, -, hE, -⟩ := pairEnv_ok h (needPair_eq_ok.2 he)
  obtain ⟨v, hv⟩ := lineIs_of_sumIs h hu ht hE hR hT hPe hS
  obtain ⟨g, hg⟩ := productIs_total h hu ht hf hv.1
  exact ⟨g, ⟨v, hv, hg, hS⟩, hg.1, sumIs_closed h hu ht hE hR hT hS⟩

/-- The rounds of a regular loop lead to a point from which the post-loop step is regular. -/
theorem rounds_of_loopRegular (hQe : PointOk (s.ElemOk .l2) (.affine Qx Qy))
    (hnQ : PointOk (s.ElemOk .l2) (.affine Nx Ny)) (i : Nat) {f : Elem .l2} {R : Point (Elem .l2)}
    (hf : s.ElemOk .l2 f) (hR : PointOk (s.ElemOk .l2) R)
    (hreg : LoopRegular s e (.affine Qx Qy) (.affine Nx Ny) i R) :
    ∃ g S, Rounds s e (.affine xP yP) (.affine Qx Qy) (.affine Nx Ny) i f R g S ∧ s.ElemOk .l2 g ∧
      PointOk (s.ElemOk .l2) S ∧ LoopRegular s e (.affine Qx Qy) (.affine Nx Ny) 0 S := by
  have hu := (pairEnv_ok h (needPair_eq_ok.2 he)).1
  induction i generalizing f R with
  | zero => exact ⟨f, R, ⟨rfl, rfl⟩, hf, hR, hreg⟩
  | succ i ih =>
    obtain ⟨x, y, D, rfl, -, hD, hzero, hone, hminus⟩ := hreg
    obtain ⟨ff, hff⟩ := productIs_total h hu ht hf hf
    obtain ⟨f1, hdouble, hf1, hDok⟩ := timesLine_of_sumIs h he ht hPe hff.1 hR hR hD
    obtain ⟨xD, yD, rfl⟩ := double_affine hD
    rcases loopDigit_cases e.pair i with hd | hd | hd
    · obtain ⟨g, S, hrounds, hend⟩ := ih hf1 hDok (hzero hd)
      exact ⟨g, S, ⟨ff, f1, _, hff, hdouble, fun _ => hrounds, by simp [hd], by simp [hd]⟩, hend⟩
    · obtain ⟨T, hT, hnext⟩ := hone hd
      obtain ⟨f2, hadd, hf2, hTok⟩ := timesLine_of_sumIs h he ht hPe hf1 hDok hQe hT
      obtain ⟨g, S, hrounds, hend⟩ := ih hf2 hTok hnext
      exact ⟨g, S, ⟨ff, f1, _, hff, hdouble, by simp [hd], fun _ => ⟨f2, T, hadd, hrounds⟩,
        by simp [hd]⟩, hend⟩
    · obtain ⟨T, hT, hnext⟩ := hminus hd
      obtain ⟨f2, hadd, hf2, hTok⟩ := timesLine_of_sumIs h he ht hPe hf1 hDok hnQ hT
      obtain ⟨g, S, hrounds, hend⟩ := ih hf2 hTok hnext
      exact ⟨g, S, ⟨ff, f1, _, hff, hdouble, by simp [hd], by simp [hd],
        fun _ => ⟨f2, T, hadd, hrounds⟩⟩, hend⟩

/-- The post-loop step has a value at the end of a regular loop. -/
theorem postStep_of_loopRegular {nQ R : Point (Elem .l2)} {f : Elem .l2}
    (hQe : PointOk (s.ElemOk .l2) (.affine Qx Qy)) (hf : s.ElemOk .l2 f)
    (hR : PointOk (s.ElemOk .l2) R) (hreg : LoopRegular s e (.affine Qx Qy) nQ 0 R) :
    ∃ g, PostStep s e (.affine xP yP) (.affine Qx Qy) f R g := by
  obtain ⟨hu, -, -, hE, -⟩ := pairEnv_ok h (needPair_eq_ok.2 he)
  cases hpost : e.pair.post with
  | plain =>
    simp only [PostStep, hpost]
    exact ⟨f, rfl⟩
  | twoLines =>
    obtain ⟨x, y, x', y', Q1, rfl, -, hQ1, hsum, hy'⟩ := hreg hpost
    have ⟨X1, Y1, hQ1eq, hX1, hY1⟩ := hQ1
    subst hQ1eq
    obtain ⟨X2, Y2, hF2, hF2ok⟩ := frobeniusIs_total h hu ht hQe 2
    obtain ⟨hnegok, hneg⟩ := neg_elemOk_and_negative h hu hF2ok.2
    obtain ⟨f1, hadd, hf1, hR1⟩ := timesLine_of_sumIs h he ht hPe hf hR ⟨hX1.1, hY1.1⟩ hsum
    obtain ⟨v, hv⟩ := lineIs_total h hu ht hE hR1 ⟨hF2ok.1, hnegok⟩ hPe fun _ _ => hy'
    obtain ⟨g, hg⟩ := productIs_total h hu ht hf1 hv.1
    simp only [PostStep, hpost]
    exact ⟨g, _, _, _, f1, _, v, hQ1, hF2, ⟨_, rfl, hnegok, hneg⟩, hadd, hv, hg⟩
  | conjugate =>
    simp only [PostStep, hpost]
    have hp := p_gt_two h (usable_l0 hu)
    exact powerIs_total h hu ht hf (Nat.pow_pos (by omega))

omit hPe

/-- A regular point has a Miller value with every affine point of slot 0 (rule R235). -/
theorem millerIs_of_regular {Q : Point (List Nat)} {P : Point Nat} (hP : PointOk (s.ElemOk .l0) P)
    (hne : P ≠ .identity) (hreg : MillerRegular s e Q) : ∃ f, MillerIs s e Q P f := by
  have hu := (pairEnv_ok h (needPair_eq_ok.2 he)).1
  obtain ⟨Qx, Qy, nQ, hQe, -, hnQ, hloop⟩ := hreg
  have hQeok : PointOk (s.ElemOk .l2) (.affine Qx Qy) := by
    cases Q with
    | identity => cases hQe
    | affine x y =>
      obtain ⟨x', y', heq, hx, hy⟩ := hQe
      cases heq
      exact ⟨hx.1, hy.1⟩
  have ⟨Ny, hnQeq, hNy, _⟩ := hnQ
  subst hnQeq
  cases P with
  | identity => exact absurd rfl hne
  | affine x y =>
    have hPe := embed_closed h hu hP
    have hone := (field_closed h hu).one
    obtain ⟨g, S, hrounds, hg, hS, hlast⟩ :=
      rounds_of_loopRegular h he ht hPe hQeok ⟨hQeok.1, hNy⟩ _ hone hQeok hloop
    obtain ⟨f, hf⟩ := postStep_of_loopRegular h he ht hPe hQeok hg hS hlast
    exact ⟨f, x, y, Qx, Qy, _, g, S, rfl, hQe, hnQ, hrounds, hf⟩

end Regular

end MillerLoop

end Sys2Proof.Machine

namespace Sys2Proof.Claims

open Sys2Proof.Machine

/-- Settles O51: the line function is the line of rule R230 wherever there is one; the tangent at `y = 0`
fails at its slope. -/
theorem lineResult : Obligations.LineResult := by
  unfold Obligations.LineResult
  intro s k rd r1 r2 r3 E P Q T h hE ht h1 h2 h3
  have hend := line_endsBy (rd := rd) hE h1 h2 h3
  obtain ⟨hu, hP⟩ := reg_point h h1
  obtain ⟨-, hQ⟩ := reg_point h h2
  obtain ⟨-, hT⟩ := reg_point h h3
  have hEok := curve_elems h hE
  refine ⟨fun hid => hend.faults _ (lineValue_of_identity hid), ?_⟩
  rintro x1 y1 x2 y2 xT yT rfl rfl rfl
  refine ⟨fun hx hy => ?_, fun hx => ?_, fun hx hy hz => ?_, ?_⟩
  · obtain ⟨v, hv⟩ := lineIs_total h hu ht hEok hP hQ hT fun _ hyy => absurd hyy hy
    exact ⟨v, hv.1, hv.2.1 ⟨hx, hy⟩,
      hend.writes v ((lineValue_iff_lineIs h hu ht hEok hP hQ hT).2 hv)⟩
  · obtain ⟨m, v, hok, hf, hv⟩ := lineValue_sloped h hu ht hEok hP hQ hT (fun hopp => hx hopp.1)
      fun hxx => absurd hxx hx
    exact ⟨m, v, hok, inRing_mono (fun _ _ _ ⟨⟨_, hchord⟩, hval⟩ => ⟨hchord hx, hval⟩) hf,
      hend.writes v hv⟩
  · obtain ⟨m, v, hok, hf, hv⟩ := lineValue_sloped h hu ht hEok hP hQ hT (fun hopp => hopp.2 hy)
      fun _ _ => hz
    exact ⟨m, v, hok, inRing_mono (fun _ _ _ ⟨⟨htan, _⟩, hval⟩ => ⟨htan hx, hval⟩) hf,
      hend.writes v hv⟩
  · rintro rfl rfl rfl
    exact hend.faults _ (lineValue_tangent_zero h hu ht hEok hP.1)

/-- Settles O52: `miller` answers exactly the Miller values, and the rounds of a regular loop and its final
lines have one. -/
theorem millerOutcome : Obligations.MillerOutcome := by
  unfold Obligations.MillerOutcome
  intro s rd r1 r2 e Q P h he ht h1 h2
  have hend := miller_endsBy (rd := rd) he h1 h2
  obtain ⟨-, hQ⟩ := reg_point (k := .c1) h h1
  obtain ⟨-, hP⟩ := reg_point (k := .c0) h h2
  refine ⟨fun hid => hend.faults _ (miller_of_identity h he ht hQ hid), fun f hf => ?_,
    fun hne hreg => millerIs_of_regular h he ht hP hne hreg⟩
  exact hend.writes f ((miller_iff_millerIs h (needPair_eq_ok.2 he) ht hQ hP).2 hf)

end Sys2Proof.Claims

/-! PROOFS. Powers, twist maps and pairings (46_finalexp_subgroup_pairing.md). Powers and products
complete where the moduli's leading coefficients are invertible (rules R250 to R258); over fields TWIST
answers exactly the points whose untwist is given (rules R258, R260); PAIR is its two subgroup checks and,
behind them, a Miller value raised to the final power (rule R265), and PAIRCHK the product of such results
(rule R267). -/

namespace Sys2Proof.Machine

open Sys2Proof.Claims

variable {s : State}

/-! ### Products and powers without a field (rules R170, R173, R254) -/

section InvertibleModuli

variable {l : Level} (h : s.Inv) (hu : s.usable l = true) (hinv : s.ModuliInvertible l)

include h hu hinv

theorem mul_productIs {a b : Elem l} (ha : s.ElemOk l a) (hb : s.ElemOk l b) :
    ∃ c, (s.field l).mul a b = .ok c ∧ s.ProductIs l a b c := by
  obtain ⟨c, hc⟩ := field_mulTotal h hu hinv a b ha hb
  exact ⟨c, hc, mul_elemOk_and_product h hu ha hb hc⟩

/-- `exp` answers the power by every natural number but in the case `0^0`. -/
theorem exp_powerIs {b : Elem l} {n : Nat} (hb : s.ElemOk l b) (hne : n = 0 → b ≠ zeroOf s l) :
    ∃ c, (s.field l).exp b n = .ok c ∧ s.PowerIs l b n c := by
  have hF := field_closed h hu
  have hdefined : ¬ ((s.field l).isZero b = true ∧ (n : Int) = 0) := by
    rintro ⟨hz, hn⟩
    exact hne (by omega) (((field_exactEq s l).isZero b hb).1 hz)
  obtain ⟨c, hc⟩ := exp_nonneg_total hF (field_mulTotal h hu hinv) hb hdefined (by omega)
  exact ⟨c, hc, exp_closed hF hb hc, inRing h hu fun _ _ _ hR =>
    exp_nonneg_represents hF hR hb (by omega) hc⟩

/-- The exponents of FROB, CONJ and EC.FROB are positive, so none of the three is a case `0^0`. -/
theorem exp_p_pow_powerIs {b : Elem l} (hb : s.ElemOk l b) (n : Nat) :
    ∃ c, (s.field l).exp b ((s.p ^ n : Nat) : Int) = .ok c ∧ s.PowerIs l b (s.p ^ n) c := by
  have hp := p_gt_two h (usable_l0 hu)
  have hpos : 0 < s.p ^ n := Nat.pow_pos (by omega)
  exact exp_powerIs h hu hinv hb (by omega)

end InvertibleModuli

/-- At level 0 the Frobenius map is the identity, by Fermat's little theorem. -/
theorem frobenius_l0 (h : s.Inv) (hu : s.usable .l0 = true) (hp : s.p.Prime) {a : Nat}
    (ha : s.ElemOk .l0 a) (n : Nat) : frobenius (s.field .l0) s.p a n = .ok a := by
  obtain ⟨c, hc, hcok, hval⟩ := exp_p_pow_powerIs h hu trivial ha n
  have hprime : Fact s.p.Prime := ⟨hp⟩
  have hsame : s.val0 c = s.val0 a := (show s.val0 c = s.val0 a ^ s.p ^ n from hval).trans
    (ZMod.pow_card_pow _)
  rw [frobenius, hc, val0_sep s c a hcok ha hsame]

theorem frob_endsBy {l : Level} {n : FrobPow} {rd r : Reg} {a : Elem l} (hu : s.usable l = true)
    (hr : s.reg r = .ofElem l a) :
    EndsBy (.frob l n rd r) s rd l (frobenius (s.field l) s.p a n.toNat) :=
  endsBy_elemUnary (f := fun F b => frobenius F s.p b n.toNat) rfl hu hr

theorem conj_endsBy {rd r : Reg} {f : List (List Nat)} (hu : s.usable .l2 = true)
    (hr : s.reg r = .elem2 f) : EndsBy (.conj rd r) s rd .l2
      (require (decide (s.embedDegree % 2 = 0)) .badParameter >>= fun _ => s.conjugate f) :=
  endsBy_elemUnary (l := .l2) (f := fun _ g =>
    require (decide (s.embedDegree % 2 = 0)) .badParameter >>= fun _ => s.conjugate g) rfl hu hr

theorem finalexp_endsBy {rd r : Reg} {e : PairEnv} {f : List (List Nat)} (he : pairIs s e)
    (hr : s.reg r = .elem2 f) : EndsBy (.finalexp rd r) s rd .l2 (s.finalExp e f) := by
  refine endsBy_of_writeResult (show execFinalexp rd r s = _ from ?_)
  rw [execFinalexp, needPair_eq_ok.2 he, bind_ok, srcElem_of_reg (l := .l2) hr, bind_ok]

/-- The final exponentiation of an element other than zero (rule R254). -/
theorem finalExp_powerIs (h : s.Inv) (hu : s.usable .l2 = true) (hinv : s.ModuliInvertible .l2)
    {e : PairEnv} {f : Elem .l2} (hf : s.ElemOk .l2 f) (hne : f ≠ zeros2 s) :
    ∃ g, s.finalExp e f = .ok g ∧
      s.PowerIs .l2 f ((s.p ^ s.embedDegree - 1) / e.pair.r) g := by
  rw [State.finalExp, if_neg (mt ((field_exactEq s .l2).isZero f hf).1 hne)]
  exact exp_powerIs h hu hinv hf fun _ => hne

theorem finalExp_zero {e : PairEnv} {f : Elem .l2} (hf : s.ElemOk .l2 f) (hz : f = zeros2 s) :
    s.finalExp e f = .error .divisionByZero := by
  rw [State.finalExp, if_pos (((field_exactEq s .l2).isZero f hf).2 hz)]

/-! ### Points under the Frobenius and untwist maps (rules R257 to R259) -/

theorem ecFrob_answers {k : Slot} {n : FrobPow} {rd r : Reg} {E : CurveCtx (Elem k.level)}
    {P : Point (Elem k.level)} (hE : s.curve k = some E) (hr : s.reg r = .ofPoint k P) :
    AnswersBy (.ecFrob k n rd r) s rd
      ((frobPoint (s.field k.level) s.p P n.toNat).map (Value.ofPoint k)) := by
  show execEcFrob k n rd r s = _
  rw [execEcFrob, pointUnary_of_reg hE hr]

theorem frobPoint_powerIs (h : s.Inv) {l : Level} (hu : s.usable l = true)
    (hinv : s.ModuliInvertible l) {x y : Elem l} (hP : PointOk (s.ElemOk l) (.affine x y)) (n : Nat) :
    ∃ x' y', frobPoint (s.field l) s.p (.affine x y) n = .ok (.affine x' y') ∧
      s.PowerIs l x (s.p ^ n) x' ∧ s.PowerIs l y (s.p ^ n) y' := by
  obtain ⟨x', hx, hxpow⟩ := exp_p_pow_powerIs h hu hinv hP.1 n
  obtain ⟨y', hy, hypow⟩ := exp_p_pow_powerIs h hu hinv hP.2 n
  refine ⟨x', y', ?_, hxpow, hypow⟩
  rw [frobPoint, frobenius, hx, bind_ok, frobenius, hy, bind_ok]

theorem untwist_productIs (h : s.Inv) {tw : TwistCtx} (htw : s.TwistOk tw)
    (hinv : s.ModuliInvertible .l2) {x y : Elem .l1} (hQ : PointOk (s.ElemOk .l1) (.affine x y)) :
    ∃ x' y', s.untwist tw (.affine x y) = .ok (.affine x' y') ∧
      s.ProductIs .l2 (s.up2 x) tw.ux x' ∧ s.ProductIs .l2 (s.up2 y) tw.uy y' := by
  obtain ⟨hu, hux, huy, -⟩ := htw
  obtain ⟨x', hx, hxmul⟩ := mul_productIs h hu hinv (up2_closed h hu hQ.1) hux
  obtain ⟨y', hy, hymul⟩ := mul_productIs h hu hinv (up2_closed h hu hQ.2) huy
  refine ⟨x', y', ?_, hxmul, hymul⟩
  rw [State.untwist, hx, bind_ok, hy, bind_ok]

theorem untwist_answers {rd r : Reg} {tw : TwistCtx} {Q : Point (List Nat)}
    (htw : s.twist = some tw) (hr : s.reg r = .point1 Q) :
    AnswersBy (.untwist rd r) s rd ((s.untwist tw Q).map (Value.ofPoint .c2)) := by
  show execUntwist rd r s = _
  rw [execUntwist, htw, needContext_some, bind_ok, srcPoint_of_reg (k := .c1) hr, bind_ok,
    bind_ok_eq_map]

theorem twist_answers {rd r : Reg} {tw : TwistCtx} {P : Point (List (List Nat))}
    (htw : s.twist = some tw) (hr : s.reg r = .point2 P) :
    AnswersBy (.twist rd r) s rd ((s.twistBack tw P).map (Value.ofPoint .c1)) := by
  show execTwist rd r s = _
  rw [execTwist, htw, needContext_some, bind_ok, srcPoint_of_reg (k := .c2) hr, bind_ok,
    bind_ok_eq_map]

end Sys2Proof.Machine

namespace Sys2Proof.Claims

open Sys2Proof.Machine

/-- Settles O53: FROB and CONJ are powers by positive exponents; at level 0 the power is the element. -/
theorem frobeniusPowers : Obligations.FrobeniusPowers := by
  unfold Obligations.FrobeniusPowers
  refine ⟨fun s l n rd r a h hu hinv hr => ?_, fun s n rd r a h hu hp hr => ?_,
    fun s rd r f h hu hinv hr => ⟨fun heven => ?_, fun hodd => ?_⟩⟩
  · obtain ⟨c, hc, hok, hval⟩ := exp_p_pow_powerIs h hu hinv (reg_elem h hr).2 n.toNat
    exact ⟨c, hok, hval, (frob_endsBy hu hr).writes c hc⟩
  · have ha := (reg_elem (l := .l0) h hr).2
    exact (frob_endsBy (l := .l0) hu hr).writes a (frobenius_l0 h hu hp ha n.toNat)
  · obtain ⟨c, hc, hok, hval⟩ :=
      exp_p_pow_powerIs h hu hinv (reg_elem (l := .l2) h hr).2 (s.embedDegree / 2)
    have hend := conj_endsBy (rd := rd) hu hr
    rw [decide_eq_true heven, require_true, bind_ok] at hend
    exact ⟨c, hok, hval, hend.writes c hc⟩
  · have hend := conj_endsBy (rd := rd) hu hr
    rw [decide_eq_false (by omega), require_false, bind_error] at hend
    exact hend.faults _ rfl

/-- Settles O54: EC.FROB raises the two coordinates one after the other. -/
theorem ecFrobenius : Obligations.EcFrobenius := by
  unfold Obligations.EcFrobenius
  intro s k n rd r E P h hE hinv hr
  have hend := ecFrob_answers (n := n) (rd := rd) hE hr
  obtain ⟨hu, hP⟩ := reg_point h hr
  constructor
  · rintro rfl
    exact hend.writes_point_iff.2 rfl
  · rintro x y rfl
    obtain ⟨x', y', hfrob, ⟨hxok, hxval⟩, hyok, hyval⟩ := frobPoint_powerIs h hu hinv hP n.toNat
    exact ⟨x', y', hxok, hyok, inRing_and hxval hyval, hend.writes_point_iff.2 hfrob⟩

/-- Settles O55: FINALEXP tests for zero and raises to the power. -/
theorem finalExponentiation : Obligations.FinalExponentiation := by
  unfold Obligations.FinalExponentiation
  intro s rd r e f h he hinv hr
  have hend := finalexp_endsBy (rd := rd) he hr
  obtain ⟨hu, hf⟩ := reg_elem (l := .l2) h hr
  refine ⟨fun hne => ?_, fun hz => hend.faults _ (finalExp_zero hf hz)⟩
  obtain ⟨c, hc, hok, hval⟩ := finalExp_powerIs h hu hinv (e := e) hf hne
  exact ⟨c, hok, hval, hend.writes c hc⟩

/-- Settles O56: UNTWIST multiplies the two lifted coordinates one after the other. -/
theorem untwistResult : Obligations.UntwistResult := by
  unfold Obligations.UntwistResult
  intro s rd r tw Q h htw hinv hr
  have hend := untwist_answers (rd := rd) htw hr
  obtain ⟨-, hQ⟩ := reg_point (k := .c1) h hr
  constructor
  · rintro rfl
    exact hend.writes_point_iff.2 rfl
  · rintro x y rfl
    obtain ⟨x', y', hmul, ⟨hxok, hxval⟩, hyok, hyval⟩ :=
      untwist_productIs h (h.twist tw htw) hinv hQ
    exact ⟨x', y', hxok, hyok, inRing_and hxval hyval, hend.writes_point_iff.2 hmul⟩

end Sys2Proof.Claims

namespace Sys2Proof.Machine

open Sys2Proof.Claims

variable {s : State}

/-! ### TWIST inverts UNTWIST (rules R258, R260) -/

/-- The elements of an extension with zeros above index 0 are the lifts of their coefficients at index 0
(rule R192). -/
theorem tail_isZero_iff_extLift {α : Type} {F : FieldOps α} {ok : α → Prop} (hE : ExactEq F ok)
    {m a : List α} (hd : 1 ≤ m.length - 1) (ha : ExtOk ok (m.length - 1) a) :
    a.tail.all F.isZero = true ↔ a = extLift F m (a.getD 0 F.zero) := by
  obtain ⟨hlen, hok⟩ := ha
  cases a with
  | nil => simp only [List.length_nil] at hlen; omega
  | cons x xs =>
    have hxs : xs.length = m.length - 1 - 1 := by simp only [List.length_cons] at hlen; omega
    have hzero : (∀ y ∈ xs, F.isZero y = true) ↔ ∀ y ∈ xs, y = F.zero :=
      forall₂_congr fun y hy => hE.isZero y (hok y (List.mem_cons_of_mem x hy))
    simp [extLift, List.eq_replicate_iff, List.all_eq_true, hzero, hxs]

theorem tail_isZero_iff_up2 (h : s.Inv) (hu : s.usable .l2 = true) {a : Elem .l2}
    (ha : s.ElemOk .l2 a) :
    a.tail.all (s.field .l1).isZero = true ↔ a = s.up2 (a.getD 0 (s.field .l1).zero) :=
  tail_isZero_iff_extLift (field_exactEq s .l1) (modulus2 h hu).2.1 ha

theorem up2_getD_zero (x z : Elem .l1) : (s.up2 x).getD 0 z = x := rfl

/-- Over a field, division by an element other than zero undoes multiplication (rules R170, R172). -/
theorem div_iff_mul (h : s.Inv) {l : Level} (hu : s.usable l = true) (ht : s.FieldTower l)
    {a b c : Elem l} (ha : s.ElemOk l a) (hb : s.ElemOk l b) (hc : s.ElemOk l c)
    (hz : (s.field l).isZero b = false) :
    (s.field l).div c b = .ok a ↔ (s.field l).mul a b = .ok c := by
  obtain ⟨R, _, φ, FL, -⟩ := fieldLevel_reads h hu ht
  have := FL.domain
  have hbz : φ b ≠ 0 := (FL.ne_zero_iff hb).1 ((isZero_eq_false_iff hb).1 hz)
  constructor
  · intro hdiv
    obtain ⟨d, hd⟩ := FL.total a b ha hb
    have hval : φ d = φ c := (FL.represents.mul _ _ _ ha hb hd).trans
      (div_represents FL.closed FL.represents hc hb hdiv)
    rw [hd, FL.separates _ _ (FL.closed.mul _ _ _ ha hb hd) hc hval]
  · intro hmul
    obtain ⟨q, hq⟩ := FL.div_total hc hb hbz
    have hval : φ q * φ b = φ a * φ b :=
      (div_represents FL.closed FL.represents hc hb hq).trans (FL.represents.mul _ _ _ ha hb hmul)
    rw [hq, FL.separates _ _ (div_closed FL.closed hc hb hq) ha (mul_right_cancel₀ hbz hval)]

section FieldTower

variable (h : s.Inv) (hu : s.usable .l2 = true) (ht : s.FieldTower .l2)

include h hu ht

/-- TWIST's two quotients exist, and it answers or faults by whether both are lifted. -/
theorem twistBack_affine {tw : TwistCtx} (htw : s.TwistOk tw) {X Y : Elem .l2}
    (hP : PointOk (s.ElemOk .l2) (.affine X Y)) :
    ∃ x y, s.ElemOk .l2 x ∧ s.ElemOk .l2 y ∧ (s.field .l2).mul x tw.ux = .ok X ∧
      (s.field .l2).mul y tw.uy = .ok Y ∧ s.twistBack tw (.affine X Y) =
        if x.tail.all (s.field .l1).isZero && y.tail.all (s.field .l1).isZero then
          .ok (.affine (x.getD 0 (s.field .l1).zero) (y.getD 0 (s.field .l1).zero))
        else .error .operandRange := by
  have FL := (fieldLevel2 h hu ht).1
  obtain ⟨-, hux, huy, hzx, hzy⟩ := htw
  have hquot {c b : Elem .l2} (hc : s.ElemOk .l2 c) (hb : s.ElemOk .l2 b)
      (hz : (s.field .l2).isZero b = false) : ∃ q, s.ElemOk .l2 q ∧
        (s.field .l2).mul q b = .ok c ∧ (s.field .l2).div c b = .ok q := by
    obtain ⟨q, hq⟩ := FL.div_total hc hb ((FL.ne_zero_iff hb).1 ((isZero_eq_false_iff hb).1 hz))
    have hqok := div_closed FL.closed hc hb hq
    exact ⟨q, hqok, (div_iff_mul h hu ht hqok hb hc hz).1 hq, hq⟩
  obtain ⟨x, hxok, hxmul, hx⟩ := hquot hP.1 hux hzx
  obtain ⟨y, hyok, hymul, hy⟩ := hquot hP.2 huy hzy
  refine ⟨x, y, hxok, hyok, hxmul, hymul, ?_⟩
  rw [State.twistBack, hx, bind_ok, hy, bind_ok]

/-- TWIST gives back every point from its untwist. -/
theorem twistBack_of_untwist {tw : TwistCtx} (htw : s.TwistOk tw) {x y : Elem .l1}
    {P : Point (Elem .l2)} (hQ : PointOk (s.ElemOk .l1) (.affine x y))
    (hP : s.untwist tw (.affine x y) = .ok P) : s.twistBack tw P = .ok (.affine x y) := by
  have hF := field_closed h hu
  have hx2 := up2_closed h hu hQ.1
  have hy2 := up2_closed h hu hQ.2
  have ⟨_, hux, huy, hzx, hzy⟩ := htw
  simp only [State.untwist, bind_eq_ok, Except.ok.injEq] at hP
  obtain ⟨X, hX, Y, hY, rfl⟩ := hP
  have hxdiv := (div_iff_mul h hu ht hx2 hux (hF.mul _ _ _ hx2 hux hX) hzx).2 hX
  have hydiv := (div_iff_mul h hu ht hy2 huy (hF.mul _ _ _ hy2 huy hY) hzy).2 hY
  have hlift : ((s.up2 x).tail.all (s.field .l1).isZero &&
      (s.up2 y).tail.all (s.field .l1).isZero) = true := by
    rw [(tail_isZero_iff_up2 h hu hx2).2 rfl, (tail_isZero_iff_up2 h hu hy2).2 rfl, Bool.and_self]
  rw [State.twistBack, hxdiv, bind_ok, hydiv, bind_ok, if_pos hlift, up2_getD_zero, up2_getD_zero]

/-- TWIST answers points it is the untwist of, and its one fault is OperandRange. -/
theorem twistBack_untwist_or_range {tw : TwistCtx} (htw : s.TwistOk tw) {X Y : Elem .l2}
    (hP : PointOk (s.ElemOk .l2) (.affine X Y)) :
    (∃ x y, s.ElemOk .l1 x ∧ s.ElemOk .l1 y ∧
      s.untwist tw (.affine x y) = .ok (.affine X Y)) ∨
      s.twistBack tw (.affine X Y) = .error .operandRange := by
  obtain ⟨x, y, hxok, hyok, hX, hY, htwist⟩ := twistBack_affine h hu ht htw hP
  split at htwist
  · next hlift =>
    obtain ⟨hx, hy⟩ := Bool.and_eq_true_iff.1 hlift
    have hzero := (field_closed h (usable_l1 hu)).zero
    rw [(tail_isZero_iff_up2 h hu hxok).1 hx] at hX
    rw [(tail_isZero_iff_up2 h hu hyok).1 hy] at hY
    refine .inl ⟨_, _, getD_closed hzero hxok.2 0, getD_closed hzero hyok.2 0, ?_⟩
    rw [State.untwist, hX, bind_ok, hY, bind_ok]
  · exact .inr htwist

end FieldTower

end Sys2Proof.Machine

namespace Sys2Proof.Claims

open Sys2Proof.Machine

/-- Settles O57: over a field the quotients of the coordinates by UX and UY are the only candidates, and a
point is an untwist exactly where both are lifted from level 1. -/
theorem twistInvertsUntwist : Obligations.TwistInvertsUntwist := by
  unfold Obligations.TwistInvertsUntwist
  intro s rd r tw P h htw ht hr
  have hend := twist_answers (rd := rd) htw hr
  obtain ⟨hu, hP⟩ := reg_point (k := .c2) h hr
  have htwok := h.twist tw htw
  refine ⟨?_, fun x y hx hy huntwist => ?_, fun hne hnone => ?_⟩
  · rintro rfl
    exact hend.writes_point_iff.2 rfl
  · exact hend.writes_point_iff.2 (twistBack_of_untwist h hu ht htwok ⟨hx, hy⟩ huntwist)
  · cases P with
    | identity => exact absurd rfl hne
    | affine X Y =>
      rcases twistBack_untwist_or_range h hu ht htwok hP with ⟨x, y, hx, hy, huntwist⟩ | hrange
      · exact absurd huntwist (hnone x y hx hy)
      · exact hend.faults_of_map hrange

end Sys2Proof.Claims

namespace Sys2Proof.Machine

open Sys2Proof.Claims

variable {s : State} {e : PairEnv}

/-! ### The pairing (rules R265, R266) -/

theorem pair_endsBy {rd r1 r2 : Reg} {P : Point Nat} {Q : Point (List Nat)} (he : pairIs s e)
    (h1 : s.reg r1 = .point0 P) (h2 : s.reg r2 = .point1 Q) :
    EndsBy (.pair rd r1 r2) s rd .l2 (s.pairing e P Q) := by
  refine endsBy_of_writeResult (show execPair rd r1 r2 s = _ from ?_)
  rw [execPair, needPair_eq_ok.2 he, bind_ok, srcPoint_of_reg (k := .c0) h1, bind_ok,
    srcPoint_of_reg (k := .c1) h2, bind_ok]

/-- A pairing checks both points, then gives one beside an identity and the final power of the Miller
value otherwise: `insub` is true of the identity, so the checks that rule R265 leaves out would change
nothing. -/
theorem pairing_of_checks {P : Point Nat} {Q : Point (List Nat)} {inG1 inG2 : Bool}
    (h1 : inSubgroup (s.field .l0) e.e0 e.pair.r P = .ok inG1)
    (h2 : inSubgroup (s.field .l1) e.e1 e.pair.r Q = .ok inG2) :
    s.pairing e P Q =
      if inG1 && inG2 then
        if P.isIdentity || Q.isIdentity then .ok (s.field .l2).one
        else s.miller e Q P >>= s.finalExp e
      else .error .invalidSubgroupMembership := by
  cases P with
  | identity =>
    cases h1
    cases Q with
    | identity =>
      cases h2
      rfl
    | affine x y =>
      simp only [State.pairing, h2]
      cases inG2 <;> rfl
  | affine xP yP =>
    cases Q with
    | identity =>
      cases h2
      simp only [State.pairing, h1]
      cases inG1 <;> rfl
    | affine x y =>
      simp only [State.pairing, h1, h2]
      cases inG1 <;> cases inG2 <;> rfl

theorem pairing_of_identity {P : Point Nat} {Q : Point (List Nat)}
    (h1 : inSubgroup (s.field .l0) e.e0 e.pair.r P = .ok true)
    (h2 : inSubgroup (s.field .l1) e.e1 e.pair.r Q = .ok true) (hid : P = .identity ∨ Q = .identity) :
    s.pairing e P Q = .ok (s.field .l2).one := by
  have htest : (P.isIdentity || Q.isIdentity) = true :=
    Bool.or_eq_true_iff.2 (hid.imp isIdentity_eq_true_iff.2 isIdentity_eq_true_iff.2)
  rw [pairing_of_checks h1 h2, Bool.and_self, if_pos rfl, if_pos htest]

section OverFields

variable (h : s.Inv) (he : pairIs s e) (ht : s.FieldTower .l2) {P : Point Nat}
  {Q : Point (List Nat)}

include h he ht

theorem inSubgroup0_decides (hP : PointOk (s.ElemOk .l0) P) :
    ∃ b, inSubgroup (s.field .l0) e.e0 e.pair.r P = .ok b ∧
      (b = true ↔ Member s .c0 e.e0 e.pair.r P) := by
  obtain ⟨hu, hE0, -⟩ := pairEnv_ok h (needPair_eq_ok.2 he)
  exact inSubgroup_decides (k := .c0) h hE0 (usable_l0 hu) ht.1 hP e.pair.r

theorem inSubgroup1_decides (hQ : PointOk (s.ElemOk .l1) Q) :
    ∃ b, inSubgroup (s.field .l1) e.e1 e.pair.r Q = .ok b ∧
      (b = true ↔ Member s .c1 e.e1 e.pair.r Q) := by
  obtain ⟨hu, -, hE1, -⟩ := pairEnv_ok h (needPair_eq_ok.2 he)
  obtain ⟨hp, hm1, -⟩ := ht
  exact inSubgroup_decides (k := .c1) h hE1 (usable_l1 hu) ⟨hp, hm1⟩ hQ e.pair.r

variable (hP : PointOk (s.ElemOk .l0) P) (hQ : PointOk (s.ElemOk .l1) Q)

include hP hQ

theorem pairing_of_not_member
    (hnot : ¬ Member s .c0 e.e0 e.pair.r P ∨ ¬ Member s .c1 e.e1 e.pair.r Q) :
    s.pairing e P Q = .error .invalidSubgroupMembership := by
  obtain ⟨b0, h0, hmem0⟩ := inSubgroup0_decides h he ht hP
  obtain ⟨b1, h1, hmem1⟩ := inSubgroup1_decides h he ht hQ
  have hfails : ¬ (b0 && b1) = true := by
    rw [Bool.and_eq_true, hmem0, hmem1]
    tauto
  rw [pairing_of_checks h0 h1, if_neg hfails]

variable (hmemP : Member s .c0 e.e0 e.pair.r P) (hmemQ : Member s .c1 e.e1 e.pair.r Q)

include hmemP hmemQ

theorem inSubgroup_of_members : inSubgroup (s.field .l0) e.e0 e.pair.r P = .ok true ∧
    inSubgroup (s.field .l1) e.e1 e.pair.r Q = .ok true := by
  obtain ⟨b0, h0, hiff0⟩ := inSubgroup0_decides h he ht hP
  obtain ⟨b1, h1, hiff1⟩ := inSubgroup1_decides h he ht hQ
  exact ⟨h0.trans (congrArg _ (hiff0.2 hmemP)), h1.trans (congrArg _ (hiff1.2 hmemQ))⟩

/-- Members that have a Miller value are not the identity, so the final exponentiation is reached. -/
theorem pairing_of_millerIs {f : List (List Nat)} (hf : MillerIs s e Q P f) :
    s.pairing e P Q = s.finalExp e f := by
  obtain ⟨h0, h1⟩ := inSubgroup_of_members h he ht hP hQ hmemP hmemQ
  have hmiller := (miller_iff_millerIs h (needPair_eq_ok.2 he) ht hQ hP).2 hf
  have htest : ¬ (P.isIdentity || Q.isIdentity) = true := by
    rw [Bool.or_eq_true, isIdentity_eq_true_iff, isIdentity_eq_true_iff]
    intro hid
    rw [miller_of_identity h he ht hQ hid.symm] at hmiller
    cases hmiller
  rw [pairing_of_checks h0 h1, Bool.and_self, if_pos rfl, if_neg htest, hmiller, bind_ok]

end OverFields

end Sys2Proof.Machine

namespace Sys2Proof.Claims

open Sys2Proof.Machine

/-- Settles O59: PAIR is its two checks, one beside an identity, and the final exponentiation of the Miller
value otherwise. -/
theorem pairOutcome : Obligations.PairOutcome := by
  unfold Obligations.PairOutcome
  intro s rd r1 r2 e P Q h he ht h1 h2
  have hend := pair_endsBy (rd := rd) he h1 h2
  obtain ⟨-, hP⟩ := reg_point (k := .c0) h h1
  obtain ⟨-, hQ⟩ := reg_point (k := .c1) h h2
  refine ⟨fun hnot => hend.faults _ (pairing_of_not_member h he ht hP hQ hnot),
    fun hmemP hmemQ => ⟨fun hid => ?_, fun f hf => ?_⟩⟩
  · obtain ⟨h0, h1⟩ := inSubgroup_of_members h he ht hP hQ hmemP hmemQ
    exact hend.writes _ (pairing_of_identity h0 h1 hid)
  · have hnp := needPair_eq_ok.2 he
    have hu := (pairEnv_ok h hnp).1
    have hinv := (fieldLevel h hu ht).1
    have hfok := miller_closed h hnp hQ hP ((miller_iff_millerIs h hnp ht hQ hP).2 hf)
    rw [pairing_of_millerIs h he ht hP hQ hmemP hmemQ hf] at hend
    refine ⟨fun hne => ?_, fun hz => hend.faults _ (finalExp_zero hfok hz)⟩
    obtain ⟨g, hg, hpow⟩ := finalExp_powerIs h hu hinv (e := e) hfok hne
    exact ⟨g, hpow, hend.writes g hg⟩

end Sys2Proof.Claims

namespace Sys2Proof.Machine

open Sys2Proof.Claims

variable {s : State} {e : PairEnv}

/-! ### Products of pairings (rule R267) -/

/-- What PAIR writes is the pairing of the points it read. -/
theorem pairing_of_pair_writes {rd r1 r2 : Reg} {g : List (List Nat)} (he : pairIs s e)
    (hexec : exec (.pair rd r1 r2) s = .next (Writes s rd (.elem2 g))) :
    ∃ P Q, s.reg r1 = .point0 P ∧ s.reg r2 = .point1 Q ∧ s.pairing e P Q = .ok g := by
  have hg := (show AnswersBy (.pair rd r1 r2) s rd _ from rfl).writes_iff.1 hexec
  simp only [needPair_eq_ok.2 he, bind_ok, bind_eq_ok] at hg
  obtain ⟨P, hP, Q, hQ, g', hg', hval⟩ := hg
  cases hval
  exact ⟨P, Q, srcPoint_eq_ok.1 hP, srcPoint_eq_ok.1 hQ, hg'⟩

theorem regRun_eq_map_finRange (first : Reg) (n : BitVec 5) :
    regRun first n =
      (List.finRange n.toNat).map fun i : Fin n.toNat => first + BitVec.ofNat 5 i := by
  rw [regRun, ← List.map_coe_finRange_eq_range, List.map_map]
  rfl

theorem srcPoint_regRun {k : Slot} {first : Reg} {n : BitVec 5}
    {P : Fin n.toNat → Point (Elem k.level)}
    (hP : ∀ i : Fin n.toNat, s.reg (first + BitVec.ofNat 5 i) = .ofPoint k (P i)) :
    (regRun first n).mapM (s.srcPoint k) = .ok ((List.finRange n.toNat).map P) := by
  rw [regRun_eq_map_finRange, mapM_eq_ok, List.forall₂_map_left_iff, List.forall₂_map_right_iff,
    List.forall₂_same]
  exact fun i _ => srcPoint_of_reg (hP i)

theorem pairchk_answers {rd r1 r2 : Reg} {n : BitVec 5} {P : Fin n.toNat → Point Nat}
    {Q : Fin n.toNat → Point (List Nat)} (he : pairIs s e) (hfit : RunsFit r1 r2 n)
    (hP : ∀ i : Fin n.toNat, s.reg (r1 + BitVec.ofNat 5 i) = .point0 (P i))
    (hQ : ∀ i : Fin n.toNat, s.reg (r2 + BitVec.ofNat 5 i) = .point1 (Q i)) :
    AnswersBy (.pairchk rd r1 r2 n) s rd
      ((s.pairProduct e ((List.finRange n.toNat).map fun i => (P i, Q i)) (s.field .l2).one).map
        fun acc => .bool ((s.field .l2).eq acc (s.field .l2).one)) := by
  show execPairchk rd r1 r2 n s = _
  rw [execPairchk, decide_eq_true hfit, require_true, bind_ok, needPair_eq_ok.2 he, bind_ok,
    srcPoint_regRun (k := .c0) hP, bind_ok, srcPoint_regRun (k := .c1) hQ, bind_ok, bind_ok_eq_map,
    List.zip_map']

section Product

variable (h : s.Inv) (hu : s.usable .l2 = true) (hinv : s.ModuliInvertible .l2)

include h hu hinv

/-- Pairings that all complete have a product, which multiplies them onto the one it starts from. -/
theorem pairProduct_eq_prod {ι : Type} {P : ι → Point Nat} {Q : ι → Point (List Nat)}
    {g : ι → Elem .l2} (hg : ∀ i, s.ElemOk .l2 (g i))
    (hpair : ∀ i, s.pairing e (P i) (Q i) = .ok (g i)) (l : List ι) {acc : Elem .l2}
    (hacc : s.ElemOk .l2 acc) :
    ∃ c, s.pairProduct e (l.map fun i => (P i, Q i)) acc = .ok c ∧ s.ElemOk .l2 c ∧
      s.InRing .l2 fun _ _ φ => φ c = φ acc * ((l.map g).map φ).prod := by
  induction l generalizing acc with
  | nil => exact ⟨acc, rfl, hacc, inRing h hu fun _ _ _ _ => by simp⟩
  | cons i l ih =>
    obtain ⟨m, hm, hmok, hmval⟩ := mul_productIs h hu hinv hacc (hg i)
    obtain ⟨c, hc, hcok, hcval⟩ := ih hmok
    refine ⟨c, ?_, hcok, ?_⟩
    · rw [List.map_cons, State.pairProduct, hpair i, bind_ok, hm, bind_ok, hc]
    · refine inRing_mono (fun _ _ φ ⟨hmφ, hcφ⟩ => ?_) (inRing_and hmval hcval)
      rw [hcφ, hmφ, List.map_cons, List.map_cons, List.prod_cons, mul_assoc]

/-- An element is one exactly where it reads as one. -/
theorem eq_one_iff {c : Elem .l2} (hc : s.ElemOk .l2 c) :
    s.InRing .l2 fun _ _ φ => (s.field .l2).eq c (s.field .l2).one = true ↔ φ c = 1 := by
  have hone := (field_closed h hu).one
  refine inRing_sep h hu hinv fun _ _ φ hR hS => ?_
  rw [(field_exactEq s .l2).eq c _ hc hone, ← hR.one]
  exact ⟨congrArg φ, hS c _ hc hone⟩

variable {rd r1 r2 : Reg} {n : BitVec 5} {P : Fin n.toNat → Point Nat}
  {Q : Fin n.toNat → Point (List Nat)} {g : Fin n.toNat → Elem .l2}

/-- PAIRCHK over runs whose pairings all complete writes whether their product is one. -/
theorem pairchk_writes (he : pairIs s e) (hfit : RunsFit r1 r2 n)
    (hP : ∀ i : Fin n.toNat, s.reg (r1 + BitVec.ofNat 5 i) = .point0 (P i))
    (hQ : ∀ i : Fin n.toNat, s.reg (r2 + BitVec.ofNat 5 i) = .point1 (Q i))
    (hpair : ∀ i, s.pairing e (P i) (Q i) = .ok (g i)) :
    ∃ b, s.InRing .l2 (fun _ _ φ => b = true ↔ ((List.ofFn g).map φ).prod = 1) ∧
      exec (.pairchk rd r1 r2 n) s = .next (Writes s rd (.bool b)) := by
  have hg (i : Fin n.toNat) : s.ElemOk .l2 (g i) :=
    pairing_closed h (needPair_eq_ok.2 he) (reg_point (k := .c0) h (hP i)).2
      (reg_point (k := .c1) h (hQ i)).2 (hpair i)
  obtain ⟨c, hc, hcok, hval⟩ := pairProduct_eq_prod h hu hinv hg hpair (List.finRange n.toNat)
    (field_closed h hu).one
  have hstart : s.InRing .l2 fun _ _ φ => φ (s.field .l2).one = 1 :=
    inRing h hu fun _ _ _ hR => hR.one
  have hwrites : exec (.pairchk rd r1 r2 n) s =
      .next (Writes s rd (.bool ((s.field .l2).eq c (s.field .l2).one))) := by
    rw [(pairchk_answers he hfit hP hQ).writes_iff, hc]
    rfl
  refine ⟨_, inRing_mono (fun _ _ φ ⟨hiff, hone, hprod⟩ => ?_)
    (inRing_and (eq_one_iff h hu hinv hcok) (inRing_and hstart hval)), hwrites⟩
  rw [hiff, hprod, hone, one_mul, List.ofFn_eq_map]

end Product

end Sys2Proof.Machine

namespace Sys2Proof.Claims

open Sys2Proof.Machine

/-- Settles O60: PAIRCHK multiplies the pairings PAIR would write; beside an identity each of them is one. -/
theorem pairchkProduct : Obligations.PairchkProduct := by
  unfold Obligations.PairchkProduct
  constructor
  · intro s rd r1 r2 n e g h he hinv hfit hexec
    have hu := (pairEnv_ok h (needPair_eq_ok.2 he)).1
    choose P Q hP hQ hpair using fun i => pairing_of_pair_writes he (hexec i)
    obtain ⟨b, hb, hwrites⟩ := pairchk_writes (rd := rd) h hu hinv he hfit hP hQ hpair
    refine ⟨b, hb, ?_, hwrites⟩
    rintro rfl
    exact inRing_mp (inRing_mono (fun _ _ _ hiff _ => hiff.2 rfl) hb)
      (inRing h hu fun _ _ _ hR => hR.one)
  · intro s rd r1 r2 n e h he hinv hfit hruns
    have hu := (pairEnv_ok h (needPair_eq_ok.2 he)).1
    choose P Q hP hQ hid h0 h1 using hruns
    obtain ⟨b, hb, hwrites⟩ := pairchk_writes (rd := rd) h hu hinv he hfit hP hQ
      fun i => pairing_of_identity (h0 i) (h1 i) (hid i)
    have hone : s.InRing .l2 fun _ _ φ =>
        ((List.ofFn fun _ : Fin n.toNat => (s.field .l2).one).map φ).prod = 1 :=
      inRing h hu fun _ _ _ hR => by simp [hR.one]
    rwa [inRing_mp (inRing_mono (fun _ _ _ hiff => hiff.2) hb) hone] at hwrites

end Sys2Proof.Claims

/-! PROOFS. The engine without a word to accept (60_exceptions.md): the FAULT state, which takes no
command (rule R313), and the idle port (rule R319). -/

namespace Sys2Proof.Machine

variable {s : State} {c : FaultCode}

/-! ### Steps that accept no word (rules R313, R319) -/

theorem fetch_of_fault (hmode : s.mode = .fault c) : s.fetch = none := by
  rw [State.fetch, hmode]

theorem fetch_of_idle (hmode : s.mode = .ready) (hcmd : s.cmd = []) : s.fetch = none := by
  rw [State.fetch, hmode, hcmd]
  rfl

theorem step_of_fetch_none (hfetch : s.fetch = none) : step s = .next s := by
  rw [step, hfetch]
  rfl

theorem pushCommand_of_fault (hmode : s.mode = .fault c) (w : CmdWord) : s.pushCommand w = s := by
  rw [State.pushCommand, hmode]

end Sys2Proof.Machine

namespace Sys2Proof.Claims

open Sys2Proof.Machine

/-- Settles O8: neither in the FAULT state nor on an idle port is there a word to fetch. -/
theorem faultAndIdleHold : Obligations.FaultAndIdleHold := by
  unfold Obligations.FaultAndIdleHold
  constructor
  · intro s c hmode
    exact ⟨step_of_fetch_none (fetch_of_fault hmode), pushCommand_of_fault hmode⟩
  · intro s hmode hcmd
    exact step_of_fetch_none (fetch_of_idle hmode hcmd)

end Sys2Proof.Claims
